-- ==== Sys2Proof/Word.lean ====
section
/-! DEFINITION. The word types of the VSDSP4: what the spec treats as bit patterns (spec/00_scope.md R6, R7;
spec/10_state.md R20). -/

namespace Sys2Proof

/-- A guard register (R22) or one byte of a memory cell list. -/
abbrev Byte := BitVec 8

/-- A 16-bit register, a data memory word, an index address (R20, R61). -/
abbrev Word := BitVec 16

/-- The 32-bit multiplier result `P`, an instruction word, a long X address or a full instruction address
(R25, R62, R63, R90). -/
abbrev Word32 := BitVec 32

/-- A 40-bit accumulator, guard : high : low (R23). -/
abbrev Word40 := BitVec 40

end Sys2Proof
end

