-- ==== Sys2Proof/Syntax.lean ====
section
/-! DEFINITION. The instructions of the VSDSP4 as syntax: the operand codings of spec/30_encoding.md and ONE inductive
`Instr` with a constructor for every mnemonic of spec/opcode_table.json. -/

namespace Sys2Proof

/-- The four 40-bit accumulators (R23). -/
inductive AccName where
  | a | b | c | d
  deriving DecidableEq, Repr

/-- The eight 16-bit arithmetic registers, in the order of Tables 6 and 9 (R21, R109, R111). -/
inductive Reg16 where
  | a0 | a1 | b0 | b1 | c0 | c1 | d0 | d1
  deriving DecidableEq, Repr

/-- The eight index registers (R27). -/
inductive IReg where
  | i0 | i1 | i2 | i3 | i4 | i5 | i6 | i7
  deriving DecidableEq, Repr

/-- The registers a move can name, Table 10 (R113). -/
inductive MoveReg where
  | r16 (r : Reg16)
  | lr0
  | lr1
  | mr0
  | null
  | lc
  | ls
  | le
  | idx (n : IReg)
  | guard (q : AccName)
  /-- the pseudo-register of a Move NOP, "no updates" (R227) -/
  | nop
  | ipr0
  | ipr1
  deriving DecidableEq, Repr

/-- ALU operand codes, Table 4 (R106). -/
inductive AluSrc where
  | r16 (r : Reg16)
  | null
  | ones
  | p
  | acc (q : AccName)
  deriving DecidableEq, Repr

/-- ALU result codes, Table 5, in the column of the operation's result width (R107). -/
inductive AluDst where
  | r16 (r : Reg16)
  | acc (q : AccName)
  deriving DecidableEq, Repr

/-- Multiplier modes, Table 7: signedness of operand 1, then of operand 2 (R109). -/
inductive MulMode where
  | ss | su | us | uu
  deriving DecidableEq, Repr

/-- The jump conditions of Table 1 (R118). -/
inductive Cond where
  | always | cs | es | vs | ns | zs | lt | le | cc | ec | vc | nc | zc | ge | gt
  deriving DecidableEq, Repr

/-- The two data buses. -/
inductive Bus where
  | x | y
  deriving DecidableEq, Repr

/-- The address mode `mm` of JMPI (R101). -/
inductive JmpiMod where
  | keep | inc | dec
  deriving DecidableEq, Repr

/-- A full move field: store or load, address register, post-modification `pppp`, data register (R110). -/
structure FullMove where
  store : Bool
  n : IReg
  p : BitVec 4
  reg : MoveReg
  deriving DecidableEq, Repr

/-- A short move field (R111). -/
structure ShortMove where
  store : Bool
  n : IReg
  star : Bool
  reg : Reg16
  deriving DecidableEq, Repr

/-- The full move a short move abbreviates: `s rrr p000 000RRR` (R111). -/
def ShortMove.toFull (m : ShortMove) : FullMove :=
  ⟨m.store, m.n, if m.star then 8#4 else 0#4, .r16 m.reg⟩

/-- The parallel move field, bits 16..0 of an arithmetic instruction (R112). `none` is a full move of the Move NOP
register, canonical bits 0x00024 (R122). -/
inductive ParMove where
  | none
  | full (bus : Bus) (m : FullMove)
  | short (x y : ShortMove)
  | reg (src dst : MoveReg)
  | longX (store : Bool) (n : IReg) (reg : MoveReg)
  | ibus (store : Bool) (n : IReg) (p : BitVec 4) (q : AccName)
  deriving DecidableEq, Repr

/-- Why a word is a reserved encoding: one name for each entry of the list of R120. -/
inductive ReservedWhy where
  /-- opcode 1110 (R93) -/
  | opcode
  /-- control codes 0011, 1100, 1110, 1111 (R95) -/
  | controlCode
  /-- single-operand codes 1000..1101 (R180) -/
  | singleCode
  /-- ALU operand code 1010 (R106) -/
  | aluOperand
  /-- P as operand 1 (R106) -/
  | pAsOp1
  /-- a 40-bit register as operand 2 of ASHL (R153) -/
  | wideShiftCount
  /-- an even result code in a 40-bit operation (R107); also a term whose result is not of the operation's width -/
  | resultCode
  /-- a move register code not in Table 10 (R113) -/
  | moveRegister
  /-- JMPI with mm = 10 (R101) -/
  | jmpiMode
  /-- a parallel move pattern not in R112 -/
  | parallelMove
  /-- a condition code not in Table 1 (R118) -/
  | condition
  deriving DecidableEq, Repr

/-- The instructions, one constructor for every mnemonic of spec/opcode_table.json. `pm` is the parallel move.
The constructors of the last two groups have no words of their own: see `Instr.core` in Sys2Proof/Decode.lean. -/
inductive Instr where
  -- constant load and control instructions (R94 to R103)
  | ldc (c : Word) (r : MoveReg)
  | jrcc (cond : Cond)
  | jrccIn (n : IReg) (cond : Cond)
  | reti
  | retiIn (n : IReg)
  | resp (op1 op2 : Reg16)
  | loop (cnt : MoveReg) (endAddr : Word)
  | jcc (addr : Word) (cond : Cond)
  | callcc (addr : Word) (cond : Cond)
  | jmpi (addr : Word) (mm : JmpiMod) (n : IReg)
  | mvxMvyDouble (xs xd ys yd : MoveReg)
  | halt
  -- double full move (R104); a half that is a Move NOP is `none`
  | doubleFull (x y : Option FullMove)
  -- two-operand ALU (R105)
  | add (op1 op2 : AluSrc) (dst : AluDst) (pm : ParMove)
  | sub (op1 op2 : AluSrc) (dst : AluDst) (pm : ParMove)
  | addc (op1 op2 : AluSrc) (dst : AluDst) (pm : ParMove)
  | subc (op1 op2 : AluSrc) (dst : AluDst) (pm : ParMove)
  | ashl (op1 op2 : AluSrc) (dst : AluDst) (pm : ParMove)
  | and (op1 op2 : AluSrc) (dst : AluDst) (pm : ParMove)
  | or (op1 op2 : AluSrc) (dst : AluDst) (pm : ParMove)
  | xor (op1 op2 : AluSrc) (dst : AluDst) (pm : ParMove)
  -- multiplier (R109)
  | mac (op1 : Reg16) (mode : MulMode) (op2 : Reg16) (q : AccName) (pm : ParMove)
  | msu (op1 : Reg16) (mode : MulMode) (op2 : Reg16) (q : AccName) (pm : ParMove)
  | mul (mode : MulMode) (op1 op2 : Reg16) (pm : ParMove)
  -- single-operand ALU (R108)
  | abs (op2 : AluSrc) (dst : AluDst) (pm : ParMove)
  | asr (op2 : AluSrc) (dst : AluDst) (pm : ParMove)
  | lsr (op2 : AluSrc) (dst : AluDst) (pm : ParMove)
  | lsrc (op2 : AluSrc) (dst : AluDst) (pm : ParMove)
  | exp (op2 : AluSrc) (dst : Reg16) (pm : ParMove)
  | sat (op2 : AluSrc) (dst : AccName) (pm : ParMove)
  | rnd (op2 : AluSrc) (dst : Reg16) (pm : ParMove)
  -- the arithmetic NOP alone, and the moves that stand alone under its opcode (R122, R176)
  | nop
  | ldxFull (n : IReg) (p : BitVec 4) (r : MoveReg)
  | stxFull (n : IReg) (p : BitVec 4) (r : MoveReg)
  | ldyFull (n : IReg) (p : BitVec 4) (r : MoveReg)
  | styFull (n : IReg) (p : BitVec 4) (r : MoveReg)
  | twoShort (x y : ShortMove)
  | mvxParallel (src dst : MoveReg)
  | ldxLong (n : IReg) (r : MoveReg)
  | stxLong (n : IReg) (r : MoveReg)
  | ldi (n : IReg) (p : BitVec 4) (q : AccName)
  | sti (n : IReg) (p : BitVec 4) (q : AccName)
  -- second names of words of the instructions above (R127, R156, R191, R268)
  | mulss (op1 op2 : Reg16) (pm : ParMove)
  | mulsu (op1 op2 : Reg16) (pm : ParMove)
  | mulus (op1 op2 : Reg16) (pm : ParMove)
  | muluu (op1 op2 : Reg16) (pm : ParMove)
  | lsl (op : AluSrc) (dst : AluDst) (pm : ParMove)
  | lslc (op : AluSrc) (dst : AluDst) (pm : ParMove)
  | not (op2 : AluSrc) (dst : AluDst) (pm : ParMove)
  | addNullP (q : AccName) (pm : ParMove)
  | j (addr : Word)
  | call (addr : Word)
  | jr
  | nopTotal
  -- the reserved words (R120)
  | reserved (why : ReservedWhy) (w : Word32)
  deriving DecidableEq, Repr

/-- Whether an ALU operand code names a 40-bit register (R140). -/
def AluSrc.is40 : AluSrc → Bool
  | .p => true
  | .acc _ => true
  | .r16 _ => false
  | .null => false
  | .ones => false

/-- Whether a result is written to a 40-bit register. -/
def AluDst.is40 : AluDst → Bool
  | .acc _ => true
  | .r16 _ => false

end Sys2Proof
end

