-- ==== Sys2Proof/WellFormed.lean ====
section
/-! DEFINITION. Which terms of `Instr` an encoding exists for (spec/30_encoding.md R105 to R120). The codings of
Syntax.lean already leave out reserved register, operand and condition codes; what is left are checks over more than
one field. -/

namespace Sys2Proof

/-- A full move names a data register; a full move of the Move NOP register is written `ParMove.none` (R122 (c)). -/
def FullMove.wf (m : FullMove) : Bool := m.reg != .nop

def ParMove.wf : ParMove → Bool
  | .none => true
  | .full _ m => m.wf
  | .short _ _ => true
  | .reg _ _ => true
  | .longX _ _ _ => true
  | .ibus _ _ _ _ => true

/-- The result field is read in the column of the operation's width (R107, R142). -/
def resultFits (wide : Bool) (dst : AluDst) : Bool := dst.is40 == wide

/-- A two-operand ALU instruction other than ASHL: P is operand 2 only (R106), the width follows R140. -/
def wfTwo (op1 op2 : AluSrc) (dst : AluDst) (pm : ParMove) : Bool :=
  op1 != .p && resultFits (op1.is40 || op2.is40) dst && pm.wf

/-- ASHL: operand 2 is always a 16-bit register, the width is that of operand 1 (R153). -/
def wfShift (op1 op2 : AluSrc) (dst : AluDst) (pm : ParMove) : Bool :=
  op1 != .p && !op2.is40 && resultFits op1.is40 dst && pm.wf

/-- A single-operand ALU instruction whose result has the operand's width (R170). -/
def wfOne (op2 : AluSrc) (dst : AluDst) (pm : ParMove) : Bool :=
  resultFits op2.is40 dst && pm.wf

/-- The count register of LOOP is one of the codes 0..31 (R99). -/
def MoveReg.loopCount : MoveReg → Bool
  | .guard _ => false
  | .nop => false
  | .ipr0 => false
  | .ipr1 => false
  | _ => true

/-- One half of a double full move (R104): `none` stands for a Move NOP. -/
def wfHalf : Option FullMove → Bool
  | none => true
  | some m => m.wf

/-- The instructions that an encoding exists for. A reserved word is not a well-formed instruction (R120). -/
def Instr.wf : Instr → Bool
  | .ldc _ _ => true
  | .jrcc _ => true
  | .jrccIn _ _ => true
  | .reti => true
  | .retiIn _ => true
  | .resp _ _ => true
  | .loop cnt _ => cnt.loopCount
  | .jcc _ _ => true
  | .callcc _ _ => true
  | .jmpi _ _ _ => true
  | .mvxMvyDouble _ _ _ _ => true
  | .halt => true
  | .doubleFull x y => wfHalf x && wfHalf y
  | .add op1 op2 dst pm => wfTwo op1 op2 dst pm
  | .sub op1 op2 dst pm => wfTwo op1 op2 dst pm
  | .addc op1 op2 dst pm => wfTwo op1 op2 dst pm
  | .subc op1 op2 dst pm => wfTwo op1 op2 dst pm
  | .ashl op1 op2 dst pm => wfShift op1 op2 dst pm
  | .and op1 op2 dst pm => wfTwo op1 op2 dst pm
  | .or op1 op2 dst pm => wfTwo op1 op2 dst pm
  | .xor op1 op2 dst pm => wfTwo op1 op2 dst pm
  | .mac _ _ _ _ pm => pm.wf
  | .msu _ _ _ _ pm => pm.wf
  | .mul _ _ _ pm => pm.wf
  | .abs op2 dst pm => wfOne op2 dst pm
  | .asr op2 dst pm => wfOne op2 dst pm
  | .lsr op2 dst pm => wfOne op2 dst pm
  | .lsrc op2 dst pm => wfOne op2 dst pm
  | .exp _ _ pm => pm.wf
  | .sat _ _ pm => pm.wf
  | .rnd _ _ pm => pm.wf
  | .nop => true
  | .ldxFull _ _ r => r != .nop
  | .stxFull _ _ r => r != .nop
  | .ldyFull _ _ r => r != .nop
  | .styFull _ _ r => r != .nop
  | .twoShort _ _ => true
  | .mvxParallel _ _ => true
  | .ldxLong _ _ => true
  | .stxLong _ _ => true
  | .ldi _ _ _ => true
  | .sti _ _ _ => true
  | .mulss _ _ pm => pm.wf
  | .mulsu _ _ pm => pm.wf
  | .mulus _ _ pm => pm.wf
  | .muluu _ _ pm => pm.wf
  | .lsl op dst pm => wfTwo op op dst pm
  | .lslc op dst pm => wfTwo op op dst pm
  | .not op2 dst pm => wfOne op2 dst pm
  | .addNullP _ pm => pm.wf
  | .j _ => true
  | .call _ => true
  | .jr => true
  | .nopTotal => true
  | .reserved _ _ => false

/-- The same as a proposition, for statements. -/
abbrev Instr.WellFormed (i : Instr) : Prop := i.wf = true

end Sys2Proof
end

