-- ==== Sys2Proof/Decode.lean ====
section
/-! DEFINITION. The decoder, total on every 32-bit word (spec/30_encoding.md R90 to R123), and after it the encoder,
written from the same tables. A word of the reserved space decodes to `Instr.reserved` with the reason named (R120). -/

namespace Sys2Proof

/-! ## Field codings -/

/-- Table 6, also the register part of Tables 4, 5, 9 and 10. -/
def Reg16.ofCode (c : BitVec 3) : Reg16 :=
  match c.toNat with
  | 0 => .a0 | 1 => .a1 | 2 => .b0 | 3 => .b1 | 4 => .c0 | 5 => .c1 | 6 => .d0 | _ => .d1

def Reg16.code : Reg16 → BitVec 3
  | .a0 => 0#3 | .a1 => 1#3 | .b0 => 2#3 | .b1 => 3#3 | .c0 => 4#3 | .c1 => 5#3 | .d0 => 6#3 | .d1 => 7#3

def IReg.ofCode (c : BitVec 3) : IReg :=
  match c.toNat with
  | 0 => .i0 | 1 => .i1 | 2 => .i2 | 3 => .i3 | 4 => .i4 | 5 => .i5 | 6 => .i6 | _ => .i7

def IReg.code : IReg → BitVec 3
  | .i0 => 0#3 | .i1 => 1#3 | .i2 => 2#3 | .i3 => 3#3 | .i4 => 4#3 | .i5 => 5#3 | .i6 => 6#3 | .i7 => 7#3

/-- The accumulator code `RR` of LDI and STI: 00 A, 01 B, 10 C, 11 D (R117, D14). -/
def AccName.ofCode (c : BitVec 2) : AccName :=
  match c.toNat with
  | 0 => .a | 1 => .b | 2 => .c | _ => .d

def AccName.code : AccName → BitVec 2
  | .a => 0#2 | .b => 1#2 | .c => 2#2 | .d => 3#2

def MulMode.ofCode (c : BitVec 2) : MulMode :=
  match c.toNat with
  | 0 => .ss | 1 => .su | 2 => .us | _ => .uu

def MulMode.code : MulMode → BitVec 2
  | .ss => 0#2 | .su => 1#2 | .us => 2#2 | .uu => 3#2

/-- Table 4 (R106). -/
def AluSrc.ofCode (c : BitVec 4) : Except ReservedWhy AluSrc :=
  if c.toNat < 8 then .ok (.r16 (Reg16.ofCode (c.extractLsb' 0 3)))
  else match c.toNat with
    | 8 => .ok .null
    | 9 => .ok .ones
    | 10 => .error .aluOperand
    | 11 => .ok .p
    | _ => .ok (.acc (AccName.ofCode (c.extractLsb' 0 2)))

def AluSrc.code : AluSrc → BitVec 4
  | .r16 r => 0#1 ++ r.code
  | .null => 8#4
  | .ones => 9#4
  | .p => 11#4
  | .acc q => 3#2 ++ q.code

/-- Operand 1: Table 4 without P (R106). -/
def AluSrc.ofCode1 (c : BitVec 4) : Except ReservedWhy AluSrc := do
  let o ← AluSrc.ofCode c
  if o = .p then .error .pAsOp1 else .ok o

/-- The 40-bit column of Table 5 (R107). -/
def accOfResult (c : BitVec 3) : Except ReservedWhy AccName :=
  if c.getLsbD 0 then .ok (AccName.ofCode (c.extractLsb' 1 2)) else .error .resultCode

/-- Table 5 in the column of the width (R107). -/
def AluDst.ofCode (wide : Bool) (c : BitVec 3) : Except ReservedWhy AluDst :=
  if wide then do
    let q ← accOfResult c
    .ok (.acc q)
  else .ok (.r16 (Reg16.ofCode c))

def AccName.resultCode (q : AccName) : BitVec 3 := q.code ++ 1#1

def AluDst.code : AluDst → BitVec 3
  | .r16 r => r.code
  | .acc q => q.resultCode

/-- Table 10 (R113). -/
def MoveReg.ofCode (c : BitVec 6) : Except ReservedWhy MoveReg :=
  if c.toNat < 8 then .ok (.r16 (Reg16.ofCode (c.extractLsb' 0 3)))
  else match c.toNat with
    | 8 => .ok .lr0
    | 9 => .ok .lr1
    | 10 => .ok .mr0
    | 12 => .ok .null
    | 13 => .ok .lc
    | 14 => .ok .ls
    | 15 => .ok .le
    | 32 => .ok (.guard .a)
    | 33 => .ok (.guard .b)
    | 34 => .ok (.guard .c)
    | 35 => .ok (.guard .d)
    | 36 => .ok .nop
    | 62 => .ok .ipr0
    | 63 => .ok .ipr1
    | _ => if c.extractLsb' 3 3 = 2#3 then .ok (.idx (IReg.ofCode (c.extractLsb' 0 3))) else .error .moveRegister

def MoveReg.code : MoveReg → BitVec 6
  | .r16 r => 0#3 ++ r.code
  | .lr0 => 8#6
  | .lr1 => 9#6
  | .mr0 => 10#6
  | .null => 12#6
  | .lc => 13#6
  | .ls => 14#6
  | .le => 15#6
  | .idx n => 2#3 ++ n.code
  | .guard q => 8#4 ++ q.code
  | .nop => 36#6
  | .ipr0 => 62#6
  | .ipr1 => 63#6

/-- Table 1 (R118). -/
def Cond.ofCode (c : BitVec 6) : Except ReservedWhy Cond :=
  match c.toNat with
  | 0 => .ok .always
  | 1 => .ok .cs
  | 2 => .ok .es
  | 3 => .ok .vs
  | 4 => .ok .ns
  | 5 => .ok .zs
  | 8 => .ok .lt
  | 9 => .ok .le
  | 17 => .ok .cc
  | 18 => .ok .ec
  | 19 => .ok .vc
  | 20 => .ok .nc
  | 21 => .ok .zc
  | 24 => .ok .ge
  | 25 => .ok .gt
  | _ => .error .condition

def Cond.code : Cond → BitVec 6
  | .always => 0#6
  | .cs => 1#6
  | .es => 2#6
  | .vs => 3#6
  | .ns => 4#6
  | .zs => 5#6
  | .lt => 8#6
  | .le => 9#6
  | .cc => 17#6
  | .ec => 18#6
  | .vc => 19#6
  | .nc => 20#6
  | .zc => 21#6
  | .ge => 24#6
  | .gt => 25#6

/-- The mode `mm` of JMPI (R101). -/
def JmpiMod.ofCode (c : BitVec 2) : Except ReservedWhy JmpiMod :=
  match c.toNat with
  | 0 => .ok .keep
  | 1 => .ok .inc
  | 2 => .error .jmpiMode
  | _ => .ok .dec

def JmpiMod.code : JmpiMod → BitVec 2
  | .keep => 0#2
  | .inc => 1#2
  | .dec => 3#2

def Bus.code : Bus → BitVec 1
  | .x => 0#1
  | .y => 1#1

/-- A store bit: 0 load, 1 store (R114). -/
def storeBit (store : Bool) : BitVec 1 := BitVec.ofBool store

/-! ## Moves -/

/-- The 14 bits of a full move; `none` where the register is Move NOP, whose other bits do not matter (R110, R121,
R227). -/
def decodeFull (f : BitVec 14) : Except ReservedWhy (Option FullMove) := do
  let r ← MoveReg.ofCode (f.extractLsb' 0 6)
  if r = .nop then .ok none
  else .ok (some ⟨f.getLsbD 13, IReg.ofCode (f.extractLsb' 10 3), f.extractLsb' 6 4, r⟩)

def encodeFull (m : FullMove) : BitVec 14 :=
  storeBit m.store ++ m.n.code ++ m.p ++ m.reg.code

/-- A full move of the Move NOP register, canonical filler (R122). -/
def fullNop : BitVec 14 := 0x24#14

def encodeHalf : Option FullMove → BitVec 14
  | none => fullNop
  | some m => encodeFull m

/-- The 8 bits of a short move (R111). -/
def decodeShort (f : BitVec 8) : ShortMove :=
  ⟨f.getLsbD 7, IReg.ofCode (f.extractLsb' 4 3), f.getLsbD 3, Reg16.ofCode (f.extractLsb' 0 3)⟩

def encodeShort (m : ShortMove) : BitVec 8 :=
  storeBit m.store ++ m.n.code ++ storeBit m.star ++ m.reg.code

/-- A full move that may be a Move NOP, as a parallel move on a bus. -/
def ParMove.ofFull (bus : Bus) : Option FullMove → ParMove
  | Option.none => .none
  | Option.some m => .full bus m

/-- Bits 16..0 of an arithmetic instruction (R112). -/
def decodePar (f : BitVec 17) : Except ReservedWhy ParMove :=
  if f.getLsbD 16 then .ok (.short (decodeShort (f.extractLsb' 8 8)) (decodeShort (f.extractLsb' 0 8)))
  else match (f.extractLsb' 14 2).toNat with
    | 0 => do
      let m ← decodeFull (f.extractLsb' 0 14)
      .ok (.ofFull .x m)
    | 2 => do
      let m ← decodeFull (f.extractLsb' 0 14)
      .ok (.ofFull .y m)
    | 1 =>
      if f.extractLsb' 12 2 = 0#2 then do
        let src ← MoveReg.ofCode (f.extractLsb' 6 6)
        let dst ← MoveReg.ofCode (f.extractLsb' 0 6)
        .ok (.reg src dst)
      else if f.extractLsb' 10 4 = 4#4 then do
        let r ← MoveReg.ofCode (f.extractLsb' 0 6)
        .ok (.longX (f.getLsbD 9) (IReg.ofCode (f.extractLsb' 6 3)) r)
      else if f.extractLsb' 10 4 = 5#4 then
        .ok (.ibus (f.getLsbD 9) (IReg.ofCode (f.extractLsb' 6 3)) (f.extractLsb' 2 4)
          (AccName.ofCode (f.extractLsb' 0 2)))
      else .error .parallelMove
    | _ => .error .parallelMove

def encodePar : ParMove → BitVec 17
  | .none => 0#3 ++ fullNop
  | .full bus m => 0#1 ++ bus.code ++ 0#1 ++ encodeFull m
  | .short x y => 1#1 ++ encodeShort x ++ encodeShort y
  | .reg src dst => 4#5 ++ src.code ++ dst.code
  | .longX store n r => 20#7 ++ storeBit store ++ n.code ++ r.code
  | .ibus store n p q => 21#7 ++ storeBit store ++ n.code ++ p ++ q.code

/-! ## Instructions -/

/-- The arithmetic NOP with a parallel move: the move that stands alone (R122, R176). -/
def ofNopMove : ParMove → Instr
  | .none => .nop
  | .full .x m => if m.store then .stxFull m.n m.p m.reg else .ldxFull m.n m.p m.reg
  | .full .y m => if m.store then .styFull m.n m.p m.reg else .ldyFull m.n m.p m.reg
  | .short x y => .twoShort x y
  | .reg src dst => .mvxParallel src dst
  | .longX store n r => if store then .stxLong n r else .ldxLong n r
  | .ibus store n p q => if store then .sti n p q else .ldi n p q

/-- The two-operand ALU format (R105). -/
def decodeTwo (mk : AluSrc → AluSrc → AluDst → ParMove → Instr) (w : Word32) : Except ReservedWhy Instr := do
  let o1 ← AluSrc.ofCode1 (w.extractLsb' 24 4)
  let o2 ← AluSrc.ofCode (w.extractLsb' 20 4)
  let d ← AluDst.ofCode (o1.is40 || o2.is40) (w.extractLsb' 17 3)
  let pm ← decodePar (w.extractLsb' 0 17)
  .ok (mk o1 o2 d pm)

/-- ASHL: the same format with a 16-bit operand 2 and the width of operand 1 (R153). -/
def decodeShift (w : Word32) : Except ReservedWhy Instr := do
  let o1 ← AluSrc.ofCode1 (w.extractLsb' 24 4)
  let o2 ← AluSrc.ofCode (w.extractLsb' 20 4)
  if o2.is40 then .error .wideShiftCount
  else do
    let d ← AluDst.ofCode o1.is40 (w.extractLsb' 17 3)
    let pm ← decodePar (w.extractLsb' 0 17)
    .ok (.ashl o1 o2 d pm)

/-- MAC and MSU (R109). -/
def decodeMac (mk : Reg16 → MulMode → Reg16 → AccName → ParMove → Instr) (w : Word32) : Except ReservedWhy Instr := do
  let q ← accOfResult (w.extractLsb' 17 3)
  let pm ← decodePar (w.extractLsb' 0 17)
  .ok (mk (Reg16.ofCode (w.extractLsb' 25 3)) (MulMode.ofCode (w.extractLsb' 23 2))
    (Reg16.ofCode (w.extractLsb' 20 3)) q pm)

/-- A single-operand instruction whose result has the operand's width (R108, R170). -/
def decodeOne (mk : AluSrc → AluDst → ParMove → Instr) (w : Word32) : Except ReservedWhy Instr := do
  let o ← AluSrc.ofCode (w.extractLsb' 20 4)
  let d ← AluDst.ofCode o.is40 (w.extractLsb' 17 3)
  let pm ← decodePar (w.extractLsb' 0 17)
  .ok (mk o d pm)

/-- EXP and RND: the result is always 16 bits (R170). -/
def decodeOne16 (mk : AluSrc → Reg16 → ParMove → Instr) (w : Word32) : Except ReservedWhy Instr := do
  let o ← AluSrc.ofCode (w.extractLsb' 20 4)
  let pm ← decodePar (w.extractLsb' 0 17)
  .ok (mk o (Reg16.ofCode (w.extractLsb' 17 3)) pm)

/-- SAT: the result is a 40-bit register (R178). -/
def decodeSat (w : Word32) : Except ReservedWhy Instr := do
  let o ← AluSrc.ofCode (w.extractLsb' 20 4)
  let q ← accOfResult (w.extractLsb' 17 3)
  let pm ← decodePar (w.extractLsb' 0 17)
  .ok (.sat o q pm)

/-- MUL (R109). -/
def decodeMul (w : Word32) : Except ReservedWhy Instr := do
  let pm ← decodePar (w.extractLsb' 0 17)
  .ok (.mul (MulMode.ofCode (w.extractLsb' 23 2)) (Reg16.ofCode (w.extractLsb' 17 3))
    (Reg16.ofCode (w.extractLsb' 20 3)) pm)

/-- Opcode 1111 (R108, R109). -/
def decodeSingle (w : Word32) : Except ReservedWhy Instr :=
  match (w.extractLsb' 24 4).toNat with
  | 0 => decodeOne .abs w
  | 1 => decodeOne .asr w
  | 2 => decodeOne .lsr w
  | 3 => decodeOne .lsrc w
  | 4 => do
    let pm ← decodePar (w.extractLsb' 0 17)
    .ok (ofNopMove pm)
  | 5 => decodeOne16 .exp w
  | 6 => decodeSat w
  | 7 => decodeOne16 .rnd w
  | 14 => decodeMul w
  | 15 => decodeMul w
  | _ => .error .singleCode

/-- LOOP: the count register is a five-bit code (R99). -/
def decodeLoop (w : Word32) : Except ReservedWhy Instr := do
  let r ← MoveReg.ofCode (0#1 ++ w.extractLsb' 0 5)
  .ok (.loop r (w.extractLsb' 6 16))

/-- LDC: bits 28..22 are not decoded (R94). -/
def decodeLdc (w : Word32) : Except ReservedWhy Instr := do
  let r ← MoveReg.ofCode (w.extractLsb' 0 6)
  .ok (.ldc (w.extractLsb' 6 16) r)

/-- Opcode 0010 (R95 to R103). -/
def decodeControl (w : Word32) : Except ReservedWhy Instr :=
  match (w.extractLsb' 24 4).toNat with
  | 0 => do
    let cond ← Cond.ofCode (w.extractLsb' 0 6)
    .ok (if w.getLsbD 23 then .jrccIn (IReg.ofCode (w.extractLsb' 6 3)) cond else .jrcc cond)
  | 1 => .ok (if w.getLsbD 23 then .retiIn (IReg.ofCode (w.extractLsb' 6 3)) else .reti)
  | 2 => .ok (.resp (Reg16.ofCode (w.extractLsb' 17 3)) (Reg16.ofCode (w.extractLsb' 20 3)))
  | 4 => decodeLoop w
  | 5 => decodeLoop w
  | 6 => decodeLoop w
  | 7 => decodeLoop w
  | 8 => do
    let cond ← Cond.ofCode (w.extractLsb' 0 6)
    .ok (.jcc (w.extractLsb' 6 16) cond)
  | 9 => do
    let cond ← Cond.ofCode (w.extractLsb' 0 6)
    .ok (.callcc (w.extractLsb' 6 16) cond)
  | 10 => do
    let mm ← JmpiMod.ofCode (w.extractLsb' 3 2)
    .ok (.jmpi (w.extractLsb' 6 16) mm (IReg.ofCode (w.extractLsb' 0 3)))
  | 11 => do
    let xs ← MoveReg.ofCode (w.extractLsb' 18 6)
    let xd ← MoveReg.ofCode (w.extractLsb' 12 6)
    let ys ← MoveReg.ofCode (w.extractLsb' 6 6)
    let yd ← MoveReg.ofCode (w.extractLsb' 0 6)
    .ok (.mvxMvyDouble xs xd ys yd)
  | 13 => .ok .halt
  | _ => .error .controlCode

/-- The decoding order of R123. -/
def decodeWord (w : Word32) : Except ReservedWhy Instr :=
  match (w.extractLsb' 28 4).toNat with
  | 0 => decodeLdc w
  | 1 => decodeLdc w
  | 2 => decodeControl w
  | 3 => do
    let x ← decodeFull (w.extractLsb' 14 14)
    let y ← decodeFull (w.extractLsb' 0 14)
    .ok (.doubleFull x y)
  | 4 => decodeTwo .add w
  | 5 => decodeMac .mac w
  | 6 => decodeTwo .sub w
  | 7 => decodeMac .msu w
  | 8 => decodeTwo .addc w
  | 9 => decodeTwo .subc w
  | 10 => decodeShift w
  | 11 => decodeTwo .and w
  | 12 => decodeTwo .or w
  | 13 => decodeTwo .xor w
  | 14 => .error .opcode
  | _ => decodeSingle w

/-- The total decoder: a reserved word is itself an instruction, named by why it is reserved (R120, D7). -/
def decode (w : Word32) : Instr :=
  match decodeWord w with
  | .ok i => i
  | .error why => .reserved why w

/-- A 32-bit word from its bytes, the most significant first (D1; log entry 1). -/
def wordOfBytes (b3 b2 b1 b0 : Byte) : Word32 := b3 ++ b2 ++ b1 ++ b0

/-- The decoder on bytes: total, with the bytes that are left. -/
def decodeBytes : List Byte → Option (Instr × List Byte)
  | b3 :: b2 :: b1 :: b0 :: rest => some (decode (wordOfBytes b3 b2 b1 b0), rest)
  | _ => none

/-- The instruction word whose bits are `w` below `nbits` and 0 above. -/
def tableWord (nbits w : Nat) : Word32 := BitVec.ofNat 32 (w % 2 ^ nbits)

/-- The bytes of a word, the most significant first. -/
def bytesOfWord (w : Word32) : List Byte :=
  [w.extractLsb' 24 8, w.extractLsb' 16 8, w.extractLsb' 8 8, w.extractLsb' 0 8]

/-- The instruction the decoder reads from the table's word `w` of `nbits` bits (log entry 34). -/
def decodeTableWord (nbits w : Nat) : Option Instr :=
  (decodeBytes (bytesOfWord (tableWord nbits w))).map Prod.fst

/-! ## The encoder -/

def encodeTwo (opcode : BitVec 4) (op1 op2 : AluSrc) (dst : AluDst) (pm : ParMove) : Word32 :=
  opcode ++ op1.code ++ op2.code ++ dst.code ++ encodePar pm

def encodeMac (opcode : BitVec 4) (op1 : Reg16) (mode : MulMode) (op2 : Reg16) (q : AccName) (pm : ParMove) : Word32 :=
  opcode ++ op1.code ++ mode.code ++ op2.code ++ q.resultCode ++ encodePar pm

def encodeMul (mode : MulMode) (op1 op2 : Reg16) (pm : ParMove) : Word32 :=
  0x7F#7 ++ mode.code ++ op2.code ++ op1.code ++ encodePar pm

def encodeOne (single : BitVec 4) (op2 : AluSrc) (dst : BitVec 3) (pm : ParMove) : Word32 :=
  0xF#4 ++ single ++ op2.code ++ dst ++ encodePar pm

/-- A move that stands alone, under the arithmetic NOP with its don't-care bits 0 (R122 (b), D31). -/
def encodeLone (pm : ParMove) : Word32 := 0xF4#8 ++ 0#7 ++ encodePar pm

/-- Jcc and CALLcc (R100). -/
def encodeJump (code : BitVec 4) (addr : Word) (cond : Cond) : Word32 :=
  2#4 ++ code ++ 0#2 ++ addr ++ cond.code

/-- The word of an instruction; don't-care bits are 0 (R121, D31). A second name has the word of the instruction it
names (R127). -/
def encode : Instr → Word32
  | .ldc c r => 0#3 ++ 0#7 ++ c ++ r.code
  | .jrcc cond => 0x20#8 ++ 0#18 ++ cond.code
  | .jrccIn n cond => 0x20#8 ++ 1#1 ++ 0#14 ++ n.code ++ cond.code
  | .reti => 0x21#8 ++ 0#24
  | .retiIn n => 0x21#8 ++ 1#1 ++ 0#14 ++ n.code ++ 0#6
  | .resp op1 op2 => 0x22#8 ++ 0#1 ++ op2.code ++ op1.code ++ 0#17
  | .loop cnt e => 2#4 ++ 1#2 ++ 0#4 ++ e ++ 0#1 ++ cnt.code.extractLsb' 0 5
  | .jcc addr cond => encodeJump 8#4 addr cond
  | .callcc addr cond => encodeJump 9#4 addr cond
  | .jmpi addr mm n => 2#4 ++ 10#4 ++ 0#2 ++ addr ++ 0#1 ++ mm.code ++ n.code
  | .mvxMvyDouble xs xd ys yd => 0x2B#8 ++ xs.code ++ xd.code ++ ys.code ++ yd.code
  | .halt => 0x2D#8 ++ 0#24
  | .doubleFull x y => 3#4 ++ encodeHalf x ++ encodeHalf y
  | .add op1 op2 dst pm => encodeTwo 4#4 op1 op2 dst pm
  | .sub op1 op2 dst pm => encodeTwo 6#4 op1 op2 dst pm
  | .addc op1 op2 dst pm => encodeTwo 8#4 op1 op2 dst pm
  | .subc op1 op2 dst pm => encodeTwo 9#4 op1 op2 dst pm
  | .ashl op1 op2 dst pm => encodeTwo 10#4 op1 op2 dst pm
  | .and op1 op2 dst pm => encodeTwo 11#4 op1 op2 dst pm
  | .or op1 op2 dst pm => encodeTwo 12#4 op1 op2 dst pm
  | .xor op1 op2 dst pm => encodeTwo 13#4 op1 op2 dst pm
  | .mac op1 mode op2 q pm => encodeMac 5#4 op1 mode op2 q pm
  | .msu op1 mode op2 q pm => encodeMac 7#4 op1 mode op2 q pm
  | .mul mode op1 op2 pm => encodeMul mode op1 op2 pm
  | .abs op2 dst pm => encodeOne 0#4 op2 dst.code pm
  | .asr op2 dst pm => encodeOne 1#4 op2 dst.code pm
  | .lsr op2 dst pm => encodeOne 2#4 op2 dst.code pm
  | .lsrc op2 dst pm => encodeOne 3#4 op2 dst.code pm
  | .exp op2 dst pm => encodeOne 5#4 op2 dst.code pm
  | .sat op2 dst pm => encodeOne 6#4 op2 dst.resultCode pm
  | .rnd op2 dst pm => encodeOne 7#4 op2 dst.code pm
  | .nop => encodeLone .none
  | .ldxFull n p r => encodeLone (.full .x ⟨false, n, p, r⟩)
  | .stxFull n p r => encodeLone (.full .x ⟨true, n, p, r⟩)
  | .ldyFull n p r => encodeLone (.full .y ⟨false, n, p, r⟩)
  | .styFull n p r => encodeLone (.full .y ⟨true, n, p, r⟩)
  | .twoShort x y => encodeLone (.short x y)
  | .mvxParallel src dst => encodeLone (.reg src dst)
  | .ldxLong n r => encodeLone (.longX false n r)
  | .stxLong n r => encodeLone (.longX true n r)
  | .ldi n p q => encodeLone (.ibus false n p q)
  | .sti n p q => encodeLone (.ibus true n p q)
  | .mulss op1 op2 pm => encodeMul .ss op1 op2 pm
  | .mulsu op1 op2 pm => encodeMul .su op1 op2 pm
  | .mulus op1 op2 pm => encodeMul .us op1 op2 pm
  | .muluu op1 op2 pm => encodeMul .uu op1 op2 pm
  | .lsl op dst pm => encodeTwo 4#4 op op dst pm
  | .lslc op dst pm => encodeTwo 8#4 op op dst pm
  | .not op2 dst pm => encodeTwo 13#4 .ones op2 dst pm
  | .addNullP q pm => encodeTwo 4#4 .null .p (.acc q) pm
  | .j addr => encodeJump 8#4 addr .always
  | .call addr => encodeJump 9#4 addr .always
  | .jr => 0x20#8 ++ 0#18 ++ Cond.always.code
  | .nopTotal => 0#3 ++ 0#7 ++ 0#16 ++ MoveReg.nop.code
  | .reserved _ w => w

/-- What a second name stands for: the instruction its words decode to (R127, R156, R191, R268). Every other
instruction stands for itself. Log entry 37. -/
def Instr.core : Instr → Instr
  | .mulss op1 op2 pm => .mul .ss op1 op2 pm
  | .mulsu op1 op2 pm => .mul .su op1 op2 pm
  | .mulus op1 op2 pm => .mul .us op1 op2 pm
  | .muluu op1 op2 pm => .mul .uu op1 op2 pm
  | .lsl op dst pm => .add op op dst pm
  | .lslc op dst pm => .addc op op dst pm
  | .not op2 dst pm => .xor .ones op2 dst pm
  | .addNullP q pm => .add .null .p (.acc q) pm
  | .j addr => .jcc addr .always
  | .call addr => .callcc addr .always
  | .jr => .jrcc .always
  | .nopTotal => .ldc 0#16 .nop
  | i => i

end Sys2Proof
end

