-- ==== Sys2Proof/Config.lean ====
section
/-! DEFINITION. What an implementation of the VSDSP4 fixes, and the free values: the opaque constants have no body,
so no proof can see what they are. The parameters that have a default or an offered reading in the spec stand as
definitions in Sys2Proof/Machine/Params.lean, except the reset vector, which `State.reset` needs. -/

namespace Sys2Proof.Config

/-- `RESET_VECTOR`, "normally 0x4000" (spec/00_scope.md R6, spec/92 D24). Log entry 6. -/
def resetVector : Word := 0x4000#16

/-- Where in one instruction a free value is used: two different uses never share a draw. Log entry 18. -/
inductive FreeUse where
  /-- the result of ASHL with a count out of range (R153) -/
  | ashlResult
  /-- C after ASHL with a count out of range (R153) -/
  | ashlCarry
  /-- V after ASHL to the left with a count out of range (R153) -/
  | ashlOverflow
  /-- C after ABS (R171, D18) -/
  | absCarry
  /-- N after ASR of a negative operand (R172, D27) -/
  | asrNegative
  /-- bits 15..8 of a guard register read by the X move, or by a move that stands alone (R226, D26) -/
  | busX
  /-- bits 15..8 of a guard register read by the Y move (R226, D26) -/
  | busY
  /-- the guard register after LDI (R237, U39) -/
  | ldiGuard
  /-- the index after an X, lone or I-bus post-modification that R217 or R218 does not define -/
  | postX
  /-- the index after a Y post-modification that R217 or R218 does not define -/
  | postY
  /-- the word read from a device address by the X move, a long-address move or LDI (R77) -/
  | device
  /-- the word read from a device address by the Y move (R77) -/
  | deviceY
  /-- the page of a fetch after a move or LDC wrote IPR0 (U18) -/
  | fetchPage
  deriving DecidableEq, Repr

/-- The free values: what the spec leaves open at draw number `n` for the use `u`. No body: nothing constrains it.
Log entry 18. -/
opaque freeValue : FreeUse → Nat → Word40

/-- `RESP_ORDER` (R194, D13, OPEN): true when the first operand of RESP becomes P1. The spec gives no default.
Log entry 8. -/
opaque respOp1High : Bool

/-- Whether the 16-bit X space is the bottom 2^16 words of the 32-bit X space: "not stated" (R62). Log entry 9. -/
opaque longXSharesX : Bool

end Sys2Proof.Config
end

