-- ==== Sys2Proof/Machine/State.lean ====
section
/-! DEFINITION. The state of the VSDSP4 as plain data (spec/10_state.md R20 to R47, spec/20_memory.md R60 to R63,
spec/60_exceptions.md R292), the reasons a step can stop, and the machine right after reset. -/

namespace Sys2Proof.Machine

/-- One memory space: (byte key, byte) pairs in one canonical form, see Sys2Proof/Machine/Memory.lean. A 16-bit word
at word address `a` has the keys `2a`, `2a+1`, a 32-bit word the keys `4a` to `4a+3`, the most significant byte first
(log entry 1). -/
abbrev Memory := List Host.Cell

/-- The three registers of one accumulator: guard (A2), high (A1) and low (A0) (R21 to R23). -/
structure AccReg where
  guard : Byte
  high : Word
  low : Word
  deriving DecidableEq, Repr

/-- The target of a delayed transfer: an address, and a page where the transfer carries one (R43 (a), R262). -/
structure Target where
  page : Option Word
  addr : Word
  deriving DecidableEq, Repr

/-- The bits of MR0 that a jump condition can use (R335). -/
inductive CondFlag where
  | z | n | v | e | c | s
  deriving DecidableEq, Repr

/-- The five flags an ALU operation writes (R39). -/
structure Flags where
  z : Bool
  n : Bool
  v : Bool
  e : Bool
  c : Bool
  deriving DecidableEq, Repr

/-- What kind of instruction wrote a register explicitly (R333, R339, R342). -/
inductive WriteKind where
  /-- LDC -/
  | constant
  /-- a load from X or Y memory -/
  | memory
  /-- a register move -/
  | regMove
  /-- the LOOP instruction -/
  | loopInstr
  deriving DecidableEq, Repr

/-- What the sequence restrictions need of an executed instruction (R43 (g), R333). -/
structure Hist where
  /-- the registers it wrote explicitly, and how -/
  writes : List (WriteKind × MoveReg)
  /-- the flags and the mode bit S that it changes, by its Flags line or by writing MR0 -/
  flags : List CondFlag
  /-- it stored or moved LC, or was LOOP with LC as count -/
  readsLc : Bool
  /-- it was LDI or STI -/
  ldiSti : Bool
  /-- it was J, Jcc, JRcc, CALLcc, RETI or LOOP: a delay slot follows -/
  delayOwner : Bool
  /-- it wrote MR0 with another L -/
  changedL : Bool
  /-- LE before it -/
  leBefore : Word
  deriving DecidableEq, Repr

/-- One entry of the sequence of interrupt requests, which is the caller's (R292, U38): after `wait` more boundaries
the controller has the request for vector `0x20 + vec`, until the core accepts it. -/
structure IrqInput where
  wait : Nat
  vec : BitVec 5
  deriving DecidableEq, Repr

/-- What stands at a mapped address (R68, D2). -/
inductive MemKind where
  | ram | rom | device
  deriving DecidableEq, Repr

/-- `size` addresses from `base` on, all of one kind. -/
structure Region where
  base : Nat
  size : Nat
  kind : MemKind
  deriving DecidableEq, Repr

/-- The model's arguments of R6 that a chip fixes: the maps `XMEM`, `YMEM` and `IMEM`, each a list of regions of which
the first that holds an address counts and outside of which nothing is mapped (R68, D2), the map of the words of the
32-bit X space that are no words of the 16-bit one (R62), and the X address `INT_GLOB_EN` (R294). Log entries 3, 4. -/
structure MemMap where
  x : List Region
  y : List Region
  i : List Region
  xl : List Region
  intGlobEn : Word
  deriving DecidableEq, Repr

/-- Everything the spec gives the machine. The last group is the model's own. -/
structure State where
  /-- accumulator A = A2:A1:A0 (R21 to R23) -/
  accA : AccReg
  accB : AccReg
  accC : AccReg
  accD : AccReg
  /-- the multiplier result P = P1:P0 (R25) -/
  p : Word32
  /-- index registers I0..I7 (R27) -/
  i0 : Word
  i1 : Word
  i2 : Word
  i3 : Word
  i4 : Word
  i5 : Word
  i6 : Word
  i7 : Word
  /-- link registers (R29, R30) -/
  lr0 : Word
  lr1 : Word
  /-- bits 15..5 of MR0: the mode bits S, I and R, the loop flag L, and bits that are not implemented (R31, R33) -/
  mode : BitVec 11
  /-- bits 4..0 of MR0: the ALU flags Z, N, V, E and C (R31, R34 to R38) -/
  flags : Flags
  /-- loop start, end and count (R41) -/
  ls : Word
  le : Word
  lc : Word
  /-- page registers (R40) -/
  ipr0 : Word
  ipr1 : Word
  /-- the address, within the page, of the instruction to execute next (R28) -/
  pc : Word
  /-- the delayed transfer (R43 (a)) -/
  pending : Option Target
  /-- the next instruction executes as a NOP, set by JMPI (R43 (b)) -/
  cancel : Bool
  /-- set by HALT (R43 (c)) -/
  halted : Bool
  /-- countdown of the suppressed loop end comparison (R43 (e), R341) -/
  loopSkip : Nat
  /-- instructions to execute between the wake-up from HALT and the interrupt (R43 (f), R280) -/
  haltSkid : Nat
  /-- the previous executed instruction, and the one before it (R43 (g), R333) -/
  prev1 : Option Hist
  prev2 : Option Hist
  /-- instruction addresses written by STI, each with how many of the next instructions may not be fetched from it
  (R74, R346) -/
  stiRecent : List (Word32 × Nat)
  /-- the interrupt controller as the core sees it (R43 (d), R292): enabled, and its state machine idle -/
  irqEnabled : Bool
  irqIdle : Bool
  /-- X data memory (R61) -/
  xmem : Memory
  /-- Y data memory (R61) -/
  ymem : Memory
  /-- instruction memory (R63) -/
  imem : Memory
  /-- the words of the 32-bit X space that are not words of `xmem` (R62) -/
  xlmem : Memory
  /-- model: the request that ended HALT is still to be entered, "with the address of the fourth as return address"
  (R280, D25; log entry 28) -/
  haltWake : Bool
  /-- model: the memory maps and the address `INT_GLOB_EN`, the parameters of R6 and R68; no step changes them (log
  entries 3, 4) -/
  map : MemMap
  /-- model: the interrupt requests still to come (log entry 29) -/
  irqInputs : List IrqInput
  /-- model: the reset input, so many boundaries from now (R330; log entry 30) -/
  resetIn : Option Nat
  /-- model: a move or LDC wrote IPR0, so the page of the following fetches is open (U18; log entry 22) -/
  pageOpen : Bool
  /-- model: the number of the next draw of free values (log entry 18) -/
  draws : Nat
  deriving DecidableEq, Repr

/-- Why the machine stops. A fault is a verdict of the model, never an event of the machine (R8, R290): each marks
what the spec leaves without any defined result. All are safe: the model stops where the hardware does something. -/
inductive Fault where
  /-- fetch of a reserved encoding (R120, D7). Raised by `Instr.reserved`, and by a term that has no encoding. Safe. -/
  | reservedEncoding (why : ReservedWhy)
  /-- SAT or RND of a 16-bit operand (R178, R179, U16). Raised by SAT and RND. Safe. -/
  | satRndOperand
  /-- two writes to one register by one instruction (R45, D30). Raised by every instruction with moves. Safe. -/
  | writeConflict
  /-- a double register move within one unit (R234, N30). Raised by the double register move. Safe. -/
  | doubleMoveUnits
  /-- R334, and the last lines of R261. Raised by the sequencer. Safe. -/
  | changeOfFlowInDelaySlot
  /-- R335. Raised by the sequencer. Safe. -/
  | flagsBeforeJump
  /-- R336, and the LOOP row of R339. Raised by the sequencer. Safe. -/
  | changeOfFlowAtLoopEnd
  /-- R277, R337. Raised by the sequencer. Safe. -/
  | jmpiInterruptsEnabled
  /-- R338. Raised by the sequencer. Safe. -/
  | changeOfFlowAfterLdiSti
  /-- R339. Raised by the sequencer. Safe. -/
  | loopRegisterLoadNearLoopEnd
  /-- R340. Raised by the sequencer. Safe. -/
  | lcReadNearLoopEnd
  /-- R340. Raised by the sequencer. Safe. -/
  | lChangeNearLoopEnd
  /-- R342. Raised by the sequencer. Safe. -/
  | linkRegisterLoadBeforeUse
  /-- R343. Raised by the sequencer. Safe. -/
  | retiInterruptsEnabled
  /-- R74, R346, D4. Raised by the sequencer. Safe. -/
  | fetchAfterSti
  /-- a change-of-flow among the three instructions after a HALT wake-up (R280, D25). Raised by the sequencer. Safe. -/
  | haltSkidChangeOfFlow
  /-- an access outside the memory maps, a fetch from a device address among them (R68, U22). Raised by every
  instruction with moves, and by the sequencer. Safe. -/
  | unmappedAccess
  /-- a store to ROM, of which nothing is said (N23, log entry 3). Raised by every instruction with moves. Safe. -/
  | romStore
  /-- a store to a device address, "an interaction with an undescribed device" (R68, U22). Raised by every instruction
  with moves. Safe. -/
  | deviceStore
  deriving DecidableEq, Repr

/-- What the model does not give a meaning to. Safe: the model stops. -/
inductive Refusal where
  /-- an instruction that has no meaning yet. Raised by `exec` only. -/
  | notModelled (mnemonic : String)
  /-- a HALT that takes effect in a delay slot: "not described" (R274, U21). Raised by the sequencer. -/
  | haltInDelaySlot
  /-- a HALT that takes effect at LE or LE - 1 with L = 0: "not mentioned" (R336, U21). Raised by the sequencer. -/
  | haltAtLoopEnd
  deriving DecidableEq, Repr

/-- An accumulator after reset (R46). -/
def AccReg.zero : AccReg := ⟨0#8, 0#16, 0#16⟩

/-- The maps where the spec has "no default for the maps" (D2): RAM at every address, and `INT_GLOB_EN` where the spec's
own program P5 has it. DESIGN CHOICE, unsafe: log entries 3 and 4. -/
def MemMap.allRam : MemMap where
  x := [⟨0, 65536, .ram⟩]
  y := [⟨0, 65536, .ram⟩]
  i := [⟨0, 4294967296, .ram⟩]
  xl := [⟨0, 4294967296, .ram⟩]
  intGlobEn := 0xC000#16

/-- The machine right after reset: "All registers except LE and PC are zeroed on reset. LE is set to all ones. PC is
set to reset vector" (R46, R331); the hidden components empty (D24); memory with nothing listed; the interrupt
controller disabled and idle, which is the model's choice (log entry 5), as the maps are (log entry 3). The sequence of
interrupt requests, which is the caller's (R292, U38), is empty, so a run from here meets no interrupt unless a caller
puts requests in `irqInputs` (DESIGN CHOICE, log entry 29); no reset input is due (log entry 30). -/
def State.reset : State where
  accA := .zero
  accB := .zero
  accC := .zero
  accD := .zero
  p := 0#32
  i0 := 0#16
  i1 := 0#16
  i2 := 0#16
  i3 := 0#16
  i4 := 0#16
  i5 := 0#16
  i6 := 0#16
  i7 := 0#16
  lr0 := 0#16
  lr1 := 0#16
  mode := 0#11
  flags := ⟨false, false, false, false, false⟩
  ls := 0#16
  le := 0xFFFF#16
  lc := 0#16
  ipr0 := 0#16
  ipr1 := 0#16
  pc := Config.resetVector
  pending := none
  cancel := false
  halted := false
  loopSkip := 0
  haltSkid := 0
  prev1 := none
  prev2 := none
  stiRecent := []
  irqEnabled := false
  irqIdle := true
  xmem := []
  ymem := []
  imem := []
  xlmem := []
  haltWake := false
  map := .allRam
  irqInputs := []
  resetIn := none
  pageOpen := false
  draws := 0

end Sys2Proof.Machine
end

