-- ==== Sys2Proof/Machine/Flags.lean ====
section
/-! DEFINITION. MR0 and its flags (spec/10_state.md R31 to R39), the flags of an ALU result
(spec/40_alu_two_operand.md R143) and the jump conditions (spec/44_control.md R265). -/

namespace Sys2Proof.Machine

/-- Bits 4..0 of MR0, Z N V E C (R31). -/
def Flags.bits (f : Flags) : BitVec 5 :=
  BitVec.ofBool f.z ++ BitVec.ofBool f.n ++ BitVec.ofBool f.v ++ BitVec.ofBool f.e ++ BitVec.ofBool f.c

/-- The register MR0, its two parts together (R31). -/
def State.mr0 (s : State) : Word := s.mode ++ s.flags.bits

/-- MR0 written whole (R31). -/
def State.setMr0 (s : State) (v : Word) : State :=
  { s with mode := v.extractLsb' 5 11,
           flags := ⟨v.getLsbD 4, v.getLsbD 3, v.getLsbD 2, v.getLsbD 1, v.getLsbD 0⟩ }

/-- Saturation mode, MR0 bit 10 (R31). -/
def State.fS (s : State) : Bool := s.mode.getLsbD 5
/-- Integer mode, MR0 bit 9 (R31). -/
def State.fI (s : State) : Bool := s.mode.getLsbD 4
/-- Rounding mode, MR0 bit 8 (R31). -/
def State.fR (s : State) : Bool := s.mode.getLsbD 3
/-- Loop flag, MR0 bit 7 (R33). -/
def State.fL (s : State) : Bool := s.mode.getLsbD 2
/-- Zero flag, MR0 bit 4 (R34). -/
def State.fZ (s : State) : Bool := s.flags.z
/-- Negative flag, MR0 bit 3 (R35). -/
def State.fN (s : State) : Bool := s.flags.n
/-- Overflow flag, MR0 bit 2 (R36). -/
def State.fV (s : State) : Bool := s.flags.v
/-- Extension flag, MR0 bit 1 (R37). -/
def State.fE (s : State) : Bool := s.flags.e
/-- Carry flag, MR0 bit 0 (R38). -/
def State.fC (s : State) : Bool := s.flags.c

/-- Write the five ALU flags; the mode bits and L stay (R143). -/
def State.setFlags (s : State) (f : Flags) : State := { s with flags := f }

/-- Write L, bit 7 of MR0, alone (R33, R266). -/
def State.setL (s : State) (l : Bool) : State :=
  { s with mode := s.mode.extractLsb' 3 8 ++ BitVec.ofBool l ++ s.mode.extractLsb' 0 2 }

/-- E of a result of width `w` (R37): in a 40-bit operation, bits 39..31 are not all the same. -/
def extFlag {w : Nat} (res : BitVec w) : Bool :=
  decide (w = 40) && (res.extractLsb' 31 9 != 0#9) && (res.extractLsb' 31 9 != BitVec.allOnes 9)

/-- Z, N and E of a result, with the given V and C (R143). -/
def Flags.ofResult {w : Nat} (res : BitVec w) (v c : Bool) : Flags :=
  { z := decide (res = 0#w), n := res.msb, v := v, e := extFlag res, c := c }

/-- Signed less-than after a subtraction: N xor (V and not S) (R118, R265). -/
def State.lessThan (s : State) : Bool := s.fN ^^ (s.fV && !s.fS)

/-- The jump conditions of Table 1 (R118). -/
def condHolds (s : State) : Cond → Bool
  | .always => true
  | .cs => s.fC
  | .es => s.fE
  | .vs => s.fV
  | .ns => s.fN
  | .zs => s.fZ
  | .lt => s.lessThan
  | .le => s.lessThan || s.fZ
  | .cc => !s.fC
  | .ec => !s.fE
  | .vc => !s.fV
  | .nc => !s.fN
  | .zc => !s.fZ
  | .ge => !s.lessThan
  | .gt => !(s.lessThan || s.fZ)

/-- The bits of MR0 a condition uses (R335). -/
def condUses : Cond → List CondFlag
  | .always => []
  | .cs => [.c]
  | .cc => [.c]
  | .es => [.e]
  | .ec => [.e]
  | .vs => [.v]
  | .vc => [.v]
  | .ns => [.n]
  | .nc => [.n]
  | .zs => [.z]
  | .zc => [.z]
  | .lt => [.n, .v, .s]
  | .ge => [.n, .v, .s]
  | .le => [.n, .v, .z, .s]
  | .gt => [.n, .v, .z, .s]

end Sys2Proof.Machine
end

