-- ==== Sys2Proof/Machine/Memory.lean ====
section
/-! DEFINITION. The named operations over one memory space: canonical cell lists, words of two and of four cells
(spec/20_memory.md R60 to R67). -/

namespace Sys2Proof.Machine

/-- What a byte that nothing has written reads as: the spec gives memory no contents at reset (R46, U37). DESIGN
CHOICE, unsafe: log entry 2. -/
def unlistedByte : Byte := 0#8

/-- The byte at a key. -/
def Memory.byteAt : Memory → Nat → Byte
  | [], _ => unlistedByte
  | (k', v') :: m, k => if k = k' then v' else Memory.byteAt m k

/-- One byte in front of a list, unless it is what an unlisted byte reads as. -/
def Memory.consByte (m : Memory) (k : Nat) (v : Byte) : Memory :=
  if v = unlistedByte then m else (k, v) :: m

/-- Write one byte, keeping the form: keys rising, no entry equal to what an unlisted byte reads as. -/
def Memory.setByte : Memory → Nat → Byte → Memory
  | [], k, v => Memory.consByte [] k v
  | (k', v') :: m, k, v =>
    if k < k' then Memory.consByte ((k', v') :: m) k v
    else if k = k' then Memory.consByte m k v
    else (k', v') :: Memory.setByte m k v

/-- The canonical form from key `lo` up to key `hi`. -/
def Memory.wfBetween (lo hi : Nat) : Memory → Bool
  | [] => true
  | (k, v) :: m => decide (lo ≤ k) && decide (k < hi) && (v != unlistedByte) && Memory.wfBetween (k + 1) hi m

/-- The canonical form of a space with `size` bytes: keys strictly rising and below `size`, no entry equal to what an
unlisted byte reads as. -/
def Memory.wf (size : Nat) (m : Memory) : Bool := Memory.wfBetween 0 size m

/-- The 16-bit word at a word address. -/
def Memory.read16 (m : Memory) (a : Nat) : Word :=
  Memory.byteAt m (2 * a) ++ Memory.byteAt m (2 * a + 1)

def Memory.write16 (m : Memory) (a : Nat) (v : Word) : Memory :=
  Memory.setByte (Memory.setByte m (2 * a) (v.extractLsb' 8 8)) (2 * a + 1) (v.extractLsb' 0 8)

/-- The bytes of the 32-bit word at an instruction address, the most significant first. -/
def Memory.bytes32 (m : Memory) (a : Nat) : List Byte :=
  [Memory.byteAt m (4 * a), Memory.byteAt m (4 * a + 1), Memory.byteAt m (4 * a + 2), Memory.byteAt m (4 * a + 3)]

/-- The 32-bit word at an instruction address. -/
def Memory.read32 (m : Memory) (a : Nat) : Word32 :=
  Memory.byteAt m (4 * a) ++ Memory.byteAt m (4 * a + 1) ++ Memory.byteAt m (4 * a + 2) ++ Memory.byteAt m (4 * a + 3)

def Memory.write32 (m : Memory) (a : Nat) (v : Word32) : Memory :=
  Memory.setByte (Memory.setByte (Memory.setByte (Memory.setByte m (4 * a) (v.extractLsb' 24 8))
    (4 * a + 1) (v.extractLsb' 16 8)) (4 * a + 2) (v.extractLsb' 8 8)) (4 * a + 3) (v.extractLsb' 0 8)

/-- The bytes of the X and of the Y space: 2^16 words of two bytes (R61). -/
def dataBytes : Nat := 131072

/-- The bytes of instruction memory: 2^32 words of four bytes (R63). -/
def instrBytes : Nat := 17179869184

/-- The bytes of the 32-bit X space: 2^32 words of two bytes (R62). -/
def longBytes : Nat := 8589934592

/-! ## Memory maps -/

/-- Whether an address lies in a region. -/
def Region.holds (r : Region) (a : Nat) : Bool := decide (r.base ≤ a) && decide (a < r.base + r.size)

/-- What stands at an address: `none` where nothing is mapped (R68, D2). -/
def kindAt (m : List Region) (a : Nat) : Option MemKind := (m.find? (·.holds a)).map (·.kind)

/-- Whether a device stands at an address. -/
def deviceAt (m : List Region) (a : Nat) : Bool := kindAt m a = some .device

/-- What stops a load at an address: nothing but that nothing is mapped there (U22); what a device gives is free
(R77). -/
def loadFault (m : List Region) (a : Nat) : Option Fault :=
  match kindAt m a with
  | none => some .unmappedAccess
  | some .ram => none
  | some .rom => none
  | some .device => none

/-- What stops a store at an address: RAM only takes one (R68, U22, N23). -/
def storeFault (m : List Region) (a : Nat) : Option Fault :=
  match kindAt m a with
  | none => some .unmappedAccess
  | some .ram => none
  | some .rom => some .romStore
  | some .device => some .deviceStore

/-- What stops an instruction fetch at an address: "an address outside the model's memory maps, or ... a device
address" (U22). -/
def fetchFaultAt (m : List Region) (a : Nat) : Option Fault :=
  match kindAt m a with
  | none => some .unmappedAccess
  | some .ram => none
  | some .rom => none
  | some .device => some .unmappedAccess

end Sys2Proof.Machine
end

