-- ==== Sys2Proof/Machine/Params.lean ====
section
/-! DEFINITION. The model's parameters that have a default or an offered reading in the spec (spec/00_scope.md R6,
spec/92_eei_decisions.md, spec/93_implementation_defined.md). -/

namespace Sys2Proof.Machine

/-- `MODEMASK`: the bits of MR0 that exist (D9, U13; log entry 7). -/
def modeMask : Word := 0x079F#16

/-- The values of `LONGX_ORDER` (R236, C8). -/
inductive LongXOrder where
  | pairHigh | inHigh
  deriving DecidableEq, Repr

/-- `LONGX_ORDER`, default `pair_high` (D15; log entry 9). -/
def longXOrder : LongXOrder := .pairHigh

/-- The values of `RND_MODE0` (R179, D20). -/
inductive RndMode0 where
  | truncate | nearestTiesToZero
  deriving DecidableEq, Repr

/-- `RND_MODE0`, default truncation toward zero (D20; log entry 11). -/
def rndMode0 : RndMode0 := .truncate

/-- How many of the top `k` bits of `x` equal the bit `m`, counted from bit `k - 1` down to the first that differs. -/
def runFrom {w : Nat} (x : BitVec w) (m : Bool) : Nat → Nat
  | 0 => 0
  | k + 1 => if x.getLsbD k = m then runFrom x m k + 1 else 0

/-- `EXP_COUNT`, the offered reading: the number of leading bits equal to the MSB, the MSB included, within the width
of the operand (R177, D19; log entry 10). -/
def expCount {w : Nat} (x : BitVec w) : Nat := runFrom x x.msb w

end Sys2Proof.Machine
end

