-- ==== Sys2Proof/Machine/Ops.lean ====
section
/-! DEFINITION. The named operations over registers and memory spaces, taking an interrupt, returning from one, and
system reset (spec/10_state.md R20 to R41, spec/20_memory.md, spec/43_moves.md R220, R221, spec/60_exceptions.md
R296). -/

namespace Sys2Proof.Machine

/-- A step's three outcomes. -/
abbrev Result := Host.Outcome State Fault Refusal

/-! ## Free values -/

/-- The 16-bit free value of a use in this state (log entry 18). -/
def State.free16 (s : State) (u : Config.FreeUse) : Word := (Config.freeValue u s.draws).setWidth 16

/-- The 8-bit free value of a use in this state. -/
def State.free8 (s : State) (u : Config.FreeUse) : Byte := (Config.freeValue u s.draws).setWidth 8

/-- The one-bit free value of a use in this state. -/
def State.freeBit (s : State) (u : Config.FreeUse) : Bool := (Config.freeValue u s.draws).getLsbD 0

/-! ## Accumulators and arithmetic registers -/

def State.acc (s : State) : AccName → AccReg
  | .a => s.accA
  | .b => s.accB
  | .c => s.accC
  | .d => s.accD

def State.setAcc (s : State) (q : AccName) (v : AccReg) : State :=
  match q with
  | .a => { s with accA := v }
  | .b => { s with accB := v }
  | .c => { s with accC := v }
  | .d => { s with accD := v }

/-- The 40-bit view Q2:Q1:Q0 (R23). -/
def AccReg.value (r : AccReg) : Word40 := r.guard ++ r.high ++ r.low

/-- The registers of a 40-bit value, "all 40 bits as computed" (R8, R142). -/
def AccReg.ofValue (v : Word40) : AccReg := ⟨v.extractLsb' 32 8, v.extractLsb' 16 16, v.extractLsb' 0 16⟩

/-- The accumulator a 16-bit arithmetic register is part of (R23). -/
def regAcc : Reg16 → AccName
  | .a0 => .a
  | .a1 => .a
  | .b0 => .b
  | .b1 => .b
  | .c0 => .c
  | .c1 => .c
  | .d0 => .d
  | .d1 => .d

/-- Whether it is the high half: A1, B1, C1, D1. -/
def regHigh : Reg16 → Bool
  | .a0 => false
  | .a1 => true
  | .b0 => false
  | .b1 => true
  | .c0 => false
  | .c1 => true
  | .d0 => false
  | .d1 => true

/-- The low and the high half of an accumulator. -/
def accLow : AccName → Reg16
  | .a => .a0
  | .b => .b0
  | .c => .c0
  | .d => .d0

def accHigh : AccName → Reg16
  | .a => .a1
  | .b => .b1
  | .c => .c1
  | .d => .d1

def State.r16 (s : State) (r : Reg16) : Word :=
  if regHigh r then (s.acc (regAcc r)).high else (s.acc (regAcc r)).low

/-- The sign of a 16-bit value as a guard register: 0x00 or 0xFF (R24). -/
def guardOfSign (v : Word) : Byte := if v.msb then 0xFF#8 else 0#8

/-- `write16`: a 16-bit write of a high half also sign-extends into the guard register; a write of a low half changes
neither of the others (R24). -/
def State.writeR16 (s : State) (r : Reg16) (v : Word) : State :=
  s.setAcc (regAcc r)
    (if regHigh r then ⟨guardOfSign v, v, (s.acc (regAcc r)).low⟩
     else ⟨(s.acc (regAcc r)).guard, (s.acc (regAcc r)).high, v⟩)

/-- A 40-bit result (R142). -/
def State.writeAcc (s : State) (q : AccName) (v : Word40) : State := s.setAcc q (.ofValue v)

/-! ## Index registers -/

def State.idx (s : State) : IReg → Word
  | .i0 => s.i0
  | .i1 => s.i1
  | .i2 => s.i2
  | .i3 => s.i3
  | .i4 => s.i4
  | .i5 => s.i5
  | .i6 => s.i6
  | .i7 => s.i7

def State.setIdx (s : State) (n : IReg) (v : Word) : State :=
  match n with
  | .i0 => { s with i0 := v }
  | .i1 => { s with i1 := v }
  | .i2 => { s with i2 := v }
  | .i3 => { s with i3 := v }
  | .i4 => { s with i4 := v }
  | .i5 => { s with i5 := v }
  | .i6 => { s with i6 := v }
  | .i7 => { s with i7 := v }

/-- The pair register: the number with its least significant bit inverted (R27). -/
def pairReg : IReg → IReg
  | .i0 => .i1
  | .i1 => .i0
  | .i2 => .i3
  | .i3 => .i2
  | .i4 => .i5
  | .i5 => .i4
  | .i6 => .i7
  | .i7 => .i6

/-! ## Registers as moves see them -/

/-- `readReg`: the 16-bit value a move reads (R220). Bits 15..8 of a guard register are free (R226, D26); the bits of
MR0 outside `MODEMASK` read 0 (D9, log entry 7). -/
def State.readReg (s : State) (u : Config.FreeUse) : MoveReg → Word
  | .r16 r => s.r16 r
  | .lr0 => s.lr0
  | .lr1 => s.lr1
  | .mr0 => s.mr0 &&& modeMask
  | .null => 0#16
  | .lc => s.lc
  | .ls => s.ls
  | .le => s.le
  | .idx n => s.idx n
  | .guard q => s.free8 u ++ (s.acc q).guard
  | .nop => 0#16
  | .ipr0 => s.ipr0
  | .ipr1 => s.ipr1

/-- A write of a guard register takes bits 7..0 (R221, R226). -/
def State.writeGuard (s : State) (q : AccName) (v : Byte) : State :=
  s.setAcc q ⟨v, (s.acc q).high, (s.acc q).low⟩

/-- A load from memory of LS, LE or LC suppresses a loop end comparison (R341). -/
def skipAfter (fromMemory : Bool) (s : State) : State :=
  if fromMemory then { s with loopSkip := 2 } else s

/-- `writeReg`: the effect of a move writing a 16-bit value (R221). A write of IPR0 leaves the page of the following
fetches open (U18, log entry 22). -/
def State.writeReg (s : State) (fromMemory : Bool) (r : MoveReg) (v : Word) : State :=
  match r with
  | .r16 r => s.writeR16 r v
  | .lr0 => { s with lr0 := v }
  | .lr1 => { s with lr1 := v }
  | .mr0 => s.setMr0 (v &&& modeMask)
  | .null => s
  | .lc => skipAfter fromMemory { s with lc := v }
  | .ls => skipAfter fromMemory { s with ls := v }
  | .le => skipAfter fromMemory { s with le := v }
  | .idx n => s.setIdx n v
  | .guard q => s.writeGuard q (v.extractLsb' 0 8)
  | .nop => s
  | .ipr0 => { s with ipr0 := v, pageOpen := true }
  | .ipr1 => { s with ipr1 := v }

/-! ## Memory spaces -/

/-- The word of X memory at an address (R61). -/
def State.xWord (s : State) (a : Word) : Word := s.xmem.read16 a.toNat

/-- The word of Y memory at an address (R61). -/
def State.yWord (s : State) (a : Word) : Word := s.ymem.read16 a.toNat

/-- The word of the 32-bit X space at an address, where it is not a word of the 16-bit X space (R62). -/
def State.longWord (s : State) (a : Word32) : Word := s.xlmem.read16 a.toNat

/-- `IRead`: the instruction word at a 32-bit instruction address (R63). -/
def State.iWord (s : State) (a : Word32) : Word32 := s.imem.read32 a.toNat

/-- Whether a load of X memory meets an undescribed device: the controller's register, or a device of the map (R68). -/
def State.xDevice (s : State) (a : Word) : Bool := a = s.map.intGlobEn || deviceAt s.map.x a.toNat

/-- Whether a load of Y memory meets a device (R68). -/
def State.yDevice (s : State) (a : Word) : Bool := deviceAt s.map.y a.toNat

/-- Whether a load of the 32-bit X space beyond the 16-bit one meets a device. -/
def State.longDevice (s : State) (a : Word32) : Bool := deviceAt s.map.xl a.toNat

/-- Whether a load of instruction memory meets a device. -/
def State.iDevice (s : State) (a : Word32) : Bool := deviceAt s.map.i a.toNat

/-- `XRead`: a read of a device address is free, "unconstrained" (R68, R77; log entries 3, 4). -/
def State.xRead (s : State) (a : Word) : Word := if s.xDevice a then s.free16 .device else s.xWord a

/-- `YRead`. -/
def State.yRead (s : State) (a : Word) : Word := if s.yDevice a then s.free16 .deviceY else s.yWord a

/-- A load from instruction memory. -/
def State.iRead (s : State) (a : Word32) : Word32 :=
  if s.iDevice a then (Config.freeValue .device s.draws).setWidth 32 else s.iWord a

/-- `XWrite`: a store to `INT_GLOB_EN` enables interrupts (R292, R294). -/
def State.xWrite (s : State) (a v : Word) : State :=
  { s with xmem := s.xmem.write16 a.toNat v, irqEnabled := s.irqEnabled || decide (a = s.map.intGlobEn) }

/-- `YWrite`. -/
def State.yWrite (s : State) (a v : Word) : State := { s with ymem := s.ymem.write16 a.toNat v }

/-- `IWrite`; the address is remembered for the next three fetches (R74, R238). -/
def State.iWrite (s : State) (a v : Word32) : State :=
  { s with imem := s.imem.write32 a.toNat v, stiRecent := (a, 3) :: s.stiRecent }

/-- A read on a data bus. -/
def State.busRead (s : State) : Bus → Word → Word
  | .x, a => s.xRead a
  | .y, a => s.yRead a

/-- A write on a data bus. -/
def State.busWrite (s : State) : Bus → Word → Word → State
  | .x, a, v => s.xWrite a v
  | .y, a, v => s.yWrite a v

/-- The 32-bit X address of the long-address forms (R236, C8). -/
def State.longAddr (s : State) (n : IReg) : Word32 :=
  match longXOrder with
  | .pairHigh => s.idx (pairReg n) ++ s.idx n
  | .inHigh => s.idx n ++ s.idx (pairReg n)

/-- Whether a long X address is a word of the 16-bit X space: "not stated", so an open parameter below 2^16 (R62, log
entry 9). -/
def longIsX (a : Word32) : Bool := if a.toNat < 65536 then Config.longXSharesX else false

/-- `XReadL`. -/
def State.xReadL (s : State) (a : Word32) : Word :=
  if longIsX a then s.xRead (a.extractLsb' 0 16)
  else if s.longDevice a then s.free16 .device
  else s.longWord a

/-- `XWriteL`: a store to the 16-bit X space where the address is a word of it, else to the words beyond it. -/
def State.xWriteL (s : State) (a : Word32) (v : Word) : State :=
  { s with
    xmem := if longIsX a then (s.xWrite (a.extractLsb' 0 16) v).xmem else s.xmem
    irqEnabled := s.irqEnabled || (decide (a.extractLsb' 0 16 = s.map.intGlobEn) && longIsX a)
    xlmem := if longIsX a then s.xlmem else s.xlmem.write16 a.toNat v }

/-! ## What stops an access -/

/-- What stops a load on a data bus; the controller's register is always there (R292). -/
def State.busLoadFault (s : State) : Bus → Word → Option Fault
  | .x, a => if a = s.map.intGlobEn then none else loadFault s.map.x a.toNat
  | .y, a => loadFault s.map.y a.toNat

/-- What stops a store on a data bus. A store to `INT_GLOB_EN` is the one store to a device that is described
(R294). -/
def State.busStoreFault (s : State) : Bus → Word → Option Fault
  | .x, a => if a = s.map.intGlobEn then none else storeFault s.map.x a.toNat
  | .y, a => storeFault s.map.y a.toNat

/-- What stops an access to one of the words beyond the 16-bit X space (R62, R68). -/
def State.farFault (s : State) (store : Bool) (a : Word32) : Option Fault :=
  if store then storeFault s.map.xl a.toNat else loadFault s.map.xl a.toNat

/-- What stops an access to the word of the 16-bit X space at the low half of a long address (R62, R68). -/
def State.nearFault (s : State) (store : Bool) (a : Word32) : Option Fault :=
  if store then s.busStoreFault .x (a.extractLsb' 0 16) else s.busLoadFault .x (a.extractLsb' 0 16)

/-- What stops an access to the 32-bit X space (R62, R68): that of the part the address is in. Where the two maps say the
same, the open parameter is not asked. -/
def State.longFault (s : State) (store : Bool) (a : Word32) : Option Fault :=
  if s.nearFault store a = s.farFault store a then s.farFault store a
  else if longIsX a then s.nearFault store a
  else s.farFault store a

/-! ## Control -/

/-- The page of the next fetch: IPR0, or open after a direct write of IPR0 (R63, U18). -/
def State.fetchPage (s : State) : Word := if s.pageOpen then s.free16 .fetchPage else s.ipr0

/-- The 32-bit address of the next instruction, IPR0 : PC (R28, R63). -/
def State.fetchAddr (s : State) : Word32 := s.fetchPage ++ s.pc

/-- What stops the fetch of the next instruction (R68, U22). -/
def State.fetchFault (s : State) : Option Fault := fetchFaultAt s.map.i s.fetchAddr.toNat

/-- A delayed transfer takes place (R262): the page changes where the target carries one. -/
def State.transfer (s : State) (t : Target) : State :=
  match t.page with
  | some page => { s with ipr0 := page, pageOpen := false, pc := t.addr }
  | none => { s with pc := t.addr }

/-- A change-of-flow instruction schedules its transfer (R262). -/
def State.schedule (s : State) (t : Target) : State := { s with pending := some t }

/-- The vector of an interrupt, 0x20..0x3F (R292). -/
def vectorAddr (vec : BitVec 5) : Word := 1#11 ++ vec

/-- The boundary passes: the draws advance, the controller's request and the reset input come nearer (log entries 18,
29, 30). -/
def State.tick (s : State) : State :=
  { s with
    draws := s.draws + 1
    irqInputs := match s.irqInputs with
      | [] => []
      | q :: qs => { q with wait := q.wait - 1 } :: qs
    resetIn := s.resetIn.map (· - 1) }

/-- Taking an interrupt (R296): PC to LR1, IPR0 to IPR1, page 0, L set, PC to the vector; the controller disables
further interrupts and has finished processing; the hazard history is cleared (R333). -/
def State.enterInterrupt (s : State) (vec : BitVec 5) : State :=
  { s.setL true with
    lr1 := s.pc
    ipr1 := s.ipr0
    ipr0 := 0#16
    pageOpen := false
    pc := vectorAddr vec
    halted := false
    haltWake := false
    irqEnabled := false
    irqIdle := true
    irqInputs := s.irqInputs.tail
    resetIn := s.resetIn.map (· - 1)
    prev1 := none
    prev2 := none
    draws := s.draws + 1 }

/-- Returning from an interrupt (R272, R273): L cleared and a delayed transfer to LR1, in the page given if any. It
restores nothing else. -/
def State.returnFromInterrupt (s : State) (page : Option Word) : State :=
  (s.setL false).schedule ⟨page, s.lr1⟩

/-- System reset while running (R330): the state after reset, with what memory holds (log entry 30) and the
chip's memory maps. -/
def State.systemReset (s : State) : State :=
  { State.reset with
    xmem := s.xmem
    ymem := s.ymem
    imem := s.imem
    xlmem := s.xlmem
    map := s.map
    irqInputs := s.irqInputs
    draws := s.draws + 1 }

end Sys2Proof.Machine
end

