-- ==== Sys2Proof/Machine/Operands.lean ====
section
/-! DEFINITION. Operand values of the ALU (spec/40_alu_two_operand.md R140, R141), post-modification of index
registers (spec/43_moves.md R212 to R219), and the moves of an instruction as one operation (R211, R225 to R238). -/

namespace Sys2Proof.Machine

/-! ## ALU operands -/

/-- An operand in a 16-bit operation (R141). -/
def State.val16 (s : State) : AluSrc → Word
  | .r16 r => s.r16 r
  | .null => 0#16
  | .ones => 0xFFFF#16
  | .p => 0#16
  | .acc _ => 0#16

/-- A 16-bit register as a 40-bit operand, S:reg:0000 (R106, R141). -/
def wideOf16 (v : Word) : Word40 := guardOfSign v ++ v ++ 0#16

/-- P as a 40-bit operand, S:P1:P0 (R25, R141). -/
def wideOfP (p : Word32) : Word40 := p.signExtend 40

/-- An operand in a 40-bit operation (R141). -/
def State.val40 (s : State) : AluSrc → Word40
  | .r16 r => wideOf16 (s.r16 r)
  | .null => 0#40
  | .ones => BitVec.allOnes 40
  | .p => wideOfP s.p
  | .acc q => (s.acc q).value

/-! ## Post-modification -/

/-- The least `k` from `k₀` on with `len ≤ 2^k`, looking at most `fuel` further. -/
def alignFrom (len : Nat) : Nat → Nat → Nat
  | 0, k => k
  | fuel + 1, k => if len ≤ 2 ^ k then k else alignFrom len fuel (k + 1)

/-- The alignment of a circular buffer of `len ≤ 8192` words (R217). -/
def alignBits (len : Nat) : Nat := alignFrom len 13 0

/-- `modstep` (R217): `none` where the rule defines no result (index outside the buffer, step longer than it). -/
def modStep (a : Word) (step : Int) (len : Nat) : Option Word :=
  let off := a.toNat % 2 ^ alignBits len
  if len ≤ off then none
  else if (len : Int) < step || step < -(len : Int) then none
  else some (BitVec.ofNat 16 (a.toNat - off + (((off : Int) + step) % (len : Int)).toNat))

/-- Reverse a `k`-bit string. -/
def revBits : Nat → Nat → Nat
  | 0, _ => 0
  | k + 1, v => v % 2 * 2 ^ k + revBits k (v / 2)

/-- `bitrev` (R218): `none` where there is no highest 1-bit. -/
def bitRev (a : Word) (r : BitVec 13) : Option Word :=
  if r = 0#13 then none
  else
    let k := r.toNat.log2 + 1
    let lo := a.toNat % 2 ^ k
    some (BitVec.ofNat 16 (a.toNat - lo + revBits k ((revBits k lo + revBits k r.toNat) % 2 ^ k)))

/-- `pairmod` (R213): the modifier's bits 15..13 select the mode. -/
def pairMod (a m : Word) : Option Word :=
  match (m.extractLsb' 13 3).toNat with
  | 0 => some (a + m)
  | 1 => modStep a (m.extractLsb' 6 7).toInt ((m.extractLsb' 0 6).toNat + 1)
  | 2 => modStep a (m.extractLsb' 6 8).toInt (64 * ((m.extractLsb' 0 6).toNat + 1))
  | 3 => modStep a (m.extractLsb' 6 8).toInt (64 * ((m.extractLsb' 0 6).toNat + 1))
  | 4 => modStep a 1 ((m.extractLsb' 0 13).toNat + 1)
  | 5 => modStep a (-1) ((m.extractLsb' 0 13).toNat + 1)
  | 6 => bitRev a (m.extractLsb' 0 13)
  | _ => some (a + m)

/-- The index after a post-modification `pppp` other than 0000 (R212); free where R217 or R218 defines none (log entry
15). -/
def State.postValue (s : State) (u : Config.FreeUse) (n : IReg) (p : BitVec 4) : Word :=
  if p = 8#4 then (pairMod (s.idx n) (s.idx (pairReg n))).getD (s.free16 u)
  else s.idx n + p.signExtend 16

/-- `postmod` (R212): the new index, computed from the state before the instruction, written to `s`. -/
def postMod (u : Config.FreeUse) (n : IReg) (p : BitVec 4) (old s : State) : State :=
  if p = 0#4 then s else s.setIdx n (old.postValue u n p)

/-! ## Moves -/

/-- The free values of a full move on a bus: of its data, of its post-modification. -/
def busUse : Bus → Config.FreeUse
  | .x => .busX
  | .y => .busY

def postUse : Bus → Config.FreeUse
  | .x => .postX
  | .y => .postY

/-- `fullmove` (R211): every source is read from `old`, the state before the instruction (R44). -/
def applyFull (m : FullMove) (bus : Bus) (old s : State) : State :=
  if m.reg = .nop then s
  else
    postMod (postUse bus) m.n m.p old
      (if m.store then s.busWrite bus (old.idx m.n) (old.readReg (busUse bus) m.reg)
       else s.writeReg true m.reg (old.busRead bus (old.idx m.n)))

/-- A register-to-register move (R233). -/
def moveReg (u : Config.FreeUse) (src dst : MoveReg) (old s : State) : State :=
  if src = .nop || dst = .nop then s else s.writeReg false dst (old.readReg u src)

/-- The long-X move (R236): no index register is modified. -/
def moveLong (store : Bool) (n : IReg) (r : MoveReg) (old s : State) : State :=
  if r = .nop then s
  else if store then s.xWriteL (old.longAddr n) (old.readReg .busX r)
  else s.writeReg true r (old.xReadL (old.longAddr n))

/-- The instruction address of LDI and STI, IPR0 : In (R237, R238, D14). -/
def State.ibusAddr (s : State) (n : IReg) : Word32 := s.ipr0 ++ s.idx n

/-- LDI (R237): the guard register is free afterwards (U39). -/
def loadAcc (n : IReg) (q : AccName) (old s : State) : State :=
  s.setAcc q ⟨old.free8 .ldiGuard, (old.iRead (old.ibusAddr n)).extractLsb' 16 16,
    (old.iRead (old.ibusAddr n)).extractLsb' 0 16⟩

/-- STI (R238). -/
def storeAcc (n : IReg) (q : AccName) (old s : State) : State :=
  s.iWrite (old.ibusAddr n) ((old.acc q).high ++ (old.acc q).low)

/-- LDI and STI with their post-modification (R237, R238). -/
def moveIbus (store : Bool) (n : IReg) (p : BitVec 4) (q : AccName) (old s : State) : State :=
  postMod .postX n p old (if store then storeAcc n q old s else loadAcc n q old s)

/-- The parallel move of an instruction: sources from `old`, effects on `s` (R44, R112). -/
def applyPar (pm : ParMove) (old s : State) : State :=
  match pm with
  | .none => s
  | .full bus m => applyFull m bus old s
  | .short x y => applyFull y.toFull .y old (applyFull x.toFull .x old s)
  | .reg src dst => moveReg .busX src dst old s
  | .longX store n r => moveLong store n r old s
  | .ibus store n p q => moveIbus store n p q old s

/-! ## What stops the accesses of a move -/

/-- What stops the access of a full move (R68, U22): none is made for Move NOP; a load to NULL "still performs its
read" (R68). -/
def fullAccess (m : FullMove) (bus : Bus) (s : State) : Option Fault :=
  if m.reg = .nop then none
  else if m.store then s.busStoreFault bus (s.idx m.n)
  else s.busLoadFault bus (s.idx m.n)

/-- The same of a long-address move (R236). -/
def longAccess (store : Bool) (n : IReg) (r : MoveReg) (s : State) : Option Fault :=
  if r = .nop then none else s.longFault store (s.longAddr n)

/-- The same of LDI and STI (R237, R238). -/
def ibusAccess (store : Bool) (n : IReg) (s : State) : Option Fault :=
  if store then storeFault s.map.i (s.ibusAddr n).toNat else loadFault s.map.i (s.ibusAddr n).toNat

/-- What stops the accesses of a parallel move, the X access before the Y access. -/
def parAccess (pm : ParMove) (s : State) : Option Fault :=
  match pm with
  | .none => none
  | .full bus m => fullAccess m bus s
  | .short x y => (fullAccess x.toFull .x s).or (fullAccess y.toFull .y s)
  | .reg _ _ => none
  | .longX store n r => longAccess store n r s
  | .ibus store n _ _ => ibusAccess store n s

/-! ## Write conflicts -/

/-- The registers a 16-bit write of `r` changes: a high half's guard register too (R24). -/
def writesOf : MoveReg → List MoveReg
  | .r16 r => if regHigh r then [.r16 r, .guard (regAcc r)] else [.r16 r]
  | .null => []
  | .nop => []
  | r => [r]

/-- The registers of an accumulator. -/
def writesOfAcc (q : AccName) : List MoveReg := [.r16 (accLow q), .r16 (accHigh q), .guard q]

def writesOfPost (n : IReg) (p : BitVec 4) : List MoveReg := if p = 0#4 then [] else [.idx n]

def writesOfFull (m : FullMove) : List MoveReg :=
  if m.reg = .nop then []
  else (if m.store then [] else writesOf m.reg) ++ writesOfPost m.n m.p

def writesOfMove (src dst : MoveReg) : List MoveReg :=
  if src = .nop || dst = .nop then [] else writesOf dst

/-- The registers a parallel move writes. -/
def writesOfPar : ParMove → List MoveReg
  | .none => []
  | .full _ m => writesOfFull m
  | .short x y => writesOfFull x.toFull ++ writesOfFull y.toFull
  | .reg src dst => writesOfMove src dst
  | .longX store _ r => if store then [] else writesOf r
  | .ibus store n p q => (if store then [] else writesOfAcc q) ++ writesOfPost n p

/-- The registers an ALU result writes. -/
def writesOfDst : AluDst → List MoveReg
  | .r16 r => writesOf (.r16 r)
  | .acc q => writesOfAcc q

/-- Whether a register stands twice in a list. -/
def twice : List MoveReg → Bool
  | [] => false
  | r :: rs => rs.contains r || twice rs

/-- The end of an instruction with a parallel move: `s` is the state before it, `s'` the state with its arithmetic
part done, `ws` what that part wrote. Two writes of one register are a write conflict (R45, D30), whatever the memory
maps; an access that the maps do not allow stops (U22); a move of MR0 comes after the flags and wins (R39). -/
def finish (ws : List MoveReg) (pm : ParMove) (s s' : State) : Result :=
  if twice (ws ++ writesOfPar pm) then .fault .writeConflict
  else
    match parAccess pm s with
    | some f => .fault f
    | none => .next (applyPar pm s s')

end Sys2Proof.Machine
end

