-- ==== Sys2Proof/Machine/Alu.lean ====
section
/-! DEFINITION. The ALU and multiplier functions on bit patterns (spec/40_alu_two_operand.md R143, R144, R153,
spec/41_alu_single_operand.md, spec/42_multiplier.md R190) and the shared forms of an ALU instruction. -/

namespace Sys2Proof.Machine

/-- A result of width `w` with the flags it sets. -/
structure AluOut (w : Nat) where
  res : BitVec w
  flags : Flags
  deriving DecidableEq, Repr

/-- The most positive and the most negative `w`-bit value (R144). -/
def maxPos (w : Nat) : BitVec w := BitVec.ofNat w (2 ^ (w - 1) - 1)
def minNeg (w : Nat) : BitVec w := BitVec.ofNat w (2 ^ (w - 1))

/-- The exact signed sum of the adder (R144). -/
def exactSum {w : Nat} (x y : BitVec w) (cin : Bool) : Int := x.toInt + y.toInt + (cin.toNat : Int)

/-- Whether an exact result is not a signed `w`-bit number (R144). -/
def outside (w : Nat) (t : Int) : Bool := decide (2 ^ (w - 1) - 1 < t) || decide (t < -2 ^ (w - 1))

/-- `adder` (R144) with the flags of R143: Z, N, E of the value written, C the carry of the unsaturated operation
(D17). -/
def adder {w : Nat} (sat : Bool) (x y : BitVec w) (cin : Bool) : AluOut w :=
  let full := x.toNat + y.toNat + cin.toNat
  let t := exactSum x y cin
  let res := if outside w t && sat then (if 0 < t then maxPos w else minNeg w) else BitVec.ofNat w full
  ⟨res, Flags.ofResult res (outside w t) (decide (2 ^ w ≤ full))⟩

/-- A result with V = 0 and C = 0: the logic instructions (R149). -/
def logicOut {w : Nat} (res : BitVec w) : AluOut w := ⟨res, Flags.ofResult res false false⟩

/-- ASHL by a signed count in range (R153). -/
def shiftInRange {w : Nat} (sat : Bool) (x : BitVec w) (n : Int) : AluOut w :=
  if n = 0 then ⟨x, Flags.ofResult x false false⟩
  else if 0 < n then
    let k := n.toNat
    let top := x.sshiftRight (w - 1 - k)
    let ovf := (top != 0#w) && (top != BitVec.allOnes w)
    let res := if ovf && sat then (if x.msb then minNeg w else maxPos w) else x <<< k
    ⟨res, Flags.ofResult res ovf (x.getLsbD (w - k))⟩
  else
    let m := (-n).toNat
    ⟨x.sshiftRight m, Flags.ofResult (x.sshiftRight m) false (x.getLsbD (m - 1))⟩

/-- The shift counts both passages of the manual define (C1). -/
def shiftCountOk (w : Nat) (n : Int) : Bool := decide (n ≤ (w : Int) - 1) && decide (-((w : Int) - 1) ≤ n)

/-- ASHL with a count out of range: "the result is undefined", so the result and C are free, V is free for a left
shift and 0 for a right shift ("This can only happen when shifting left"); Z, N, E come from the free result (log
entry 14). -/
def shiftOutOfRange (w : Nat) (s : State) (n : Int) : AluOut w :=
  let res : BitVec w := (Config.freeValue .ashlResult s.draws).setWidth w
  ⟨res, Flags.ofResult res (decide (0 < n) && s.freeBit .ashlOverflow) (s.freeBit .ashlCarry)⟩

/-- ASHL (R153). -/
def shiftArith {w : Nat} (s : State) (x : BitVec w) (n : Int) : AluOut w :=
  if shiftCountOk w n then shiftInRange s.fS x n else shiftOutOfRange w s n

/-- ABS (R171); C is free (D18). -/
def absOut {w : Nat} (s : State) (x : BitVec w) : AluOut w :=
  let ovf := decide (x = minNeg w)
  let res := if x.msb then (if ovf && s.fS then maxPos w else BitVec.ofNat w (2 ^ w - x.toNat)) else x
  ⟨res, Flags.ofResult res ovf (s.freeBit .absCarry)⟩

/-- ASR (R172); N of a negative operand is free (D27). -/
def asrOut {w : Nat} (s : State) (x : BitVec w) : AluOut w :=
  let res := x.sshiftRight 1
  ⟨res, { Flags.ofResult res false (x.getLsbD 0) with n := x.msb && s.freeBit .asrNegative }⟩

/-- LSR (R173). -/
def lsrOut {w : Nat} (x : BitVec w) : AluOut w :=
  let res := x >>> 1
  ⟨res, { Flags.ofResult res false (x.getLsbD 0) with n := false }⟩

/-- LSRC (R175): C before the instruction enters at the top. -/
def lsrcOut {w : Nat} (c : Bool) (x : BitVec w) : AluOut w :=
  let res := if c then (x >>> 1) ||| BitVec.twoPow w (w - 1) else x >>> 1
  ⟨res, Flags.ofResult res false (x.getLsbD 0)⟩

/-- EXP (R177): the count as a 16-bit word. -/
def expOut {w : Nat} (x : BitVec w) : AluOut 16 :=
  let res := BitVec.ofNat 16 (if x = 0#w then 0 else expCount x)
  ⟨res, { z := decide (res = 0#16), n := false, v := false, e := false, c := false }⟩

/-- SAT (R178). -/
def satOut (x : Word40) : AluOut 40 :=
  let res :=
    if 2147483647 < x.toInt then 0x007FFFFFFF#40
    else if x.toInt < -2147483648 then 0xFF80000000#40
    else x
  ⟨res, { z := decide (res = 0#40), n := res.msb, v := outside 32 x.toInt, e := false, c := false }⟩

/-- The top 24 bits rounded (R179): convergent for R = 1, `RND_MODE0` for R = 0. -/
def roundTop (convergent : Bool) (x : Word40) : Int :=
  let q0 := x.toInt / 65536
  let frac := x.toNat % 65536
  if convergent then
    if 32768 < frac || (frac = 32768 && q0 % 2 != 0) then q0 + 1 else q0
  else
    match rndMode0 with
    | .truncate => if x.msb && frac != 0 then q0 + 1 else q0
    | .nearestTiesToZero => if 32768 < frac || (frac = 32768 && x.msb) then q0 + 1 else q0

/-- RND (R179): rounded and saturated to 16 bits. -/
def rndOut (convergent : Bool) (x : Word40) : AluOut 16 :=
  let q := roundTop convergent x
  let res := if 32767 < q then 0x7FFF#16 else if q < -32768 then 0x8000#16 else BitVec.ofInt 16 q
  ⟨res, { z := decide (res = 0#16), n := res.msb, v := outside 16 q, e := false, c := false }⟩

/-! ## The multiplier -/

/-- An operand read as signed or unsigned (R190). -/
def mulOperand (signed : Bool) (a : Word) : Int := if signed then a.toInt else (a.toNat : Int)

/-- Which operands of a mode are signed: the first, the second (R109). -/
def modeSigned : MulMode → Bool × Bool
  | .ss => (true, true)
  | .su => (true, false)
  | .us => (false, true)
  | .uu => (false, false)

/-- `mulcore` (R190). -/
def mulCore (integer sat : Bool) (mode : MulMode) (a b : Word) : Word32 :=
  let prod := mulOperand (modeSigned mode).1 a * mulOperand (modeSigned mode).2 b
  if integer then BitVec.ofInt 32 prod
  else if sat && mode = .ss && a = 0x8000#16 && b = 0x8000#16 then 0x7FFFFFFF#32
  else BitVec.ofInt 32 (2 * prod)

/-- The product of two registers under the mode bits I and S (R191, R198). -/
def State.product (s : State) (mode : MulMode) (op1 op2 : Reg16) : Word32 :=
  mulCore s.fI s.fS mode (s.r16 op1) (s.r16 op2)

/-! ## The shared forms of an ALU instruction -/

/-- Write a 16-bit result and its flags (R142). -/
def State.retire16 (s : State) (r : Reg16) (o : AluOut 16) : State := (s.writeR16 r o.res).setFlags o.flags

/-- Write a 40-bit result and its flags (R142). -/
def State.retire40 (s : State) (q : AccName) (o : AluOut 40) : State := (s.writeAcc q o.res).setFlags o.flags

/-- An instruction with a 16-bit result. -/
def put16 (r : Reg16) (o : AluOut 16) (pm : ParMove) (s : State) : Result :=
  finish (writesOf (.r16 r)) pm s (s.retire16 r o)

/-- An instruction with a 40-bit result. -/
def put40 (q : AccName) (o : AluOut 40) (pm : ParMove) (s : State) : Result :=
  finish (writesOfAcc q) pm s (s.retire40 q o)

/-- A two-operand instruction of the width of R140, given its function at each width. -/
def aluTwo (f16 : Word → Word → AluOut 16) (f40 : Word40 → Word40 → AluOut 40)
    (op1 op2 : AluSrc) (dst : AluDst) (pm : ParMove) (s : State) : Result :=
  if op1 = .p then .fault (.reservedEncoding .pAsOp1)
  else
    match op1.is40 || op2.is40, dst with
    | false, .r16 r => put16 r (f16 (s.val16 op1) (s.val16 op2)) pm s
    | true, .acc q => put40 q (f40 (s.val40 op1) (s.val40 op2)) pm s
    | false, .acc _ => .fault (.reservedEncoding .resultCode)
    | true, .r16 _ => .fault (.reservedEncoding .resultCode)

/-- A single-operand instruction of the operand's width (R170). -/
def aluOne (f16 : Word → AluOut 16) (f40 : Word40 → AluOut 40)
    (op2 : AluSrc) (dst : AluDst) (pm : ParMove) (s : State) : Result :=
  match op2.is40, dst with
  | false, .r16 r => put16 r (f16 (s.val16 op2)) pm s
  | true, .acc q => put40 q (f40 (s.val40 op2)) pm s
  | false, .acc _ => .fault (.reservedEncoding .resultCode)
  | true, .r16 _ => .fault (.reservedEncoding .resultCode)

/-- Addition with a carry-in at either width (R145, R146). -/
def addForm (op1 op2 : AluSrc) (cin : Bool) (dst : AluDst) (pm : ParMove) (s : State) : Result :=
  aluTwo (fun x y => adder s.fS x y cin) (fun x y => adder s.fS x y cin) op1 op2 dst pm s

/-- Subtraction as addition of the complement with a carry-in (R147, R148). -/
def subForm (op1 op2 : AluSrc) (cin : Bool) (dst : AluDst) (pm : ParMove) (s : State) : Result :=
  aluTwo (fun x y => adder s.fS x (~~~y) cin) (fun x y => adder s.fS x (~~~y) cin) op1 op2 dst pm s

/-- Exclusive or at either width (R151, R152). -/
def xorForm (op1 op2 : AluSrc) (dst : AluDst) (pm : ParMove) (s : State) : Result :=
  aluTwo (fun x y => logicOut (x ^^^ y)) (fun x y => logicOut (x ^^^ y)) op1 op2 dst pm s

/-- A product into P, no flag (R191). -/
def mulForm (mode : MulMode) (op1 op2 : Reg16) (pm : ParMove) (s : State) : Result :=
  finish [] pm s { s with p := s.product mode op1 op2 }

/-- MAC and MSU: the accumulator and its flags from the sum with the previous P, then the new product (R192, R193). -/
def macForm (o : AluOut 40) (mode : MulMode) (op1 op2 : Reg16) (q : AccName) (pm : ParMove) (s : State) : Result :=
  finish (writesOfAcc q) pm s { s.retire40 q o with p := s.product mode op1 op2 }

end Sys2Proof.Machine
end

