-- ==== Sys2Proof/Machine/AluOne.lean ====
section
/-! DEFINITION. The meanings of the single-operand ALU instructions (spec/41_alu_single_operand.md). -/

namespace Sys2Proof.Machine

/-- ABS (R171). -/
def execAbs (op2 : AluSrc) (dst : AluDst) (pm : ParMove) (s : State) : Result :=
  aluOne (absOut s) (absOut s) op2 dst pm s

/-- ASR (R172). -/
def execAsr (op2 : AluSrc) (dst : AluDst) (pm : ParMove) (s : State) : Result :=
  aluOne (asrOut s) (asrOut s) op2 dst pm s

/-- LSR (R173). -/
def execLsr (op2 : AluSrc) (dst : AluDst) (pm : ParMove) (s : State) : Result :=
  aluOne lsrOut lsrOut op2 dst pm s

/-- LSRC (R175). -/
def execLsrc (op2 : AluSrc) (dst : AluDst) (pm : ParMove) (s : State) : Result :=
  aluOne (lsrcOut s.fC) (lsrcOut s.fC) op2 dst pm s

/-- The arithmetic NOP with no move (R176): no effect. -/
def execNop (s : State) : Result := finish [] .none s s

/-- EXP (R177): the result is always 16 bits, the operand has its own width. -/
def execExp (op2 : AluSrc) (dst : Reg16) (pm : ParMove) (s : State) : Result :=
  put16 dst (if op2.is40 then expOut (s.val40 op2) else expOut (s.val16 op2)) pm s

/-- SAT (R178): a 40-bit operand and a 40-bit result; a 16-bit operand is not described (U16). -/
def execSat (op2 : AluSrc) (dst : AccName) (pm : ParMove) (s : State) : Result :=
  if op2.is40 then put40 dst (satOut (s.val40 op2)) pm s else .fault .satRndOperand

/-- RND (R179): a 40-bit operand and a 16-bit result; a 16-bit operand is not described (U16). -/
def execRnd (op2 : AluSrc) (dst : Reg16) (pm : ParMove) (s : State) : Result :=
  if op2.is40 then put16 dst (rndOut s.fR (s.val40 op2)) pm s else .fault .satRndOperand

end Sys2Proof.Machine
end

