-- ==== Sys2Proof/Machine/AluTwo.lean ====
section
/-! DEFINITION. The meanings of the two-operand ALU instructions and of their second names
(spec/40_alu_two_operand.md). -/

namespace Sys2Proof.Machine

/-- ADD (R145). -/
def execAdd (op1 op2 : AluSrc) (dst : AluDst) (pm : ParMove) (s : State) : Result :=
  addForm op1 op2 false dst pm s

/-- ADDC (R146): C before the instruction is the carry-in. -/
def execAddc (op1 op2 : AluSrc) (dst : AluDst) (pm : ParMove) (s : State) : Result :=
  addForm op1 op2 s.fC dst pm s

/-- SUB (R147). -/
def execSub (op1 op2 : AluSrc) (dst : AluDst) (pm : ParMove) (s : State) : Result :=
  subForm op1 op2 true dst pm s

/-- SUBC (R148, D16): Op1 - Op2 - (1 - C). -/
def execSubc (op1 op2 : AluSrc) (dst : AluDst) (pm : ParMove) (s : State) : Result :=
  subForm op1 op2 s.fC dst pm s

/-- AND (R149). -/
def execAnd (op1 op2 : AluSrc) (dst : AluDst) (pm : ParMove) (s : State) : Result :=
  aluTwo (fun x y => logicOut (x &&& y)) (fun x y => logicOut (x &&& y)) op1 op2 dst pm s

/-- OR (R150). -/
def execOr (op1 op2 : AluSrc) (dst : AluDst) (pm : ParMove) (s : State) : Result :=
  aluTwo (fun x y => logicOut (x ||| y)) (fun x y => logicOut (x ||| y)) op1 op2 dst pm s

/-- XOR (R151). -/
def execXor (op1 op2 : AluSrc) (dst : AluDst) (pm : ParMove) (s : State) : Result :=
  xorForm op1 op2 dst pm s

/-- ASHL (R153): the width is that of operand 1, the count is a signed 16-bit operand. -/
def execAshl (op1 op2 : AluSrc) (dst : AluDst) (pm : ParMove) (s : State) : Result :=
  if op1 = .p then .fault (.reservedEncoding .pAsOp1)
  else if op2.is40 then .fault (.reservedEncoding .wideShiftCount)
  else
    match op1.is40, dst with
    | false, .r16 r => put16 r (shiftArith s (s.val16 op1) (s.val16 op2).toInt) pm s
    | true, .acc q => put40 q (shiftArith s (s.val40 op1) (s.val16 op2).toInt) pm s
    | false, .acc _ => .fault (.reservedEncoding .resultCode)
    | true, .r16 _ => .fault (.reservedEncoding .resultCode)

/-- LSL (R154): ADD of an operand to itself. -/
def execLsl (op : AluSrc) (dst : AluDst) (pm : ParMove) (s : State) : Result :=
  addForm op op false dst pm s

/-- LSLC (R155): ADDC of an operand to itself. -/
def execLslc (op : AluSrc) (dst : AluDst) (pm : ParMove) (s : State) : Result :=
  addForm op op s.fC dst pm s

/-- NOT (R152): XOR with ONES. -/
def execNot (op2 : AluSrc) (dst : AluDst) (pm : ParMove) (s : State) : Result :=
  xorForm .ones op2 dst pm s

/-- ADD NULL,P,An (R156): saves P in an accumulator. -/
def execAddNullP (q : AccName) (pm : ParMove) (s : State) : Result :=
  addForm .null .p false (.acc q) pm s

end Sys2Proof.Machine
end

