-- ==== Sys2Proof/Machine/Control.lean ====
section
/-! DEFINITION. The meanings of the control instructions (spec/44_control.md). `s.pc` is the address of the
instruction; the sequencer (Sys2Proof/Machine/Sequencer.lean) moves it on afterwards (R261). -/

namespace Sys2Proof.Machine

/-- Clear L and, where the condition holds in the state before, schedule the transfer (R266, R267, R270). -/
def jumpIf (s : State) (cond : Cond) (t : Target) : State :=
  if condHolds s cond then (s.setL false).schedule t else s.setL false

/-- CALLcc saves the address after the delay slot, whether or not the condition holds (R269). -/
def callIf (s : State) (cond : Cond) (addr : Word) : State :=
  { jumpIf s cond ⟨none, addr⟩ with lr0 := s.pc + 2#16 }

/-- Jcc (R267). -/
def execJcc (addr : Word) (cond : Cond) (s : State) : Result := .next (jumpIf s cond ⟨none, addr⟩)

/-- J (R268). -/
def execJ (addr : Word) (s : State) : Result := .next (jumpIf s .always ⟨none, addr⟩)

/-- CALLcc (R269). -/
def execCallcc (addr : Word) (cond : Cond) (s : State) : Result := .next (callIf s cond addr)

/-- CALL (R269). -/
def execCall (addr : Word) (s : State) : Result := .next (callIf s .always addr)

/-- JRcc, form 1 (R270). -/
def execJrcc (cond : Cond) (s : State) : Result := .next (jumpIf s cond ⟨none, s.lr0⟩)

/-- JR (R270). -/
def execJr (s : State) : Result := .next (jumpIf s .always ⟨none, s.lr0⟩)

/-- JRcc, form 2: the far jump to page In, address LR0 (R271, D11). -/
def execJrccIn (n : IReg) (cond : Cond) (s : State) : Result := .next (jumpIf s cond ⟨some (s.idx n), s.lr0⟩)

/-- RETI (R272). -/
def execReti (s : State) : Result := .next (s.returnFromInterrupt none)

/-- RETI with an index register: to page In, address LR1 (R273, D12; log entry 21). -/
def execRetiIn (n : IReg) (s : State) : Result := .next (s.returnFromInterrupt (some (s.idx n)))

/-- The index update of JMPI: linear, never through the pair register (R276). -/
def jmpiIndex (mm : JmpiMod) (n : IReg) (s : State) : State :=
  match mm with
  | .keep => s
  | .inc => s.setIdx n (s.idx n + 1#16)
  | .dec => s.setIdx n (s.idx n - 1#16)

/-- JMPI (R276): to page 0, the next instruction cancelled. -/
def execJmpi (addr : Word) (mm : JmpiMod) (n : IReg) (s : State) : Result :=
  .next { (jmpiIndex mm n s).schedule ⟨some 0#16, addr⟩ with cancel := true }

/-- LOOP (R278): LS is the second instruction from here; the count is read before (LS may be the count register). A
term whose count register has no five-bit code has no encoding (R99). -/
def execLoop (cnt : MoveReg) (endAddr : Word) (s : State) : Result :=
  if cnt.loopCount then
    .next { s.setL false with ls := s.pc + 2#16, le := endAddr, lc := s.readReg .busX cnt }
  else .fault (.reservedEncoding .moveRegister)

/-- HALT (R280): a NOP when the interrupt state machine is not idle. -/
def execHalt (s : State) : Result := .next (if s.irqIdle then { s with halted := true } else s)

/-- A reserved word has no effect described at all (R120, D7). -/
def execReserved (why : ReservedWhy) (_w : Word32) (_s : State) : Result := .fault (.reservedEncoding why)

end Sys2Proof.Machine
end

