-- ==== Sys2Proof/Machine/Moves.lean ====
section
/-! DEFINITION. The meanings of LDC and of the moves: under the arithmetic NOP and in the double forms
(spec/43_moves.md). -/

namespace Sys2Proof.Machine

/-- LDC (R222). -/
def execLdc (c : Word) (r : MoveReg) (s : State) : Result := .next (s.writeReg false r c)

/-- The total NOP: LDC to the Move NOP register (R122, R222). -/
def execNopTotal (s : State) : Result := .next (s.writeReg false .nop 0#16)

/-- LDX, full form (R223). -/
def execLdxFull (n : IReg) (p : BitVec 4) (r : MoveReg) (s : State) : Result :=
  finish [] (.full .x ⟨false, n, p, r⟩) s s

/-- STX, full form (R224). -/
def execStxFull (n : IReg) (p : BitVec 4) (r : MoveReg) (s : State) : Result :=
  finish [] (.full .x ⟨true, n, p, r⟩) s s

/-- LDY, full form (R223). -/
def execLdyFull (n : IReg) (p : BitVec 4) (r : MoveReg) (s : State) : Result :=
  finish [] (.full .y ⟨false, n, p, r⟩) s s

/-- STY, full form (R224). -/
def execStyFull (n : IReg) (p : BitVec 4) (r : MoveReg) (s : State) : Result :=
  finish [] (.full .y ⟨true, n, p, r⟩) s s

/-- Two short moves (R225). -/
def execTwoShort (x y : ShortMove) (s : State) : Result := finish [] (.short x y) s s

/-- MVX, parallel form (R233). -/
def execMvxParallel (src dst : MoveReg) (s : State) : Result := finish [] (.reg src dst) s s

/-- LDX, long address (R236). -/
def execLdxLong (n : IReg) (r : MoveReg) (s : State) : Result := finish [] (.longX false n r) s s

/-- STX, long address (R236). -/
def execStxLong (n : IReg) (r : MoveReg) (s : State) : Result := finish [] (.longX true n r) s s

/-- LDI (R237). -/
def execLdi (n : IReg) (p : BitVec 4) (q : AccName) (s : State) : Result := finish [] (.ibus false n p q) s s

/-- STI (R238). -/
def execSti (n : IReg) (p : BitVec 4) (q : AccName) (s : State) : Result := finish [] (.ibus true n p q) s s

/-- One half of a double full move; `none` is a Move NOP (R228). -/
def applyHalf (h : Option FullMove) (bus : Bus) (old s : State) : State :=
  match h with
  | none => s
  | some m => applyFull m bus old s

/-- What stops the access of a half (R68, U22). -/
def halfAccess (h : Option FullMove) (bus : Bus) (s : State) : Option Fault :=
  match h with
  | none => none
  | some m => fullAccess m bus s

/-- What stops the accesses of a double full move, the X access first. -/
def doubleAccess (x y : Option FullMove) (s : State) : Option Fault := (halfAccess x .x s).or (halfAccess y .y s)

def writesOfHalf : Option FullMove → List MoveReg
  | none => []
  | some m => writesOfFull m

/-- The double full move (R228): both halves read the state before the instruction (R44). -/
def execDoubleFull (x y : Option FullMove) (s : State) : Result :=
  if twice (writesOfHalf x ++ writesOfHalf y) then .fault .writeConflict
  else
    match doubleAccess x y s with
    | some f => .fault f
    | none => .next (applyHalf y .y s (applyHalf x .x s s))

/-- The execution units of R234. -/
inductive ExecUnit where
  | alu | dag | pcu
  deriving DecidableEq, Repr

/-- The unit of a move register; NULL and Move NOP are in no unit (R234). -/
def unitOf : MoveReg → Option ExecUnit
  | .r16 _ => some .alu
  | .guard _ => some .alu
  | .idx _ => some .dag
  | .lr0 => some .pcu
  | .lr1 => some .pcu
  | .mr0 => some .pcu
  | .lc => some .pcu
  | .ls => some .pcu
  | .le => some .pcu
  | .ipr0 => some .pcu
  | .ipr1 => some .pcu
  | .null => none
  | .nop => none

/-- Whether a move of a double register move stays within one unit (R234, N30). -/
def withinUnit (src dst : MoveReg) : Bool :=
  match unitOf src, unitOf dst with
  | some u, some u' => u = u'
  | _, _ => false

/-- The double register move (R234). Where it stays within one unit and also writes one register twice (R45), the spec
names both faults and not which comes first: here that of R234 (DESIGN CHOICE, log entry 38). -/
def execMvxMvyDouble (xs xd ys yd : MoveReg) (s : State) : Result :=
  if withinUnit xs xd || withinUnit ys yd then .fault .doubleMoveUnits
  else if twice (writesOfMove xs xd ++ writesOfMove ys yd) then .fault .writeConflict
  else .next (moveReg .busY ys yd s (moveReg .busX xs xd s s))

end Sys2Proof.Machine
end

