-- ==== Sys2Proof/Machine/Mult.lean ====
section
/-! DEFINITION. The meanings of the multiplier instructions (spec/42_multiplier.md). -/

namespace Sys2Proof.Machine

/-- MUL (R191). -/
def execMul (mode : MulMode) (op1 op2 : Reg16) (pm : ParMove) (s : State) : Result :=
  mulForm mode op1 op2 pm s

/-- MULSS (R191). -/
def execMulss (op1 op2 : Reg16) (pm : ParMove) (s : State) : Result := mulForm .ss op1 op2 pm s

/-- MULSU (R191). -/
def execMulsu (op1 op2 : Reg16) (pm : ParMove) (s : State) : Result := mulForm .su op1 op2 pm s

/-- MULUS (R191). -/
def execMulus (op1 op2 : Reg16) (pm : ParMove) (s : State) : Result := mulForm .us op1 op2 pm s

/-- MULUU (R191). -/
def execMuluu (op1 op2 : Reg16) (pm : ParMove) (s : State) : Result := mulForm .uu op1 op2 pm s

/-- MAC (R192): the accumulator plus the previous P. -/
def execMac (op1 : Reg16) (mode : MulMode) (op2 : Reg16) (q : AccName) (pm : ParMove) (s : State) : Result :=
  macForm (adder s.fS (s.acc q).value (wideOfP s.p) false) mode op1 op2 q pm s

/-- MSU (R193): the accumulator minus the previous P. -/
def execMsu (op1 : Reg16) (mode : MulMode) (op2 : Reg16) (q : AccName) (pm : ParMove) (s : State) : Result :=
  macForm (adder s.fS (s.acc q).value (~~~(wideOfP s.p)) true) mode op1 op2 q pm s

/-- RESP (R194): two registers become P; which is the high half is the open parameter `RESP_ORDER` (D13, log entry
8). -/
def execResp (op1 op2 : Reg16) (s : State) : Result :=
  .next { s with p := if Config.respOp1High then s.r16 op1 ++ s.r16 op2 else s.r16 op2 ++ s.r16 op1 }

end Sys2Proof.Machine
end

