-- ==== Sys2Proof/Machine/Dispatch.lean ====
section
/-! DEFINITION. The effect of one instruction at the address `s.pc`: one arm for every constructor of `Instr`. -/

namespace Sys2Proof.Machine

def exec (i : Instr) (s : State) : Host.Outcome State Fault Refusal :=
  match i with
  | .ldc c r => Sys2Proof.Machine.execLdc c r s
  | .jrcc cond => Sys2Proof.Machine.execJrcc cond s
  | .jrccIn n cond => Sys2Proof.Machine.execJrccIn n cond s
  | .reti => Sys2Proof.Machine.execReti s
  | .retiIn n => Sys2Proof.Machine.execRetiIn n s
  | .resp op1 op2 => Sys2Proof.Machine.execResp op1 op2 s
  | .loop cnt endAddr => Sys2Proof.Machine.execLoop cnt endAddr s
  | .jcc addr cond => Sys2Proof.Machine.execJcc addr cond s
  | .callcc addr cond => Sys2Proof.Machine.execCallcc addr cond s
  | .jmpi addr mm n => Sys2Proof.Machine.execJmpi addr mm n s
  | .mvxMvyDouble xs xd ys yd => Sys2Proof.Machine.execMvxMvyDouble xs xd ys yd s
  | .halt => Sys2Proof.Machine.execHalt s
  | .doubleFull x y => Sys2Proof.Machine.execDoubleFull x y s
  | .add op1 op2 dst pm => Sys2Proof.Machine.execAdd op1 op2 dst pm s
  | .sub op1 op2 dst pm => Sys2Proof.Machine.execSub op1 op2 dst pm s
  | .addc op1 op2 dst pm => Sys2Proof.Machine.execAddc op1 op2 dst pm s
  | .subc op1 op2 dst pm => Sys2Proof.Machine.execSubc op1 op2 dst pm s
  | .ashl op1 op2 dst pm => Sys2Proof.Machine.execAshl op1 op2 dst pm s
  | .and op1 op2 dst pm => Sys2Proof.Machine.execAnd op1 op2 dst pm s
  | .or op1 op2 dst pm => Sys2Proof.Machine.execOr op1 op2 dst pm s
  | .xor op1 op2 dst pm => Sys2Proof.Machine.execXor op1 op2 dst pm s
  | .mac op1 mode op2 q pm => Sys2Proof.Machine.execMac op1 mode op2 q pm s
  | .msu op1 mode op2 q pm => Sys2Proof.Machine.execMsu op1 mode op2 q pm s
  | .mul mode op1 op2 pm => Sys2Proof.Machine.execMul mode op1 op2 pm s
  | .abs op2 dst pm => Sys2Proof.Machine.execAbs op2 dst pm s
  | .asr op2 dst pm => Sys2Proof.Machine.execAsr op2 dst pm s
  | .lsr op2 dst pm => Sys2Proof.Machine.execLsr op2 dst pm s
  | .lsrc op2 dst pm => Sys2Proof.Machine.execLsrc op2 dst pm s
  | .exp op2 dst pm => Sys2Proof.Machine.execExp op2 dst pm s
  | .sat op2 dst pm => Sys2Proof.Machine.execSat op2 dst pm s
  | .rnd op2 dst pm => Sys2Proof.Machine.execRnd op2 dst pm s
  | .nop => Sys2Proof.Machine.execNop s
  | .ldxFull n p r => Sys2Proof.Machine.execLdxFull n p r s
  | .stxFull n p r => Sys2Proof.Machine.execStxFull n p r s
  | .ldyFull n p r => Sys2Proof.Machine.execLdyFull n p r s
  | .styFull n p r => Sys2Proof.Machine.execStyFull n p r s
  | .twoShort x y => Sys2Proof.Machine.execTwoShort x y s
  | .mvxParallel src dst => Sys2Proof.Machine.execMvxParallel src dst s
  | .ldxLong n r => Sys2Proof.Machine.execLdxLong n r s
  | .stxLong n r => Sys2Proof.Machine.execStxLong n r s
  | .ldi n p q => Sys2Proof.Machine.execLdi n p q s
  | .sti n p q => Sys2Proof.Machine.execSti n p q s
  | .mulss op1 op2 pm => Sys2Proof.Machine.execMulss op1 op2 pm s
  | .mulsu op1 op2 pm => Sys2Proof.Machine.execMulsu op1 op2 pm s
  | .mulus op1 op2 pm => Sys2Proof.Machine.execMulus op1 op2 pm s
  | .muluu op1 op2 pm => Sys2Proof.Machine.execMuluu op1 op2 pm s
  | .lsl op dst pm => Sys2Proof.Machine.execLsl op dst pm s
  | .lslc op dst pm => Sys2Proof.Machine.execLslc op dst pm s
  | .not op2 dst pm => Sys2Proof.Machine.execNot op2 dst pm s
  | .addNullP q pm => Sys2Proof.Machine.execAddNullP q pm s
  | .j addr => Sys2Proof.Machine.execJ addr s
  | .call addr => Sys2Proof.Machine.execCall addr s
  | .jr => Sys2Proof.Machine.execJr s
  | .nopTotal => Sys2Proof.Machine.execNopTotal s
  | .reserved why w => Sys2Proof.Machine.execReserved why w s

end Sys2Proof.Machine
end

