-- ==== Sys2Proof/Machine/Sequencer.lean ====
section
/-! DEFINITION. The step of the whole machine (spec/44_control.md R261), the sequence restrictions
(spec/70_reset_and_hazards.md R333 to R346) and where interrupts are accepted (spec/60_exceptions.md R295). -/

namespace Sys2Proof.Machine

/-! ## What the restrictions need of an instruction -/

/-- The parallel move of an instruction: its own, or itself for a move that stands alone. -/
def parOf : Instr → ParMove
  | .add _ _ _ pm => pm
  | .sub _ _ _ pm => pm
  | .addc _ _ _ pm => pm
  | .subc _ _ _ pm => pm
  | .ashl _ _ _ pm => pm
  | .and _ _ _ pm => pm
  | .or _ _ _ pm => pm
  | .xor _ _ _ pm => pm
  | .mac _ _ _ _ pm => pm
  | .msu _ _ _ _ pm => pm
  | .mul _ _ _ pm => pm
  | .abs _ _ pm => pm
  | .asr _ _ pm => pm
  | .lsr _ _ pm => pm
  | .lsrc _ _ pm => pm
  | .exp _ _ pm => pm
  | .sat _ _ pm => pm
  | .rnd _ _ pm => pm
  | .ldxFull n p r => .full .x ⟨false, n, p, r⟩
  | .stxFull n p r => .full .x ⟨true, n, p, r⟩
  | .ldyFull n p r => .full .y ⟨false, n, p, r⟩
  | .styFull n p r => .full .y ⟨true, n, p, r⟩
  | .twoShort x y => .short x y
  | .mvxParallel src dst => .reg src dst
  | .ldxLong n r => .longX false n r
  | .stxLong n r => .longX true n r
  | .ldi n p q => .ibus false n p q
  | .sti n p q => .ibus true n p q
  | .mulss _ _ pm => pm
  | .mulsu _ _ pm => pm
  | .mulus _ _ pm => pm
  | .muluu _ _ pm => pm
  | .lsl _ _ pm => pm
  | .lslc _ _ pm => pm
  | .not _ _ pm => pm
  | .addNullP _ pm => pm
  | .ldc _ _ => .none
  | .jrcc _ => .none
  | .jrccIn _ _ => .none
  | .reti => .none
  | .retiIn _ => .none
  | .resp _ _ => .none
  | .loop _ _ => .none
  | .jcc _ _ => .none
  | .callcc _ _ => .none
  | .jmpi _ _ _ => .none
  | .mvxMvyDouble _ _ _ _ => .none
  | .halt => .none
  | .doubleFull _ _ => .none
  | .nop => .none
  | .j _ => .none
  | .call _ => .none
  | .jr => .none
  | .nopTotal => .none
  | .reserved _ _ => .none

/-- A change-of-flow instruction after which a delay slot is executed (R260, R334). -/
def ownsDelaySlot : Instr → Bool
  | .jrcc _ => true
  | .jrccIn _ _ => true
  | .reti => true
  | .retiIn _ => true
  | .loop _ _ => true
  | .jcc _ _ => true
  | .callcc _ _ => true
  | .j _ => true
  | .call _ => true
  | .jr => true
  | _ => false

def isJmpi : Instr → Bool
  | .jmpi _ _ _ => true
  | _ => false

/-- A change-of-flow instruction: J, Jcc, JRcc, CALLcc, RETI, LOOP, JMPI (R10, R334). -/
def changesFlow (i : Instr) : Bool := ownsDelaySlot i || isJmpi i

def isReti : Instr → Bool
  | .reti => true
  | .retiIn _ => true
  | _ => false

/-- The condition of a conditional jump or call (R335). -/
def condOf : Instr → Cond
  | .jrcc cond => cond
  | .jrccIn _ cond => cond
  | .jcc _ cond => cond
  | .callcc _ cond => cond
  | _ => .always

/-- The registers a change-of-flow takes its target from (R342). R342 names the index register of JRcc form 2 only; that
of RETI with an index register is treated the same way, by the model's own choice (DESIGN CHOICE, log entry 31). -/
def targetRegs : Instr → List MoveReg
  | .jrcc _ => [.lr0]
  | .jr => [.lr0]
  | .jrccIn n _ => [.lr0, .idx n]
  | .reti => [.lr1]
  | .retiIn n => [.lr1, .idx n]
  | _ => []

/-- An ALU instruction: its Flags line lists Z, N, V, E and C (R128). -/
def setsFlags : Instr → Bool
  | .add _ _ _ _ => true
  | .sub _ _ _ _ => true
  | .addc _ _ _ _ => true
  | .subc _ _ _ _ => true
  | .ashl _ _ _ _ => true
  | .and _ _ _ _ => true
  | .or _ _ _ _ => true
  | .xor _ _ _ _ => true
  | .mac _ _ _ _ _ => true
  | .msu _ _ _ _ _ => true
  | .abs _ _ _ => true
  | .asr _ _ _ => true
  | .lsr _ _ _ => true
  | .lsrc _ _ _ => true
  | .exp _ _ _ => true
  | .sat _ _ _ => true
  | .rnd _ _ _ => true
  | .lsl _ _ _ => true
  | .lslc _ _ _ => true
  | .not _ _ _ => true
  | .addNullP _ _ => true
  | _ => false

/-- The registers a full move loads. -/
def loadsOfFull (m : FullMove) : List (WriteKind × MoveReg) :=
  if m.store || m.reg = .nop then [] else [(.memory, m.reg)]

/-- The registers a parallel move writes explicitly, and how. -/
def movesOfPar : ParMove → List (WriteKind × MoveReg)
  | .none => []
  | .full _ m => loadsOfFull m
  | .short x y => loadsOfFull x.toFull ++ loadsOfFull y.toFull
  | .reg src dst => if src = .nop || dst = .nop then [] else [(.regMove, dst)]
  | .longX store _ r => if store || r = .nop then [] else [(.memory, r)]
  | .ibus _ _ _ _ => []

def movesOfHalf : Option FullMove → List (WriteKind × MoveReg)
  | none => []
  | some m => loadsOfFull m

/-- The registers an instruction writes explicitly, and how (R333). -/
def explicitWrites : Instr → List (WriteKind × MoveReg)
  | .ldc _ r => [(.constant, r)]
  | .loop _ _ => [(.loopInstr, .ls), (.loopInstr, .le), (.loopInstr, .lc)]
  | .mvxMvyDouble xs xd ys yd => movesOfPar (.reg xs xd) ++ movesOfPar (.reg ys yd)
  | .doubleFull x y => movesOfHalf x ++ movesOfHalf y
  | i => movesOfPar (parOf i)

/-- A store of LC on a data bus. -/
def storesLc (m : FullMove) : Bool := m.store && m.reg = .lc

def parReadsLc : ParMove → Bool
  | .none => false
  | .full _ m => storesLc m
  | .short _ _ => false
  | .reg src dst => src = .lc && dst != .nop
  | .longX store _ r => store && r = .lc
  | .ibus _ _ _ _ => false

def halfReadsLc : Option FullMove → Bool
  | none => false
  | some m => storesLc m

/-- An instruction that stores or moves LC, or LOOP with LC as count (R340). -/
def readsLc : Instr → Bool
  | .loop cnt _ => cnt = .lc
  | .mvxMvyDouble xs xd ys yd => parReadsLc (.reg xs xd) || parReadsLc (.reg ys yd)
  | .doubleFull x y => halfReadsLc x || halfReadsLc y
  | i => parReadsLc (parOf i)

def isIbus : ParMove → Bool
  | .ibus _ _ _ _ => true
  | _ => false

def writesRegister (ws : List (WriteKind × MoveReg)) (r : MoveReg) : Bool := ws.any fun w => w.2 = r

/-- What an instruction changes of the flags and S: by its Flags line, or by writing MR0 (R335). -/
def flagsChanged (i : Instr) : List CondFlag :=
  if writesRegister (explicitWrites i) .mr0 then [.z, .n, .v, .e, .c, .s]
  else if setsFlags i then [.z, .n, .v, .e, .c]
  else []

/-- The history entry of an instruction executed in `s`, after which the state is `s'` (R333). Only a move, load or LDC of
MR0 "writes MR0 with an L different from the current one" (R340): that J, Jcc, JRcc, CALLcc, RETI and LOOP clear L is not
counted as a change near a loop end, which the spec does not settle (DESIGN CHOICE, log entry 31). -/
def histOf (i : Instr) (s s' : State) : Hist :=
  { writes := explicitWrites i
    flags := flagsChanged i
    readsLc := readsLc i
    ldiSti := isIbus (parOf i)
    delayOwner := ownsDelaySlot i
    changedL := writesRegister (explicitWrites i) .mr0 && s'.fL != s.fL
    leBefore := s.le }

/-- "A cancelled instruction (after JMPI) counts as a NOP" (R333). -/
def histOfNop (s : State) : Hist :=
  { writes := [], flags := [], readsLc := false, ldiSti := false, delayOwner := false, changedL := false,
    leBefore := s.le }

/-! ## The history and the loop end -/

/-- A property of a history entry, where there is one. -/
def histHas (h : Option Hist) (f : Hist → Bool) : Bool :=
  match h with
  | some e => f e
  | none => false

/-- A register written by a load or a register move (R342). An index register that the instruction before only
post-modified is not counted: R342 speaks of what is "written ... through LDX, LDY or a register move" and leaves
post-modification open (DESIGN CHOICE, log entry 31). -/
def movedInto (h : Hist) (r : MoveReg) : Bool :=
  h.writes.any fun w => (w.1 = .memory || w.1 = .regMove) && w.2 = r

/-- Whether an address is LE or LE - 1 with L = 0 (R336). The spec does not say whether LE - 1 wraps; here it does, so for
LE = 0x0000 it is 0xFFFF (DESIGN CHOICE, log entries 27 and 31). -/
def atLoopEnd (s : State) : Bool := !s.fL && (s.pc = s.le || s.pc = s.le - 1#16)

/-! ## Interrupt requests -/

/-- The request the controller presents at this boundary (R292): its time has come and interrupts are enabled. -/
def State.presented (s : State) : Option (BitVec 5) :=
  match s.irqInputs with
  | [] => none
  | q :: _ => if q.wait = 0 && s.irqEnabled then some q.vec else none

/-- Where an interrupt is accepted (R295, D6). The four conditions are R295's; two more are the model's reading of "never
between a change-of-flow instruction and its delay slot" and of what R299 excludes (DESIGN CHOICE, log entry 29): not
between LOOP, or a jump whose condition did not hold, and the next instruction, and not before the instruction at LE or
LE - 1 with L = 0, "the fetch shadow of a loop end". The last does not hold back the request that ended HALT: its return
address "is that of the 4th instruction after HALT" (R280, D25), wherever that stands. A request that is not accepted waits
for the next boundary. -/
def State.acceptsIrq (s : State) : Bool :=
  s.pending.isNone && !s.cancel && s.loopSkip = 0 && s.haltSkid = 0 && !histHas s.prev1 (·.delayOwner) &&
    (s.haltWake || !atLoopEnd s)

/-! ## The restrictions -/

/-- The restrictions checked before an instruction executes (R334 to R338, R342, R343, R346, R280); `s` is the state
at the boundary. -/
def hazardBefore (i : Instr) (s : State) : Option Fault :=
  if changesFlow i && histHas s.prev1 (·.delayOwner) then some .changeOfFlowInDelaySlot
  else if changesFlow i && decide (0 < s.haltSkid) then some .haltSkidChangeOfFlow
  else if histHas s.prev1 (fun h => (condUses (condOf i)).any h.flags.contains) then some .flagsBeforeJump
  else if changesFlow i && atLoopEnd s then some .changeOfFlowAtLoopEnd
  else if isJmpi i && s.irqEnabled then some .jmpiInterruptsEnabled
  else if isReti i && s.irqEnabled then some .retiInterruptsEnabled
  else if changesFlow i && histHas s.prev1 (·.ldiSti) then some .changeOfFlowAfterLdiSti
  else if histHas s.prev1 (fun h => (targetRegs i).any (movedInto h)) then some .linkRegisterLoadBeforeUse
  else none

/-- A HALT that takes effect where the spec says a model refuses it (U21). -/
def haltRefused (i : Instr) (s : State) : Option Refusal :=
  if i = .halt && s.irqIdle && s.presented.isNone then
    if s.pending.isSome || histHas s.prev1 (·.delayOwner) then some .haltInDelaySlot
    else if atLoopEnd s then some .haltAtLoopEnd
    else none
  else none

def isLoopReg : MoveReg → Bool
  | .ls => true
  | .le => true
  | .lc => true
  | _ => false

/-- Whether LS, LE or LC was written in this way. -/
def loopWrittenBy (ws : List (WriteKind × MoveReg)) (k : WriteKind) : Bool := ws.any fun w => w.1 = k && isLoopReg w.2

/-- The values LE held from before the instruction two back to after this one (R339). -/
def leValues (s s' : State) : List Word :=
  (s.prev2.map (·.leBefore)).toList ++ (s.prev1.map (·.leBefore)).toList ++ [s.le, s'.le]

/-- The restrictions near a loop end (R339, R340), checked when the instruction at `s.pc` has executed and the state
is `s'`. "With L = 0" (R339) is read of the L after the instruction. The check for a change of L (R340) asks for no value
of L: which L is meant where L itself changes is not said (DESIGN CHOICE, log entry 31). -/
def hazardAfter (i : Instr) (s s' : State) : Option Fault :=
  if (leValues s s').contains s.pc then
    if (writesRegister (explicitWrites i) .mr0 && s'.fL != s.fL)
        || histHas s.prev1 (·.changedL) || histHas s.prev2 (·.changedL) then some .lChangeNearLoopEnd
    else if s'.fL then none
    else if loopWrittenBy (explicitWrites i) .loopInstr
        || histHas s.prev1 (fun h => loopWrittenBy h.writes .loopInstr) then some .changeOfFlowAtLoopEnd
    else if (explicitWrites i).any (fun w => isLoopReg w.2)
        || histHas s.prev1 (fun h => h.writes.any fun w => isLoopReg w.2)
        || histHas s.prev2 (fun h => loopWrittenBy h.writes .regMove) then some .loopRegisterLoadNearLoopEnd
    else if readsLc i || histHas s.prev1 (·.readsLc) then some .lcReadNearLoopEnd
    else none
  else none

/-! ## The step -/

/-- The addresses of recent STIs, one instruction later (R74, D4). -/
def ageSti (l : List (Word32 × Nat)) : List (Word32 × Nat) :=
  (l.map fun e => (e.1, e.2 - 1)).filter fun e => 0 < e.2

/-- The state in which the instruction at `s.pc` executes: the pending transfer is taken out and the countdowns have
moved on (R261); a request that is presented and not accepted makes the controller busy (R292). -/
def State.begin (s : State) : State :=
  { s.tick with
    pending := none
    cancel := false
    loopSkip := s.loopSkip - 1
    haltSkid := s.haltSkid - 1
    stiRecent := ageSti s.stiRecent
    irqIdle := s.irqIdle && s.presented.isNone }

/-- The loop end test (R264). -/
def loopEndTest (a : Word) (s : State) : State :=
  if s.lc != 0#16 then { s with lc := s.lc - 1#16, pc := s.ls } else { s with pc := a + 1#16 }

/-- The end of R261: transfer, loop end test or linear flow. `t` was pending before the instruction, `k` is `loop_skip`
before it. -/
def advance (t : Option Target) (k : Nat) (a : Word) (s : State) : State :=
  match t with
  | some t => s.transfer t
  | none =>
    if !s.fL && a = s.le && k != 1 then loopEndTest a s else { s with pc := a + 1#16 }

/-- The state after the instruction at `s.pc` has executed with effect `s'`: history, then the next address. -/
def retire (h : Hist) (s s' : State) : State :=
  advance s.pending s.loopSkip s.pc { s' with prev1 := some h, prev2 := s.prev1 }

/-- The instruction at the fetch address, as the decoder reads its bytes. -/
def State.fetch (s : State) : Instr :=
  match decodeBytes (s.imem.bytes32 s.fetchAddr.toNat) with
  | some (i, _) => i
  | none => .nopTotal

/-- Whether the fetch address was written by a recent STI (R346). -/
def State.fetchesRecentSti (s : State) : Bool := s.stiRecent.any fun e => e.1 = s.fetchAddr

/-- What the sequencer does with the outcome of `exec` (R261, R339, R340). Where the instruction's own fault, such as
`writeConflict` (R45, R345), meets a restriction of R339 or R340, the spec names both and gives no order: here the
instruction's own is reported (DESIGN CHOICE, log entry 31). -/
def completeInstr (i : Instr) (s : State) (o : Result) : Result :=
  match o with
  | .next s' =>
    if s.pending.isSome && s'.pending.isSome then .fault .changeOfFlowInDelaySlot
    else
      match hazardAfter i s s' with
      | some f => .fault f
      | none => .next (retire (histOf i s s') s s')
  | .fault f => .fault f
  | .refused r => .refused r

/-- Execute the instruction `i` fetched at the boundary `s`: the restrictions of `hazardBefore` come before a refused
HALT, and both before the instruction's own faults (the order is a DESIGN CHOICE, log entry 31). -/
def runInstr (i : Instr) (s : State) : Result :=
  match hazardBefore i s with
  | some f => .fault f
  | none =>
    match haltRefused i s with
    | some r => .refused r
    | none => completeInstr i s (exec i s.begin)

/-- The slot after JMPI: "The cancelled instruction has no effect of any kind" (R276), but it is an executed one, a NOP,
for the restrictions near a loop end (R333, R339, R340). What stands at its address is not looked at. -/
def cancelledSlot (s : State) : Result :=
  match hazardAfter .nopTotal s s.begin with
  | some f => .fault f
  | none => .next (retire (histOfNop s) s s.begin)

/-- One instruction slot: a cancelled one executes as a NOP (R276), otherwise fetch (R346, U22), decode and execute. -/
def runSlot (s : State) : Result :=
  if s.cancel then cancelledSlot s
  else if s.fetchesRecentSti then .fault .fetchAfterSti
  else
    match s.fetchFault with
    | some f => .fault f
    | none => runInstr s.fetch s

/-- A halted core: a presented request ends HALT and lets three instructions execute before it is entered (R280). -/
def haltedCycle (s : State) : State :=
  if s.presented.isSome then { s.tick with halted := false, haltSkid := 3, haltWake := true, irqIdle := false }
  else s.tick

/-- The step of the machine (R261), with the reset input first (R330). -/
def cycle (s : State) : Result :=
  if s.resetIn = some 0 then .next s.systemReset
  else if s.halted then .next (haltedCycle s)
  else
    match s.presented with
    | some vec => if s.acceptsIrq then .next (s.enterInterrupt vec) else runSlot s
    | none => runSlot s

/-- The maps with instruction RAM at an address, where nothing can be fetched from it. -/
def mapFor (m : MemMap) (a : Nat) : MemMap :=
  match fetchFaultAt m.i a with
  | some _ => { m with i := ⟨a, 1, .ram⟩ :: m.i }
  | none => m

/-- The machine about to fetch the word `w`, nothing in the way (log entry 34). -/
def placeWord (s : State) (w : Word32) : State :=
  let s' := { s with resetIn := none, halted := false, cancel := false, irqInputs := [], pageOpen := false,
                     stiRecent := [] }
  { s' with imem := s'.imem.write32 s'.fetchAddr.toNat w, map := mapFor s.map s'.fetchAddr.toNat }

end Sys2Proof.Machine
end

