-- ==== Sys2Proof/Machine/Step.lean ====
section
/-! DEFINITION. One step of the machine, and where it fetches its next instruction. -/

namespace Sys2Proof.Machine

/-- One step (spec/44_control.md R261). -/
def step (s : State) : Host.Outcome State Fault Refusal := cycle s

/-- `s` with the table's word `w` of `nbits` bits stored where `step` fetches its next instruction. -/
def State.withFetchWord (s : State) (nbits w : Nat) : State := placeWord s (tableWord nbits w)

end Sys2Proof.Machine
end

