-- ==== Sys2Proof/Safety.lean ====
section
/-! DEFINITION. The terms claims are stated in: what a register holds, what a memory byte reads as, what an
instruction leaves unchanged, what a legal state is, and when a step is an instruction and nothing else. -/

namespace Sys2Proof.Machine

/-! ## What a state holds -/

/-- What a register holds, guard registers as their eight bits with zeros above. Unlike `State.readReg` this is no
bus access, so nothing of it is free. -/
def State.peek (s : State) : MoveReg → Word
  | .r16 r => s.r16 r
  | .lr0 => s.lr0
  | .lr1 => s.lr1
  | .mr0 => s.mr0
  | .null => 0#16
  | .lc => s.lc
  | .ls => s.ls
  | .le => s.le
  | .idx n => s.idx n
  | .guard q => 0#8 ++ (s.acc q).guard
  | .nop => 0#16
  | .ipr0 => s.ipr0
  | .ipr1 => s.ipr1

/-- The value of an accumulator, Q2 : Q1 : Q0 (R23). -/
def State.accValue (s : State) (q : AccName) : Word40 := (s.acc q).value

/-! ## What a move stores to -/

/-- The byte keys of the 16-bit word at an address (R61). -/
def keys16 (a : Nat) : List Nat := [2 * a, 2 * a + 1]

/-- The byte keys of the 32-bit word at an address (R63). -/
def keys32 (a : Nat) : List Nat := [4 * a, 4 * a + 1, 4 * a + 2, 4 * a + 3]

/-- The bytes a full move on a bus stores to: those of the word its index register points at (R211). -/
def storedByFull (m : FullMove) (s : State) : List Nat :=
  if m.store && m.reg != .nop then keys16 (s.idx m.n).toNat else []

/-- The bytes a half of a double full move stores to. -/
def storedByHalf (h : Option FullMove) (s : State) : List Nat :=
  match h with
  | none => []
  | some m => storedByFull m s

/-- The bytes of X memory a parallel move stores to. -/
def storedX (pm : ParMove) (s : State) : List Nat :=
  match pm with
  | .full .x m => storedByFull m s
  | .short x _ => storedByFull x.toFull s
  | .longX store n r =>
    if store && r != .nop && longIsX (s.longAddr n) then keys16 ((s.longAddr n).extractLsb' 0 16).toNat else []
  | _ => []

/-- The bytes of Y memory a parallel move stores to. -/
def storedY (pm : ParMove) (s : State) : List Nat :=
  match pm with
  | .full .y m => storedByFull m s
  | .short _ y => storedByFull y.toFull s
  | _ => []

/-- The bytes of the 32-bit X space, outside the 16-bit one, that a parallel move stores to. -/
def storedLong (pm : ParMove) (s : State) : List Nat :=
  match pm with
  | .longX store n r => if store && r != .nop && !longIsX (s.longAddr n) then keys16 (s.longAddr n).toNat else []
  | _ => []

/-- The bytes of instruction memory a parallel move stores to. -/
def storedI (pm : ParMove) (s : State) : List Nat :=
  match pm with
  | .ibus true n _ _ => keys32 (s.ibusAddr n).toNat
  | _ => []

/-- Every byte reads as before, but for those at the given keys. -/
def sameBytesBut (stored : List Nat) (m m' : Memory) : Prop :=
  ∀ k, k ∉ stored → Memory.byteAt m' k = Memory.byteAt m k

/-! ## Frames -/

/-- Every register that a move can name is as before, but for those listed. -/
def sameRegsBut (written : List MoveReg) (s t : State) : Prop := ∀ r, r ∉ written → t.peek r = s.peek r

/-- All four memory spaces are as before. -/
def sameMemory (s t : State) : Prop :=
  t.xmem = s.xmem ∧ t.ymem = s.ymem ∧ t.imem = s.imem ∧ t.xlmem = s.xlmem

/-- What no instruction but HALT and the control instructions touches: the sequencer's own components (R43) and the
model's inputs. -/
def sameSequencer (s t : State) : Prop :=
  t.pc = s.pc ∧ t.pending = s.pending ∧ t.cancel = s.cancel ∧ t.halted = s.halted ∧ t.haltSkid = s.haltSkid ∧
  t.prev1 = s.prev1 ∧ t.prev2 = s.prev2 ∧ t.irqIdle = s.irqIdle ∧ t.irqInputs = s.irqInputs ∧
  t.resetIn = s.resetIn ∧ t.draws = s.draws ∧ t.map = s.map ∧ t.haltWake = s.haltWake

/-- What no instruction at all touches: the program counter, which the sequencer moves on, the history, HALT's
countdown, the controller's state machine, and the model's inputs and parameters. -/
def sameInputs (s t : State) : Prop :=
  t.pc = s.pc ∧ t.haltSkid = s.haltSkid ∧ t.prev1 = s.prev1 ∧ t.prev2 = s.prev2 ∧ t.irqIdle = s.irqIdle ∧
    t.irqInputs = s.irqInputs ∧ t.resetIn = s.resetIn ∧ t.draws = s.draws ∧ t.map = s.map ∧ t.haltWake = s.haltWake

/-- What only a move touches: the loop comparison's countdown, the controller's enable, the record of STIs, the page
of the following fetches. -/
def sameMoveEffects (s t : State) : Prop :=
  t.loopSkip = s.loopSkip ∧ t.irqEnabled = s.irqEnabled ∧ t.stiRecent = s.stiRecent ∧ t.pageOpen = s.pageOpen

/-- The flags L, S, I, R and the other bits of MR0 above bit 4 are as before (R143). -/
def sameModeBits (s t : State) : Prop := ∀ i, 5 ≤ i → t.mr0.getLsbD i = s.mr0.getLsbD i

/-- Whether a list of registers holds a loop register. -/
def hasLoopReg (l : List MoveReg) : Bool := l.any isLoopReg

/-- What stays as it is where only the listed registers are written, and only the listed bytes of X, Y, instruction
and long X memory are stored to: everything else but P and the draws' use. -/
structure Keeps (written : List MoveReg) (x y i l : List Nat) (s t : State) : Prop where
  regs : sameRegsBut written s t
  xBytes : sameBytesBut x s.xmem t.xmem
  yBytes : sameBytesBut y s.ymem t.ymem
  iBytes : sameBytesBut i s.imem t.imem
  longBytes : sameBytesBut l s.xlmem t.xlmem
  sequencer : sameSequencer s t
  /-- only a write of a loop register can suppress a loop end comparison (R341) -/
  skip : hasLoopReg written = false → t.loopSkip = s.loopSkip
  /-- only a store to `INT_GLOB_EN` enables interrupts (R294) -/
  enable : 2 * s.map.intGlobEn.toNat ∉ x → t.irqEnabled = s.irqEnabled
  /-- only a store to instruction memory is remembered (R346) -/
  record : i = [] → t.stiRecent = s.stiRecent
  /-- only a write of IPR0 opens the page (U18) -/
  page : .ipr0 ∉ written → t.pageOpen = s.pageOpen

/-- What an instruction with the parallel move `pm` leaves unchanged: every register but the listed ones and those
the move writes, every byte but those the move stores to, and the sequencer's components. -/
def Frame (written : List MoveReg) (pm : ParMove) (s t : State) : Prop :=
  Keeps (written ++ writesOfPar pm) (storedX pm s) (storedY pm s) (storedI pm s) (storedLong pm s) s t

/-- The five ALU flags of a result of width `w` with the given N, V and C, where the parallel move does not write MR0
(R39): Z of the result, E by R37; the other bits of MR0 as before (R143). -/
def FlagsAre {w : Nat} (res : BitVec w) (n v c : Bool) (pm : ParMove) (s t : State) : Prop :=
  .mr0 ∉ writesOfPar pm →
    t.fZ = decide (res = 0#w) ∧ t.fN = n ∧ t.fV = v ∧ t.fC = c ∧
    (t.fE = true ↔ w = 40 ∧ ∃ i, 31 ≤ i ∧ i < 39 ∧ res.getLsbD i ≠ res.getLsbD 39) ∧ sameModeBits s t

/-- A 16-bit result in its register, a high half's sign in the guard register (R142, R24), its flags, and everything
else but P as before. -/
def Result16 (r : Reg16) (res : Word) (n v c : Bool) (pm : ParMove) (s t : State) : Prop :=
  t.r16 r = res ∧ (regHigh r = true → (t.acc (regAcc r)).guard = if res.msb then 0xFF#8 else 0x00#8) ∧
  FlagsAre res n v c pm s t ∧ Frame (.mr0 :: writesOf (.r16 r)) pm s t

/-- A 40-bit result in its accumulator, "all 40 bits as computed" (R142), its flags, and everything else but P as
before. -/
def Result40 (q : AccName) (res : Word40) (n v c : Bool) (pm : ParMove) (s t : State) : Prop :=
  t.accValue q = res ∧ FlagsAre res n v c pm s t ∧ Frame (.mr0 :: writesOfAcc q) pm s t

/-- No register is written twice (R45). -/
def NoConflict (written : List MoveReg) (pm : ParMove) : Prop := (written ++ writesOfPar pm).Nodup

/-- Nothing stops an instruction with the parallel move `pm`: no register is written twice (R45), and the memory maps
allow its accesses (R68). -/
def CanRun (written : List MoveReg) (pm : ParMove) (s : State) : Prop :=
  NoConflict written pm ∧ parAccess pm s = none

/-- The memory maps allow a load, or a store, at an address where this stands (R68): a store goes to RAM. -/
def MapAllows (store : Bool) (k : Option MemKind) : Prop := if store then k = some .ram else k ≠ none

/-- An instruction stops where the memory maps do not allow its access (U22, N23), each by its name. -/
def MapStops (store : Bool) (k : Option MemKind) (o : Result) : Prop :=
  (k = none → o = .fault .unmappedAccess) ∧ (store = true → k = some .rom → o = .fault .romStore) ∧
  (store = true → k = some .device → o = .fault .deviceStore)

/-- What the memory maps stop of an instruction's accesses (R68, U22). -/
def instrAccess (i : Instr) (s : State) : Option Fault :=
  match i with
  | .doubleFull x y => doubleAccess x y s
  | i => parAccess (parOf i) s

/-! ## What an instruction writes -/

/-- The registers the arithmetic part of an instruction writes, or a whole instruction without a parallel move. -/
def ownWrites : Instr → List MoveReg
  | .add _ _ dst _ => writesOfDst dst
  | .sub _ _ dst _ => writesOfDst dst
  | .addc _ _ dst _ => writesOfDst dst
  | .subc _ _ dst _ => writesOfDst dst
  | .ashl _ _ dst _ => writesOfDst dst
  | .and _ _ dst _ => writesOfDst dst
  | .or _ _ dst _ => writesOfDst dst
  | .xor _ _ dst _ => writesOfDst dst
  | .mac _ _ _ q _ => writesOfAcc q
  | .msu _ _ _ q _ => writesOfAcc q
  | .abs _ dst _ => writesOfDst dst
  | .asr _ dst _ => writesOfDst dst
  | .lsr _ dst _ => writesOfDst dst
  | .lsrc _ dst _ => writesOfDst dst
  | .exp _ dst _ => writesOf (.r16 dst)
  | .sat _ dst _ => writesOfAcc dst
  | .rnd _ dst _ => writesOf (.r16 dst)
  | .lsl _ dst _ => writesOfDst dst
  | .lslc _ dst _ => writesOfDst dst
  | .not _ dst _ => writesOfDst dst
  | .addNullP q _ => writesOfAcc q
  | .doubleFull x y => writesOfHalf x ++ writesOfHalf y
  | .mvxMvyDouble xs xd ys yd => writesOfMove xs xd ++ writesOfMove ys yd
  | _ => []

/-- Every register an instruction writes, once for each time it writes it (R45). -/
def allWrites (i : Instr) : List MoveReg := ownWrites i ++ writesOfPar (parOf i)

/-- SAT or RND of a 16-bit operand, which is not described (R178, R179, U16). -/
def narrowSatRnd : Instr → Bool
  | .sat op2 _ _ => !op2.is40
  | .rnd op2 _ _ => !op2.is40
  | _ => false

/-- A double register move with a move inside one unit (R234). -/
def crossesNoUnit : Instr → Bool
  | .mvxMvyDouble xs xd ys yd => withinUnit xs xd || withinUnit ys yd
  | _ => false

/-! ## Register transfers -/

/-- What a register holds after a move has written `v` to it (R221). -/
def HoldsWritten (r : MoveReg) (v : Word) (t : State) : Prop :=
  match r with
  | .r16 r => t.r16 r = v ∧ (regHigh r = true → (t.acc (regAcc r)).guard = if v.msb then 0xFF#8 else 0x00#8)
  | .guard q => (t.acc q).guard = v.extractLsb' 0 8
  | .mr0 => t.mr0 = v &&& 0x079F#16
  | .null => True
  | .nop => True
  | r => t.peek r = v

/-- What a move reads from a register (R220): bits 15..8 of a guard register are open (R226). -/
def IsReadOf (r : MoveReg) (v : Word) (s : State) : Prop :=
  match r with
  | .guard q => v.extractLsb' 0 8 = (s.acc q).guard
  | .mr0 => v = s.mr0 &&& 0x079F#16
  | r => v = s.peek r

/-- What an index register holds after a post-modification `pppp` other than 0000 (R212); what `*` makes of it is the
subject of statements of its own. -/
def PostModified (n : IReg) (p : BitVec 4) (s t : State) : Prop :=
  (p ≠ 0#4 → p ≠ 8#4 → (t.idx n).toInt % 65536 = ((s.idx n).toInt + p.toInt) % 65536) ∧
  (p = 8#4 → ∀ a, pairMod (s.idx n) (s.idx (pairReg n)) = some a → t.idx n = a)

/-- A load of a loop register from memory suppresses a loop end comparison; no other load does (R341). -/
def SkipAfterLoad (r : MoveReg) (s t : State) : Prop :=
  t.loopSkip = if isLoopReg r then 2 else s.loopSkip

/-! ## Exact arithmetic -/

/-- An exact result is a signed `w`-bit number. -/
abbrev FitsSigned (w : Nat) (t : Int) : Prop := -2 ^ (w - 1) ≤ t ∧ t < 2 ^ (w - 1)

/-- What is written for an exact result `t` under the mode bit S (R144): `t` modulo 2^w where it fits or S = 0, else
the limit on its side. -/
def SumWritten (w : Nat) (sat : Bool) (t : Int) (res : BitVec w) : Prop :=
  (FitsSigned w t ∨ sat = false → res = BitVec.ofInt w t) ∧
  (sat = true → 2 ^ (w - 1) ≤ t → res.toInt = 2 ^ (w - 1) - 1) ∧
  (sat = true → t < -2 ^ (w - 1) → res.toInt = -2 ^ (w - 1))

/-- The instruction completes with the 16-bit result of an exact sum, V the signed overflow and the given carry. -/
def AddsTo16 (i : Instr) (r : Reg16) (pm : ParMove) (s : State) (total : Int) (carry : Bool) : Prop :=
  ∃ t res, exec i s = .next t ∧ SumWritten 16 s.fS total res ∧
    Result16 r res res.msb (decide (¬FitsSigned 16 total)) carry pm s t ∧ t.p = s.p

/-- The same with a 40-bit result. -/
def AddsTo40 (i : Instr) (q : AccName) (pm : ParMove) (s : State) (total : Int) (carry : Bool) : Prop :=
  ∃ t res, exec i s = .next t ∧ SumWritten 40 s.fS total res ∧
    Result40 q res res.msb (decide (¬FitsSigned 40 total)) carry pm s t ∧ t.p = s.p

/-- The instruction completes with this 16-bit result and these N, V and C, P as before. -/
def Gives16 (i : Instr) (r : Reg16) (pm : ParMove) (s : State) (res : Word) (n v c : Bool) : Prop :=
  ∃ t, exec i s = .next t ∧ Result16 r res n v c pm s t ∧ t.p = s.p

/-- The same with a 40-bit result. -/
def Gives40 (i : Instr) (q : AccName) (pm : ParMove) (s : State) (res : Word40) (n v c : Bool) : Prop :=
  ∃ t, exec i s = .next t ∧ Result40 q res n v c pm s t ∧ t.p = s.p

/-- The carry flag as a number. -/
def State.carry (s : State) : Nat := s.fC.toNat

/-- An operand of the multiplier as an exact number (R190). -/
def MulValue (signed : Bool) (a : Word) : Int := if signed then a.toInt else a.toNat

/-- What the multiplier writes to P (R190). -/
def ProductWritten (mode : MulMode) (a b : Word) (s : State) (p : Word32) : Prop :=
  let exact := MulValue (mode = .ss ∨ mode = .su) a * MulValue (mode = .ss ∨ mode = .us) b
  (s.fI = true → p = BitVec.ofInt 32 exact) ∧
  (s.fI = false → s.fS = true → mode = .ss → a = 0x8000#16 → b = 0x8000#16 → p = 0x7FFFFFFF#32) ∧
  (s.fI = false → ¬(s.fS = true ∧ mode = .ss ∧ a = 0x8000#16 ∧ b = 0x8000#16) → p = BitVec.ofInt 32 (2 * exact))

/-! ## Legal states -/

/-- What every step keeps and reset has. -/
structure Legal (s : State) : Prop where
  /-- each memory space in its canonical form (log entry 1) -/
  xmem : Memory.wf dataBytes s.xmem = true
  ymem : Memory.wf dataBytes s.ymem = true
  imem : Memory.wf instrBytes s.imem = true
  xlmem : Memory.wf longBytes s.xlmem = true
  /-- the bits of MR0 that are not implemented read 0 (D9) -/
  mr0 : s.mr0 &&& ~~~modeMask = 0#16
  /-- the countdowns of R43 (e) and (f) -/
  loopSkip : s.loopSkip ≤ 2
  haltSkid : s.haltSkid ≤ 3
  /-- the controller is not idle while the request that ended HALT is still to be entered (R292, R280) -/
  haltWake : s.haltWake = true → s.irqIdle = false
  /-- a cancelled instruction stands between JMPI and its transfer to page 0 (R276) -/
  cancel : s.cancel = true → ∃ a, s.pending = some ⟨some 0#16, a⟩
  /-- a halted core has no transfer pending (U21) -/
  halted : s.halted = true → s.pending = none ∧ s.cancel = false
  /-- an STI is remembered for at most three instructions (R346) -/
  sti : ∀ e ∈ s.stiRecent, 1 ≤ e.2 ∧ e.2 ≤ 3
  /-- the history fills from the front (R333) -/
  history : s.prev1 = none → s.prev2 = none

/-! ## Steps -/

/-- The step at `s` is an instruction slot: no reset, not halted, no interrupt taken at this boundary. -/
def RunsSlot (s : State) : Prop :=
  s.resetIn ≠ some 0 ∧ s.halted = false ∧ (s.presented.isSome = true → s.acceptsIrq = false)

/-- The slot executes the instruction at the fetch address: it is not cancelled, and the address not written by a
recent STI and mapped. -/
def Executes (s : State) : Prop :=
  RunsSlot s ∧ s.cancel = false ∧ s.fetchesRecentSti = false ∧ s.fetchFault = none

end Sys2Proof.Machine
end

