-- ==== Sys2Proof/Certificates/Slice0/Obligations.lean ====
section
/-! DEFINITION. What is to be proved of the model. Each statement's docstring names the rule of spec/ it rests on, and
the log entry where a clause is the model's own choice or the spec's own decision. -/

section Claims

open Sys2Proof Sys2Proof.Machine

/-! ## Encoding -/

/-- R90 to R123: decoding the word of a well-formed instruction gives the instruction back; a second name gives the
instruction it names (R127, log entry 37). -/
def Obligations.DecodeOfEncodeGivesInstructionBack : Prop :=
  ∀ i : Instr, i.WellFormed → decode (encode i) = i.core

/-- R120, R123: the decoder is total, and whatever word it does not call reserved it reads as a well-formed
instruction that is no second name. -/
def Obligations.EveryWordDecodesOrIsReserved : Prop :=
  ∀ w : Word32, (∃ why, decode w = .reserved why w) ∨ ((decode w).WellFormed ∧ (decode w).core = decode w)

/-- R120 (D7, log entry 35): every word of the reserved list is decoded as reserved, whatever its other bits. -/
def Obligations.ListedWordsAreReserved : Prop :=
  ∀ w : Word32,
    let opcode := (w.extractLsb' 28 4).toNat
    let code := (w.extractLsb' 24 4).toNat
    let op2 := (w.extractLsb' 20 4).toNat
    let noMoveReg := fun c : Nat => c = 11 ∨ (24 ≤ c ∧ c ≤ 31) ∨ (37 ≤ c ∧ c ≤ 61)
    let noCond := fun c : Nat => ¬(c ≤ 5 ∨ c = 8 ∨ c = 9 ∨ (17 ≤ c ∧ c ≤ 21) ∨ c = 24 ∨ c = 25)
    let twoOperand := opcode = 4 ∨ opcode = 6 ∨ opcode = 8 ∨ opcode = 9 ∨ (10 ≤ opcode ∧ opcode ≤ 13)
    let hasParallelMove := (4 ≤ opcode ∧ opcode ≤ 13) ∨ (opcode = 15 ∧ ¬(8 ≤ code ∧ code ≤ 13))
    (opcode = 14 ∨
      (opcode = 2 ∧ (code = 3 ∨ code = 12 ∨ code = 14 ∨ code = 15)) ∨
      (opcode = 15 ∧ 8 ≤ code ∧ code ≤ 13) ∨
      (twoOperand ∧ (code = 10 ∨ code = 11 ∨ op2 = 10)) ∨
      (opcode = 10 ∧ 11 ≤ op2) ∨
      (twoOperand ∧ opcode ≠ 10 ∧ (12 ≤ code ∨ 11 ≤ op2) ∧ w.getLsbD 17 = false) ∨
      (opcode = 10 ∧ 12 ≤ code ∧ w.getLsbD 17 = false) ∨
      ((opcode = 5 ∨ opcode = 7) ∧ w.getLsbD 17 = false) ∨
      (opcode = 15 ∧ code ≤ 7 ∧ code ≠ 4 ∧ op2 = 10) ∨
      (opcode = 15 ∧ code ≤ 3 ∧ 11 ≤ op2 ∧ w.getLsbD 17 = false) ∨
      (opcode = 15 ∧ code = 6 ∧ w.getLsbD 17 = false) ∨
      (opcode ≤ 1 ∧ noMoveReg (w.extractLsb' 0 6).toNat) ∨
      (opcode = 2 ∧ 4 ≤ code ∧ code ≤ 7 ∧ noMoveReg (w.extractLsb' 0 5).toNat) ∨
      (opcode = 2 ∧ (code = 0 ∨ code = 8 ∨ code = 9) ∧ noCond (w.extractLsb' 0 6).toNat) ∨
      (opcode = 2 ∧ code = 10 ∧ (w.extractLsb' 3 2).toNat = 2) ∨
      (opcode = 2 ∧ code = 11 ∧ ∃ k < 4, noMoveReg (w.extractLsb' (6 * k) 6).toNat) ∨
      (opcode = 3 ∧ (noMoveReg (w.extractLsb' 0 6).toNat ∨ noMoveReg (w.extractLsb' 14 6).toNat)) ∨
      (hasParallelMove ∧ (w.extractLsb' 14 3).toNat = 3) ∨
      (hasParallelMove ∧ (w.extractLsb' 14 3).toNat = 1 ∧ 6 ≤ (w.extractLsb' 10 4).toNat) ∨
      (hasParallelMove ∧ ((w.extractLsb' 14 3).toNat = 0 ∨ (w.extractLsb' 14 3).toNat = 2)
        ∧ noMoveReg (w.extractLsb' 0 6).toNat) ∨
      (hasParallelMove ∧ (w.extractLsb' 12 5).toNat = 4
        ∧ (noMoveReg (w.extractLsb' 0 6).toNat ∨ noMoveReg (w.extractLsb' 6 6).toNat)) ∨
      (hasParallelMove ∧ (w.extractLsb' 10 7).toNat = 20 ∧ noMoveReg (w.extractLsb' 0 6).toNat)) →
    ∃ why, decode w = .reserved why w

/-- R120 (D7, log entry 35): a reserved encoding stops, in every state and whatever makes it reserved: "The manual
says of none of them what the hardware does". -/
def Obligations.ReservedEncodingFaults : Prop :=
  ∀ (why : ReservedWhy) (w : Word32) (s : State), exec (.reserved why w) s = .fault (.reservedEncoding why)

/-- Words of spec/95_test_vectors.md and the instructions they stand for. -/
def Obligations.SpecWordsDecode : Prop :=
  decode 0x00013490#32 = .ldc 1234#16 (.idx .i0) ∧
  decode 0x60140710#32 = .sub (.r16 .a0) (.r16 .a1) (.r16 .b0) (.full .x ⟨false, .i1, 0xC#4, .idx .i0⟩) ∧
  decode 0x56230B2A#32 = .mac .b1 .ss .b0 .a (.short ⟨false, .i0, true, .b1⟩ ⟨false, .i2, true, .b0⟩) ∧
  decode 0x2410024E#32 = .loop .ls 0x4009#16 ∧
  decode 0xF4003001#32 = .stxFull .i4 0#4 (.r16 .a1)

/-! ## Reset and the step of the machine -/

/-- R46, every row of its table; hidden components empty. -/
def Obligations.ResetLeavesTheSpecifiedState : Prop :=
  (∀ r : Reg16, State.reset.r16 r = 0x0000#16) ∧ (∀ q : AccName, (State.reset.acc q).guard = 0x00#8) ∧
  State.reset.p = 0x00000000#32 ∧ (∀ n : IReg, State.reset.idx n = 0x0000#16) ∧
  State.reset.lr0 = 0x0000#16 ∧ State.reset.lr1 = 0x0000#16 ∧ State.reset.mr0 = 0x0000#16 ∧
  State.reset.ls = 0x0000#16 ∧ State.reset.lc = 0x0000#16 ∧ State.reset.le = 0xFFFF#16 ∧
  State.reset.ipr0 = 0x0000#16 ∧ State.reset.ipr1 = 0x0000#16 ∧ State.reset.pc = 0x4000#16 ∧
  State.reset.pending = none ∧ State.reset.cancel = false ∧ State.reset.halted = false ∧
  State.reset.loopSkip = 0 ∧ State.reset.haltSkid = 0 ∧ State.reset.prev1 = none ∧ State.reset.prev2 = none

/-- R330, R331: the reset input overrides everything, HALT included. That PC is then 0x4000 is the default of the spec's
decision D24 (log entry 6), and that memory keeps its contents the model's choice (log entry 30). -/
def Obligations.ResetInputOverridesEverything : Prop :=
  ∀ s : State, s.resetIn = some 0 → ∃ t, step s = .next t ∧
    (∀ r, t.peek r = State.reset.peek r) ∧ t.p = 0#32 ∧ t.pc = 0x4000#16 ∧ t.halted = false ∧ t.pending = none ∧
    t.cancel = false ∧ sameMemory s t ∧ t.map = s.map

/-- The state after reset is legal. -/
def Obligations.ResetIsLegal : Prop := Legal State.reset

/-- Every step keeps `Legal`: the memories stay canonical (log entry 1), the bits of MR0 that are not implemented stay
0 (D9), the countdowns stay in range (R43), a cancelled slot keeps its transfer to page 0 (R276). And no step changes the
memory maps, which are parameters (R6, R68). -/
def Obligations.EveryStepKeepsLegal : Prop :=
  ∀ s t : State, step s = .next t → (Legal s → Legal t) ∧ t.map = s.map

/-- R261: where the bytes at the fetch address decode to a well-formed instruction and the slot is an instruction
slot that no restriction stops (`hazardBefore`, `haltRefused`), the step is `exec` of it in the state with the pending
transfer taken out, and then the history and the next address. -/
def Obligations.StepRunsTheDecodedInstruction : Prop :=
  ∀ (s : State) (i : Instr) (rest : List Byte),
    decodeBytes (s.imem.bytes32 s.fetchAddr.toNat) = some (i, rest) → i.WellFormed → Executes s →
    hazardBefore i s = none → haltRefused i s = none →
    (∀ f, exec i s.begin = .fault f → step s = .fault f) ∧
    (∀ s', exec i s.begin = .next s' → (s.pending = none ∨ s'.pending = none) → hazardAfter i s s' = none →
      step s = .next (advance s.pending s.loopSkip s.pc { s' with prev1 := some (histOf i s s'), prev2 := s.prev1 }))

/-- R32: "Nothing but an explicit write of MR0 and reset changes a mode bit." -/
def Obligations.ModeBitsChangeOnlyByWriteOrReset : Prop :=
  ∀ s t : State, step s = .next t → s.resetIn ≠ some 0 →
    ¬(Executes s ∧ writesRegister (explicitWrites s.fetch) .mr0 = true) →
    t.fS = s.fS ∧ t.fI = s.fI ∧ t.fR = s.fR

/-- R25: "P is written only by MUL, MAC, MSU and RESP", and by reset. -/
def Obligations.OnlyMultiplierInstructionsWriteP : Prop :=
  ∀ s t : State, step s = .next t → s.resetIn ≠ some 0 → t.p ≠ s.p →
    Executes s ∧ ((∃ mode op1 op2 pm, s.fetch = .mul mode op1 op2 pm) ∨
      (∃ op1 mode op2 q pm, s.fetch = .mac op1 mode op2 q pm) ∨
      (∃ op1 mode op2 q pm, s.fetch = .msu op1 mode op2 q pm) ∨ ∃ op1 op2, s.fetch = .resp op1 op2)

/-- R33, R266: L is set only by interrupt entry and a write of MR0, and cleared only by a write of MR0, a control
instruction that clears it, and reset. -/
def Obligations.LoopFlagChangesOnlyAsListed : Prop :=
  ∀ s t : State, step s = .next t → s.resetIn ≠ some 0 → t.fL ≠ s.fL →
    (t.fL = true ∧ s.presented.isSome = true ∧ s.acceptsIrq = true) ∨
    (Executes s ∧ (writesRegister (explicitWrites s.fetch) .mr0 = true ∨
      (t.fL = false ∧ ownsDelaySlot s.fetch = true)))

/-- R281: IPR0 changes only by a transfer that carries a page, by interrupt entry (to page 0, after the copy to IPR1),
by a move or LDC, and by reset. -/
def Obligations.PageChangesOnlyAsListed : Prop :=
  ∀ s t : State, step s = .next t → s.resetIn ≠ some 0 → t.ipr0 ≠ s.ipr0 →
    (∃ a page, s.pending = some ⟨some page, a⟩ ∧ t.ipr0 = page) ∨
    (s.presented.isSome = true ∧ s.acceptsIrq = true ∧ t.ipr0 = 0#16 ∧ t.ipr1 = s.ipr0) ∨
    (Executes s ∧ writesRegister (explicitWrites s.fetch) .ipr0 = true)

/-! ## Interrupts and HALT -/

/-- R295, R296: a presented request that is accepted is entered: PC to LR1, IPR0 to IPR1, page 0, L set, the vector;
nothing else of the core changes but the hazard history, which is cleared (R333). The controller's part, which is idle
again, is R292 (log entry 28). `IPR0 <- 0` is the spec's own inference. The boundary is open: the conditions of R295, and
the two that the model takes from R299 (log entry 29); where the request is the one that ended HALT, it is entered before
the fourth instruction at a loop end too (R280, D25). -/
def Obligations.InterruptEntry : Prop :=
  ∀ (s : State) (vec : BitVec 5), s.resetIn ≠ some 0 → s.halted = false → s.presented = some vec →
    s.pending = none → s.cancel = false → s.loopSkip = 0 → s.haltSkid = 0 →
    (∀ h, s.prev1 = some h → h.delayOwner = false) →
    (s.haltWake = false → s.fL = false → s.pc ≠ s.le ∧ s.pc ≠ s.le - 1#16) →
    ∃ t, step s = .next t ∧ t.lr1 = s.pc ∧ t.ipr1 = s.ipr0 ∧ t.ipr0 = 0#16 ∧ t.fL = true ∧
      t.pc.toNat = 0x20 + vec.toNat ∧ t.irqEnabled = false ∧ t.irqIdle = true ∧ t.halted = false ∧
      sameRegsBut [.lr1, .ipr1, .ipr0, .mr0] s t ∧ (∀ i, i ≠ 7 → t.mr0.getLsbD i = s.mr0.getLsbD i) ∧ t.p = s.p ∧
      sameMemory s t ∧ t.pending = none ∧ t.cancel = false ∧ t.loopSkip = 0 ∧ t.haltSkid = 0 ∧ t.prev1 = none ∧
      t.prev2 = none ∧ t.haltWake = false

/-- R295, R299: a presented request is not entered between a change-of-flow instruction and its delay slot, nor while a
loop end comparison is suppressed or HALT's three instructions are still to run: the step is an instruction slot, so
LR1, IPR1 and the enable are not touched by an entry, and the controller is busy from then on (R292, log entry 28). That
this holds after LOOP and after a jump whose condition did not hold too, and before LE and LE - 1 with L = 0 (but for the
request that ended HALT, R280), is the model's reading of R295 and R299 (log entry 29). -/
def Obligations.InterruptWaitsForAnOpenBoundary : Prop :=
  ∀ s t : State, s.resetIn ≠ some 0 → s.halted = false →
    (s.pending ≠ none ∨ s.cancel = true ∨ s.loopSkip ≠ 0 ∨ s.haltSkid ≠ 0 ∨
      (∃ h, s.prev1 = some h ∧ h.delayOwner = true) ∨
      (s.haltWake = false ∧ s.fL = false ∧ (s.pc = s.le ∨ s.pc = s.le - 1#16))) →
    step s = .next t →
    RunsSlot s ∧ t.prev1 ≠ none ∧ t.irqInputs.length = s.irqInputs.length ∧
      t.irqIdle = (s.irqIdle && s.presented.isNone) ∧ t.haltWake = s.haltWake ∧ t.haltSkid = s.haltSkid - 1

/-- R280, R312 and 93 section 2 (D25, log entry 28): while no request is presented a halted core executes nothing and
keeps all register and memory state; a presented request ends HALT, with three instructions to run before it is
entered, and the controller's state machine is not idle until then (R292); that it is this request is remembered, so that
its return address is that of the fourth instruction (R280). -/
def Obligations.HaltedCoreWaitsForARequest : Prop :=
  ∀ s : State, s.halted = true → s.resetIn ≠ some 0 →
    ∃ t, step s = .next t ∧ sameRegsBut [] s t ∧ t.p = s.p ∧ t.pc = s.pc ∧ sameMemory s t ∧ t.pending = s.pending ∧
      t.irqEnabled = s.irqEnabled ∧ t.irqInputs.map (·.vec) = s.irqInputs.map (·.vec) ∧
      (s.presented = none → t.halted = true ∧ t.haltSkid = s.haltSkid ∧ t.irqIdle = s.irqIdle ∧ t.haltWake = s.haltWake) ∧
      (s.presented.isSome = true → t.halted = false ∧ t.haltSkid = 3 ∧ t.irqIdle = false ∧ t.haltWake = true)

/-- R280, R306: HALT halts when the interrupt state machine is idle and is a NOP otherwise. -/
def Obligations.HaltTakesEffectWhenIdle : Prop :=
  ∀ s : State, ∃ t, exec .halt s = .next t ∧ t = { s with halted := s.irqIdle || s.halted }

/-! ## Control flow -/

/-- R118, R265: what each jump condition of Table 1 means in the flags. -/
def Obligations.ConditionsFollowTableOne : Prop :=
  ∀ s : State,
    (condHolds s .always = true) ∧
    (condHolds s .cs = true ↔ s.fC = true) ∧ (condHolds s .cc = true ↔ s.fC = false) ∧
    (condHolds s .es = true ↔ s.fE = true) ∧ (condHolds s .ec = true ↔ s.fE = false) ∧
    (condHolds s .vs = true ↔ s.fV = true) ∧ (condHolds s .vc = true ↔ s.fV = false) ∧
    (condHolds s .ns = true ↔ s.fN = true) ∧ (condHolds s .nc = true ↔ s.fN = false) ∧
    (condHolds s .zs = true ↔ s.fZ = true) ∧ (condHolds s .zc = true ↔ s.fZ = false) ∧
    (condHolds s .lt = true ↔ s.fN ≠ (s.fV && !s.fS)) ∧ (condHolds s .ge = true ↔ s.fN = (s.fV && !s.fS)) ∧
    (condHolds s .le = true ↔ s.fN ≠ (s.fV && !s.fS) ∨ s.fZ = true) ∧
    (condHolds s .gt = true ↔ s.fN = (s.fV && !s.fS) ∧ s.fZ = false)

/-- R266 to R268, R270 to R273, R301: a jump or return from interrupt clears L, taken or not (D23, log entry 26),
schedules its target where its condition holds, and changes nothing else: RETI restores only the program counter. The
far forms are the spec's decisions D11 and D12 (log entries 20, 21). -/
def Obligations.JumpsAndReturnsScheduleTheirTarget : Prop :=
  ∀ (s : State) (cond : Cond) (addr : Word) (n : IReg),
    let jumps := fun (i : Instr) (taken : Bool) (target : Target) =>
      ∃ t, exec i s = .next t ∧ t.pending = (if taken then some target else s.pending) ∧ t.fL = false ∧
        (∀ i, i ≠ 7 → t.mr0.getLsbD i = s.mr0.getLsbD i) ∧ sameRegsBut [.mr0] s t ∧ t.p = s.p ∧ sameMemory s t ∧
        t.cancel = s.cancel ∧ t.halted = s.halted ∧ sameMoveEffects s t ∧ sameInputs s t
    jumps (.jcc addr cond) (condHolds s cond) ⟨none, addr⟩ ∧
    jumps (.j addr) true ⟨none, addr⟩ ∧
    jumps (.jrcc cond) (condHolds s cond) ⟨none, s.lr0⟩ ∧
    jumps .jr true ⟨none, s.lr0⟩ ∧
    jumps (.jrccIn n cond) (condHolds s cond) ⟨some (s.idx n), s.lr0⟩ ∧
    jumps .reti true ⟨none, s.lr1⟩ ∧
    jumps (.retiIn n) true ⟨some (s.idx n), s.lr1⟩

/-- R269: a call also writes LR0, whether or not the condition holds: the address of the call plus 2. That a call which
is not taken clears L too is the spec's decision D23 (log entry 26), the wrap of the address D29 (log entry 27). -/
def Obligations.CallsSaveTheReturnAddress : Prop :=
  ∀ (s : State) (cond : Cond) (addr : Word),
    let calls := fun (i : Instr) (taken : Bool) =>
      ∃ t, exec i s = .next t ∧ t.lr0.toNat = (s.pc.toNat + 2) % 65536 ∧
        t.pending = (if taken then some ⟨none, addr⟩ else s.pending) ∧ t.fL = false ∧
        (∀ i, i ≠ 7 → t.mr0.getLsbD i = s.mr0.getLsbD i) ∧ sameRegsBut [.mr0, .lr0] s t ∧ t.p = s.p ∧
        sameMemory s t ∧ t.cancel = s.cancel ∧ t.halted = s.halted ∧ sameMoveEffects s t ∧ sameInputs s t
    calls (.callcc addr cond) (condHolds s cond) ∧ calls (.call addr) true

/-- R276: JMPI schedules the address in page 0, cancels the next instruction, moves its index register by 0, +1 or -1
and leaves L and everything else. That it reads no X memory is the spec's choice (log entry 40). -/
def Obligations.JmpiJumpsToPageZero : Prop :=
  ∀ (s : State) (addr : Word) (mm : JmpiMod) (n : IReg),
    ∃ t, exec (.jmpi addr mm n) s = .next t ∧ t.pending = some ⟨some 0#16, addr⟩ ∧ t.cancel = true ∧
      (t.idx n).toNat = (match mm with
        | .keep => (s.idx n).toNat
        | .inc => ((s.idx n).toNat + 1) % 65536
        | .dec => ((s.idx n).toNat + 65535) % 65536) ∧
      sameRegsBut [.idx n] s t ∧ t.p = s.p ∧ sameMemory s t ∧ t.halted = s.halted ∧ sameMoveEffects s t ∧
      sameInputs s t

/-- R278: LOOP sets LS, LE and LC, the count read before, and clears L. The wrap of LS is D29 (log entry 27), and the
zeros that MR0 as the count reads in the bits it does not implement D9 (log entry 7). -/
def Obligations.LoopSetsTheLoopRegisters : Prop :=
  ∀ (s : State) (cnt : MoveReg) (endAddr : Word), (Instr.loop cnt endAddr).WellFormed →
    ∃ t, exec (.loop cnt endAddr) s = .next t ∧ t.ls.toNat = (s.pc.toNat + 2) % 65536 ∧ t.le = endAddr ∧
      IsReadOf cnt t.lc s ∧ t.fL = false ∧ (∀ i, i ≠ 7 → t.mr0.getLsbD i = s.mr0.getLsbD i) ∧
      sameRegsBut [.mr0, .ls, .le, .lc] s t ∧ t.p = s.p ∧ sameMemory s t ∧ t.pending = s.pending ∧
      t.cancel = s.cancel ∧ t.halted = s.halted ∧ sameMoveEffects s t ∧ sameInputs s t

/-- R262: the slot after a taken change of flow is executed, and then the address, and the page if the target carries
one, are the target's; nothing is pending any more. -/
def Obligations.DelayedTransferTakesPlace : Prop :=
  ∀ (s t : State) (target : Target), s.resetIn ≠ some 0 → s.halted = false → s.pending = some target →
    step s = .next t →
    t.pc = target.addr ∧ t.pending = none ∧ ∀ page, target.page = some page → t.ipr0 = page ∧ t.pageOpen = false

/-- R264, R263: with no transfer pending the next address is the following one, but at LE with L = 0, LC not 0 and the
comparison not suppressed, where LC is decremented and LS is next. That LE, L, LC and LS are those after the instruction
is the spec's decision D5 (log entry 46), the next address at 0xFFFF D29 (log entry 27). -/
def Obligations.LoopEndTest : Prop :=
  ∀ (s s' t : State), Executes s → s.pending = none → exec s.fetch s.begin = .next s' → step s = .next t →
    (s.loopSkip ≠ 1 → s'.fL = false → s.pc = s'.le → s'.lc ≠ 0#16 →
      t.pc = s'.ls ∧ t.lc.toNat + 1 = s'.lc.toNat ∧ sameRegsBut [.lc] s' t) ∧
    (s.loopSkip ≠ 1 → s'.fL = false → s.pc = s'.le → s'.lc = 0#16 →
      t.pc.toNat = (s.pc.toNat + 1) % 65536 ∧ sameRegsBut [] s' t) ∧
    ((s.loopSkip = 1 ∨ s'.fL = true ∨ s.pc ≠ s'.le) →
      t.pc.toNat = (s.pc.toNat + 1) % 65536 ∧ sameRegsBut [] s' t) ∧
    t.p = s'.p ∧ sameMemory s' t

/-- R341: a LDX or LDY (no long-address form, for which see log entry 46) that loads LS, LE or LC sets the countdown to
2, and what loads none of them from memory (LDC, register moves, LOOP, any other instruction) leaves it; each slot
counts it down; the slot that finds it at 1 gets no loop end test and LC stays, at the next address, whose wrap is D29
(log entry 27). -/
def Obligations.LoopEndComparisonSuppressedOnce : Prop :=
  (∀ (i : Instr) (s t : State) (r : MoveReg), isLoopReg r = true → (.memory, r) ∈ explicitWrites i →
    (∀ store n r', parOf i ≠ .longX store n r') → exec i s = .next t → t.loopSkip = 2) ∧
  (∀ (i : Instr) (s t : State), (∀ r, (.memory, r) ∈ explicitWrites i → isLoopReg r = false) →
    exec i s = .next t → t.loopSkip = s.loopSkip) ∧
  (∀ s : State, s.begin.loopSkip = s.loopSkip - 1) ∧
  (∀ s s' t : State, Executes s → s.pending = none → s.loopSkip = 1 → exec s.fetch s.begin = .next s' →
    step s = .next t → t.pc.toNat = (s.pc.toNat + 1) % 65536 ∧ t.lc = s'.lc)

/-- R276: "The cancelled instruction has no effect of any kind": after it the transfer takes place. For the restrictions
near a loop end it is an executed NOP (R333), so the statement is of a slot that they do not stop. -/
def Obligations.CancelledInstructionHasNoEffect : Prop :=
  ∀ (s : State) (target : Target), RunsSlot s → s.cancel = true → s.pending = some target →
    hazardAfter .nopTotal s s.begin = none →
    ∃ t, step s = .next t ∧ t.cancel = false ∧ t.pending = none ∧ t.pc = target.addr ∧
      sameRegsBut [.ipr0] s t ∧ t.ipr0 = target.page.getD s.ipr0 ∧ t.p = s.p ∧ sameMemory s t ∧ t.halted = s.halted

/-- R280, R334 to R338, R342, R343, R346, U22 (D33, log entry 31): each restricted sequence stops the machine with a
fault, and a fetch where nothing, or a device, is mapped does. The wrap of LE - 1 (log entry 27) and the index register of
RETI (log entry 31) are the model's choices. -/
def Obligations.RestrictedSequencesFault : Prop :=
  ∀ s : State, RunsSlot s → s.cancel = false →
    (s.fetchesRecentSti = true → step s = .fault .fetchAfterSti) ∧
    (s.fetchesRecentSti = false →
      kindAt s.map.i s.fetchAddr.toNat = none ∨ kindAt s.map.i s.fetchAddr.toNat = some .device →
      step s = .fault .unmappedAccess) ∧
    (Executes s →
      ((changesFlow s.fetch = true ∧ s.haltSkid ≠ 0) ∨
        (changesFlow s.fetch = true ∧ s.fL = false ∧ (s.pc = s.le ∨ s.pc = s.le - 1#16)) ∨
        (isJmpi s.fetch = true ∧ s.irqEnabled = true) ∨
        (isReti s.fetch = true ∧ s.irqEnabled = true) → ∃ f, step s = .fault f) ∧
      ∀ h, s.prev1 = some h →
        (changesFlow s.fetch = true → h.delayOwner = true → step s = .fault .changeOfFlowInDelaySlot) ∧
        ((∃ f ∈ condUses (condOf s.fetch), f ∈ h.flags) ∨
          (changesFlow s.fetch = true ∧ h.ldiSti = true) ∨
          (∃ r ∈ targetRegs s.fetch, (.memory, r) ∈ h.writes ∨ (.regMove, r) ∈ h.writes) → ∃ f, step s = .fault f))

/-- R339, R340, R333 (D33, log entry 31): at an address that LE held at any time from before the instruction two back to
after this one, L changed by any of the three, and with L = 0 a loop register written by the instruction there or the one
before, or by a register move two before, or LC read by either of the last two, stops the machine with a fault. A
cancelled instruction there counts as a NOP. -/
def Obligations.LoopEndRestrictionsFault : Prop :=
  ∀ s : State,
    let held := fun a : Word => s.pc = a ∨ (∃ h, (s.prev1 = some h ∨ s.prev2 = some h) ∧ s.pc = h.leBefore)
    let changedL := (∃ h, s.prev1 = some h ∧ h.changedL = true) ∨ (∃ h, s.prev2 = some h ∧ h.changedL = true)
    let restricted := (∃ h, s.prev1 = some h ∧ h.writes.any (fun w => isLoopReg w.2) = true) ∨
      (∃ h, s.prev2 = some h ∧ loopWrittenBy h.writes .regMove = true) ∨ (∃ h, s.prev1 = some h ∧ h.readsLc = true)
    (∀ s' : State, Executes s → haltRefused s.fetch s = none → exec s.fetch s.begin = .next s' →
      held s.le ∨ s.pc = s'.le →
      changedL ∨ (writesRegister (explicitWrites s.fetch) .mr0 = true ∧ s'.fL ≠ s.fL) ∨
        (s'.fL = false ∧ (restricted ∨ (explicitWrites s.fetch).any (fun w => isLoopReg w.2) = true ∨
          readsLc s.fetch = true)) →
      ∃ f, step s = .fault f) ∧
    (RunsSlot s → s.cancel = true → held s.le → changedL ∨ (s.fL = false ∧ restricted) → ∃ f, step s = .fault f)

/-! ## Moves -/

/-- R222, R221, R24: LDC writes its constant; to NULL, and as the total NOP, it does nothing. LDC of IPR0 leaves the
page of the following fetches open (U18, log entry 22). That the bits of MR0 which are not implemented hold 0 after it is
the spec's decision D9 (log entry 7). -/
def Obligations.LoadConstantWritesItsRegister : Prop :=
  (∀ (c : Word) (r : MoveReg) (s : State), ∃ t, exec (.ldc c r) s = .next t ∧ HoldsWritten r c t ∧ t.p = s.p ∧
    t.loopSkip = s.loopSkip ∧ Keeps (writesOf r) [] [] [] [] s t) ∧
  (∀ s : State, exec .nopTotal s = .next s ∧ exec (.ldc 0#16 .nop) s = .next s ∧ exec .nop s = .next s)

/-- R211, R212, R221, R223, R226, R227: a full load on either bus writes its register with the word its index register
points at, post-modifies that register, and does nothing else; with the Move NOP register it does nothing at all. Where
nothing is mapped it stops (R68, U22). What a device reads as, INT_GLOB_EN among them, is open (R77, log entries 3, 4);
that the controller's register needs no entry in the map is the model's choice (log entry 4), the mask of a loaded MR0 is
D9 (log entry 7), that a guard register takes bits 7..0 D26 (log entry 16), the wrap of the index log entry 43. -/
def Obligations.FullLoads : Prop :=
  ∀ (n : IReg) (p : BitVec 4) (r : MoveReg) (s : State),
    let x := kindAt s.map.x (s.idx n).toNat
    let y := kindAt s.map.y (s.idx n).toNat
    (r ≠ .nop → NoConflict [] (.full .x ⟨false, n, p, r⟩) →
      (s.idx n = s.map.intGlobEn ∨ MapAllows false x →
        ∃ t v, exec (.ldxFull n p r) s = .next t ∧ HoldsWritten r v t ∧
          (s.idx n ≠ s.map.intGlobEn → x ≠ some .device → v = s.xWord (s.idx n)) ∧
          PostModified n p s t ∧ SkipAfterLoad r s t ∧ t.p = s.p ∧ Frame [] (.full .x ⟨false, n, p, r⟩) s t) ∧
      (s.idx n ≠ s.map.intGlobEn → MapStops false x (exec (.ldxFull n p r) s)) ∧
      (MapAllows false y →
        ∃ t v, exec (.ldyFull n p r) s = .next t ∧ HoldsWritten r v t ∧ (y ≠ some .device → v = s.yWord (s.idx n)) ∧
          PostModified n p s t ∧ SkipAfterLoad r s t ∧ t.p = s.p ∧ Frame [] (.full .y ⟨false, n, p, r⟩) s t) ∧
      MapStops false y (exec (.ldyFull n p r) s)) ∧
    (r = .nop → exec (.ldxFull n p r) s = .next s ∧ exec (.ldyFull n p r) s = .next s)

/-- R211, R212, R220, R224, R226: a full store on either bus stores the register's old value at the word its index
register points at and post-modifies that register; the other bytes stay. A store to INT_GLOB_EN enables interrupts
(R294); that it is always there, and that its word is kept, is the model's choice (log entry 4). A store anywhere but to
RAM stops (R68, U22, N23, log entry 3). The zeros of a stored MR0 are D9 (log entry 7), the bits 7..0 of a stored guard
register D26 (log entry 16), that NULL stores 0 is log entry 39, the wrap of the index log entry 43. -/
def Obligations.FullStores : Prop :=
  ∀ (n : IReg) (p : BitVec 4) (r : MoveReg) (s : State), Legal s →
    let x := kindAt s.map.x (s.idx n).toNat
    let y := kindAt s.map.y (s.idx n).toNat
    (r ≠ .nop →
      (s.idx n = s.map.intGlobEn ∨ MapAllows true x →
        ∃ t, exec (.stxFull n p r) s = .next t ∧ IsReadOf r (t.xWord (s.idx n)) s ∧ PostModified n p s t ∧
          (s.idx n = s.map.intGlobEn → t.irqEnabled = true) ∧ t.p = s.p ∧ Frame [] (.full .x ⟨true, n, p, r⟩) s t) ∧
      (s.idx n ≠ s.map.intGlobEn → MapStops true x (exec (.stxFull n p r) s)) ∧
      (MapAllows true y →
        ∃ t, exec (.styFull n p r) s = .next t ∧ IsReadOf r (t.yWord (s.idx n)) s ∧ PostModified n p s t ∧
          t.p = s.p ∧ Frame [] (.full .y ⟨true, n, p, r⟩) s t) ∧
      MapStops true y (exec (.styFull n p r) s)) ∧
    (r = .nop → exec (.stxFull n p r) s = .next s ∧ exec (.styFull n p r) s = .next s)

/-- R225, R219: two short moves both take place, the first on X, the second on Y, each with the state before, which is
D28 (log entry 41). An X store to INT_GLOB_EN enables interrupts (R294, log entry 4); what a device reads as is open (R77,
log entry 3). -/
def Obligations.TwoShortMoves : Prop :=
  ∀ (x y : ShortMove) (s : State), Legal s → CanRun [] (.short x y) s →
    ∃ t, exec (.twoShort x y) s = .next t ∧
      (x.store = true → t.xWord (s.idx x.n) = s.r16 x.reg ∧ (s.idx x.n = s.map.intGlobEn → t.irqEnabled = true)) ∧
      (x.store = false → ∃ v, HoldsWritten (.r16 x.reg) v t ∧ (s.xDevice (s.idx x.n) = false → v = s.xWord (s.idx x.n))) ∧
      (y.store = true → t.yWord (s.idx y.n) = s.r16 y.reg) ∧
      (y.store = false → ∃ v, HoldsWritten (.r16 y.reg) v t ∧ (s.yDevice (s.idx y.n) = false → v = s.yWord (s.idx y.n))) ∧
      (x.star = true → PostModified x.n 8#4 s t) ∧ (y.star = true → PostModified y.n 8#4 s t) ∧
      t.p = s.p ∧ t.loopSkip = s.loopSkip ∧ Frame [] (.short x y) s t

/-- R228: the double full move: an X and a Y full move with the state before, which is D28 (log entry 41); a half may be
a Move NOP. An X store to INT_GLOB_EN enables interrupts (R294, log entry 4); what a device reads as is open (R77, log
entry 3); the mask of MR0 is D9 (log entry 7), that a guard register takes bits 7..0, and stores them below open bits, D26
(log entry 16), that NULL stores 0 log entry 39, the wrap of an index log entry 43 (R220, R221, R226, R212). -/
def Obligations.DoubleFullMoves : Prop :=
  ∀ (x y : Option FullMove) (s : State), Legal s → (Instr.doubleFull x y).WellFormed →
    (allWrites (.doubleFull x y)).Nodup → instrAccess (.doubleFull x y) s = none →
    ∃ t, exec (.doubleFull x y) s = .next t ∧
      (∀ m, x = some m → PostModified m.n m.p s t ∧
        (m.store = true → IsReadOf m.reg (t.xWord (s.idx m.n)) s ∧ (s.idx m.n = s.map.intGlobEn → t.irqEnabled = true)) ∧
        (m.store = false → ∃ v, HoldsWritten m.reg v t ∧ (s.xDevice (s.idx m.n) = false → v = s.xWord (s.idx m.n)))) ∧
      (∀ m, y = some m → PostModified m.n m.p s t ∧ (m.store = true → IsReadOf m.reg (t.yWord (s.idx m.n)) s) ∧
        (m.store = false → ∃ v, HoldsWritten m.reg v t ∧ (s.yDevice (s.idx m.n) = false → v = s.yWord (s.idx m.n)))) ∧
      t.p = s.p ∧ Keeps (allWrites (.doubleFull x y)) (storedByHalf x s) (storedByHalf y s) [] [] s t

/-- R233: a register move copies the source, read before, to the destination; no memory, no index register, no
suppressed comparison; with the Move NOP register on either side nothing happens. That NULL reads 0 is log entry 39, that
MR0 moves with 0 in the bits it does not implement D9 (log entry 7), and a guard register D26 (log entry 16). -/
def Obligations.RegisterMoves : Prop :=
  ∀ (src dst : MoveReg) (s : State),
    (src ≠ .nop → dst ≠ .nop →
      ∃ t v, exec (.mvxParallel src dst) s = .next t ∧ IsReadOf src v s ∧ HoldsWritten dst v t ∧ t.p = s.p ∧
        t.loopSkip = s.loopSkip ∧ Keeps (writesOf dst) [] [] [] [] s t) ∧
    (src = .nop ∨ dst = .nop → exec (.mvxParallel src dst) s = .next s)

/-- R234: two register moves read both sources before they write; a move inside one execution unit faults, and two
writes of one register are a write conflict (R45). That the restriction is of each move is N30 (log entry 38), and the
zeros moved out of and into MR0 are D9 (log entry 7). That NULL reads 0 is log entry 39, that a guard register takes bits
7..0 D26 (log entry 16; R220, R221, R226); which of the two faults comes first is the model's choice (log entry 38). -/
def Obligations.DoubleRegisterMoves : Prop :=
  ∀ (xs xd ys yd : MoveReg) (s : State),
    (crossesNoUnit (.mvxMvyDouble xs xd ys yd) = true → exec (.mvxMvyDouble xs xd ys yd) s = .fault .doubleMoveUnits) ∧
    (crossesNoUnit (.mvxMvyDouble xs xd ys yd) = false → (allWrites (.mvxMvyDouble xs xd ys yd)).Nodup →
      ∃ t vx vy, exec (.mvxMvyDouble xs xd ys yd) s = .next t ∧ IsReadOf xs vx s ∧ IsReadOf ys vy s ∧
        (xs ≠ .nop → HoldsWritten xd vx t) ∧ (ys ≠ .nop → HoldsWritten yd vy t) ∧ t.p = s.p ∧
        Keeps (allWrites (.mvxMvyDouble xs xd ys yd)) [] [] [] [] s t)

/-- R236, R62 (D15, log entry 9): the long-address moves use the pair register as the upper half of a 32-bit X address
and modify no index register; with the Move NOP register they do nothing. Whether an address below 2^16 is a word of the
16-bit X space is an open parameter; where it is one, a store to INT_GLOB_EN enables interrupts (R294, log entry 4).
Where the maps do not allow the access it stops (R68, U22, log entry 3). That the long form of a load of a loop register
suppresses a comparison is log entry 46, the mask of MR0 D9 (log entry 7), what a device reads as is open (R77). That a
guard register takes bits 7..0 is D26 (log entry 16), that NULL stores 0 log entry 39 (R220, R221, R226). -/
def Obligations.LongAddressMoves : Prop :=
  ∀ (n : IReg) (r : MoveReg) (s : State), Legal s →
    let a := s.longAddr n
    let isX := longIsX a
    let kind := if isX then kindAt s.map.x (s.idx n).toNat else kindAt s.map.xl a.toNat
    let enable := isX = true ∧ s.idx n = s.map.intGlobEn
    a.toNat = (s.idx (pairReg n)).toNat * 65536 + (s.idx n).toNat ∧
    (r = .nop → exec (.ldxLong n r) s = .next s ∧ exec (.stxLong n r) s = .next s) ∧
    (r ≠ .nop →
      (enable ∨ MapAllows false kind →
        ∃ t v, exec (.ldxLong n r) s = .next t ∧ HoldsWritten r v t ∧
          (isX = false → kind ≠ some .device → v = s.longWord a) ∧
          (isX = true → ¬enable → kind ≠ some .device → v = s.xWord (s.idx n)) ∧
          SkipAfterLoad r s t ∧ t.p = s.p ∧ Frame [] (.longX false n r) s t) ∧
      (enable ∨ MapAllows true kind →
        ∃ t, exec (.stxLong n r) s = .next t ∧
          (isX = false → IsReadOf r (t.longWord a) s) ∧ (isX = true → IsReadOf r (t.xWord (s.idx n)) s) ∧
          (enable → t.irqEnabled = true) ∧ t.p = s.p ∧ Frame [] (.longX true n r) s t) ∧
      (¬enable → MapStops false kind (exec (.ldxLong n r) s) ∧ MapStops true kind (exec (.stxLong n r) s)))

/-- R237, R238 (D14, log entry 17): LDI loads the high and low half of an accumulator from the instruction word at
IPR0 : In, STI stores them there, and both post-modify the index register. The guard register after LDI is open, as is
what a device gives (R77). Where the map does not allow the access it stops (U22, N23, log entry 3). That the address is
remembered for three instructions is D4 (log entry 32), the wrap of the index log entry 43. -/
def Obligations.InstructionMemoryMoves : Prop :=
  ∀ (n : IReg) (p : BitVec 4) (q : AccName) (s : State), Legal s →
    let kind := kindAt s.map.i (s.ipr0 ++ s.idx n).toNat
    (MapAllows false kind →
      ∃ t, exec (.ldi n p q) s = .next t ∧
        (kind ≠ some .device → (t.acc q).high ++ (t.acc q).low = s.iWord (s.ipr0 ++ s.idx n)) ∧
        PostModified n p s t ∧ t.p = s.p ∧ Frame [] (.ibus false n p q) s t) ∧
    (MapAllows true kind →
      ∃ t, exec (.sti n p q) s = .next t ∧ t.iWord (s.ipr0 ++ s.idx n) = (s.acc q).high ++ (s.acc q).low ∧
        PostModified n p s t ∧ t.p = s.p ∧ (s.ipr0 ++ s.idx n, 3) ∈ t.stiRecent ∧ Frame [] (.ibus true n p q) s t) ∧
    MapStops false kind (exec (.ldi n p q) s) ∧ MapStops true kind (exec (.sti n p q) s)

/-- R213 to R217 (D21, log entry 45): the linear modes add the whole modifier; modulo modification moves the offset in an aligned buffer of `len` words
by the step, modulo `len`: by +1 and -1 in modes 100 and 101, by the signed step fields in modes 001 and 01x. -/
def Obligations.PairModificationLinearAndModulo : Prop :=
  (∀ a m : Word, m.toInt.natAbs ≤ 8191 ∨ m.toInt = -8192 →
    ∃ b, pairMod a m = some b ∧ b.toNat = (a.toNat + m.toNat) % 65536) ∧
  ∀ (a m : Word) (k len : Nat) (delta : Int),
    ((m.toNat / 8192 = 4 ∧ len = m.toNat % 8192 + 1 ∧ delta = 1) ∨
      (m.toNat / 8192 = 5 ∧ len = m.toNat % 8192 + 1 ∧ delta = -1) ∨
      (m.toNat / 8192 = 1 ∧ len = m.toNat % 64 + 1 ∧ -64 ≤ delta ∧ delta < 64 ∧
        (delta - (m.toNat / 64 % 128 : Nat)) % 128 = 0) ∨
      (m.toNat / 16384 = 1 ∧ len = 64 * (m.toNat % 64 + 1) ∧ -128 ≤ delta ∧ delta < 128 ∧
        (delta - (m.toNat / 64 % 256 : Nat)) % 256 = 0)) →
    len ≤ 2 ^ k → (∀ j < k, 2 ^ j < len) → a.toNat % 2 ^ k < len → -(len : Int) ≤ delta → delta ≤ len →
    ∃ b, pairMod a m = some b ∧ b.toNat / 2 ^ k = a.toNat / 2 ^ k ∧
      (b.toNat % 2 ^ k : Nat) = ((a.toNat % 2 ^ k : Nat) + delta) % (len : Int)

/-- R213, R218: bit-reversed modification: the carry goes towards the least significant bit inside a buffer of 2^k
words, the boundary is the highest 1-bit of the modifier's low 13 bits. -/
def Obligations.PairModificationBitReversed : Prop :=
  ∀ (a m : Word) (k : Nat), m.toNat / 8192 = 6 → 2 ^ k ≤ m.toNat % 8192 → m.toNat % 8192 < 2 ^ (k + 1) →
    ∃ b, pairMod a m = some b ∧ b.toNat / 2 ^ (k + 1) = a.toNat / 2 ^ (k + 1) ∧
      ∀ x y z : Nat, x < 2 ^ (k + 1) → y < 2 ^ (k + 1) → z < 2 ^ (k + 1) →
        (∀ i ≤ k, x.testBit i = a.toNat.testBit (k - i)) → (∀ i ≤ k, y.testBit i = m.toNat.testBit (k - i)) →
        (∀ i ≤ k, z.testBit i = b.toNat.testBit (k - i)) → z = (x + y) % 2 ^ (k + 1)

/-! ## Parallel moves and write conflicts -/

/-- R44, R157, R196, R241: in an instruction with an arithmetic part and a parallel move the move does what it does
alone: every source is read from the state before, whatever the arithmetic part writes. -/
def Obligations.ParallelMoveReadsTheStateBefore : Prop :=
  ∀ (i : Instr) (s t : State), parOf i ≠ .none → exec i s = .next t →
    ∃ u, exec (ofNopMove (parOf i)) s = .next u ∧ (∀ r ∈ writesOfPar (parOf i), t.peek r = u.peek r) ∧
      sameMemory u t ∧ sameMoveEffects u t

/-- R39, R229: a parallel move that writes MR0 wins over the flags of the same instruction. The bits that MR0 implements
are D9 (log entry 7); what a device reads as is open (R77). -/
def Obligations.MoveOfMr0WinsOverFlags : Prop :=
  ∀ (i : Instr) (s t : State), exec i s = .next t →
    (∀ n p, parOf i = .full .y ⟨false, n, p, .mr0⟩ → s.yDevice (s.idx n) = false →
      t.mr0 = s.yWord (s.idx n) &&& 0x079F#16) ∧
    (∀ n p, parOf i = .full .x ⟨false, n, p, .mr0⟩ → s.xDevice (s.idx n) = false →
      t.mr0 = s.xWord (s.idx n) &&& 0x079F#16) ∧
    (∀ n, parOf i = .longX false n .mr0 → longIsX (s.longAddr n) = false → s.longDevice (s.longAddr n) = false →
      t.mr0 = s.longWord (s.longAddr n) &&& 0x079F#16) ∧
    (∀ src, parOf i = .reg src .mr0 → src ≠ .nop → ∃ v, IsReadOf src v s ∧ t.mr0 = v &&& 0x079F#16)

/-- R45, R345 (D30, log entry 19): an instruction that writes one register twice faults. -/
def Obligations.TwoWritesOfOneRegisterFault : Prop :=
  ∀ (i : Instr) (s : State), i.WellFormed → narrowSatRnd i = false → crossesNoUnit i = false →
    ¬(allWrites i).Nodup → exec i s = .fault .writeConflict

/-- Every well-formed instruction without a write conflict takes a next state, whatever the data, where the memory maps
allow its accesses, and otherwise stops with what they stop (U22, log entry 3): no instruction raises an exception (R290,
R240). R158 excepts ASHL with a count out of range, where the spec faults; that the model goes on there is its own choice
(log entry 14), as with a modulo or bit-reversed modification that has no stated result (log entry 15), RESP (log entry
8), the register form of RETI (log entry 21) and a write of IPR0 (log entry 22), which the spec faults or refuses. -/
def Obligations.EveryInstructionCompletes : Prop :=
  ∀ (i : Instr) (s : State), i.WellFormed → narrowSatRnd i = false → crossesNoUnit i = false → (allWrites i).Nodup →
    (instrAccess i s = none → ∃ t, exec i s = .next t) ∧ (∀ f, instrAccess i s = some f → exec i s = .fault f)

/-! ## The ALU -/

/-- R141, R25, R26: the operands of a 40-bit operation as exact numbers. -/
def Obligations.WideOperandValues : Prop :=
  ∀ (s : State) (r : Reg16) (q : AccName),
    (s.val40 (.r16 r)).toInt = 65536 * (s.r16 r).toInt ∧ (s.val40 .null).toInt = 0 ∧ (s.val40 .ones).toInt = -1 ∧
    (s.val40 .p).toInt = s.p.toInt ∧
    (s.val40 (.acc q)).toNat = (s.acc q).guard.toNat * 2 ^ 32 + (s.acc q).high.toNat * 2 ^ 16 + (s.acc q).low.toNat

/-- R140 to R148, R154, R155: ADD, ADDC, SUB, SUBC, LSL and LSLC at 16 bits; C of a subtraction is "no borrow". The
flags of a saturated result are the spec's decision D17 (log entry 24), the limits R144's and SUBC's formula D16 (log
entry 23). -/
def Obligations.NarrowSums : Prop :=
  ∀ (op1 op2 : AluSrc) (r : Reg16) (pm : ParMove) (s : State), op1.is40 = false → op2.is40 = false →
    CanRun (writesOf (.r16 r)) pm s →
    let x := s.val16 op1
    let y := s.val16 op2
    AddsTo16 (.add op1 op2 (.r16 r) pm) r pm s (x.toInt + y.toInt) (decide (2 ^ 16 ≤ x.toNat + y.toNat)) ∧
    AddsTo16 (.addc op1 op2 (.r16 r) pm) r pm s (x.toInt + y.toInt + s.carry)
      (decide (2 ^ 16 ≤ x.toNat + y.toNat + s.carry)) ∧
    AddsTo16 (.sub op1 op2 (.r16 r) pm) r pm s (x.toInt - y.toInt) (decide (y.toNat ≤ x.toNat)) ∧
    AddsTo16 (.subc op1 op2 (.r16 r) pm) r pm s (x.toInt - y.toInt - (1 - s.carry))
      (decide (y.toNat + 1 ≤ x.toNat + s.carry)) ∧
    AddsTo16 (.lsl op1 (.r16 r) pm) r pm s (2 * x.toInt) x.msb ∧
    AddsTo16 (.lslc op1 (.r16 r) pm) r pm s (2 * x.toInt + s.carry) x.msb

/-- R140 to R148, R154 to R156: ADD, ADDC, SUB, SUBC, LSL and LSLC at 40 bits (D16, D17, log entries 23, 24), and
ADD NULL,P,An, which puts P1 and P0 in the high and low half and P's sign in the guard, with V = 0 and C = 0. -/
def Obligations.WideSums : Prop :=
  ∀ (op1 op2 : AluSrc) (q : AccName) (pm : ParMove) (s : State), op1 ≠ .p → CanRun (writesOfAcc q) pm s →
    let x := s.val40 op1
    let y := s.val40 op2
    (op1.is40 = true ∨ op2.is40 = true →
      AddsTo40 (.add op1 op2 (.acc q) pm) q pm s (x.toInt + y.toInt) (decide (2 ^ 40 ≤ x.toNat + y.toNat)) ∧
      AddsTo40 (.addc op1 op2 (.acc q) pm) q pm s (x.toInt + y.toInt + s.carry)
        (decide (2 ^ 40 ≤ x.toNat + y.toNat + s.carry)) ∧
      AddsTo40 (.sub op1 op2 (.acc q) pm) q pm s (x.toInt - y.toInt) (decide (y.toNat ≤ x.toNat)) ∧
      AddsTo40 (.subc op1 op2 (.acc q) pm) q pm s (x.toInt - y.toInt - (1 - s.carry))
        (decide (y.toNat + 1 ≤ x.toNat + s.carry))) ∧
    (op1.is40 = true →
      AddsTo40 (.lsl op1 (.acc q) pm) q pm s (2 * x.toInt) x.msb ∧
      AddsTo40 (.lslc op1 (.acc q) pm) q pm s (2 * x.toInt + s.carry) x.msb) ∧
    ∃ t, exec (.addNullP q pm) s = .next t ∧ (t.accValue q).extractLsb' 0 32 = s.p ∧
      (t.accValue q).extractLsb' 32 8 = (if s.p.msb then 0xFF#8 else 0x00#8) ∧
      Result40 q (t.accValue q) s.p.msb false false pm s t ∧ t.p = s.p

/-- R149: AND, with its coding. -/
def Obligations.LogicAnd : Prop :=
  ∀ (op1 op2 : AluSrc) (pm : ParMove) (s : State), op1 ≠ .p →
    (∀ r, op1.is40 = false → op2.is40 = false → CanRun (writesOf (.r16 r)) pm s → ∃ res : Word,
      (∀ i < 16, res.getLsbD i = ((s.val16 op1).getLsbD i && (s.val16 op2).getLsbD i)) ∧
      Gives16 (.and op1 op2 (.r16 r) pm) r pm s res (res.getLsbD 15) false false) ∧
    (∀ q, op1.is40 = true ∨ op2.is40 = true → CanRun (writesOfAcc q) pm s → ∃ res : Word40,
      (∀ i < 40, res.getLsbD i = ((s.val40 op1).getLsbD i && (s.val40 op2).getLsbD i)) ∧
      Gives40 (.and op1 op2 (.acc q) pm) q pm s res (res.getLsbD 39) false false) ∧
    (∀ dst, encode (.and op1 op2 dst pm) = 0b1011#4 ++ op1.code ++ op2.code ++ dst.code ++ encodePar pm)

/-- R150 to R152: OR, XOR and NOT, with their codings. -/
def Obligations.LogicOrXorNot : Prop :=
  ∀ (op1 op2 : AluSrc) (pm : ParMove) (s : State), op1 ≠ .p →
    (∀ r, op1.is40 = false → op2.is40 = false → CanRun (writesOf (.r16 r)) pm s → ∃ o x n : Word,
      (∀ i < 16, o.getLsbD i = ((s.val16 op1).getLsbD i || (s.val16 op2).getLsbD i)) ∧
      (∀ i < 16, x.getLsbD i = ((s.val16 op1).getLsbD i ^^ (s.val16 op2).getLsbD i)) ∧
      (∀ i < 16, n.getLsbD i = !(s.val16 op2).getLsbD i) ∧
      Gives16 (.or op1 op2 (.r16 r) pm) r pm s o (o.getLsbD 15) false false ∧
      Gives16 (.xor op1 op2 (.r16 r) pm) r pm s x (x.getLsbD 15) false false ∧
      Gives16 (.not op2 (.r16 r) pm) r pm s n (n.getLsbD 15) false false) ∧
    (∀ q, op1.is40 = true ∨ op2.is40 = true → CanRun (writesOfAcc q) pm s → ∃ o x n : Word40,
      (∀ i < 40, o.getLsbD i = ((s.val40 op1).getLsbD i || (s.val40 op2).getLsbD i)) ∧
      (∀ i < 40, x.getLsbD i = ((s.val40 op1).getLsbD i ^^ (s.val40 op2).getLsbD i)) ∧
      (∀ i < 40, n.getLsbD i = !(s.val40 op2).getLsbD i) ∧
      Gives40 (.or op1 op2 (.acc q) pm) q pm s o (o.getLsbD 39) false false ∧
      Gives40 (.xor op1 op2 (.acc q) pm) q pm s x (x.getLsbD 39) false false ∧
      (op2.is40 = true → Gives40 (.not op2 (.acc q) pm) q pm s n (n.getLsbD 39) false false)) ∧
    (∀ dst, encode (.or op1 op2 dst pm) = 0b1100#4 ++ op1.code ++ op2.code ++ dst.code ++ encodePar pm ∧
      encode (.xor op1 op2 dst pm) = 0b1101#4 ++ op1.code ++ op2.code ++ dst.code ++ encodePar pm ∧
      encode (.not op2 dst pm) = 0b1101#4 ++ 0b1001#4 ++ op2.code ++ dst.code ++ encodePar pm)

/-- R153 (C1, D17): ASHL with a count in range is multiplication by a power of two to the left, with V where the
product does not fit, and floor division to the right; C is the last bit shifted out. -/
def Obligations.ShiftInRange : Prop :=
  ∀ (op1 op2 : AluSrc) (pm : ParMove) (s : State), op1 ≠ .p → op2.is40 = false →
    let n := (s.val16 op2).toInt
    let done := fun (w : Nat) (x res : BitVec w) (v c : Bool) =>
      (0 < n → SumWritten w s.fS (x.toInt * 2 ^ n.toNat) res ∧ v = decide (¬FitsSigned w (x.toInt * 2 ^ n.toNat)) ∧
        c = x.getLsbD (w - n.toNat)) ∧
      (n = 0 → res = x ∧ v = false ∧ c = false) ∧
      (n < 0 → res.toInt = x.toInt / 2 ^ (-n).toNat ∧ v = false ∧ c = x.getLsbD ((-n).toNat - 1))
    (∀ r, op1.is40 = false → CanRun (writesOf (.r16 r)) pm s → -15 ≤ n → n ≤ 15 → ∃ res v c,
      Gives16 (.ashl op1 op2 (.r16 r) pm) r pm s res res.msb v c ∧ done 16 (s.val16 op1) res v c) ∧
    (∀ q, op1.is40 = true → CanRun (writesOfAcc q) pm s → -39 ≤ n → n ≤ 39 → ∃ res v c,
      Gives40 (.ashl op1 op2 (.acc q) pm) q pm s res res.msb v c ∧ done 40 (s.val40 op1) res v c)

/-- R153: with a count out of range "the result is undefined": some result, flags Z, N and E of it, V never for a
right shift ("This can only happen when shifting left"), and everything else as before. That the machine goes on is
the model's choice (log entry 14). -/
def Obligations.ShiftOutOfRangeGoesOn : Prop :=
  ∀ (op1 op2 : AluSrc) (pm : ParMove) (s : State), op1 ≠ .p → op2.is40 = false →
    let n := (s.val16 op2).toInt
    (∀ r, op1.is40 = false → CanRun (writesOf (.r16 r)) pm s → n < -15 ∨ 15 < n → ∃ res v c,
      Gives16 (.ashl op1 op2 (.r16 r) pm) r pm s res res.msb v c ∧ (n < 0 → v = false)) ∧
    (∀ q, op1.is40 = true → CanRun (writesOfAcc q) pm s → n < -39 ∨ 39 < n → ∃ res v c,
      Gives40 (.ashl op1 op2 (.acc q) pm) q pm s res res.msb v c ∧ (n < 0 → v = false))

/-- R171 (D18, log entry 13): ABS writes the magnitude, saturated where it does not fit; C is open. That Z, N and E are
those of the saturated value is the spec's decision D17 (log entry 24). -/
def Obligations.AbsoluteValue : Prop :=
  ∀ (op2 : AluSrc) (pm : ParMove) (s : State),
    (∀ r, op2.is40 = false → CanRun (writesOf (.r16 r)) pm s → ∃ res c,
      SumWritten 16 s.fS |(s.val16 op2).toInt| res ∧
      Gives16 (.abs op2 (.r16 r) pm) r pm s res res.msb (decide ((s.val16 op2).toInt = -2 ^ 15)) c) ∧
    (∀ q, op2.is40 = true → CanRun (writesOfAcc q) pm s → ∃ res c,
      SumWritten 40 s.fS |(s.val40 op2).toInt| res ∧
      Gives40 (.abs op2 (.acc q) pm) q pm s res res.msb (decide ((s.val40 op2).toInt = -2 ^ 39)) c)

/-- R172: ASR halves the signed value, rounding down; C is the bit shifted out, V = 0. N is 0 for a non-negative operand
and otherwise open (D27, log entry 12). -/
def Obligations.ArithmeticShiftRight : Prop :=
  ∀ (op2 : AluSrc) (pm : ParMove) (s : State),
    (∀ r, op2.is40 = false → CanRun (writesOf (.r16 r)) pm s → ∃ (res : Word) (n : Bool),
      let x := s.val16 op2
      res.toInt = x.toInt / 2 ∧ (0 ≤ x.toInt → n = false) ∧
      Gives16 (.asr op2 (.r16 r) pm) r pm s res n false (x.getLsbD 0)) ∧
    (∀ q, op2.is40 = true → CanRun (writesOfAcc q) pm s → ∃ (res : Word40) (n : Bool),
      let x := s.val40 op2
      res.toInt = x.toInt / 2 ∧ (0 ≤ x.toInt → n = false) ∧
      Gives40 (.asr op2 (.acc q) pm) q pm s res n false (x.getLsbD 0))

/-- R173, R175: LSR and LSRC move each bit one place down, with 0 or the old C in the top bit; C is the bit shifted
out, V = 0; and their codings. -/
def Obligations.LogicalShiftsRight : Prop :=
  ∀ (op2 : AluSrc) (pm : ParMove) (s : State),
    (∀ r, op2.is40 = false → CanRun (writesOf (.r16 r)) pm s → ∃ l c : Word,
      let x := s.val16 op2
      (∀ i < 15, l.getLsbD i = x.getLsbD (i + 1) ∧ c.getLsbD i = x.getLsbD (i + 1)) ∧
      l.getLsbD 15 = false ∧ c.getLsbD 15 = s.fC ∧
      Gives16 (.lsr op2 (.r16 r) pm) r pm s l false false (x.getLsbD 0) ∧
      Gives16 (.lsrc op2 (.r16 r) pm) r pm s c s.fC false (x.getLsbD 0)) ∧
    (∀ q, op2.is40 = true → CanRun (writesOfAcc q) pm s → ∃ l c : Word40,
      let x := s.val40 op2
      (∀ i < 39, l.getLsbD i = x.getLsbD (i + 1) ∧ c.getLsbD i = x.getLsbD (i + 1)) ∧
      l.getLsbD 39 = false ∧ c.getLsbD 39 = s.fC ∧
      Gives40 (.lsr op2 (.acc q) pm) q pm s l false false (x.getLsbD 0) ∧
      Gives40 (.lsrc op2 (.acc q) pm) q pm s c s.fC false (x.getLsbD 0)) ∧
    (∀ dst, encode (.lsr op2 dst pm) = 0b1111#4 ++ 0b0010#4 ++ op2.code ++ dst.code ++ encodePar pm ∧
      encode (.lsrc op2 dst pm) = 0b1111#4 ++ 0b0011#4 ++ op2.code ++ dst.code ++ encodePar pm)

/-- R177 (D19, log entry 10): EXP gives 0 for a zero operand and otherwise the length of the run of bits at the top of
the operand that equal its most significant bit, that bit included; the rest is the spec's offered reading. -/
def Obligations.ExponentCountsLeadingBits : Prop :=
  ∀ (op2 : AluSrc) (r : Reg16) (pm : ParMove) (s : State), CanRun (writesOf (.r16 r)) pm s →
    let counts := fun (w : Nat) (x : BitVec w) (k : Nat) =>
      (x = 0#w → k = 0) ∧ (x ≠ 0#w → 1 ≤ k ∧ k ≤ w ∧ (∀ j < k, x.getLsbD (w - 1 - j) = x.msb) ∧
        (k < w → x.getLsbD (w - 1 - k) ≠ x.msb))
    ∃ res : Word, Gives16 (.exp op2 r pm) r pm s res false false false ∧
      (op2.is40 = true → counts 40 (s.val40 op2) res.toNat) ∧ (op2.is40 = false → counts 16 (s.val16 op2) res.toNat)

/-- R178: SAT of a 40-bit operand, with its coding. -/
def Obligations.SaturateToThirtyTwoBits : Prop :=
  ∀ (op2 : AluSrc) (q : AccName) (pm : ParMove) (s : State),
    (op2.is40 = true → CanRun (writesOfAcc q) pm s → ∃ res : Word40,
      let x := (s.val40 op2).toInt
      (2 ^ 31 - 1 < x → res.toInt = 2 ^ 31 - 1) ∧ (x < -2 ^ 31 → res.toInt = -2 ^ 31) ∧
      (-2 ^ 31 ≤ x → x ≤ 2 ^ 31 - 1 → res.toInt = x) ∧
      Gives40 (.sat op2 q pm) q pm s res res.msb (decide (2 ^ 31 - 1 < x ∨ x < -2 ^ 31)) false ∧
      ∀ t, exec (.sat op2 q pm) s = .next t → .mr0 ∉ writesOfPar pm → t.fE = false) ∧
    (op2.is40 = false → exec (.sat op2 q pm) s = .fault .satRndOperand) ∧
    encode (.sat op2 q pm) = 0b1111#4 ++ 0b0110#4 ++ op2.code ++ (q.code ++ 1#1) ++ encodePar pm

/-- R179 (D20, log entry 11): RND rounds the top 24 bits, to even on a tie for R = 1, toward zero for R = 0, and
saturates to 16 bits; V where it saturated. RND of a 16-bit operand is not described and faults (U16, log entry
36). -/
def Obligations.RoundToSixteenBits : Prop :=
  ∀ (op2 : AluSrc) (r : Reg16) (pm : ParMove) (s : State),
    (op2.is40 = false → exec (.rnd op2 r pm) s = .fault .satRndOperand) ∧
    (op2.is40 = true → CanRun (writesOf (.r16 r)) pm s → ∃ (res : Word) (m : Int),
      let x := (s.val40 op2).toInt
      (s.fR = true → |x - 65536 * m| ≤ 32768 ∧ (|x - 65536 * m| = 32768 → m % 2 = 0)) ∧
      (s.fR = false → |65536 * m| ≤ |x| ∧ |x| < |65536 * m| + 65536 ∧ 0 ≤ x * m) ∧
      (FitsSigned 16 m → res.toInt = m) ∧ (2 ^ 15 ≤ m → res = 0x7FFF#16) ∧ (m < -2 ^ 15 → res = 0x8000#16) ∧
      Gives16 (.rnd op2 r pm) r pm s res res.msb (decide (¬FitsSigned 16 m)) false)

/-! ## The multiplier -/

/-- R190, R191, R197, R198: MUL and its four spellings write P and no flag. An unsigned fractional product wraps (D22,
log entry 25). -/
def Obligations.MultiplyWritesP : Prop :=
  ∀ (mode : MulMode) (op1 op2 : Reg16) (pm : ParMove) (s : State), CanRun [] pm s →
    let multiplies := fun (i : Instr) (mode : MulMode) =>
      ∃ t, exec i s = .next t ∧ ProductWritten mode (s.r16 op1) (s.r16 op2) s t.p ∧ Frame [] pm s t
    multiplies (.mul mode op1 op2 pm) mode ∧ multiplies (.mulss op1 op2 pm) .ss ∧ multiplies (.mulsu op1 op2 pm) .su ∧
    multiplies (.mulus op1 op2 pm) .us ∧ multiplies (.muluu op1 op2 pm) .uu

/-- R192, R193: MAC and MSU add or subtract the P of before, as a 40-bit addition with its flags, and then write the
new product. The flags of a saturated sum are the spec's decision D17 (log entry 24), its limits are PRESUMED (log entry
23), and an unsigned fractional product wraps by D22 (log entry 25). -/
def Obligations.MultiplyAccumulate : Prop :=
  ∀ (mode : MulMode) (op1 op2 : Reg16) (q : AccName) (pm : ParMove) (s : State), CanRun (writesOfAcc q) pm s →
    let x := s.accValue q
    let old := s.val40 .p
    let accumulates := fun (i : Instr) (total : Int) (carry : Bool) =>
      ∃ t res, exec i s = .next t ∧ SumWritten 40 s.fS total res ∧
        Result40 q res res.msb (decide (¬FitsSigned 40 total)) carry pm s t ∧
        ProductWritten mode (s.r16 op1) (s.r16 op2) s t.p
    accumulates (.mac op1 mode op2 q pm) (x.toInt + s.p.toInt) (decide (2 ^ 40 ≤ x.toNat + old.toNat)) ∧
    accumulates (.msu op1 mode op2 q pm) (x.toInt - s.p.toInt) (decide (old.toNat ≤ x.toNat))

/-- R194 (D13, log entry 8): RESP makes P of two registers, the order an open parameter, and writes no flag. -/
def Obligations.RespRestoresP : Prop :=
  ∀ (op1 op2 : Reg16) (s : State), ∃ t, exec (.resp op1 op2) s = .next t ∧
    (t.p = s.r16 op1 ++ s.r16 op2 ∨ t.p = s.r16 op2 ++ s.r16 op1) ∧ Keeps [] [] [] [] [] s t

end Claims
end

