-- ==== Sys2Proof/Laws/Memory.lean ====
section
/-! SUPPORT. The laws of a memory space: a read after a write, every other byte, and the canonical form, which every
write keeps. -/

namespace Sys2Proof.Machine

theorem Memory.byteAt_cons (k' : Nat) (v' : Byte) (m : Memory) (k : Nat) :
    Memory.byteAt ((k', v') :: m) k = if k = k' then v' else Memory.byteAt m k := rfl

/-- Below the first key of a canonical list nothing is listed. -/
theorem Memory.byteAt_of_lt {lo hi : Nat} : ∀ {m : Memory}, Memory.wfBetween lo hi m = true → ∀ {k}, k < lo →
    Memory.byteAt m k = unlistedByte
  | [], _, _, _ => rfl
  | (k', v') :: m, h, k, hk => by
    simp only [Memory.wfBetween, Bool.and_eq_true, decide_eq_true_eq] at h
    rw [Memory.byteAt_cons, if_neg (by omega)]
    exact Memory.byteAt_of_lt h.2 (by omega)

theorem Memory.byteAt_consByte_ne (m : Memory) {k k' : Nat} (v : Byte) (h : k' ≠ k) :
    Memory.byteAt (Memory.consByte m k v) k' = Memory.byteAt m k' := by
  unfold Memory.consByte; split
  · rfl
  · rw [Memory.byteAt_cons, if_neg h]

/-- A write of one byte leaves every other byte alone. -/
theorem Memory.byteAt_setByte_ne {k k' : Nat} (v : Byte) (h : k' ≠ k) : ∀ m : Memory,
    Memory.byteAt (Memory.setByte m k v) k' = Memory.byteAt m k'
  | [] => Memory.byteAt_consByte_ne [] v h
  | (k₀, v₀) :: m => by
    unfold Memory.setByte
    split
    · exact Memory.byteAt_consByte_ne _ v h
    · split
      · rename_i hk; subst hk
        rw [Memory.byteAt_consByte_ne _ v h, Memory.byteAt_cons, if_neg h]
      · rw [Memory.byteAt_cons, Memory.byteAt_cons, Memory.byteAt_setByte_ne v h m]

/-- A read after a write of the same byte gives the value written. -/
theorem Memory.byteAt_setByte_self {k hi : Nat} (v : Byte) : ∀ {m : Memory} {lo : Nat},
    Memory.wfBetween lo hi m = true → Memory.byteAt (Memory.setByte m k v) k = v
  | [], lo, _ => by
    unfold Memory.setByte Memory.consByte; split
    · rename_i h; exact h.symm
    · simp [Memory.byteAt]
  | (k₀, v₀) :: m, lo, h => by
    simp only [Memory.wfBetween, Bool.and_eq_true, decide_eq_true_eq] at h
    unfold Memory.setByte
    split
    · rename_i hk
      unfold Memory.consByte; split
      · rename_i hv
        rw [Memory.byteAt_cons, if_neg (by omega), Memory.byteAt_of_lt h.2 (by omega), hv]
      · rw [Memory.byteAt_cons, if_pos rfl]
    · split
      · rename_i hk
        unfold Memory.consByte; split
        · rename_i hv; rw [Memory.byteAt_of_lt h.2 (by omega), hv]
        · rw [Memory.byteAt_cons, if_pos rfl]
      · rename_i hk
        rw [Memory.byteAt_cons, if_neg hk]
        exact Memory.byteAt_setByte_self v h.2

theorem Memory.wfBetween_mono {lo lo' hi : Nat} (hl : lo' ≤ lo) : ∀ {m : Memory},
    Memory.wfBetween lo hi m = true → Memory.wfBetween lo' hi m = true
  | [], _ => rfl
  | (k, v) :: m, h => by
    simp only [Memory.wfBetween, Bool.and_eq_true, decide_eq_true_eq] at h ⊢
    exact ⟨⟨⟨by omega, h.1.1.2⟩, h.1.2⟩, h.2⟩

theorem Memory.wfBetween_consByte {lo hi k : Nat} {m : Memory} (v : Byte) (hlo : lo ≤ k) (hhi : k < hi)
    (h : Memory.wfBetween (k + 1) hi m = true) : Memory.wfBetween lo hi (Memory.consByte m k v) = true := by
  unfold Memory.consByte; split
  · exact Memory.wfBetween_mono (by omega) h
  · rename_i hv
    simp [Memory.wfBetween, hlo, hhi, hv, h]

/-- A write of one byte of the space keeps the canonical form. -/
theorem Memory.wfBetween_setByte {hi k : Nat} (v : Byte) (hhi : k < hi) : ∀ {m : Memory} {lo : Nat}, lo ≤ k →
    Memory.wfBetween lo hi m = true → Memory.wfBetween lo hi (Memory.setByte m k v) = true
  | [], lo, hlo, _ => Memory.wfBetween_consByte v hlo hhi rfl
  | (k₀, v₀) :: m, lo, hlo, h => by
    have h' := h
    simp only [Memory.wfBetween, Bool.and_eq_true, decide_eq_true_eq] at h
    unfold Memory.setByte
    split
    · rename_i hk
      refine Memory.wfBetween_consByte v hlo hhi ?_
      simp only [Memory.wfBetween, Bool.and_eq_true, decide_eq_true_eq]
      exact ⟨⟨⟨by omega, h.1.1.2⟩, h.1.2⟩, h.2⟩
    · split
      · rename_i hk; subst hk
        exact Memory.wfBetween_consByte v hlo hhi h.2
      · simp only [Memory.wfBetween, Bool.and_eq_true, decide_eq_true_eq]
        exact ⟨⟨h.1.1, h.1.2⟩, Memory.wfBetween_setByte v hhi (by omega) h.2⟩

theorem Memory.wf_setByte {size k : Nat} {m : Memory} (v : Byte) (hk : k < size) (h : Memory.wf size m = true) :
    Memory.wf size (Memory.setByte m k v) = true := Memory.wfBetween_setByte v hk (Nat.zero_le k) h

/-- A write of a 16-bit word keeps the canonical form. -/
theorem Memory.wf_write16 {size a : Nat} {m : Memory} (v : Word) (ha : 2 * a + 1 < size)
    (h : Memory.wf size m = true) : Memory.wf size (Memory.write16 m a v) = true :=
  Memory.wf_setByte _ ha (Memory.wf_setByte _ (by omega) h)

/-- A write of a 32-bit word keeps the canonical form. -/
theorem Memory.wf_write32 {size a : Nat} {m : Memory} (v : Word32) (ha : 4 * a + 3 < size)
    (h : Memory.wf size m = true) : Memory.wf size (Memory.write32 m a v) = true :=
  Memory.wf_setByte _ ha (Memory.wf_setByte _ (by omega) (Memory.wf_setByte _ (by omega)
    (Memory.wf_setByte _ (by omega) h)))

/-- A write of a 16-bit word leaves every byte outside it alone. -/
theorem Memory.write16_sameBytesBut (m : Memory) (a : Nat) (v : Word) :
    sameBytesBut (keys16 a) m (Memory.write16 m a v) := by
  intro k hk
  simp only [keys16, List.mem_cons, List.not_mem_nil, or_false, not_or] at hk
  unfold Memory.write16
  rw [Memory.byteAt_setByte_ne _ hk.2, Memory.byteAt_setByte_ne _ hk.1]

/-- A write of a 32-bit word leaves every byte outside it alone. -/
theorem Memory.write32_sameBytesBut (m : Memory) (a : Nat) (v : Word32) :
    sameBytesBut (keys32 a) m (Memory.write32 m a v) := by
  intro k hk
  simp only [keys32, List.mem_cons, List.not_mem_nil, or_false, not_or] at hk
  unfold Memory.write32
  rw [Memory.byteAt_setByte_ne _ hk.2.2.2, Memory.byteAt_setByte_ne _ hk.2.2.1, Memory.byteAt_setByte_ne _ hk.2.1,
    Memory.byteAt_setByte_ne _ hk.1]

/-- The two bytes of a word put together again. -/
theorem byte_append (v : Word) : v.extractLsb' 8 8 ++ v.extractLsb' 0 8 = v := by
  ext i hi
  simp only [BitVec.getElem_append, BitVec.getElem_extractLsb']
  split
  · simp [BitVec.getLsbD_eq_getElem hi]
  · rw [show 8 + (i - 8) = i by omega, BitVec.getLsbD_eq_getElem hi]

theorem byte_append32 (v : Word32) :
    v.extractLsb' 24 8 ++ v.extractLsb' 16 8 ++ v.extractLsb' 8 8 ++ v.extractLsb' 0 8 = v := by
  ext i hi
  simp only [BitVec.getElem_append, BitVec.getElem_extractLsb']
  have key : ∀ j, j = i → v.getLsbD j = v[i] := fun j hj => by rw [hj, BitVec.getLsbD_eq_getElem hi]
  split
  · exact key _ (by omega)
  · split
    · exact key _ (by omega)
    · split <;> exact key _ (by omega)

/-- A read of a 16-bit word after a write of it. -/
theorem Memory.read16_write16_self {size : Nat} {m : Memory} (a : Nat) (v : Word) (ha : 2 * a + 1 < size)
    (h : Memory.wf size m = true) : Memory.read16 (Memory.write16 m a v) a = v := by
  unfold Memory.read16 Memory.write16
  have h1 : Memory.wfBetween 0 size (Memory.setByte m (2 * a) (v.extractLsb' 8 8)) = true :=
    Memory.wf_setByte _ (by omega) h
  rw [Memory.byteAt_setByte_self _ h1, Memory.byteAt_setByte_ne _ (by omega), Memory.byteAt_setByte_self _ h,
    byte_append]

/-- A read of another 16-bit word. -/
theorem Memory.read16_write16_ne (m : Memory) {a b : Nat} (v : Word) (h : b ≠ a) :
    Memory.read16 (Memory.write16 m a v) b = Memory.read16 m b := by
  unfold Memory.read16
  rw [Memory.write16_sameBytesBut m a v _ (by simp [keys16]; omega),
    Memory.write16_sameBytesBut m a v _ (by simp [keys16]; omega)]

/-- A read of a 32-bit word after a write of it. -/
theorem Memory.read32_write32_self {size : Nat} {m : Memory} (a : Nat) (v : Word32) (ha : 4 * a + 3 < size)
    (h : Memory.wf size m = true) : Memory.read32 (Memory.write32 m a v) a = v := by
  unfold Memory.read32 Memory.write32
  have h1 := Memory.wf_setByte (k := 4 * a) (v.extractLsb' 24 8) (by omega) h
  have h2 := Memory.wf_setByte (k := 4 * a + 1) (v.extractLsb' 16 8) (by omega) h1
  have h3 := Memory.wf_setByte (k := 4 * a + 2) (v.extractLsb' 8 8) (by omega) h2
  rw [Memory.byteAt_setByte_self _ h3]
  rw [Memory.byteAt_setByte_ne (k' := 4 * a + 2) _ (by omega), Memory.byteAt_setByte_self _ h2]
  rw [Memory.byteAt_setByte_ne (k' := 4 * a + 1) _ (by omega), Memory.byteAt_setByte_ne (k' := 4 * a + 1) _ (by omega),
    Memory.byteAt_setByte_self _ h1]
  rw [Memory.byteAt_setByte_ne (k' := 4 * a) _ (by omega), Memory.byteAt_setByte_ne (k' := 4 * a) _ (by omega),
    Memory.byteAt_setByte_ne (k' := 4 * a) _ (by omega), Memory.byteAt_setByte_self _ h, byte_append32]

/-- A read of another 32-bit word. -/
theorem Memory.read32_write32_ne (m : Memory) {a b : Nat} (v : Word32) (h : b ≠ a) :
    Memory.read32 (Memory.write32 m a v) b = Memory.read32 m b := by
  have hb : ∀ j < 4, Memory.byteAt (Memory.write32 m a v) (4 * b + j) = Memory.byteAt m (4 * b + j) := fun j hj =>
    Memory.write32_sameBytesBut m a v _ (by simp [keys32]; omega)
  unfold Memory.read32
  rw [show 4 * b = 4 * b + 0 from rfl, hb 0 (by omega), hb 1 (by omega), hb 2 (by omega), hb 3 (by omega)]

/-! ## Memory maps -/

/-- A load is stopped only where nothing is mapped. -/
theorem loadFault_eq_none (m : List Region) (a : Nat) : loadFault m a = none ↔ MapAllows false (kindAt m a) := by
  unfold loadFault MapAllows; split <;> simp [*]

/-- A store is stopped everywhere but in RAM. -/
theorem storeFault_eq_none (m : List Region) (a : Nat) : storeFault m a = none ↔ MapAllows true (kindAt m a) := by
  unfold storeFault MapAllows; split <;> simp [*]

/-- A fetch is stopped where nothing, or a device, is mapped. -/
theorem fetchFaultAt_eq_none (m : List Region) (a : Nat) :
    fetchFaultAt m a = none ↔ kindAt m a = some .ram ∨ kindAt m a = some .rom := by
  unfold fetchFaultAt; split <;> simp [*]

/-- Memory right after reset is in canonical form. -/
theorem Memory.reset_wf : Memory.wf dataBytes State.reset.xmem = true ∧ Memory.wf dataBytes State.reset.ymem = true ∧
    Memory.wf instrBytes State.reset.imem = true ∧ Memory.wf longBytes State.reset.xlmem = true :=
  ⟨rfl, rfl, rfl, rfl⟩

end Sys2Proof.Machine
end

