-- ==== Sys2Proof/Laws/State.lean ====
section
/-! SUPPORT. One lemma per field per update of the state, and what the updated parts read as. -/

namespace Sys2Proof.Machine

/-! ### `setAcc` changes one accumulator -/
@[simp] theorem State.setAcc_p (s : State) (q : AccName) (v : AccReg) : (s.setAcc q v).p = s.p := by cases q <;> rfl
@[simp] theorem State.setAcc_i0 (s : State) (q : AccName) (v : AccReg) : (s.setAcc q v).i0 = s.i0 := by cases q <;> rfl
@[simp] theorem State.setAcc_i1 (s : State) (q : AccName) (v : AccReg) : (s.setAcc q v).i1 = s.i1 := by cases q <;> rfl
@[simp] theorem State.setAcc_i2 (s : State) (q : AccName) (v : AccReg) : (s.setAcc q v).i2 = s.i2 := by cases q <;> rfl
@[simp] theorem State.setAcc_i3 (s : State) (q : AccName) (v : AccReg) : (s.setAcc q v).i3 = s.i3 := by cases q <;> rfl
@[simp] theorem State.setAcc_i4 (s : State) (q : AccName) (v : AccReg) : (s.setAcc q v).i4 = s.i4 := by cases q <;> rfl
@[simp] theorem State.setAcc_i5 (s : State) (q : AccName) (v : AccReg) : (s.setAcc q v).i5 = s.i5 := by cases q <;> rfl
@[simp] theorem State.setAcc_i6 (s : State) (q : AccName) (v : AccReg) : (s.setAcc q v).i6 = s.i6 := by cases q <;> rfl
@[simp] theorem State.setAcc_i7 (s : State) (q : AccName) (v : AccReg) : (s.setAcc q v).i7 = s.i7 := by cases q <;> rfl
@[simp] theorem State.setAcc_lr0 (s : State) (q : AccName) (v : AccReg) : (s.setAcc q v).lr0 = s.lr0 := by cases q <;> rfl
@[simp] theorem State.setAcc_lr1 (s : State) (q : AccName) (v : AccReg) : (s.setAcc q v).lr1 = s.lr1 := by cases q <;> rfl
@[simp] theorem State.setAcc_mr0 (s : State) (q : AccName) (v : AccReg) : (s.setAcc q v).mr0 = s.mr0 := by cases q <;> rfl
@[simp] theorem State.setAcc_mode (s : State) (q : AccName) (v : AccReg) : (s.setAcc q v).mode = s.mode := by cases q <;> rfl
@[simp] theorem State.setAcc_flags (s : State) (q : AccName) (v : AccReg) : (s.setAcc q v).flags = s.flags := by cases q <;> rfl
@[simp] theorem State.setAcc_ls (s : State) (q : AccName) (v : AccReg) : (s.setAcc q v).ls = s.ls := by cases q <;> rfl
@[simp] theorem State.setAcc_le (s : State) (q : AccName) (v : AccReg) : (s.setAcc q v).le = s.le := by cases q <;> rfl
@[simp] theorem State.setAcc_lc (s : State) (q : AccName) (v : AccReg) : (s.setAcc q v).lc = s.lc := by cases q <;> rfl
@[simp] theorem State.setAcc_ipr0 (s : State) (q : AccName) (v : AccReg) : (s.setAcc q v).ipr0 = s.ipr0 := by cases q <;> rfl
@[simp] theorem State.setAcc_ipr1 (s : State) (q : AccName) (v : AccReg) : (s.setAcc q v).ipr1 = s.ipr1 := by cases q <;> rfl
@[simp] theorem State.setAcc_pc (s : State) (q : AccName) (v : AccReg) : (s.setAcc q v).pc = s.pc := by cases q <;> rfl
@[simp] theorem State.setAcc_pending (s : State) (q : AccName) (v : AccReg) : (s.setAcc q v).pending = s.pending := by cases q <;> rfl
@[simp] theorem State.setAcc_cancel (s : State) (q : AccName) (v : AccReg) : (s.setAcc q v).cancel = s.cancel := by cases q <;> rfl
@[simp] theorem State.setAcc_halted (s : State) (q : AccName) (v : AccReg) : (s.setAcc q v).halted = s.halted := by cases q <;> rfl
@[simp] theorem State.setAcc_loopSkip (s : State) (q : AccName) (v : AccReg) : (s.setAcc q v).loopSkip = s.loopSkip := by cases q <;> rfl
@[simp] theorem State.setAcc_haltSkid (s : State) (q : AccName) (v : AccReg) : (s.setAcc q v).haltSkid = s.haltSkid := by cases q <;> rfl
@[simp] theorem State.setAcc_haltWake (s : State) (q : AccName) (v : AccReg) : (s.setAcc q v).haltWake = s.haltWake := by cases q <;> rfl
@[simp] theorem State.setAcc_prev1 (s : State) (q : AccName) (v : AccReg) : (s.setAcc q v).prev1 = s.prev1 := by cases q <;> rfl
@[simp] theorem State.setAcc_prev2 (s : State) (q : AccName) (v : AccReg) : (s.setAcc q v).prev2 = s.prev2 := by cases q <;> rfl
@[simp] theorem State.setAcc_stiRecent (s : State) (q : AccName) (v : AccReg) : (s.setAcc q v).stiRecent = s.stiRecent := by cases q <;> rfl
@[simp] theorem State.setAcc_irqEnabled (s : State) (q : AccName) (v : AccReg) : (s.setAcc q v).irqEnabled = s.irqEnabled := by cases q <;> rfl
@[simp] theorem State.setAcc_irqIdle (s : State) (q : AccName) (v : AccReg) : (s.setAcc q v).irqIdle = s.irqIdle := by cases q <;> rfl
@[simp] theorem State.setAcc_xmem (s : State) (q : AccName) (v : AccReg) : (s.setAcc q v).xmem = s.xmem := by cases q <;> rfl
@[simp] theorem State.setAcc_ymem (s : State) (q : AccName) (v : AccReg) : (s.setAcc q v).ymem = s.ymem := by cases q <;> rfl
@[simp] theorem State.setAcc_imem (s : State) (q : AccName) (v : AccReg) : (s.setAcc q v).imem = s.imem := by cases q <;> rfl
@[simp] theorem State.setAcc_xlmem (s : State) (q : AccName) (v : AccReg) : (s.setAcc q v).xlmem = s.xlmem := by cases q <;> rfl
@[simp] theorem State.setAcc_irqInputs (s : State) (q : AccName) (v : AccReg) : (s.setAcc q v).irqInputs = s.irqInputs := by cases q <;> rfl
@[simp] theorem State.setAcc_resetIn (s : State) (q : AccName) (v : AccReg) : (s.setAcc q v).resetIn = s.resetIn := by cases q <;> rfl
@[simp] theorem State.setAcc_map (s : State) (q : AccName) (v : AccReg) : (s.setAcc q v).map = s.map := by cases q <;> rfl
@[simp] theorem State.setAcc_pageOpen (s : State) (q : AccName) (v : AccReg) : (s.setAcc q v).pageOpen = s.pageOpen := by cases q <;> rfl
@[simp] theorem State.setAcc_draws (s : State) (q : AccName) (v : AccReg) : (s.setAcc q v).draws = s.draws := by cases q <;> rfl
/-! ### `setIdx` changes one index register -/
@[simp] theorem State.setIdx_accA (s : State) (n : IReg) (v : Word) : (s.setIdx n v).accA = s.accA := by cases n <;> rfl
@[simp] theorem State.setIdx_accB (s : State) (n : IReg) (v : Word) : (s.setIdx n v).accB = s.accB := by cases n <;> rfl
@[simp] theorem State.setIdx_accC (s : State) (n : IReg) (v : Word) : (s.setIdx n v).accC = s.accC := by cases n <;> rfl
@[simp] theorem State.setIdx_accD (s : State) (n : IReg) (v : Word) : (s.setIdx n v).accD = s.accD := by cases n <;> rfl
@[simp] theorem State.setIdx_p (s : State) (n : IReg) (v : Word) : (s.setIdx n v).p = s.p := by cases n <;> rfl
@[simp] theorem State.setIdx_lr0 (s : State) (n : IReg) (v : Word) : (s.setIdx n v).lr0 = s.lr0 := by cases n <;> rfl
@[simp] theorem State.setIdx_lr1 (s : State) (n : IReg) (v : Word) : (s.setIdx n v).lr1 = s.lr1 := by cases n <;> rfl
@[simp] theorem State.setIdx_mr0 (s : State) (n : IReg) (v : Word) : (s.setIdx n v).mr0 = s.mr0 := by cases n <;> rfl
@[simp] theorem State.setIdx_mode (s : State) (n : IReg) (v : Word) : (s.setIdx n v).mode = s.mode := by cases n <;> rfl
@[simp] theorem State.setIdx_flags (s : State) (n : IReg) (v : Word) : (s.setIdx n v).flags = s.flags := by cases n <;> rfl
@[simp] theorem State.setIdx_ls (s : State) (n : IReg) (v : Word) : (s.setIdx n v).ls = s.ls := by cases n <;> rfl
@[simp] theorem State.setIdx_le (s : State) (n : IReg) (v : Word) : (s.setIdx n v).le = s.le := by cases n <;> rfl
@[simp] theorem State.setIdx_lc (s : State) (n : IReg) (v : Word) : (s.setIdx n v).lc = s.lc := by cases n <;> rfl
@[simp] theorem State.setIdx_ipr0 (s : State) (n : IReg) (v : Word) : (s.setIdx n v).ipr0 = s.ipr0 := by cases n <;> rfl
@[simp] theorem State.setIdx_ipr1 (s : State) (n : IReg) (v : Word) : (s.setIdx n v).ipr1 = s.ipr1 := by cases n <;> rfl
@[simp] theorem State.setIdx_pc (s : State) (n : IReg) (v : Word) : (s.setIdx n v).pc = s.pc := by cases n <;> rfl
@[simp] theorem State.setIdx_pending (s : State) (n : IReg) (v : Word) : (s.setIdx n v).pending = s.pending := by cases n <;> rfl
@[simp] theorem State.setIdx_cancel (s : State) (n : IReg) (v : Word) : (s.setIdx n v).cancel = s.cancel := by cases n <;> rfl
@[simp] theorem State.setIdx_halted (s : State) (n : IReg) (v : Word) : (s.setIdx n v).halted = s.halted := by cases n <;> rfl
@[simp] theorem State.setIdx_loopSkip (s : State) (n : IReg) (v : Word) : (s.setIdx n v).loopSkip = s.loopSkip := by cases n <;> rfl
@[simp] theorem State.setIdx_haltSkid (s : State) (n : IReg) (v : Word) : (s.setIdx n v).haltSkid = s.haltSkid := by cases n <;> rfl
@[simp] theorem State.setIdx_haltWake (s : State) (n : IReg) (v : Word) : (s.setIdx n v).haltWake = s.haltWake := by cases n <;> rfl
@[simp] theorem State.setIdx_prev1 (s : State) (n : IReg) (v : Word) : (s.setIdx n v).prev1 = s.prev1 := by cases n <;> rfl
@[simp] theorem State.setIdx_prev2 (s : State) (n : IReg) (v : Word) : (s.setIdx n v).prev2 = s.prev2 := by cases n <;> rfl
@[simp] theorem State.setIdx_stiRecent (s : State) (n : IReg) (v : Word) : (s.setIdx n v).stiRecent = s.stiRecent := by cases n <;> rfl
@[simp] theorem State.setIdx_irqEnabled (s : State) (n : IReg) (v : Word) : (s.setIdx n v).irqEnabled = s.irqEnabled := by cases n <;> rfl
@[simp] theorem State.setIdx_irqIdle (s : State) (n : IReg) (v : Word) : (s.setIdx n v).irqIdle = s.irqIdle := by cases n <;> rfl
@[simp] theorem State.setIdx_xmem (s : State) (n : IReg) (v : Word) : (s.setIdx n v).xmem = s.xmem := by cases n <;> rfl
@[simp] theorem State.setIdx_ymem (s : State) (n : IReg) (v : Word) : (s.setIdx n v).ymem = s.ymem := by cases n <;> rfl
@[simp] theorem State.setIdx_imem (s : State) (n : IReg) (v : Word) : (s.setIdx n v).imem = s.imem := by cases n <;> rfl
@[simp] theorem State.setIdx_xlmem (s : State) (n : IReg) (v : Word) : (s.setIdx n v).xlmem = s.xlmem := by cases n <;> rfl
@[simp] theorem State.setIdx_irqInputs (s : State) (n : IReg) (v : Word) : (s.setIdx n v).irqInputs = s.irqInputs := by cases n <;> rfl
@[simp] theorem State.setIdx_resetIn (s : State) (n : IReg) (v : Word) : (s.setIdx n v).resetIn = s.resetIn := by cases n <;> rfl
@[simp] theorem State.setIdx_map (s : State) (n : IReg) (v : Word) : (s.setIdx n v).map = s.map := by cases n <;> rfl
@[simp] theorem State.setIdx_pageOpen (s : State) (n : IReg) (v : Word) : (s.setIdx n v).pageOpen = s.pageOpen := by cases n <;> rfl
@[simp] theorem State.setIdx_draws (s : State) (n : IReg) (v : Word) : (s.setIdx n v).draws = s.draws := by cases n <;> rfl
/-! ### `setFlags` and `setL` change MR0 -/
@[simp] theorem State.setFlags_accA (s : State) (f : Flags) : (s.setFlags f).accA = s.accA := rfl
@[simp] theorem State.setFlags_accB (s : State) (f : Flags) : (s.setFlags f).accB = s.accB := rfl
@[simp] theorem State.setFlags_accC (s : State) (f : Flags) : (s.setFlags f).accC = s.accC := rfl
@[simp] theorem State.setFlags_accD (s : State) (f : Flags) : (s.setFlags f).accD = s.accD := rfl
@[simp] theorem State.setFlags_p (s : State) (f : Flags) : (s.setFlags f).p = s.p := rfl
@[simp] theorem State.setFlags_i0 (s : State) (f : Flags) : (s.setFlags f).i0 = s.i0 := rfl
@[simp] theorem State.setFlags_i1 (s : State) (f : Flags) : (s.setFlags f).i1 = s.i1 := rfl
@[simp] theorem State.setFlags_i2 (s : State) (f : Flags) : (s.setFlags f).i2 = s.i2 := rfl
@[simp] theorem State.setFlags_i3 (s : State) (f : Flags) : (s.setFlags f).i3 = s.i3 := rfl
@[simp] theorem State.setFlags_i4 (s : State) (f : Flags) : (s.setFlags f).i4 = s.i4 := rfl
@[simp] theorem State.setFlags_i5 (s : State) (f : Flags) : (s.setFlags f).i5 = s.i5 := rfl
@[simp] theorem State.setFlags_i6 (s : State) (f : Flags) : (s.setFlags f).i6 = s.i6 := rfl
@[simp] theorem State.setFlags_i7 (s : State) (f : Flags) : (s.setFlags f).i7 = s.i7 := rfl
@[simp] theorem State.setFlags_lr0 (s : State) (f : Flags) : (s.setFlags f).lr0 = s.lr0 := rfl
@[simp] theorem State.setFlags_lr1 (s : State) (f : Flags) : (s.setFlags f).lr1 = s.lr1 := rfl
@[simp] theorem State.setFlags_mode (s : State) (f : Flags) : (s.setFlags f).mode = s.mode := rfl
@[simp] theorem State.setFlags_flags (s : State) (f : Flags) : (s.setFlags f).flags = f := rfl
@[simp] theorem State.setFlags_ls (s : State) (f : Flags) : (s.setFlags f).ls = s.ls := rfl
@[simp] theorem State.setFlags_le (s : State) (f : Flags) : (s.setFlags f).le = s.le := rfl
@[simp] theorem State.setFlags_lc (s : State) (f : Flags) : (s.setFlags f).lc = s.lc := rfl
@[simp] theorem State.setFlags_ipr0 (s : State) (f : Flags) : (s.setFlags f).ipr0 = s.ipr0 := rfl
@[simp] theorem State.setFlags_ipr1 (s : State) (f : Flags) : (s.setFlags f).ipr1 = s.ipr1 := rfl
@[simp] theorem State.setFlags_pc (s : State) (f : Flags) : (s.setFlags f).pc = s.pc := rfl
@[simp] theorem State.setFlags_pending (s : State) (f : Flags) : (s.setFlags f).pending = s.pending := rfl
@[simp] theorem State.setFlags_cancel (s : State) (f : Flags) : (s.setFlags f).cancel = s.cancel := rfl
@[simp] theorem State.setFlags_halted (s : State) (f : Flags) : (s.setFlags f).halted = s.halted := rfl
@[simp] theorem State.setFlags_loopSkip (s : State) (f : Flags) : (s.setFlags f).loopSkip = s.loopSkip := rfl
@[simp] theorem State.setFlags_haltSkid (s : State) (f : Flags) : (s.setFlags f).haltSkid = s.haltSkid := rfl
@[simp] theorem State.setFlags_haltWake (s : State) (f : Flags) : (s.setFlags f).haltWake = s.haltWake := rfl
@[simp] theorem State.setFlags_prev1 (s : State) (f : Flags) : (s.setFlags f).prev1 = s.prev1 := rfl
@[simp] theorem State.setFlags_prev2 (s : State) (f : Flags) : (s.setFlags f).prev2 = s.prev2 := rfl
@[simp] theorem State.setFlags_stiRecent (s : State) (f : Flags) : (s.setFlags f).stiRecent = s.stiRecent := rfl
@[simp] theorem State.setFlags_irqEnabled (s : State) (f : Flags) : (s.setFlags f).irqEnabled = s.irqEnabled := rfl
@[simp] theorem State.setFlags_irqIdle (s : State) (f : Flags) : (s.setFlags f).irqIdle = s.irqIdle := rfl
@[simp] theorem State.setFlags_xmem (s : State) (f : Flags) : (s.setFlags f).xmem = s.xmem := rfl
@[simp] theorem State.setFlags_ymem (s : State) (f : Flags) : (s.setFlags f).ymem = s.ymem := rfl
@[simp] theorem State.setFlags_imem (s : State) (f : Flags) : (s.setFlags f).imem = s.imem := rfl
@[simp] theorem State.setFlags_xlmem (s : State) (f : Flags) : (s.setFlags f).xlmem = s.xlmem := rfl
@[simp] theorem State.setFlags_irqInputs (s : State) (f : Flags) : (s.setFlags f).irqInputs = s.irqInputs := rfl
@[simp] theorem State.setFlags_resetIn (s : State) (f : Flags) : (s.setFlags f).resetIn = s.resetIn := rfl
@[simp] theorem State.setFlags_map (s : State) (f : Flags) : (s.setFlags f).map = s.map := rfl
@[simp] theorem State.setFlags_pageOpen (s : State) (f : Flags) : (s.setFlags f).pageOpen = s.pageOpen := rfl
@[simp] theorem State.setFlags_draws (s : State) (f : Flags) : (s.setFlags f).draws = s.draws := rfl
@[simp] theorem State.setL_accA (s : State) (l : Bool) : (s.setL l).accA = s.accA := rfl
@[simp] theorem State.setL_accB (s : State) (l : Bool) : (s.setL l).accB = s.accB := rfl
@[simp] theorem State.setL_accC (s : State) (l : Bool) : (s.setL l).accC = s.accC := rfl
@[simp] theorem State.setL_accD (s : State) (l : Bool) : (s.setL l).accD = s.accD := rfl
@[simp] theorem State.setL_p (s : State) (l : Bool) : (s.setL l).p = s.p := rfl
@[simp] theorem State.setL_i0 (s : State) (l : Bool) : (s.setL l).i0 = s.i0 := rfl
@[simp] theorem State.setL_i1 (s : State) (l : Bool) : (s.setL l).i1 = s.i1 := rfl
@[simp] theorem State.setL_i2 (s : State) (l : Bool) : (s.setL l).i2 = s.i2 := rfl
@[simp] theorem State.setL_i3 (s : State) (l : Bool) : (s.setL l).i3 = s.i3 := rfl
@[simp] theorem State.setL_i4 (s : State) (l : Bool) : (s.setL l).i4 = s.i4 := rfl
@[simp] theorem State.setL_i5 (s : State) (l : Bool) : (s.setL l).i5 = s.i5 := rfl
@[simp] theorem State.setL_i6 (s : State) (l : Bool) : (s.setL l).i6 = s.i6 := rfl
@[simp] theorem State.setL_i7 (s : State) (l : Bool) : (s.setL l).i7 = s.i7 := rfl
@[simp] theorem State.setL_lr0 (s : State) (l : Bool) : (s.setL l).lr0 = s.lr0 := rfl
@[simp] theorem State.setL_lr1 (s : State) (l : Bool) : (s.setL l).lr1 = s.lr1 := rfl
@[simp] theorem State.setL_flags (s : State) (l : Bool) : (s.setL l).flags = s.flags := rfl
@[simp] theorem State.setL_ls (s : State) (l : Bool) : (s.setL l).ls = s.ls := rfl
@[simp] theorem State.setL_le (s : State) (l : Bool) : (s.setL l).le = s.le := rfl
@[simp] theorem State.setL_lc (s : State) (l : Bool) : (s.setL l).lc = s.lc := rfl
@[simp] theorem State.setL_ipr0 (s : State) (l : Bool) : (s.setL l).ipr0 = s.ipr0 := rfl
@[simp] theorem State.setL_ipr1 (s : State) (l : Bool) : (s.setL l).ipr1 = s.ipr1 := rfl
@[simp] theorem State.setL_pc (s : State) (l : Bool) : (s.setL l).pc = s.pc := rfl
@[simp] theorem State.setL_pending (s : State) (l : Bool) : (s.setL l).pending = s.pending := rfl
@[simp] theorem State.setL_cancel (s : State) (l : Bool) : (s.setL l).cancel = s.cancel := rfl
@[simp] theorem State.setL_halted (s : State) (l : Bool) : (s.setL l).halted = s.halted := rfl
@[simp] theorem State.setL_loopSkip (s : State) (l : Bool) : (s.setL l).loopSkip = s.loopSkip := rfl
@[simp] theorem State.setL_haltSkid (s : State) (l : Bool) : (s.setL l).haltSkid = s.haltSkid := rfl
@[simp] theorem State.setL_haltWake (s : State) (l : Bool) : (s.setL l).haltWake = s.haltWake := rfl
@[simp] theorem State.setL_prev1 (s : State) (l : Bool) : (s.setL l).prev1 = s.prev1 := rfl
@[simp] theorem State.setL_prev2 (s : State) (l : Bool) : (s.setL l).prev2 = s.prev2 := rfl
@[simp] theorem State.setL_stiRecent (s : State) (l : Bool) : (s.setL l).stiRecent = s.stiRecent := rfl
@[simp] theorem State.setL_irqEnabled (s : State) (l : Bool) : (s.setL l).irqEnabled = s.irqEnabled := rfl
@[simp] theorem State.setL_irqIdle (s : State) (l : Bool) : (s.setL l).irqIdle = s.irqIdle := rfl
@[simp] theorem State.setL_xmem (s : State) (l : Bool) : (s.setL l).xmem = s.xmem := rfl
@[simp] theorem State.setL_ymem (s : State) (l : Bool) : (s.setL l).ymem = s.ymem := rfl
@[simp] theorem State.setL_imem (s : State) (l : Bool) : (s.setL l).imem = s.imem := rfl
@[simp] theorem State.setL_xlmem (s : State) (l : Bool) : (s.setL l).xlmem = s.xlmem := rfl
@[simp] theorem State.setL_irqInputs (s : State) (l : Bool) : (s.setL l).irqInputs = s.irqInputs := rfl
@[simp] theorem State.setL_resetIn (s : State) (l : Bool) : (s.setL l).resetIn = s.resetIn := rfl
@[simp] theorem State.setL_map (s : State) (l : Bool) : (s.setL l).map = s.map := rfl
@[simp] theorem State.setL_pageOpen (s : State) (l : Bool) : (s.setL l).pageOpen = s.pageOpen := rfl
@[simp] theorem State.setL_draws (s : State) (l : Bool) : (s.setL l).draws = s.draws := rfl
/-! ### `setMr0` changes MR0 -/
@[simp] theorem State.setMr0_accA (s : State) (v : Word) : (s.setMr0 v).accA = s.accA := rfl
@[simp] theorem State.setMr0_accB (s : State) (v : Word) : (s.setMr0 v).accB = s.accB := rfl
@[simp] theorem State.setMr0_accC (s : State) (v : Word) : (s.setMr0 v).accC = s.accC := rfl
@[simp] theorem State.setMr0_accD (s : State) (v : Word) : (s.setMr0 v).accD = s.accD := rfl
@[simp] theorem State.setMr0_p (s : State) (v : Word) : (s.setMr0 v).p = s.p := rfl
@[simp] theorem State.setMr0_i0 (s : State) (v : Word) : (s.setMr0 v).i0 = s.i0 := rfl
@[simp] theorem State.setMr0_i1 (s : State) (v : Word) : (s.setMr0 v).i1 = s.i1 := rfl
@[simp] theorem State.setMr0_i2 (s : State) (v : Word) : (s.setMr0 v).i2 = s.i2 := rfl
@[simp] theorem State.setMr0_i3 (s : State) (v : Word) : (s.setMr0 v).i3 = s.i3 := rfl
@[simp] theorem State.setMr0_i4 (s : State) (v : Word) : (s.setMr0 v).i4 = s.i4 := rfl
@[simp] theorem State.setMr0_i5 (s : State) (v : Word) : (s.setMr0 v).i5 = s.i5 := rfl
@[simp] theorem State.setMr0_i6 (s : State) (v : Word) : (s.setMr0 v).i6 = s.i6 := rfl
@[simp] theorem State.setMr0_i7 (s : State) (v : Word) : (s.setMr0 v).i7 = s.i7 := rfl
@[simp] theorem State.setMr0_lr0 (s : State) (v : Word) : (s.setMr0 v).lr0 = s.lr0 := rfl
@[simp] theorem State.setMr0_lr1 (s : State) (v : Word) : (s.setMr0 v).lr1 = s.lr1 := rfl
@[simp] theorem State.setMr0_ls (s : State) (v : Word) : (s.setMr0 v).ls = s.ls := rfl
@[simp] theorem State.setMr0_le (s : State) (v : Word) : (s.setMr0 v).le = s.le := rfl
@[simp] theorem State.setMr0_lc (s : State) (v : Word) : (s.setMr0 v).lc = s.lc := rfl
@[simp] theorem State.setMr0_ipr0 (s : State) (v : Word) : (s.setMr0 v).ipr0 = s.ipr0 := rfl
@[simp] theorem State.setMr0_ipr1 (s : State) (v : Word) : (s.setMr0 v).ipr1 = s.ipr1 := rfl
@[simp] theorem State.setMr0_pc (s : State) (v : Word) : (s.setMr0 v).pc = s.pc := rfl
@[simp] theorem State.setMr0_pending (s : State) (v : Word) : (s.setMr0 v).pending = s.pending := rfl
@[simp] theorem State.setMr0_cancel (s : State) (v : Word) : (s.setMr0 v).cancel = s.cancel := rfl
@[simp] theorem State.setMr0_halted (s : State) (v : Word) : (s.setMr0 v).halted = s.halted := rfl
@[simp] theorem State.setMr0_loopSkip (s : State) (v : Word) : (s.setMr0 v).loopSkip = s.loopSkip := rfl
@[simp] theorem State.setMr0_haltSkid (s : State) (v : Word) : (s.setMr0 v).haltSkid = s.haltSkid := rfl
@[simp] theorem State.setMr0_haltWake (s : State) (v : Word) : (s.setMr0 v).haltWake = s.haltWake := rfl
@[simp] theorem State.setMr0_prev1 (s : State) (v : Word) : (s.setMr0 v).prev1 = s.prev1 := rfl
@[simp] theorem State.setMr0_prev2 (s : State) (v : Word) : (s.setMr0 v).prev2 = s.prev2 := rfl
@[simp] theorem State.setMr0_stiRecent (s : State) (v : Word) : (s.setMr0 v).stiRecent = s.stiRecent := rfl
@[simp] theorem State.setMr0_irqEnabled (s : State) (v : Word) : (s.setMr0 v).irqEnabled = s.irqEnabled := rfl
@[simp] theorem State.setMr0_irqIdle (s : State) (v : Word) : (s.setMr0 v).irqIdle = s.irqIdle := rfl
@[simp] theorem State.setMr0_xmem (s : State) (v : Word) : (s.setMr0 v).xmem = s.xmem := rfl
@[simp] theorem State.setMr0_ymem (s : State) (v : Word) : (s.setMr0 v).ymem = s.ymem := rfl
@[simp] theorem State.setMr0_imem (s : State) (v : Word) : (s.setMr0 v).imem = s.imem := rfl
@[simp] theorem State.setMr0_xlmem (s : State) (v : Word) : (s.setMr0 v).xlmem = s.xlmem := rfl
@[simp] theorem State.setMr0_irqInputs (s : State) (v : Word) : (s.setMr0 v).irqInputs = s.irqInputs := rfl
@[simp] theorem State.setMr0_resetIn (s : State) (v : Word) : (s.setMr0 v).resetIn = s.resetIn := rfl
@[simp] theorem State.setMr0_map (s : State) (v : Word) : (s.setMr0 v).map = s.map := rfl
@[simp] theorem State.setMr0_pageOpen (s : State) (v : Word) : (s.setMr0 v).pageOpen = s.pageOpen := rfl
@[simp] theorem State.setMr0_draws (s : State) (v : Word) : (s.setMr0 v).draws = s.draws := rfl
/-! ### `schedule` changes the pending transfer -/
@[simp] theorem State.schedule_accA (s : State) (t : Target) : (s.schedule t).accA = s.accA := rfl
@[simp] theorem State.schedule_accB (s : State) (t : Target) : (s.schedule t).accB = s.accB := rfl
@[simp] theorem State.schedule_accC (s : State) (t : Target) : (s.schedule t).accC = s.accC := rfl
@[simp] theorem State.schedule_accD (s : State) (t : Target) : (s.schedule t).accD = s.accD := rfl
@[simp] theorem State.schedule_p (s : State) (t : Target) : (s.schedule t).p = s.p := rfl
@[simp] theorem State.schedule_i0 (s : State) (t : Target) : (s.schedule t).i0 = s.i0 := rfl
@[simp] theorem State.schedule_i1 (s : State) (t : Target) : (s.schedule t).i1 = s.i1 := rfl
@[simp] theorem State.schedule_i2 (s : State) (t : Target) : (s.schedule t).i2 = s.i2 := rfl
@[simp] theorem State.schedule_i3 (s : State) (t : Target) : (s.schedule t).i3 = s.i3 := rfl
@[simp] theorem State.schedule_i4 (s : State) (t : Target) : (s.schedule t).i4 = s.i4 := rfl
@[simp] theorem State.schedule_i5 (s : State) (t : Target) : (s.schedule t).i5 = s.i5 := rfl
@[simp] theorem State.schedule_i6 (s : State) (t : Target) : (s.schedule t).i6 = s.i6 := rfl
@[simp] theorem State.schedule_i7 (s : State) (t : Target) : (s.schedule t).i7 = s.i7 := rfl
@[simp] theorem State.schedule_lr0 (s : State) (t : Target) : (s.schedule t).lr0 = s.lr0 := rfl
@[simp] theorem State.schedule_lr1 (s : State) (t : Target) : (s.schedule t).lr1 = s.lr1 := rfl
@[simp] theorem State.schedule_mr0 (s : State) (t : Target) : (s.schedule t).mr0 = s.mr0 := rfl
@[simp] theorem State.schedule_mode (s : State) (t : Target) : (s.schedule t).mode = s.mode := rfl
@[simp] theorem State.schedule_flags (s : State) (t : Target) : (s.schedule t).flags = s.flags := rfl
@[simp] theorem State.schedule_ls (s : State) (t : Target) : (s.schedule t).ls = s.ls := rfl
@[simp] theorem State.schedule_le (s : State) (t : Target) : (s.schedule t).le = s.le := rfl
@[simp] theorem State.schedule_lc (s : State) (t : Target) : (s.schedule t).lc = s.lc := rfl
@[simp] theorem State.schedule_ipr0 (s : State) (t : Target) : (s.schedule t).ipr0 = s.ipr0 := rfl
@[simp] theorem State.schedule_ipr1 (s : State) (t : Target) : (s.schedule t).ipr1 = s.ipr1 := rfl
@[simp] theorem State.schedule_pc (s : State) (t : Target) : (s.schedule t).pc = s.pc := rfl
@[simp] theorem State.schedule_cancel (s : State) (t : Target) : (s.schedule t).cancel = s.cancel := rfl
@[simp] theorem State.schedule_halted (s : State) (t : Target) : (s.schedule t).halted = s.halted := rfl
@[simp] theorem State.schedule_loopSkip (s : State) (t : Target) : (s.schedule t).loopSkip = s.loopSkip := rfl
@[simp] theorem State.schedule_haltSkid (s : State) (t : Target) : (s.schedule t).haltSkid = s.haltSkid := rfl
@[simp] theorem State.schedule_haltWake (s : State) (t : Target) : (s.schedule t).haltWake = s.haltWake := rfl
@[simp] theorem State.schedule_prev1 (s : State) (t : Target) : (s.schedule t).prev1 = s.prev1 := rfl
@[simp] theorem State.schedule_prev2 (s : State) (t : Target) : (s.schedule t).prev2 = s.prev2 := rfl
@[simp] theorem State.schedule_stiRecent (s : State) (t : Target) : (s.schedule t).stiRecent = s.stiRecent := rfl
@[simp] theorem State.schedule_irqEnabled (s : State) (t : Target) : (s.schedule t).irqEnabled = s.irqEnabled := rfl
@[simp] theorem State.schedule_irqIdle (s : State) (t : Target) : (s.schedule t).irqIdle = s.irqIdle := rfl
@[simp] theorem State.schedule_xmem (s : State) (t : Target) : (s.schedule t).xmem = s.xmem := rfl
@[simp] theorem State.schedule_ymem (s : State) (t : Target) : (s.schedule t).ymem = s.ymem := rfl
@[simp] theorem State.schedule_imem (s : State) (t : Target) : (s.schedule t).imem = s.imem := rfl
@[simp] theorem State.schedule_xlmem (s : State) (t : Target) : (s.schedule t).xlmem = s.xlmem := rfl
@[simp] theorem State.schedule_irqInputs (s : State) (t : Target) : (s.schedule t).irqInputs = s.irqInputs := rfl
@[simp] theorem State.schedule_resetIn (s : State) (t : Target) : (s.schedule t).resetIn = s.resetIn := rfl
@[simp] theorem State.schedule_map (s : State) (t : Target) : (s.schedule t).map = s.map := rfl
@[simp] theorem State.schedule_pageOpen (s : State) (t : Target) : (s.schedule t).pageOpen = s.pageOpen := rfl
@[simp] theorem State.schedule_draws (s : State) (t : Target) : (s.schedule t).draws = s.draws := rfl
/-! ### `tick` moves the draws and the inputs on -/
@[simp] theorem State.tick_accA (s : State) : (s.tick).accA = s.accA := rfl
@[simp] theorem State.tick_accB (s : State) : (s.tick).accB = s.accB := rfl
@[simp] theorem State.tick_accC (s : State) : (s.tick).accC = s.accC := rfl
@[simp] theorem State.tick_accD (s : State) : (s.tick).accD = s.accD := rfl
@[simp] theorem State.tick_p (s : State) : (s.tick).p = s.p := rfl
@[simp] theorem State.tick_i0 (s : State) : (s.tick).i0 = s.i0 := rfl
@[simp] theorem State.tick_i1 (s : State) : (s.tick).i1 = s.i1 := rfl
@[simp] theorem State.tick_i2 (s : State) : (s.tick).i2 = s.i2 := rfl
@[simp] theorem State.tick_i3 (s : State) : (s.tick).i3 = s.i3 := rfl
@[simp] theorem State.tick_i4 (s : State) : (s.tick).i4 = s.i4 := rfl
@[simp] theorem State.tick_i5 (s : State) : (s.tick).i5 = s.i5 := rfl
@[simp] theorem State.tick_i6 (s : State) : (s.tick).i6 = s.i6 := rfl
@[simp] theorem State.tick_i7 (s : State) : (s.tick).i7 = s.i7 := rfl
@[simp] theorem State.tick_lr0 (s : State) : (s.tick).lr0 = s.lr0 := rfl
@[simp] theorem State.tick_lr1 (s : State) : (s.tick).lr1 = s.lr1 := rfl
@[simp] theorem State.tick_mr0 (s : State) : (s.tick).mr0 = s.mr0 := rfl
@[simp] theorem State.tick_mode (s : State) : (s.tick).mode = s.mode := rfl
@[simp] theorem State.tick_flags (s : State) : (s.tick).flags = s.flags := rfl
@[simp] theorem State.tick_ls (s : State) : (s.tick).ls = s.ls := rfl
@[simp] theorem State.tick_le (s : State) : (s.tick).le = s.le := rfl
@[simp] theorem State.tick_lc (s : State) : (s.tick).lc = s.lc := rfl
@[simp] theorem State.tick_ipr0 (s : State) : (s.tick).ipr0 = s.ipr0 := rfl
@[simp] theorem State.tick_ipr1 (s : State) : (s.tick).ipr1 = s.ipr1 := rfl
@[simp] theorem State.tick_pc (s : State) : (s.tick).pc = s.pc := rfl
@[simp] theorem State.tick_pending (s : State) : (s.tick).pending = s.pending := rfl
@[simp] theorem State.tick_cancel (s : State) : (s.tick).cancel = s.cancel := rfl
@[simp] theorem State.tick_halted (s : State) : (s.tick).halted = s.halted := rfl
@[simp] theorem State.tick_loopSkip (s : State) : (s.tick).loopSkip = s.loopSkip := rfl
@[simp] theorem State.tick_haltSkid (s : State) : (s.tick).haltSkid = s.haltSkid := rfl
@[simp] theorem State.tick_haltWake (s : State) : (s.tick).haltWake = s.haltWake := rfl
@[simp] theorem State.tick_prev1 (s : State) : (s.tick).prev1 = s.prev1 := rfl
@[simp] theorem State.tick_prev2 (s : State) : (s.tick).prev2 = s.prev2 := rfl
@[simp] theorem State.tick_stiRecent (s : State) : (s.tick).stiRecent = s.stiRecent := rfl
@[simp] theorem State.tick_irqEnabled (s : State) : (s.tick).irqEnabled = s.irqEnabled := rfl
@[simp] theorem State.tick_irqIdle (s : State) : (s.tick).irqIdle = s.irqIdle := rfl
@[simp] theorem State.tick_xmem (s : State) : (s.tick).xmem = s.xmem := rfl
@[simp] theorem State.tick_ymem (s : State) : (s.tick).ymem = s.ymem := rfl
@[simp] theorem State.tick_imem (s : State) : (s.tick).imem = s.imem := rfl
@[simp] theorem State.tick_xlmem (s : State) : (s.tick).xlmem = s.xlmem := rfl
@[simp] theorem State.tick_pageOpen (s : State) : (s.tick).pageOpen = s.pageOpen := rfl
/-! ### Stores -/
@[simp] theorem State.xWrite_accA (s : State) (a v : Word) : (s.xWrite a v).accA = s.accA := rfl
@[simp] theorem State.xWrite_accB (s : State) (a v : Word) : (s.xWrite a v).accB = s.accB := rfl
@[simp] theorem State.xWrite_accC (s : State) (a v : Word) : (s.xWrite a v).accC = s.accC := rfl
@[simp] theorem State.xWrite_accD (s : State) (a v : Word) : (s.xWrite a v).accD = s.accD := rfl
@[simp] theorem State.xWrite_p (s : State) (a v : Word) : (s.xWrite a v).p = s.p := rfl
@[simp] theorem State.xWrite_i0 (s : State) (a v : Word) : (s.xWrite a v).i0 = s.i0 := rfl
@[simp] theorem State.xWrite_i1 (s : State) (a v : Word) : (s.xWrite a v).i1 = s.i1 := rfl
@[simp] theorem State.xWrite_i2 (s : State) (a v : Word) : (s.xWrite a v).i2 = s.i2 := rfl
@[simp] theorem State.xWrite_i3 (s : State) (a v : Word) : (s.xWrite a v).i3 = s.i3 := rfl
@[simp] theorem State.xWrite_i4 (s : State) (a v : Word) : (s.xWrite a v).i4 = s.i4 := rfl
@[simp] theorem State.xWrite_i5 (s : State) (a v : Word) : (s.xWrite a v).i5 = s.i5 := rfl
@[simp] theorem State.xWrite_i6 (s : State) (a v : Word) : (s.xWrite a v).i6 = s.i6 := rfl
@[simp] theorem State.xWrite_i7 (s : State) (a v : Word) : (s.xWrite a v).i7 = s.i7 := rfl
@[simp] theorem State.xWrite_lr0 (s : State) (a v : Word) : (s.xWrite a v).lr0 = s.lr0 := rfl
@[simp] theorem State.xWrite_lr1 (s : State) (a v : Word) : (s.xWrite a v).lr1 = s.lr1 := rfl
@[simp] theorem State.xWrite_mr0 (s : State) (a v : Word) : (s.xWrite a v).mr0 = s.mr0 := rfl
@[simp] theorem State.xWrite_mode (s : State) (a v : Word) : (s.xWrite a v).mode = s.mode := rfl
@[simp] theorem State.xWrite_flags (s : State) (a v : Word) : (s.xWrite a v).flags = s.flags := rfl
@[simp] theorem State.xWrite_ls (s : State) (a v : Word) : (s.xWrite a v).ls = s.ls := rfl
@[simp] theorem State.xWrite_le (s : State) (a v : Word) : (s.xWrite a v).le = s.le := rfl
@[simp] theorem State.xWrite_lc (s : State) (a v : Word) : (s.xWrite a v).lc = s.lc := rfl
@[simp] theorem State.xWrite_ipr0 (s : State) (a v : Word) : (s.xWrite a v).ipr0 = s.ipr0 := rfl
@[simp] theorem State.xWrite_ipr1 (s : State) (a v : Word) : (s.xWrite a v).ipr1 = s.ipr1 := rfl
@[simp] theorem State.xWrite_pc (s : State) (a v : Word) : (s.xWrite a v).pc = s.pc := rfl
@[simp] theorem State.xWrite_pending (s : State) (a v : Word) : (s.xWrite a v).pending = s.pending := rfl
@[simp] theorem State.xWrite_cancel (s : State) (a v : Word) : (s.xWrite a v).cancel = s.cancel := rfl
@[simp] theorem State.xWrite_halted (s : State) (a v : Word) : (s.xWrite a v).halted = s.halted := rfl
@[simp] theorem State.xWrite_loopSkip (s : State) (a v : Word) : (s.xWrite a v).loopSkip = s.loopSkip := rfl
@[simp] theorem State.xWrite_haltSkid (s : State) (a v : Word) : (s.xWrite a v).haltSkid = s.haltSkid := rfl
@[simp] theorem State.xWrite_haltWake (s : State) (a v : Word) : (s.xWrite a v).haltWake = s.haltWake := rfl
@[simp] theorem State.xWrite_prev1 (s : State) (a v : Word) : (s.xWrite a v).prev1 = s.prev1 := rfl
@[simp] theorem State.xWrite_prev2 (s : State) (a v : Word) : (s.xWrite a v).prev2 = s.prev2 := rfl
@[simp] theorem State.xWrite_stiRecent (s : State) (a v : Word) : (s.xWrite a v).stiRecent = s.stiRecent := rfl
@[simp] theorem State.xWrite_irqIdle (s : State) (a v : Word) : (s.xWrite a v).irqIdle = s.irqIdle := rfl
@[simp] theorem State.xWrite_ymem (s : State) (a v : Word) : (s.xWrite a v).ymem = s.ymem := rfl
@[simp] theorem State.xWrite_imem (s : State) (a v : Word) : (s.xWrite a v).imem = s.imem := rfl
@[simp] theorem State.xWrite_xlmem (s : State) (a v : Word) : (s.xWrite a v).xlmem = s.xlmem := rfl
@[simp] theorem State.xWrite_irqInputs (s : State) (a v : Word) : (s.xWrite a v).irqInputs = s.irqInputs := rfl
@[simp] theorem State.xWrite_resetIn (s : State) (a v : Word) : (s.xWrite a v).resetIn = s.resetIn := rfl
@[simp] theorem State.xWrite_map (s : State) (a v : Word) : (s.xWrite a v).map = s.map := rfl
@[simp] theorem State.xWrite_pageOpen (s : State) (a v : Word) : (s.xWrite a v).pageOpen = s.pageOpen := rfl
@[simp] theorem State.xWrite_draws (s : State) (a v : Word) : (s.xWrite a v).draws = s.draws := rfl
@[simp] theorem State.yWrite_accA (s : State) (a v : Word) : (s.yWrite a v).accA = s.accA := rfl
@[simp] theorem State.yWrite_accB (s : State) (a v : Word) : (s.yWrite a v).accB = s.accB := rfl
@[simp] theorem State.yWrite_accC (s : State) (a v : Word) : (s.yWrite a v).accC = s.accC := rfl
@[simp] theorem State.yWrite_accD (s : State) (a v : Word) : (s.yWrite a v).accD = s.accD := rfl
@[simp] theorem State.yWrite_p (s : State) (a v : Word) : (s.yWrite a v).p = s.p := rfl
@[simp] theorem State.yWrite_i0 (s : State) (a v : Word) : (s.yWrite a v).i0 = s.i0 := rfl
@[simp] theorem State.yWrite_i1 (s : State) (a v : Word) : (s.yWrite a v).i1 = s.i1 := rfl
@[simp] theorem State.yWrite_i2 (s : State) (a v : Word) : (s.yWrite a v).i2 = s.i2 := rfl
@[simp] theorem State.yWrite_i3 (s : State) (a v : Word) : (s.yWrite a v).i3 = s.i3 := rfl
@[simp] theorem State.yWrite_i4 (s : State) (a v : Word) : (s.yWrite a v).i4 = s.i4 := rfl
@[simp] theorem State.yWrite_i5 (s : State) (a v : Word) : (s.yWrite a v).i5 = s.i5 := rfl
@[simp] theorem State.yWrite_i6 (s : State) (a v : Word) : (s.yWrite a v).i6 = s.i6 := rfl
@[simp] theorem State.yWrite_i7 (s : State) (a v : Word) : (s.yWrite a v).i7 = s.i7 := rfl
@[simp] theorem State.yWrite_lr0 (s : State) (a v : Word) : (s.yWrite a v).lr0 = s.lr0 := rfl
@[simp] theorem State.yWrite_lr1 (s : State) (a v : Word) : (s.yWrite a v).lr1 = s.lr1 := rfl
@[simp] theorem State.yWrite_mr0 (s : State) (a v : Word) : (s.yWrite a v).mr0 = s.mr0 := rfl
@[simp] theorem State.yWrite_mode (s : State) (a v : Word) : (s.yWrite a v).mode = s.mode := rfl
@[simp] theorem State.yWrite_flags (s : State) (a v : Word) : (s.yWrite a v).flags = s.flags := rfl
@[simp] theorem State.yWrite_ls (s : State) (a v : Word) : (s.yWrite a v).ls = s.ls := rfl
@[simp] theorem State.yWrite_le (s : State) (a v : Word) : (s.yWrite a v).le = s.le := rfl
@[simp] theorem State.yWrite_lc (s : State) (a v : Word) : (s.yWrite a v).lc = s.lc := rfl
@[simp] theorem State.yWrite_ipr0 (s : State) (a v : Word) : (s.yWrite a v).ipr0 = s.ipr0 := rfl
@[simp] theorem State.yWrite_ipr1 (s : State) (a v : Word) : (s.yWrite a v).ipr1 = s.ipr1 := rfl
@[simp] theorem State.yWrite_pc (s : State) (a v : Word) : (s.yWrite a v).pc = s.pc := rfl
@[simp] theorem State.yWrite_pending (s : State) (a v : Word) : (s.yWrite a v).pending = s.pending := rfl
@[simp] theorem State.yWrite_cancel (s : State) (a v : Word) : (s.yWrite a v).cancel = s.cancel := rfl
@[simp] theorem State.yWrite_halted (s : State) (a v : Word) : (s.yWrite a v).halted = s.halted := rfl
@[simp] theorem State.yWrite_loopSkip (s : State) (a v : Word) : (s.yWrite a v).loopSkip = s.loopSkip := rfl
@[simp] theorem State.yWrite_haltSkid (s : State) (a v : Word) : (s.yWrite a v).haltSkid = s.haltSkid := rfl
@[simp] theorem State.yWrite_haltWake (s : State) (a v : Word) : (s.yWrite a v).haltWake = s.haltWake := rfl
@[simp] theorem State.yWrite_prev1 (s : State) (a v : Word) : (s.yWrite a v).prev1 = s.prev1 := rfl
@[simp] theorem State.yWrite_prev2 (s : State) (a v : Word) : (s.yWrite a v).prev2 = s.prev2 := rfl
@[simp] theorem State.yWrite_stiRecent (s : State) (a v : Word) : (s.yWrite a v).stiRecent = s.stiRecent := rfl
@[simp] theorem State.yWrite_irqEnabled (s : State) (a v : Word) : (s.yWrite a v).irqEnabled = s.irqEnabled := rfl
@[simp] theorem State.yWrite_irqIdle (s : State) (a v : Word) : (s.yWrite a v).irqIdle = s.irqIdle := rfl
@[simp] theorem State.yWrite_xmem (s : State) (a v : Word) : (s.yWrite a v).xmem = s.xmem := rfl
@[simp] theorem State.yWrite_imem (s : State) (a v : Word) : (s.yWrite a v).imem = s.imem := rfl
@[simp] theorem State.yWrite_xlmem (s : State) (a v : Word) : (s.yWrite a v).xlmem = s.xlmem := rfl
@[simp] theorem State.yWrite_irqInputs (s : State) (a v : Word) : (s.yWrite a v).irqInputs = s.irqInputs := rfl
@[simp] theorem State.yWrite_resetIn (s : State) (a v : Word) : (s.yWrite a v).resetIn = s.resetIn := rfl
@[simp] theorem State.yWrite_map (s : State) (a v : Word) : (s.yWrite a v).map = s.map := rfl
@[simp] theorem State.yWrite_pageOpen (s : State) (a v : Word) : (s.yWrite a v).pageOpen = s.pageOpen := rfl
@[simp] theorem State.yWrite_draws (s : State) (a v : Word) : (s.yWrite a v).draws = s.draws := rfl
@[simp] theorem State.iWrite_accA (s : State) (a v : Word32) : (s.iWrite a v).accA = s.accA := rfl
@[simp] theorem State.iWrite_accB (s : State) (a v : Word32) : (s.iWrite a v).accB = s.accB := rfl
@[simp] theorem State.iWrite_accC (s : State) (a v : Word32) : (s.iWrite a v).accC = s.accC := rfl
@[simp] theorem State.iWrite_accD (s : State) (a v : Word32) : (s.iWrite a v).accD = s.accD := rfl
@[simp] theorem State.iWrite_p (s : State) (a v : Word32) : (s.iWrite a v).p = s.p := rfl
@[simp] theorem State.iWrite_i0 (s : State) (a v : Word32) : (s.iWrite a v).i0 = s.i0 := rfl
@[simp] theorem State.iWrite_i1 (s : State) (a v : Word32) : (s.iWrite a v).i1 = s.i1 := rfl
@[simp] theorem State.iWrite_i2 (s : State) (a v : Word32) : (s.iWrite a v).i2 = s.i2 := rfl
@[simp] theorem State.iWrite_i3 (s : State) (a v : Word32) : (s.iWrite a v).i3 = s.i3 := rfl
@[simp] theorem State.iWrite_i4 (s : State) (a v : Word32) : (s.iWrite a v).i4 = s.i4 := rfl
@[simp] theorem State.iWrite_i5 (s : State) (a v : Word32) : (s.iWrite a v).i5 = s.i5 := rfl
@[simp] theorem State.iWrite_i6 (s : State) (a v : Word32) : (s.iWrite a v).i6 = s.i6 := rfl
@[simp] theorem State.iWrite_i7 (s : State) (a v : Word32) : (s.iWrite a v).i7 = s.i7 := rfl
@[simp] theorem State.iWrite_lr0 (s : State) (a v : Word32) : (s.iWrite a v).lr0 = s.lr0 := rfl
@[simp] theorem State.iWrite_lr1 (s : State) (a v : Word32) : (s.iWrite a v).lr1 = s.lr1 := rfl
@[simp] theorem State.iWrite_mr0 (s : State) (a v : Word32) : (s.iWrite a v).mr0 = s.mr0 := rfl
@[simp] theorem State.iWrite_mode (s : State) (a v : Word32) : (s.iWrite a v).mode = s.mode := rfl
@[simp] theorem State.iWrite_flags (s : State) (a v : Word32) : (s.iWrite a v).flags = s.flags := rfl
@[simp] theorem State.iWrite_ls (s : State) (a v : Word32) : (s.iWrite a v).ls = s.ls := rfl
@[simp] theorem State.iWrite_le (s : State) (a v : Word32) : (s.iWrite a v).le = s.le := rfl
@[simp] theorem State.iWrite_lc (s : State) (a v : Word32) : (s.iWrite a v).lc = s.lc := rfl
@[simp] theorem State.iWrite_ipr0 (s : State) (a v : Word32) : (s.iWrite a v).ipr0 = s.ipr0 := rfl
@[simp] theorem State.iWrite_ipr1 (s : State) (a v : Word32) : (s.iWrite a v).ipr1 = s.ipr1 := rfl
@[simp] theorem State.iWrite_pc (s : State) (a v : Word32) : (s.iWrite a v).pc = s.pc := rfl
@[simp] theorem State.iWrite_pending (s : State) (a v : Word32) : (s.iWrite a v).pending = s.pending := rfl
@[simp] theorem State.iWrite_cancel (s : State) (a v : Word32) : (s.iWrite a v).cancel = s.cancel := rfl
@[simp] theorem State.iWrite_halted (s : State) (a v : Word32) : (s.iWrite a v).halted = s.halted := rfl
@[simp] theorem State.iWrite_loopSkip (s : State) (a v : Word32) : (s.iWrite a v).loopSkip = s.loopSkip := rfl
@[simp] theorem State.iWrite_haltSkid (s : State) (a v : Word32) : (s.iWrite a v).haltSkid = s.haltSkid := rfl
@[simp] theorem State.iWrite_haltWake (s : State) (a v : Word32) : (s.iWrite a v).haltWake = s.haltWake := rfl
@[simp] theorem State.iWrite_prev1 (s : State) (a v : Word32) : (s.iWrite a v).prev1 = s.prev1 := rfl
@[simp] theorem State.iWrite_prev2 (s : State) (a v : Word32) : (s.iWrite a v).prev2 = s.prev2 := rfl
@[simp] theorem State.iWrite_irqEnabled (s : State) (a v : Word32) : (s.iWrite a v).irqEnabled = s.irqEnabled := rfl
@[simp] theorem State.iWrite_irqIdle (s : State) (a v : Word32) : (s.iWrite a v).irqIdle = s.irqIdle := rfl
@[simp] theorem State.iWrite_xmem (s : State) (a v : Word32) : (s.iWrite a v).xmem = s.xmem := rfl
@[simp] theorem State.iWrite_ymem (s : State) (a v : Word32) : (s.iWrite a v).ymem = s.ymem := rfl
@[simp] theorem State.iWrite_xlmem (s : State) (a v : Word32) : (s.iWrite a v).xlmem = s.xlmem := rfl
@[simp] theorem State.iWrite_irqInputs (s : State) (a v : Word32) : (s.iWrite a v).irqInputs = s.irqInputs := rfl
@[simp] theorem State.iWrite_resetIn (s : State) (a v : Word32) : (s.iWrite a v).resetIn = s.resetIn := rfl
@[simp] theorem State.iWrite_map (s : State) (a v : Word32) : (s.iWrite a v).map = s.map := rfl
@[simp] theorem State.iWrite_pageOpen (s : State) (a v : Word32) : (s.iWrite a v).pageOpen = s.pageOpen := rfl
@[simp] theorem State.iWrite_draws (s : State) (a v : Word32) : (s.iWrite a v).draws = s.draws := rfl

/-! ### What the updated parts read as -/

@[simp] theorem State.acc_setAcc_self (s : State) (q : AccName) (v : AccReg) : (s.setAcc q v).acc q = v := by
  cases q <;> rfl

theorem State.acc_setAcc_ne (s : State) {q q' : AccName} (v : AccReg) (h : q' ≠ q) :
    (s.setAcc q v).acc q' = s.acc q' := by
  cases q <;> cases q' <;> first | rfl | exact absurd rfl h

@[simp] theorem State.idx_setIdx_self (s : State) (n : IReg) (v : Word) : (s.setIdx n v).idx n = v := by
  cases n <;> rfl

theorem State.idx_setIdx_ne (s : State) {n n' : IReg} (v : Word) (h : n' ≠ n) :
    (s.setIdx n v).idx n' = s.idx n' := by
  cases n <;> cases n' <;> first | rfl | exact absurd rfl h

@[simp] theorem State.idx_setAcc (s : State) (q : AccName) (v : AccReg) (n : IReg) :
    (s.setAcc q v).idx n = s.idx n := by cases n <;> simp [State.idx]

@[simp] theorem State.acc_setIdx (s : State) (n : IReg) (v : Word) (q : AccName) :
    (s.setIdx n v).acc q = s.acc q := by cases q <;> simp [State.acc]

@[simp] theorem State.schedule_pending (s : State) (t : Target) : (s.schedule t).pending = some t := rfl

@[simp] theorem State.tick_draws (s : State) : s.tick.draws = s.draws + 1 := rfl

theorem State.xWrite_xmem (s : State) (a v : Word) : (s.xWrite a v).xmem = s.xmem.write16 a.toNat v := rfl

theorem State.xWrite_irqEnabled (s : State) (a v : Word) :
    (s.xWrite a v).irqEnabled = if a = s.map.intGlobEn then true else s.irqEnabled := by
  simp only [State.xWrite]; split <;> simp [*]

/-- What stops a long access is what stops it in the part of the X space that it goes to. -/
theorem State.longFault_eq (s : State) (store : Bool) (a : Word32) :
    s.longFault store a = if longIsX a then s.nearFault store a else s.farFault store a := by
  unfold State.longFault
  split <;> simp_all

/-- A long store is a store to one of the two parts of the X space. -/
theorem State.xWriteL_eq (s : State) (a : Word32) (v : Word) : s.xWriteL a v =
    if longIsX a then s.xWrite (a.extractLsb' 0 16) v else { s with xlmem := s.xlmem.write16 a.toNat v } := by
  unfold State.xWriteL
  split <;> simp [*, State.xWrite]

end Sys2Proof.Machine
end

