-- ==== Sys2Proof/Laws/Moves.lean ====
section
/-! SUPPORT. What the register and memory operations, the moves and the end of an instruction can change: one lemma
each, in the terms of `Keeps`. -/

namespace Sys2Proof.Machine

/-! ## `Keeps` composes -/

theorem Keeps.refl (s : State) : Keeps [] [] [] [] [] s s :=
  { regs := fun _ _ => rfl
    xBytes := fun _ _ => rfl
    yBytes := fun _ _ => rfl
    iBytes := fun _ _ => rfl
    longBytes := fun _ _ => rfl
    sequencer := ⟨rfl, rfl, rfl, rfl, rfl, rfl, rfl, rfl, rfl, rfl, rfl, rfl, rfl⟩
    skip := fun _ => rfl
    enable := fun _ => rfl
    record := fun _ => rfl
    page := fun _ => rfl }

theorem sameSequencer.trans {s t u : State} (h : sameSequencer s t) (h' : sameSequencer t u) : sameSequencer s u := by
  obtain ⟨a1, a2, a3, a4, a5, a6, a7, a8, a9, a10, a11, a12, a13⟩ := h
  obtain ⟨b1, b2, b3, b4, b5, b6, b7, b8, b9, b10, b11, b12, b13⟩ := h'
  exact ⟨b1.trans a1, b2.trans a2, b3.trans a3, b4.trans a4, b5.trans a5, b6.trans a6, b7.trans a7, b8.trans a8,
    b9.trans a9, b10.trans a10, b11.trans a11, b12.trans a12, b13.trans a13⟩

theorem sameSequencer.map {s t : State} (h : sameSequencer s t) : t.map = s.map := h.2.2.2.2.2.2.2.2.2.2.2.1

theorem hasLoopReg_mono {a b : List MoveReg} (h : a ⊆ b) (hb : hasLoopReg b = false) : hasLoopReg a = false := by
  simp only [hasLoopReg, List.any_eq_false] at hb ⊢
  exact fun r hr => hb r (h hr)

/-- A longer list says less. -/
theorem Keeps.mono {w w' : List MoveReg} {x x' y y' i i' l l' : List Nat} {s t : State} (h : Keeps w x y i l s t)
    (hw : w ⊆ w') (hx : x ⊆ x') (hy : y ⊆ y') (hi : i ⊆ i') (hl : l ⊆ l') : Keeps w' x' y' i' l' s t :=
  { regs := fun r hr => h.regs r fun hm => hr (hw hm)
    xBytes := fun k hk => h.xBytes k fun hm => hk (hx hm)
    yBytes := fun k hk => h.yBytes k fun hm => hk (hy hm)
    iBytes := fun k hk => h.iBytes k fun hm => hk (hi hm)
    longBytes := fun k hk => h.longBytes k fun hm => hk (hl hm)
    sequencer := h.sequencer
    skip := fun hs => h.skip (hasLoopReg_mono hw hs)
    enable := fun he => h.enable fun hm => he (hx hm)
    record := fun hr => h.record (by subst hr; exact List.subset_nil.mp hi)
    page := fun hp => h.page fun hm => hp (hw hm) }

theorem Keeps.trans {w w' : List MoveReg} {x x' y y' i i' l l' : List Nat} {s t u : State}
    (h : Keeps w x y i l s t) (h' : Keeps w' x' y' i' l' t u) :
    Keeps (w ++ w') (x ++ x') (y ++ y') (i ++ i') (l ++ l') s u := by
  have g := h.mono (List.subset_append_left w w') (List.subset_append_left x x') (List.subset_append_left y y')
    (List.subset_append_left i i') (List.subset_append_left l l')
  have g' := h'.mono (List.subset_append_right w w') (List.subset_append_right x x') (List.subset_append_right y y')
    (List.subset_append_right i i') (List.subset_append_right l l')
  exact
    { regs := fun r hr => (g'.regs r hr).trans (g.regs r hr)
      xBytes := fun k hk => (g'.xBytes k hk).trans (g.xBytes k hk)
      yBytes := fun k hk => (g'.yBytes k hk).trans (g.yBytes k hk)
      iBytes := fun k hk => (g'.iBytes k hk).trans (g.iBytes k hk)
      longBytes := fun k hk => (g'.longBytes k hk).trans (g.longBytes k hk)
      sequencer := g.sequencer.trans g'.sequencer
      skip := fun hs => (g'.skip hs).trans (g.skip hs)
      enable := fun he => (g'.enable (by rwa [g.sequencer.map])).trans (g.enable he)
      record := fun hr => (g'.record hr).trans (g.record hr)
      page := fun hp => (g'.page hp).trans (g.page hp) }

/-! ## Accumulators and index registers -/

@[simp] theorem State.r16_setAcc (s : State) (q : AccName) (v : AccReg) (r : Reg16) :
    (s.setAcc q v).r16 r = if regAcc r = q then (if regHigh r then v.high else v.low) else s.r16 r := by
  unfold State.r16
  by_cases h : regAcc r = q
  · subst h; simp
  · rw [State.acc_setAcc_ne s v h, if_neg h]

theorem regOf_cases (r : Reg16) : r = accHigh (regAcc r) ∧ regHigh r = true ∨ r = accLow (regAcc r) ∧ regHigh r = false := by
  cases r <;> simp [accHigh, accLow, regAcc, regHigh]

/-- A write of an accumulator changes its three registers. -/
theorem State.setAcc_keeps (s : State) (q : AccName) (v : AccReg) :
    Keeps (writesOfAcc q) [] [] [] [] s (s.setAcc q v) := by
  refine { (Keeps.refl s) with
    regs := fun r hr => ?_, xBytes := fun k _ => by simp, yBytes := fun k _ => by simp, iBytes := fun k _ => by simp,
    longBytes := fun k _ => by simp, sequencer := by simp [sameSequencer], skip := fun _ => by simp,
    enable := fun _ => by simp, record := fun _ => by simp, page := fun _ => by simp }
  cases r <;> try (simp [State.peek]; done)
  · rename_i r
    have hq : regAcc r ≠ q := by
      rintro rfl; apply hr
      rcases regOf_cases r with ⟨h, -⟩ | ⟨h, -⟩ <;> rw [h] <;> cases r <;> simp [writesOfAcc, accHigh, accLow, regAcc]
    simp [State.peek, hq]
  · rename_i q'
    have hq : q' ≠ q := by rintro rfl; exact hr (by simp [writesOfAcc])
    simp [State.peek, State.acc_setAcc_ne s v hq]

/-- A 16-bit write of a register changes it, and a high half's guard register (R24). -/
theorem State.writeR16_keeps (s : State) (r : Reg16) (v : Word) :
    Keeps (writesOf (.r16 r)) [] [] [] [] s (s.writeR16 r v) := by
  unfold State.writeR16
  refine { State.setAcc_keeps s (regAcc r) _ with regs := fun r' hr => ?_, skip := fun _ => by simp, page := fun _ => by simp }
  cases r' <;> try (simp [State.peek]; done)
  · rename_i r'
    simp only [State.peek, State.r16_setAcc]
    by_cases h : regAcc r' = regAcc r
    · have hne : r' ≠ r := by rintro rfl; exact hr (by cases r' <;> decide)
      rw [if_pos h]
      revert hne h; unfold State.r16
      cases r <;> cases r' <;> simp [regAcc, regHigh, State.acc]
    · rw [if_neg h]
  · rename_i q
    simp only [State.peek]
    by_cases h : q = regAcc r
    · subst h
      have hl : regHigh r = false := by
        by_contra hh; rw [Bool.not_eq_false] at hh; apply hr; simp [writesOf, hh]
      simp [hl]
    · rw [State.acc_setAcc_ne s _ h]

/-- A write of an index register changes only it. -/
theorem State.setIdx_keeps (s : State) (n : IReg) (v : Word) : Keeps [.idx n] [] [] [] [] s (s.setIdx n v) := by
  refine { (Keeps.refl s) with
    regs := fun r hr => ?_, xBytes := fun k _ => by simp, yBytes := fun k _ => by simp, iBytes := fun k _ => by simp,
    longBytes := fun k _ => by simp, sequencer := by simp [sameSequencer], skip := fun _ => by simp,
    enable := fun _ => by simp, record := fun _ => by simp, page := fun _ => by simp }
  cases r <;> try (simp [State.peek]; done)
  · simp [State.peek, State.r16]
  · rename_i n'
    exact State.idx_setIdx_ne s v (by rintro rfl; exact hr (by simp))

@[simp] theorem State.writeR16_p (s : State) (r : Reg16) (v : Word) : (s.writeR16 r v).p = s.p := by
  simp [State.writeR16]

@[simp] theorem State.writeAcc_p (s : State) (q : AccName) (v : Word40) : (s.writeAcc q v).p = s.p := by
  simp [State.writeAcc]

@[simp] theorem State.writeReg_p (s : State) (m : Bool) (r : MoveReg) (v : Word) : (s.writeReg m r v).p = s.p := by
  cases r <;> simp [State.writeReg, State.writeGuard, skipAfter] <;> split <;> rfl

/-! ## A move's write of a register -/

/-- What `writeReg` changes (R221): the register, a high half's guard register, and nothing else but the suppressed
comparison (R341) and the open page (U18). -/
theorem State.writeReg_keeps (s : State) (m : Bool) (r : MoveReg) (v : Word) :
    Keeps (writesOf r) [] [] [] [] s (s.writeReg m r v) := by
  have flat : ∀ t : State, (∀ r', r' ≠ r → t.peek r' = s.peek r') → t.xmem = s.xmem → t.ymem = s.ymem →
      t.imem = s.imem → t.xlmem = s.xlmem → sameSequencer s t → (hasLoopReg [r] = false → t.loopSkip = s.loopSkip) →
      t.irqEnabled = s.irqEnabled → t.stiRecent = s.stiRecent → (r ≠ .ipr0 → t.pageOpen = s.pageOpen) →
      Keeps [r] [] [] [] [] s t := fun t h1 h2 h3 h4 h5 h6 h7 h8 h9 h10 =>
    { regs := fun r' hr => h1 r' (by simpa using hr)
      xBytes := fun k _ => by rw [h2]
      yBytes := fun k _ => by rw [h3]
      iBytes := fun k _ => by rw [h4]
      longBytes := fun k _ => by rw [h5]
      sequencer := h6
      skip := h7
      enable := fun _ => h8
      record := fun _ => h9
      page := fun hp => h10 (by simpa [eq_comm] using hp) }
  cases r with
  | r16 r => exact State.writeR16_keeps s r v
  | null => exact (Keeps.refl s)
  | nop => exact (Keeps.refl s)
  | idx n => exact State.setIdx_keeps s n v
  | guard q =>
    refine { State.setAcc_keeps s q _ with
      regs := fun r' hr => ?_
      skip := fun _ => by simp [State.writeReg, State.writeGuard]
      page := fun _ => by simp [State.writeReg, State.writeGuard] }
    cases r' <;> try (simp [State.peek, State.writeReg, State.writeGuard]; done)
    · rename_i r'
      simp only [State.peek, State.writeReg, State.writeGuard, State.r16_setAcc]
      split
      · rename_i h; simp only [State.r16, h]
      · rfl
    · rename_i q'
      simp only [State.peek, State.writeReg, State.writeGuard]
      rw [State.acc_setAcc_ne s _ (by rintro rfl; exact hr (by simp [writesOf]))]
  | lr0 => exact flat _ (fun r' h => by cases r' <;> first | rfl | exact absurd rfl h) rfl rfl rfl rfl ⟨rfl, rfl, rfl, rfl, rfl, rfl, rfl, rfl, rfl, rfl, rfl, rfl, rfl⟩ (fun _ => rfl) rfl rfl (fun _ => rfl)
  | lr1 => exact flat _ (fun r' h => by cases r' <;> first | rfl | exact absurd rfl h) rfl rfl rfl rfl ⟨rfl, rfl, rfl, rfl, rfl, rfl, rfl, rfl, rfl, rfl, rfl, rfl, rfl⟩ (fun _ => rfl) rfl rfl (fun _ => rfl)
  | mr0 => exact flat _ (fun r' h => by cases r' <;> first | rfl | exact absurd rfl h) rfl rfl rfl rfl ⟨rfl, rfl, rfl, rfl, rfl, rfl, rfl, rfl, rfl, rfl, rfl, rfl, rfl⟩ (fun _ => rfl) rfl rfl (fun _ => rfl)
  | ipr0 => exact flat _ (fun r' h => by cases r' <;> first | rfl | exact absurd rfl h) rfl rfl rfl rfl ⟨rfl, rfl, rfl, rfl, rfl, rfl, rfl, rfl, rfl, rfl, rfl, rfl, rfl⟩ (fun _ => rfl) rfl rfl (fun h => absurd rfl h)
  | ipr1 => exact flat _ (fun r' h => by cases r' <;> first | rfl | exact absurd rfl h) rfl rfl rfl rfl ⟨rfl, rfl, rfl, rfl, rfl, rfl, rfl, rfl, rfl, rfl, rfl, rfl, rfl⟩ (fun _ => rfl) rfl rfl (fun _ => rfl)
  | lc => cases m <;> exact flat _ (fun r' h => by cases r' <;> first | rfl | exact absurd rfl h) rfl rfl rfl rfl ⟨rfl, rfl, rfl, rfl, rfl, rfl, rfl, rfl, rfl, rfl, rfl, rfl, rfl⟩ (fun h => by simp [hasLoopReg, isLoopReg] at h) rfl rfl (fun _ => rfl)
  | ls => cases m <;> exact flat _ (fun r' h => by cases r' <;> first | rfl | exact absurd rfl h) rfl rfl rfl rfl ⟨rfl, rfl, rfl, rfl, rfl, rfl, rfl, rfl, rfl, rfl, rfl, rfl, rfl⟩ (fun h => by simp [hasLoopReg, isLoopReg] at h) rfl rfl (fun _ => rfl)
  | le => cases m <;> exact flat _ (fun r' h => by cases r' <;> first | rfl | exact absurd rfl h) rfl rfl rfl rfl ⟨rfl, rfl, rfl, rfl, rfl, rfl, rfl, rfl, rfl, rfl, rfl, rfl, rfl⟩ (fun h => by simp [hasLoopReg, isLoopReg] at h) rfl rfl (fun _ => rfl)

/-! ## Stores -/

/-- Any store to memory leaves the registers alone. -/
theorem peek_of_xmem (s : State) (m : Memory) (b : Bool) (r : MoveReg) :
    { s with xmem := m, irqEnabled := b }.peek r = s.peek r := by cases r <;> rfl

theorem keys16_even (a : Nat) : 2 * a ∈ keys16 a := by simp [keys16]

theorem State.xWrite_keeps (s : State) (a v : Word) : Keeps [] (keys16 a.toNat) [] [] [] s (s.xWrite a v) := by
  refine { (Keeps.refl s) with
    regs := fun r _ => ?_, xBytes := ?_, yBytes := fun k _ => by simp, iBytes := fun k _ => by simp,
    longBytes := fun k _ => by simp, sequencer := by simp [sameSequencer], skip := fun _ => by simp,
    enable := fun he => ?_, record := fun _ => by simp, page := fun _ => by simp }
  · cases r <;> rfl
  · rw [State.xWrite_xmem]; exact Memory.write16_sameBytesBut _ _ _
  · rw [State.xWrite_irqEnabled, if_neg]
    rintro rfl; exact he (keys16_even _)

theorem State.yWrite_keeps (s : State) (a v : Word) : Keeps [] [] (keys16 a.toNat) [] [] s (s.yWrite a v) :=
  { (Keeps.refl s) with
    regs := fun r _ => by cases r <;> rfl
    yBytes := Memory.write16_sameBytesBut _ _ _
    sequencer := by simp [sameSequencer] }

theorem State.iWrite_keeps (s : State) (a v : Word32) : Keeps [] [] [] (keys32 a.toNat) [] s (s.iWrite a v) :=
  { (Keeps.refl s) with
    regs := fun r _ => by cases r <;> rfl
    iBytes := Memory.write32_sameBytesBut _ _ _
    sequencer := by simp [sameSequencer]
    record := fun h => by simp [keys32] at h }

theorem State.xlmem_keeps (s : State) (a : Word32) (v : Word) :
    Keeps [] [] [] [] (keys16 a.toNat) s { s with xlmem := s.xlmem.write16 a.toNat v } :=
  { (Keeps.refl s) with
    regs := fun r _ => by cases r <;> rfl
    longBytes := Memory.write16_sameBytesBut _ _ _
    sequencer := by simp [sameSequencer] }

@[simp] theorem State.busWrite_p (s : State) (b : Bus) (a v : Word) : (s.busWrite b a v).p = s.p := by
  cases b <;> simp [State.busWrite]

@[simp] theorem State.xWriteL_p (s : State) (a : Word32) (v : Word) : (s.xWriteL a v).p = s.p := by
  rfl

/-! ## Post-modification -/

theorem postMod_keeps (u : Config.FreeUse) (n : IReg) (p : BitVec 4) (old s : State) :
    Keeps (writesOfPost n p) [] [] [] [] s (postMod u n p old s) := by
  unfold postMod writesOfPost
  split
  · exact Keeps.refl s
  · exact State.setIdx_keeps s n _

@[simp] theorem postMod_p (u : Config.FreeUse) (n : IReg) (p : BitVec 4) (old s : State) :
    (postMod u n p old s).p = s.p := by
  unfold postMod; split <;> simp

/-! ## Moves -/

/-- The bytes of X, or of Y, that a full move on a bus stores to. -/
def storedOn (b b' : Bus) (m : FullMove) (s : State) : List Nat := if b = b' then storedByFull m s else []

theorem applyFull_keeps (m : FullMove) (b : Bus) (old s : State) :
    Keeps (writesOfFull m) (storedOn b .x m old) (storedOn b .y m old) [] [] s (applyFull m b old s) := by
  unfold applyFull writesOfFull
  by_cases h : m.reg = .nop
  · rw [if_pos h, if_pos h]
    exact (Keeps.refl s).mono (by simp) (by simp) (by simp) (by simp) (by simp)
  · rw [if_neg h, if_neg h]
    by_cases hs : m.store
    · simp only [hs, if_true]
      have hst : storedByFull m old = keys16 (old.idx m.n).toNat := by simp [storedByFull, hs, h]
      refine Keeps.mono (Keeps.trans (t := s.busWrite b (old.idx m.n) (old.readReg (busUse b) m.reg))
        (x := storedOn b .x m old) (y := storedOn b .y m old) (w := []) (i := []) (l := [])
        ?_ (postMod_keeps (postUse b) m.n m.p old _)) (by simp) (by simp) (by simp) (by simp) (by simp)
      cases b
      · simpa [State.busWrite, storedOn, hst] using State.xWrite_keeps s (old.idx m.n) (old.readReg (busUse .x) m.reg)
      · simpa [State.busWrite, storedOn, hst] using State.yWrite_keeps s (old.idx m.n) (old.readReg (busUse .y) m.reg)
    · simp only [hs]
      refine Keeps.mono (Keeps.trans (State.writeReg_keeps s true m.reg (old.busRead b (old.idx m.n)))
        (postMod_keeps (postUse b) m.n m.p old _)) (by simp) (by simp) (by simp) (by simp) (by simp)

@[simp] theorem applyFull_p (m : FullMove) (b : Bus) (old s : State) : (applyFull m b old s).p = s.p := by
  unfold applyFull; split
  · rfl
  · split <;> simp

theorem moveReg_keeps (u : Config.FreeUse) (src dst : MoveReg) (old s : State) :
    Keeps (writesOfMove src dst) [] [] [] [] s (moveReg u src dst old s) := by
  unfold moveReg writesOfMove
  split
  · exact Keeps.refl s
  · exact State.writeReg_keeps s false dst _

@[simp] theorem moveReg_p (u : Config.FreeUse) (src dst : MoveReg) (old s : State) :
    (moveReg u src dst old s).p = s.p := by
  unfold moveReg; split <;> simp

theorem moveLong_keeps (store : Bool) (n : IReg) (r : MoveReg) (old s : State) :
    Keeps (if store then [] else writesOf r) (storedX (.longX store n r) old) [] []
      (storedLong (.longX store n r) old) s (moveLong store n r old s) := by
  unfold moveLong
  by_cases h : r = .nop
  · rw [if_pos h]
    exact (Keeps.refl s).mono (by simp) (by simp) (by simp) (by simp) (by simp)
  · rw [if_neg h]
    cases store
    · simpa [storedX, storedLong] using State.writeReg_keeps s true r (old.xReadL (old.longAddr n))
    · simp only [if_true, State.xWriteL_eq]
      by_cases hx : longIsX (old.longAddr n)
      · rw [if_pos hx]
        simpa [storedX, storedLong, h, hx] using
          State.xWrite_keeps s ((old.longAddr n).extractLsb' 0 16) (old.readReg .busX r)
      · rw [if_neg hx]
        simpa [storedX, storedLong, h, hx] using State.xlmem_keeps s (old.longAddr n) (old.readReg .busX r)

@[simp] theorem moveLong_p (store : Bool) (n : IReg) (r : MoveReg) (old s : State) :
    (moveLong store n r old s).p = s.p := by
  unfold moveLong; split
  · rfl
  · split <;> simp

theorem moveIbus_keeps (store : Bool) (n : IReg) (p : BitVec 4) (q : AccName) (old s : State) :
    Keeps ((if store then [] else writesOfAcc q) ++ writesOfPost n p) [] [] (storedI (.ibus store n p q) old) [] s
      (moveIbus store n p q old s) := by
  unfold moveIbus
  cases store
  · refine Keeps.mono (Keeps.trans (State.setAcc_keeps s q _) (postMod_keeps .postX n p old _))
      (by simp) (by simp) (by simp) (by simp) (by simp)
  · refine Keeps.mono (Keeps.trans (State.iWrite_keeps s (old.ibusAddr n) _) (postMod_keeps .postX n p old _))
      (by simp) (by simp) (by simp) (by simp [storedI]) (by simp)

@[simp] theorem moveIbus_p (store : Bool) (n : IReg) (p : BitVec 4) (q : AccName) (old s : State) :
    (moveIbus store n p q old s).p = s.p := by
  unfold moveIbus; split <;> simp [storeAcc, loadAcc]

/-- What a parallel move can change (R112): the registers of `writesOfPar`, the bytes of `storedX`, `storedY`,
`storedI` and `storedLong`, and nothing else. -/
theorem applyPar_keeps (pm : ParMove) (old s : State) :
    Keeps (writesOfPar pm) (storedX pm old) (storedY pm old) (storedI pm old) (storedLong pm old) s
      (applyPar pm old s) := by
  cases pm with
  | none => exact Keeps.refl s
  | full b m =>
    cases b
    · exact applyFull_keeps m .x old s
    · exact applyFull_keeps m .y old s
  | short x y =>
    refine Keeps.mono (Keeps.trans (applyFull_keeps x.toFull .x old s) (applyFull_keeps y.toFull .y old _))
      (by simp [writesOfPar]) (by simp [storedOn, storedX]) (by simp [storedOn, storedY]) (by simp) (by simp)
  | reg src dst => exact moveReg_keeps .busX src dst old s
  | longX store n r => exact moveLong_keeps store n r old s
  | ibus store n p q => exact moveIbus_keeps store n p q old s

@[simp] theorem applyPar_p (pm : ParMove) (old s : State) : (applyPar pm old s).p = s.p := by
  cases pm <;> simp [applyPar]

/-! ## The end of an instruction -/

theorem twice_iff (l : List MoveReg) : twice l = false ↔ l.Nodup := by
  induction l with
  | nil => simp [twice]
  | cons r rs ih => simp [twice, ih]

/-- An instruction that nothing stops takes its next state. -/
theorem finish_next {ws : List MoveReg} {pm : ParMove} {s : State} (h : CanRun ws pm s) (s' : State) :
    finish ws pm s s' = .next (applyPar pm s s') := by
  simp [finish, (twice_iff _).mpr h.1, h.2]

/-- An instruction with a write conflict faults (R45, D30). -/
theorem finish_conflict {ws : List MoveReg} {pm : ParMove} (h : ¬NoConflict ws pm) (s s' : State) :
    finish ws pm s s' = .fault .writeConflict := by
  have : twice (ws ++ writesOfPar pm) = true := by
    rw [← Bool.not_eq_false]; exact fun ht => h ((twice_iff _).mp ht)
  simp [finish, this]

/-- An access that the memory maps do not allow stops the instruction (U22). -/
theorem finish_access {ws : List MoveReg} {pm : ParMove} {s : State} {f : Fault} (h : NoConflict ws pm)
    (hf : parAccess pm s = some f) (s' : State) : finish ws pm s s' = .fault f := by
  simp [finish, (twice_iff _).mpr h, hf]

/-- If an instruction answers a next state, it is its arithmetic part's with the parallel move applied, and nothing
stopped it. -/
theorem finish_inv {ws : List MoveReg} {pm : ParMove} {s s' t : State} (h : finish ws pm s s' = .next t) :
    CanRun ws pm s ∧ t = applyPar pm s s' := by
  by_cases hc : NoConflict ws pm
  · cases ha : parAccess pm s with
    | some f => rw [finish_access hc ha] at h; cases h
    | none =>
      rw [finish_next ⟨hc, ha⟩] at h
      exact ⟨⟨hc, ha⟩, by injection h with h; exact h.symm⟩
  · rw [finish_conflict hc] at h; cases h

/-- An instruction whose one access the map decides stops as `MapStops` says: a load. -/
theorem finish_load_stops {ws : List MoveReg} {pm : ParMove} {m : List Region} {a : Nat} {s : State}
    (h : NoConflict ws pm) (hf : parAccess pm s = loadFault m a) (s' : State) :
    MapStops false (kindAt m a) (finish ws pm s s') :=
  ⟨fun hk => finish_access h (by rw [hf, loadFault, hk]) s', nofun, nofun⟩

/-- The same for a store. -/
theorem finish_store_stops {ws : List MoveReg} {pm : ParMove} {m : List Region} {a : Nat} {s : State}
    (h : NoConflict ws pm) (hf : parAccess pm s = storeFault m a) (s' : State) :
    MapStops true (kindAt m a) (finish ws pm s s') :=
  ⟨fun hk => finish_access h (by rw [hf, storeFault, hk]) s', fun _ hk => finish_access h (by rw [hf, storeFault, hk]) s',
    fun _ hk => finish_access h (by rw [hf, storeFault, hk]) s'⟩

/-- The frame of an instruction whose arithmetic part writes only registers. -/
theorem finish_frame {ws : List MoveReg} {s s' : State} (h : Keeps ws [] [] [] [] s s') (pm : ParMove) :
    Frame ws pm s (applyPar pm s s') := by
  simpa [Frame] using h.trans (applyPar_keeps pm s s')

end Sys2Proof.Machine
end

