-- ==== Sys2Proof/Laws/Alu.lean ====
section
/-! SUPPORT. What MR0's bits are after a write of the flags or of L, the result and frame of the shared forms of an
ALU instruction, and the adder and multiplier as exact arithmetic. -/

namespace Sys2Proof.Machine

/-! ## MR0 -/

/-- The flags are bits 4..0 in the order Z N V E C (R31). -/
theorem Flags.bits_bit (f : Flags) : f.bits.getLsbD 4 = f.z ∧ f.bits.getLsbD 3 = f.n ∧ f.bits.getLsbD 2 = f.v ∧
    f.bits.getLsbD 1 = f.e ∧ f.bits.getLsbD 0 = f.c := by
  rcases f with ⟨z, n, v, e, c⟩; revert z n v e c; decide

theorem State.mr0_bit (s : State) (i : Nat) :
    s.mr0.getLsbD i = if i < 5 then s.flags.bits.getLsbD i else s.mode.getLsbD (i - 5) := by
  simp only [State.mr0, BitVec.getLsbD_append]

/-- The accessors of MR0 read the bits of R31. -/
theorem State.mr0_fields (s : State) :
    s.fS = s.mr0.getLsbD 10 ∧ s.fI = s.mr0.getLsbD 9 ∧ s.fR = s.mr0.getLsbD 8 ∧ s.fL = s.mr0.getLsbD 7 ∧
    s.fZ = s.mr0.getLsbD 4 ∧ s.fN = s.mr0.getLsbD 3 ∧ s.fV = s.mr0.getLsbD 2 ∧ s.fE = s.mr0.getLsbD 1 ∧
    s.fC = s.mr0.getLsbD 0 := by
  simp only [State.mr0_bit]
  obtain ⟨h4, h3, h2, h1, h0⟩ := Flags.bits_bit s.flags
  exact ⟨rfl, rfl, rfl, rfl, h4.symm, h3.symm, h2.symm, h1.symm, h0.symm⟩

/-- MR0 reads back what was written to it. -/
@[simp] theorem State.setMr0_mr0 (s : State) (v : Word) : (s.setMr0 v).mr0 = v := by
  apply BitVec.eq_of_getLsbD_eq
  intro i hi
  rw [State.mr0_bit]
  simp only [State.setMr0]
  split
  · rename_i h
    obtain ⟨h4, h3, h2, h1, h0⟩ :=
      Flags.bits_bit ⟨v.getLsbD 4, v.getLsbD 3, v.getLsbD 2, v.getLsbD 1, v.getLsbD 0⟩
    rcases (by omega : i = 0 ∨ i = 1 ∨ i = 2 ∨ i = 3 ∨ i = 4) with rfl | rfl | rfl | rfl | rfl
    · exact h0
    · exact h1
    · exact h2
    · exact h3
    · exact h4
  · rename_i h
    simp [show i - 5 < 11 by omega, show 5 + (i - 5) = i by omega]

theorem State.setFlags_bit (s : State) (f : Flags) (i : Nat) :
    (s.setFlags f).mr0.getLsbD i = if i < 5 then f.bits.getLsbD i else s.mr0.getLsbD i := by
  simp only [State.mr0_bit, State.setFlags_flags, State.setFlags_mode]
  split <;> simp [*]

@[simp] theorem State.setFlags_fZ (s : State) (f : Flags) : (s.setFlags f).fZ = f.z := rfl
@[simp] theorem State.setFlags_fN (s : State) (f : Flags) : (s.setFlags f).fN = f.n := rfl
@[simp] theorem State.setFlags_fV (s : State) (f : Flags) : (s.setFlags f).fV = f.v := rfl
@[simp] theorem State.setFlags_fE (s : State) (f : Flags) : (s.setFlags f).fE = f.e := rfl
@[simp] theorem State.setFlags_fC (s : State) (f : Flags) : (s.setFlags f).fC = f.c := rfl

/-- A write of the flags leaves the other bits of MR0. -/
theorem State.setFlags_modeBits (s : State) (f : Flags) : sameModeBits s (s.setFlags f) := by
  intro i hi; rw [State.setFlags_bit, if_neg (by omega)]

theorem State.setL_bit (s : State) (l : Bool) (i : Nat) :
    (s.setL l).mr0.getLsbD i = if i = 7 then l else s.mr0.getLsbD i := by
  simp only [State.mr0_bit, State.setL_flags]
  by_cases h5 : i < 5
  · simp [h5, show i ≠ 7 by omega]
  · simp only [h5, if_false, State.setL, BitVec.getLsbD_append, BitVec.getLsbD_extractLsb', BitVec.getLsbD_ofBool]
    by_cases h : i < 7
    · simp [show i - 5 < 2 by omega, show i ≠ 7 by omega]
    · by_cases h7 : i = 7
      · subst h7; simp
      · by_cases h16 : i < 16
        · simp [h7, show ¬i - 5 < 2 by omega, show ¬i - 5 - 2 < 1 by omega, show i - 5 - 2 - 1 < 8 by omega,
            show 3 + (i - 5 - 2 - 1) = i - 5 by omega]
        · simp [h7, show ¬i - 5 < 2 by omega, show ¬i - 5 - 2 < 1 by omega, show ¬i - 5 - 2 - 1 < 8 by omega,
            BitVec.getLsbD_of_ge s.mode (i - 5) (by omega)]

@[simp] theorem State.setL_fL (s : State) (l : Bool) : (s.setL l).fL = l := by
  rw [(State.mr0_fields _).2.2.2.1, State.setL_bit]; rfl

/-- A write of the flags changes MR0 and nothing else. -/
theorem State.setFlags_keeps (s : State) (f : Flags) : Keeps [.mr0] [] [] [] [] s (s.setFlags f) :=
  { (Keeps.refl s) with
    regs := fun r hr => by cases r <;> first | rfl | exact absurd (by simp) hr
    sequencer := by simp [sameSequencer]
    page := fun _ => rfl }

/-- A write of L changes MR0 and nothing else. -/
theorem State.setL_keeps (s : State) (l : Bool) : Keeps [.mr0] [] [] [] [] s (s.setL l) :=
  { (Keeps.refl s) with
    regs := fun r hr => by cases r <;> first | rfl | exact absurd (by simp) hr
    sequencer := by simp [sameSequencer]
    page := fun _ => rfl }

/-! ## A register after a write of it -/

@[simp] theorem State.r16_writeR16_self (s : State) (r : Reg16) (v : Word) : (s.writeR16 r v).r16 r = v := by
  cases r <;> rfl

theorem State.guard_writeR16 (s : State) (r : Reg16) (v : Word) (h : regHigh r = true) :
    ((s.writeR16 r v).acc (regAcc r)).guard = if v.msb then 0xFF#8 else 0x00#8 := by
  simp [State.writeR16, h, guardOfSign]

/-- The value of the registers of a value. -/
@[simp] theorem AccReg.value_ofValue (v : Word40) : (AccReg.ofValue v).value = v := by
  apply BitVec.eq_of_getLsbD_eq
  intro i hi
  simp only [AccReg.value, AccReg.ofValue, BitVec.getLsbD_append, BitVec.getLsbD_extractLsb']
  by_cases h16 : i < 16
  · simp [h16]
  · by_cases h32 : i - 16 < 16
    · simp [h16, h32, show 16 + (i - 16) = i by omega]
    · simp [h16, h32, show i - 16 - 16 < 8 by omega, show 32 + (i - 16 - 16) = i by omega]

@[simp] theorem State.accValue_writeAcc_self (s : State) (q : AccName) (v : Word40) :
    (s.writeAcc q v).accValue q = v := by
  simp [State.writeAcc, State.accValue]

theorem State.writeAcc_keeps (s : State) (q : AccName) (v : Word40) :
    Keeps (writesOfAcc q) [] [] [] [] s (s.writeAcc q v) := State.setAcc_keeps s q _

theorem guard_of_peek {s t : State} {q : AccName} (h : t.peek (.guard q) = s.peek (.guard q)) :
    (t.acc q).guard = (s.acc q).guard := by
  have key : ∀ a b : Byte, (0#8 ++ a : Word) = 0#8 ++ b → a = b := by
    intro a b hab
    apply BitVec.eq_of_getLsbD_eq
    intro i hi
    have := congrArg (fun z => z.getLsbD i) hab
    simpa only [BitVec.getLsbD_append, hi, decide_true, if_true] using this
  exact key _ _ h

/-- An accumulator's value is a matter of its three registers. -/
theorem accValue_eq (s : State) (q : AccName) :
    s.accValue q = (s.acc q).guard ++ s.r16 (accHigh q) ++ s.r16 (accLow q) := by
  cases q <;> rfl

theorem accValue_of_peek {s t : State} {q : AccName} (h : ∀ r ∈ writesOfAcc q, t.peek r = s.peek r) :
    t.accValue q = s.accValue q := by
  have hl : t.r16 (accLow q) = s.r16 (accLow q) := h (.r16 (accLow q)) (by simp [writesOfAcc])
  have hh : t.r16 (accHigh q) = s.r16 (accHigh q) := h (.r16 (accHigh q)) (by simp [writesOfAcc])
  have hg := guard_of_peek (h (.guard q) (by simp [writesOfAcc]))
  rw [accValue_eq, accValue_eq, hl, hh, hg]

/-! ## The shared forms -/

theorem State.retire16_keeps (s : State) (r : Reg16) (o : AluOut 16) :
    Keeps (.mr0 :: writesOf (.r16 r)) [] [] [] [] s (s.retire16 r o) :=
  ((State.writeR16_keeps s r o.res).trans (State.setFlags_keeps _ o.flags)).mono
    (by intro x hx; simpa [or_comm] using hx) (by simp) (by simp) (by simp) (by simp)

theorem State.retire40_keeps (s : State) (q : AccName) (o : AluOut 40) :
    Keeps (.mr0 :: writesOfAcc q) [] [] [] [] s (s.retire40 q o) :=
  ((State.writeAcc_keeps s q o.res).trans (State.setFlags_keeps _ o.flags)).mono
    (by intro x hx; simpa [or_comm] using hx) (by simp) (by simp) (by simp) (by simp)

/-- The flags of a state's MR0 are a matter of its MR0. -/
theorem flagsAre_of_setFlags {w : Nat} {res : BitVec w} {n v c : Bool} {pm : ParMove} {s s' t : State} {f : Flags}
    (hm : .mr0 ∉ writesOfPar pm → t.mr0 = (s'.setFlags f).mr0) (hs : sameModeBits s s')
    (hz : f.z = decide (res = 0#w)) (hn : f.n = n) (hv : f.v = v) (hc : f.c = c)
    (he : f.e = true ↔ w = 40 ∧ ∃ i, 31 ≤ i ∧ i < 39 ∧ res.getLsbD i ≠ res.getLsbD 39) :
    FlagsAre res n v c pm s t := by
  intro hp
  have hbits := State.mr0_fields t
  rw [hm hp] at hbits
  have hbits' := State.mr0_fields (s'.setFlags f)
  refine ⟨?_, ?_, ?_, ?_, ?_, ?_⟩
  · rw [hbits.2.2.2.2.1, ← hbits'.2.2.2.2.1, State.setFlags_fZ, hz]
  · rw [hbits.2.2.2.2.2.1, ← hbits'.2.2.2.2.2.1, State.setFlags_fN, hn]
  · rw [hbits.2.2.2.2.2.2.1, ← hbits'.2.2.2.2.2.2.1, State.setFlags_fV, hv]
  · rw [hbits.2.2.2.2.2.2.2.2, ← hbits'.2.2.2.2.2.2.2.2, State.setFlags_fC, hc]
  · rw [hbits.2.2.2.2.2.2.2.1, ← hbits'.2.2.2.2.2.2.2.1, State.setFlags_fE, he]
  · intro i hi
    rw [hm hp, State.setFlags_modeBits s' f i hi, hs i hi]

/-- E of R37 as a statement about single bits. -/
theorem extFlag_iff {w : Nat} (res : BitVec w) :
    extFlag res = true ↔ w = 40 ∧ ∃ i, 31 ≤ i ∧ i < 39 ∧ res.getLsbD i ≠ res.getLsbD 39 := by
  unfold extFlag
  simp only [Bool.and_eq_true, decide_eq_true_eq, bne_iff_ne, ne_eq, and_assoc]
  refine and_congr_right fun hw => ?_
  subst hw
  have hext : ∀ (b : Bool) (c : BitVec 9), (∀ j : Nat, j < 9 → c.getLsbD j = b) →
      (res.extractLsb' 31 9 = c ↔ ∀ i, 31 ≤ i → i < 40 → res.getLsbD i = b) := by
    intro b c hc
    constructor
    · intro h i h1 h2
      have := congrArg (fun z => z.getLsbD (i - 31)) h
      simp only [BitVec.getLsbD_extractLsb', hc (i - 31) (by omega)] at this
      simpa [show i - 31 < 9 by omega, show 31 + (i - 31) = i by omega] using this
    · intro h
      apply BitVec.eq_of_getLsbD_eq
      intro i hi
      simp only [BitVec.getLsbD_extractLsb', hi, decide_true, Bool.true_and, hc i hi]
      exact h _ (by omega) (by omega)
  rw [hext false 0#9 (by simp), hext true (BitVec.allOnes 9) (by intro j hj; rw [BitVec.getLsbD_allOnes]; simp [hj])]
  constructor
  · rintro ⟨h0, h1⟩
    by_contra hne
    have hall : ∀ i, 31 ≤ i → i < 40 → res.getLsbD i = res.getLsbD 39 := by
      intro i a b
      by_cases h39 : i = 39
      · rw [h39]
      · by_contra hd; exact hne ⟨i, a, by omega, hd⟩
    cases hb : res.getLsbD 39
    · exact h0 fun i a b => (hall i a b).trans hb
    · exact h1 fun i a b => (hall i a b).trans hb
  · rintro ⟨i, a, b, hd⟩
    exact ⟨fun h => hd (by rw [h i a (by omega), h 39 (by omega) (by omega)]),
      fun h => hd (by rw [h i a (by omega), h 39 (by omega) (by omega)])⟩

/-- Once its move is applied, an instruction without a write conflict still holds what its arithmetic part wrote. -/
theorem peek_applyPar {ws : List MoveReg} {pm : ParMove} (h : NoConflict ws pm) (s s' : State) :
    ∀ r ∈ ws, (applyPar pm s s').peek r = s'.peek r := fun r hr =>
  (applyPar_keeps pm s s').regs r fun hm => List.disjoint_of_nodup_append h hr hm

theorem mr0_applyPar {pm : ParMove} (s s' : State) (h : .mr0 ∉ writesOfPar pm) :
    (applyPar pm s s').mr0 = s'.mr0 := (applyPar_keeps pm s s').regs .mr0 h

/-- An instruction with a 16-bit result completes where there is no write conflict: result, guard register, flags and
frame. `f` is whatever else the arithmetic part does. -/
theorem result16_of_retire {r : Reg16} {o : AluOut 16} {pm : ParMove} {s s' : State} {n v c : Bool}
    (h : NoConflict (writesOf (.r16 r)) pm) (hs : s' = s.retire16 r o)
    (hz : o.flags.z = decide (o.res = 0#16)) (hn : o.flags.n = n) (hv : o.flags.v = v) (hc : o.flags.c = c)
    (he : o.flags.e = false) : Result16 r o.res n v c pm s (applyPar pm s s') := by
  subst hs
  have hp := peek_applyPar h s (s.retire16 r o)
  refine ⟨?_, fun hh => ?_, ?_, finish_frame (State.retire16_keeps s r o) pm⟩
  · have := hp (.r16 r) (by cases r <;> decide)
    have h2 : (applyPar pm s (s.retire16 r o)).r16 r = (s.retire16 r o).r16 r := this
    rw [h2]
    cases r <;> rfl
  · rw [guard_of_peek (hp (.guard (regAcc r)) (by simp [writesOf, hh]))]
    exact State.guard_writeR16 s r o.res hh
  · refine flagsAre_of_setFlags (s' := s.writeR16 r o.res) (f := o.flags) (fun hm => mr0_applyPar s _ hm) ?_ hz hn hv hc ?_
    · intro i _; simp [State.writeR16]
    · simp [he]

/-- An instruction with a 40-bit result completes where there is no write conflict. -/
theorem result40_of_retire {q : AccName} {o : AluOut 40} {pm : ParMove} {s s' : State} {n v c : Bool}
    (h : NoConflict (writesOfAcc q) pm) (hk : Keeps (.mr0 :: writesOfAcc q) [] [] [] [] s s')
    (hm : s'.mr0 = (s.retire40 q o).mr0) (ha : s'.acc q = (s.retire40 q o).acc q)
    (hz : o.flags.z = decide (o.res = 0#40)) (hn : o.flags.n = n) (hv : o.flags.v = v) (hc : o.flags.c = c)
    (he : o.flags.e = true ↔ ∃ i, 31 ≤ i ∧ i < 39 ∧ o.res.getLsbD i ≠ o.res.getLsbD 39) :
    Result40 q o.res n v c pm s (applyPar pm s s') := by
  refine ⟨?_, ?_, finish_frame hk pm⟩
  · rw [accValue_of_peek (peek_applyPar h s s'), State.accValue, ha]
    have : ((s.retire40 q o).acc q) = ((s.writeAcc q o.res).acc q) := by cases q <;> rfl
    rw [this]; exact State.accValue_writeAcc_self s q o.res
  · refine flagsAre_of_setFlags (s' := s.writeAcc q o.res) (f := o.flags)
      (fun hp => (mr0_applyPar s s' hp).trans hm) ?_ hz hn hv hc ?_
    · intro i _; simp [State.writeAcc]
    · simpa using he

theorem put16_next {r : Reg16} {o : AluOut 16} {pm : ParMove} {s : State} {n v c : Bool}
    (h : CanRun (writesOf (.r16 r)) pm s) (hz : o.flags.z = decide (o.res = 0#16)) (hn : o.flags.n = n)
    (hv : o.flags.v = v) (hc : o.flags.c = c) (he : o.flags.e = false) :
    ∃ t, put16 r o pm s = .next t ∧ Result16 r o.res n v c pm s t ∧ t.p = s.p :=
  ⟨_, finish_next h _, result16_of_retire h.1 rfl hz hn hv hc he, by simp [State.retire16]⟩

theorem put40_next {q : AccName} {o : AluOut 40} {pm : ParMove} {s : State} {n v c : Bool}
    (h : CanRun (writesOfAcc q) pm s) (hz : o.flags.z = decide (o.res = 0#40)) (hn : o.flags.n = n)
    (hv : o.flags.v = v) (hc : o.flags.c = c)
    (he : o.flags.e = true ↔ ∃ i, 31 ≤ i ∧ i < 39 ∧ o.res.getLsbD i ≠ o.res.getLsbD 39) :
    ∃ t, put40 q o pm s = .next t ∧ Result40 q o.res n v c pm s t ∧ t.p = s.p :=
  ⟨_, finish_next h _, result40_of_retire h.1 (State.retire40_keeps s q o) rfl rfl hz hn hv hc he,
    by simp [State.retire40]⟩

/-! ## Exact arithmetic -/

theorem outside_iff {w : Nat} (t : Int) : outside w t = decide (¬FitsSigned w t) := by
  unfold outside FitsSigned
  rw [← Bool.decide_or]
  congr 1
  apply propext
  constructor
  · rintro (h | h) <;> omega
  · intro h; omega

theorem toInt_maxPos {w : Nat} (hw : 0 < w) : (maxPos w).toInt = 2 ^ (w - 1) - 1 := by
  have h1 : (2 : Nat) ^ w = 2 * 2 ^ (w - 1) := by rw [← pow_succ', Nat.sub_add_cancel hw]
  have h2 : 0 < (2 : Nat) ^ (w - 1) := Nat.two_pow_pos _
  unfold maxPos
  rw [BitVec.toInt_eq_toNat_cond, BitVec.toNat_ofNat, Nat.mod_eq_of_lt (by omega), if_pos (by omega)]
  push_cast [Nat.cast_sub (show 1 ≤ 2 ^ (w - 1) from h2)]
  rfl

theorem toInt_minNeg {w : Nat} (hw : 0 < w) : (minNeg w).toInt = -2 ^ (w - 1) := by
  have h1 : (2 : Nat) ^ w = 2 * 2 ^ (w - 1) := by rw [← pow_succ', Nat.sub_add_cancel hw]
  have h2 : 0 < (2 : Nat) ^ (w - 1) := Nat.two_pow_pos _
  unfold minNeg
  rw [BitVec.toInt_eq_toNat_cond, BitVec.toNat_ofNat, Nat.mod_eq_of_lt (by omega), if_neg (by omega)]
  have : (2 : Int) ^ w = 2 * 2 ^ (w - 1) := by exact_mod_cast h1
  push_cast
  rw [this]; ring

/-- What the adder writes is the exact sum as R144 says. -/
theorem adder_sum {w : Nat} (hw : 0 < w) (sat : Bool) (x y : BitVec w) (cin : Bool) :
    SumWritten w sat (x.toInt + y.toInt + (cin.toNat : Int)) (adder sat x y cin).res := by
  have hcong : BitVec.ofNat w (x.toNat + y.toNat + cin.toNat) =
      BitVec.ofInt w (x.toInt + y.toInt + (cin.toNat : Int)) := by
    have : ∀ n : Nat, BitVec.ofNat w n = BitVec.ofInt w (n : Int) := fun n => by simp
    rw [this]
    push_cast
    rw [BitVec.ofInt_add, BitVec.ofInt_add, BitVec.ofInt_add, BitVec.ofInt_add]
    simp
  have hp : (0 : Int) < 2 ^ (w - 1) := by positivity
  have hres : (adder sat x y cin).res = if outside w (exactSum x y cin) && sat then
      (if 0 < exactSum x y cin then maxPos w else minNeg w)
      else BitVec.ofInt w (x.toInt + y.toInt + (cin.toNat : Int)) := by
    rw [← hcong]; rfl
  rw [hres, outside_iff]
  change SumWritten w sat (exactSum x y cin) (if decide (¬FitsSigned w (exactSum x y cin)) && sat then _ else
    BitVec.ofInt w (exactSum x y cin))
  generalize exactSum x y cin = t
  refine ⟨fun h => ?_, fun hs ht => ?_, fun hs ht => ?_⟩
  · rw [if_neg]
    rcases h with h | h <;> simp [h]
  · have : ¬FitsSigned w t := by unfold FitsSigned; omega
    simp only [this, hs, not_false_eq_true, decide_true, Bool.and_self, if_true]
    rw [if_pos (by omega), toInt_maxPos hw]
  · have : ¬FitsSigned w t := by unfold FitsSigned; omega
    simp only [this, hs, not_false_eq_true, decide_true, Bool.and_self, if_true]
    rw [if_neg (by omega), toInt_minNeg hw]

@[simp] theorem adder_flags_z {w : Nat} (sat : Bool) (x y : BitVec w) (cin : Bool) :
    (adder sat x y cin).flags.z = decide ((adder sat x y cin).res = 0#w) := rfl

@[simp] theorem adder_flags_n {w : Nat} (sat : Bool) (x y : BitVec w) (cin : Bool) :
    (adder sat x y cin).flags.n = (adder sat x y cin).res.msb := rfl

@[simp] theorem adder_flags_v {w : Nat} (sat : Bool) (x y : BitVec w) (cin : Bool) :
    (adder sat x y cin).flags.v = decide (¬FitsSigned w (x.toInt + y.toInt + (cin.toNat : Int))) := outside_iff _

@[simp] theorem adder_flags_c {w : Nat} (sat : Bool) (x y : BitVec w) (cin : Bool) :
    (adder sat x y cin).flags.c = decide (2 ^ w ≤ x.toNat + y.toNat + cin.toNat) := rfl

@[simp] theorem adder_flags_e {w : Nat} (sat : Bool) (x y : BitVec w) (cin : Bool) :
    (adder sat x y cin).flags.e = extFlag (adder sat x y cin).res := rfl

/-- E of a 16-bit result is 0. -/
@[simp] theorem extFlag_sixteen (res : BitVec 16) : extFlag res = false := by simp [extFlag]

theorem extFlag_forty (res : BitVec 40) :
    extFlag res = true ↔ ∃ i, 31 ≤ i ∧ i < 39 ∧ res.getLsbD i ≠ res.getLsbD 39 := by
  rw [extFlag_iff]; simp

/-- The multiplier as exact arithmetic (R190). -/
theorem product_written (s : State) (mode : MulMode) (op1 op2 : Reg16) :
    ProductWritten mode (s.r16 op1) (s.r16 op2) s (s.product mode op1 op2) := by
  unfold ProductWritten State.product mulCore
  have h1 : MulValue (decide (mode = .ss ∨ mode = .su)) (s.r16 op1) =
      mulOperand (modeSigned mode).1 (s.r16 op1) := by cases mode <;> rfl
  have h2 : MulValue (decide (mode = .ss ∨ mode = .us)) (s.r16 op2) =
      mulOperand (modeSigned mode).2 (s.r16 op2) := by cases mode <;> rfl
  simp only [h1, h2]
  refine ⟨fun hi => by simp [hi], fun hi hs hm ha hb => by simp [hi, hs, hm, ha, hb], fun hi hn => ?_⟩
  rw [if_neg (by simp [hi]), if_neg]
  simpa [and_assoc] using hn

end Sys2Proof.Machine
end

