-- ==== Sys2Proof/Laws/Encode.lean ====
section
/-! SUPPORT. The field codings of spec/30_encoding.md and their inverses, and the fields of appended bits. -/

namespace Sys2Proof

/-! ## Codings -/

@[simp] theorem Reg16.ofCode_code (r : Reg16) : Reg16.ofCode r.code = r := by cases r <;> rfl
@[simp] theorem Reg16.code_ofCode (c : BitVec 3) : (Reg16.ofCode c).code = c := by revert c; decide
@[simp] theorem IReg.ofCode_code (n : IReg) : IReg.ofCode n.code = n := by cases n <;> rfl
@[simp] theorem IReg.code_ofCode (c : BitVec 3) : (IReg.ofCode c).code = c := by revert c; decide
@[simp] theorem AccName.ofCode_code (q : AccName) : AccName.ofCode q.code = q := by cases q <;> rfl
@[simp] theorem AccName.code_ofCode (c : BitVec 2) : (AccName.ofCode c).code = c := by revert c; decide
@[simp] theorem MulMode.ofCode_code (m : MulMode) : MulMode.ofCode m.code = m := by cases m <;> rfl
@[simp] theorem MulMode.code_ofCode (c : BitVec 2) : (MulMode.ofCode c).code = c := by revert c; decide
@[simp] theorem Cond.ofCode_code (cond : Cond) : Cond.ofCode cond.code = .ok cond := by cases cond <;> rfl
@[simp] theorem JmpiMod.ofCode_code (mm : JmpiMod) : JmpiMod.ofCode mm.code = .ok mm := by cases mm <;> rfl

@[simp] theorem AluSrc.ofCode_code (o : AluSrc) : AluSrc.ofCode o.code = .ok o := by
  cases o with
  | r16 r => cases r <;> rfl
  | acc q => cases q <;> rfl
  | _ => rfl

/-- As operand 1 every operand but P has a code (R106). -/
theorem AluSrc.ofCode1_code {o : AluSrc} (h : o ≠ .p) : AluSrc.ofCode1 o.code = .ok o := by
  simp [AluSrc.ofCode1, h, bind, Except.bind]

@[simp] theorem accOfResult_resultCode (q : AccName) : accOfResult q.resultCode = .ok q := by cases q <;> rfl

/-- A result of the operation's width is read back (R107). -/
theorem AluDst.ofCode_code {wide : Bool} {dst : AluDst} (h : resultFits wide dst = true) :
    AluDst.ofCode wide dst.code = .ok dst := by
  cases dst with
  | r16 r => cases wide <;> cases r <;> first | rfl | cases h
  | acc q => cases wide <;> cases q <;> first | rfl | cases h

@[simp] theorem MoveReg.ofCode_code (r : MoveReg) : MoveReg.ofCode r.code = .ok r := by
  cases r with
  | r16 r => cases r <;> rfl
  | idx n => cases n <;> rfl
  | guard q => cases q <;> rfl
  | _ => rfl

/-- The count register of LOOP is read back from its five bits (R99). -/
theorem MoveReg.ofCode_loopCode {r : MoveReg} (h : r.loopCount = true) :
    MoveReg.ofCode (0#1 ++ r.code.extractLsb' 0 5) = .ok r := by
  cases r with
  | r16 r => cases r <;> rfl
  | idx n => cases n <;> rfl
  | guard q => cases h
  | nop => cases h
  | ipr0 => cases h
  | ipr1 => cases h
  | _ => rfl

/-! ## Fields of appended bits -/

/-- A field inside the high part of an append. -/
theorem extract_append_high {a b s n : Nat} (x : BitVec a) (y : BitVec b) (h : b ≤ s) :
    (x ++ y).extractLsb' s n = x.extractLsb' (s - b) n := by
  apply BitVec.eq_of_getLsbD_eq
  intro i hi
  simp only [BitVec.getLsbD_extractLsb', BitVec.getLsbD_append, hi, decide_true, Bool.true_and]
  rw [if_neg (by omega), show s + i - b = s - b + i by omega]

/-- A field inside the low part of an append. -/
theorem extract_append_low {a b s n : Nat} (x : BitVec a) (y : BitVec b) (h : s + n ≤ b) :
    (x ++ y).extractLsb' s n = y.extractLsb' s n := by
  apply BitVec.eq_of_getLsbD_eq
  intro i hi
  simp only [BitVec.getLsbD_extractLsb', BitVec.getLsbD_append, hi, decide_true, Bool.true_and]
  rw [if_pos (by omega)]

/-- The whole of a bit vector is itself. -/
theorem extract_all {n : Nat} (x : BitVec n) : x.extractLsb' 0 n = x := by
  apply BitVec.eq_of_getLsbD_eq
  intro i hi
  simp [hi]

/-! ## Moves -/

theorem decodeShort_encodeShort (m : ShortMove) : decodeShort (encodeShort m) = m := by
  rcases m with ⟨store, n, star, r⟩
  cases store <;> cases n <;> cases star <;> cases r <;> rfl

end Sys2Proof
end

