-- ==== Sys2Proof/Laws/Exec.lean ====
section
/-! SUPPORT. What `exec` can do, said once: an instruction with a parallel move field is its arithmetic part with the
move applied; the others are listed by name. -/

namespace Sys2Proof.Machine

/-! ## Instructions with a parallel move -/

/-- The instructions whose word has a parallel move field (R112). -/
def hasParField : Instr → Bool
  | .ldc _ _ => false
  | .jrcc _ => false
  | .jrccIn _ _ => false
  | .reti => false
  | .retiIn _ => false
  | .resp _ _ => false
  | .loop _ _ => false
  | .jcc _ _ => false
  | .callcc _ _ => false
  | .jmpi _ _ _ => false
  | .mvxMvyDouble _ _ _ _ => false
  | .halt => false
  | .doubleFull _ _ => false
  | .j _ => false
  | .call _ => false
  | .jr => false
  | .nopTotal => false
  | .reserved _ _ => false
  | _ => true

/-- The multiplier instructions with a parallel move (R25). -/
def multiplies : Instr → Bool
  | .mul _ _ _ _ => true
  | .mac _ _ _ _ _ => true
  | .msu _ _ _ _ _ => true
  | .mulss _ _ _ => true
  | .mulsu _ _ _ => true
  | .mulus _ _ _ => true
  | .muluu _ _ _ => true
  | _ => false

/-- What the arithmetic part of an instruction can do: write the listed registers, the five flags and P. -/
structure ArithPart (written : List MoveReg) (s s' : State) : Prop where
  keeps : Keeps (.mr0 :: written) [] [] [] [] s s'
  memory : sameMemory s s'
  modes : sameModeBits s s'
  moves : sameMoveEffects s s'

theorem State.writeR16_memory (s : State) (r : Reg16) (v : Word) :
    sameMemory s (s.writeR16 r v) ∧ sameMoveEffects s (s.writeR16 r v) ∧ (s.writeR16 r v).mr0 = s.mr0 := by
  simp [State.writeR16, sameMemory, sameMoveEffects]

theorem State.writeAcc_memory (s : State) (q : AccName) (v : Word40) :
    sameMemory s (s.writeAcc q v) ∧ sameMoveEffects s (s.writeAcc q v) ∧ (s.writeAcc q v).mr0 = s.mr0 := by
  simp [State.writeAcc, sameMemory, sameMoveEffects]

theorem State.retire16_part (s : State) (r : Reg16) (o : AluOut 16) :
    ArithPart (writesOf (.r16 r)) s (s.retire16 r o) where
  keeps := State.retire16_keeps s r o
  memory := (s.writeR16_memory r o.res).1
  modes := fun i hi => by
    have := State.setFlags_modeBits (s.writeR16 r o.res) o.flags i hi
    rwa [(s.writeR16_memory r o.res).2.2] at this
  moves := (s.writeR16_memory r o.res).2.1

theorem State.retire40_part (s : State) (q : AccName) (o : AluOut 40) :
    ArithPart (writesOfAcc q) s (s.retire40 q o) where
  keeps := State.retire40_keeps s q o
  memory := (s.writeAcc_memory q o.res).1
  modes := fun i hi => by
    have := State.setFlags_modeBits (s.writeAcc q o.res) o.flags i hi
    rwa [(s.writeAcc_memory q o.res).2.2] at this
  moves := (s.writeAcc_memory q o.res).2.1

@[simp] theorem State.peek_withP (s : State) (p : Word32) (r : MoveReg) :
    ({ s with p := p } : State).peek r = s.peek r := by
  cases r with
  | r16 r => cases r <;> rfl
  | idx n => cases n <;> rfl
  | guard q => cases q <;> rfl
  | _ => rfl

/-- A write of P is none of the listed effects. -/
theorem ArithPart.withP {ws : List MoveReg} {s s' : State} (h : ArithPart ws s s') (p : Word32) :
    ArithPart ws s { s' with p := p } where
  keeps :=
    { regs := fun r hr => (s'.peek_withP p r).trans (h.keeps.regs r hr)
      xBytes := h.keeps.xBytes
      yBytes := h.keeps.yBytes
      iBytes := h.keeps.iBytes
      longBytes := h.keeps.longBytes
      sequencer := h.keeps.sequencer
      skip := h.keeps.skip
      enable := h.keeps.enable
      record := h.keeps.record
      page := h.keeps.page }
  memory := h.memory
  modes := h.modes
  moves := h.moves

theorem ArithPart.refl (s : State) : ArithPart [] s s where
  keeps := (Keeps.refl s).mono (by simp) (by simp) (by simp) (by simp) (by simp)
  memory := ⟨rfl, rfl, rfl, rfl⟩
  modes := fun _ _ => rfl
  moves := ⟨rfl, rfl, rfl, rfl⟩

/-- The shape of every instruction with a parallel move field. -/
def IsParStep (written : List MoveReg) (pm : ParMove) (flags product : Bool) (s t : State) : Prop :=
  ∃ s', ArithPart written s s' ∧ CanRun written pm s ∧ t = applyPar pm s s' ∧
    (flags = false → s'.mr0 = s.mr0) ∧ (product = false → s'.p = s.p)

theorem put16_inv {r : Reg16} {o : AluOut 16} {pm : ParMove} {s t : State} (h : put16 r o pm s = .next t) :
    IsParStep (writesOf (.r16 r)) pm true false s t := by
  obtain ⟨hc, ht⟩ := finish_inv h
  exact ⟨_, s.retire16_part r o, hc, ht, by simp, fun _ => by simp [State.retire16]⟩

theorem put40_inv {q : AccName} {o : AluOut 40} {pm : ParMove} {s t : State} (h : put40 q o pm s = .next t) :
    IsParStep (writesOfAcc q) pm true false s t := by
  obtain ⟨hc, ht⟩ := finish_inv h
  exact ⟨_, s.retire40_part q o, hc, ht, by simp, fun _ => by simp [State.retire40]⟩

theorem aluTwo_inv {f16 : Word → Word → AluOut 16} {f40 : Word40 → Word40 → AluOut 40} {op1 op2 : AluSrc}
    {dst : AluDst} {pm : ParMove} {s t : State} (h : aluTwo f16 f40 op1 op2 dst pm s = .next t) :
    IsParStep (writesOfDst dst) pm true false s t := by
  unfold aluTwo at h
  split at h
  · cases h
  · split at h
    · exact put16_inv h
    · exact put40_inv h
    · cases h
    · cases h

theorem aluOne_inv {f16 : Word → AluOut 16} {f40 : Word40 → AluOut 40} {op2 : AluSrc} {dst : AluDst} {pm : ParMove}
    {s t : State} (h : aluOne f16 f40 op2 dst pm s = .next t) : IsParStep (writesOfDst dst) pm true false s t := by
  unfold aluOne at h
  split at h
  · exact put16_inv h
  · exact put40_inv h
  · cases h
  · cases h

theorem execAshl_inv {op1 op2 : AluSrc} {dst : AluDst} {pm : ParMove} {s t : State}
    (h : execAshl op1 op2 dst pm s = .next t) : IsParStep (writesOfDst dst) pm true false s t := by
  unfold execAshl at h
  split at h
  · cases h
  · split at h
    · cases h
    · split at h
      · exact put16_inv h
      · exact put40_inv h
      · cases h
      · cases h

theorem macForm_inv {o : AluOut 40} {mode : MulMode} {op1 op2 : Reg16} {q : AccName} {pm : ParMove} {s t : State}
    (h : macForm o mode op1 op2 q pm s = .next t) : IsParStep (writesOfAcc q) pm true true s t := by
  obtain ⟨hc, ht⟩ := finish_inv h
  exact ⟨_, (s.retire40_part q o).withP _, hc, ht, by simp, by simp⟩

theorem mulForm_inv {mode : MulMode} {op1 op2 : Reg16} {pm : ParMove} {s t : State}
    (h : mulForm mode op1 op2 pm s = .next t) : IsParStep [] pm false true s t := by
  obtain ⟨hc, ht⟩ := finish_inv h
  exact ⟨_, (ArithPart.refl s).withP _, hc, ht, fun _ => rfl, by simp⟩

theorem finish_lone_inv {pm : ParMove} {s t : State} (h : finish [] pm s s = .next t) :
    IsParStep [] pm false false s t := by
  obtain ⟨hc, ht⟩ := finish_inv h
  exact ⟨s, ArithPart.refl s, hc, ht, fun _ => rfl, fun _ => rfl⟩

/-- An instruction with a parallel move field that answers a next state is its arithmetic part, then its move: the
flags are written only by an ALU instruction (R128), P only by a multiplier instruction (R25). -/
theorem exec_par_inv {i : Instr} {s t : State} (hi : hasParField i = true) (h : exec i s = .next t) :
    IsParStep (ownWrites i) (parOf i) (setsFlags i) (multiplies i) s t := by
  cases i with
  | add op1 op2 dst pm => simp only [exec, execAdd, addForm] at h; exact aluTwo_inv h
  | sub op1 op2 dst pm => simp only [exec, execSub, subForm] at h; exact aluTwo_inv h
  | addc op1 op2 dst pm => simp only [exec, execAddc, addForm] at h; exact aluTwo_inv h
  | subc op1 op2 dst pm => simp only [exec, execSubc, subForm] at h; exact aluTwo_inv h
  | ashl op1 op2 dst pm => exact execAshl_inv h
  | and op1 op2 dst pm => simp only [exec, execAnd] at h; exact aluTwo_inv h
  | or op1 op2 dst pm => simp only [exec, execOr] at h; exact aluTwo_inv h
  | xor op1 op2 dst pm => simp only [exec, execXor, xorForm] at h; exact aluTwo_inv h
  | mac op1 mode op2 q pm => exact macForm_inv h
  | msu op1 mode op2 q pm => exact macForm_inv h
  | mul mode op1 op2 pm => exact mulForm_inv h
  | abs op2 dst pm => simp only [exec, execAbs] at h; exact aluOne_inv h
  | asr op2 dst pm => simp only [exec, execAsr] at h; exact aluOne_inv h
  | lsr op2 dst pm => simp only [exec, execLsr] at h; exact aluOne_inv h
  | lsrc op2 dst pm => simp only [exec, execLsrc] at h; exact aluOne_inv h
  | exp op2 dst pm => exact put16_inv h
  | sat op2 dst pm =>
    simp only [exec, execSat] at h
    split at h
    · exact put40_inv h
    · cases h
  | rnd op2 dst pm =>
    simp only [exec, execRnd] at h
    split at h
    · exact put16_inv h
    · cases h
  | nop => exact finish_lone_inv h
  | ldxFull n p r => exact finish_lone_inv h
  | stxFull n p r => exact finish_lone_inv h
  | ldyFull n p r => exact finish_lone_inv h
  | styFull n p r => exact finish_lone_inv h
  | twoShort x y => exact finish_lone_inv h
  | mvxParallel src dst => exact finish_lone_inv h
  | ldxLong n r => exact finish_lone_inv h
  | stxLong n r => exact finish_lone_inv h
  | ldi n p q => exact finish_lone_inv h
  | sti n p q => exact finish_lone_inv h
  | mulss op1 op2 pm => exact mulForm_inv h
  | mulsu op1 op2 pm => exact mulForm_inv h
  | mulus op1 op2 pm => exact mulForm_inv h
  | muluu op1 op2 pm => exact mulForm_inv h
  | lsl op dst pm => simp only [exec, execLsl, addForm] at h; exact aluTwo_inv h
  | lslc op dst pm => simp only [exec, execLslc, addForm] at h; exact aluTwo_inv h
  | not op2 dst pm => simp only [exec, execNot, xorForm] at h; exact aluTwo_inv h
  | addNullP q pm => simp only [exec, execAddNullP, addForm] at h; exact aluTwo_inv h
  | _ => cases hi

/-! ## The other instructions -/

/-- A double full move that answers a next state is its X half, then its Y half, each from the state before (R228). -/
theorem execDoubleFull_inv {x y : Option FullMove} {s t : State} (h : execDoubleFull x y s = .next t) :
    (writesOfHalf x ++ writesOfHalf y).Nodup ∧ doubleAccess x y s = none ∧
      t = applyHalf y .y s (applyHalf x .x s s) := by
  unfold execDoubleFull at h
  split at h
  · cases h
  · rename_i hc
    split at h
    · cases h
    · rename_i ha
      exact ⟨(twice_iff _).mp (by simpa using hc), ha, by injection h with h; exact h.symm⟩

/-- A double register move that answers a next state stays in no unit and is its two moves (R234). -/
theorem execMvxMvyDouble_inv {xs xd ys yd : MoveReg} {s t : State} (h : execMvxMvyDouble xs xd ys yd s = .next t) :
    withinUnit xs xd = false ∧ withinUnit ys yd = false ∧ (writesOfMove xs xd ++ writesOfMove ys yd).Nodup ∧
      t = moveReg .busY ys yd s (moveReg .busX xs xd s s) := by
  unfold execMvxMvyDouble at h
  split at h
  · cases h
  · rename_i hu
    split at h
    · cases h
    · rename_i hc
      simp only [Bool.or_eq_true, not_or, Bool.not_eq_true] at hu
      exact ⟨hu.1, hu.2, (twice_iff _).mp (by simpa using hc), by injection h with h; exact h.symm⟩

/-- LOOP that answers a next state (R278). -/
theorem execLoop_inv {cnt : MoveReg} {e : Word} {s t : State} (h : execLoop cnt e s = .next t) :
    cnt.loopCount = true ∧ t = { s.setL false with ls := s.pc + 2#16, le := e, lc := s.readReg .busX cnt } := by
  unfold execLoop at h
  split at h
  · rename_i hc; exact ⟨hc, by injection h with h; exact h.symm⟩
  · cases h

theorem applyHalf_keeps (h : Option FullMove) (b : Bus) (old s : State) :
    Keeps (writesOfHalf h) (if b = .x then storedByHalf h old else []) (if b = .y then storedByHalf h old else []) [] []
      s (applyHalf h b old s) := by
  cases h with
  | none => exact (Keeps.refl s).mono (by simp) (by simp) (by simp) (by simp) (by simp)
  | some m => exact applyFull_keeps m b old s

@[simp] theorem applyHalf_p (h : Option FullMove) (b : Bus) (old s : State) : (applyHalf h b old s).p = s.p := by
  cases h <;> simp [applyHalf]

/-- What a jump does, its condition true or not (R266). -/
theorem jumpIf_pending (s : State) (cond : Cond) (t : Target) :
    (jumpIf s cond t).pending = if condHolds s cond then some t else s.pending := by
  unfold jumpIf; split <;> rfl

/-- But for the pending transfer a jump clears L and does nothing else. -/
theorem jumpIf_eq (s : State) (cond : Cond) (t : Target) :
    jumpIf s cond t = { s.setL false with pending := (jumpIf s cond t).pending } := by
  unfold jumpIf; split <;> rfl

/-- A call is a jump that also writes LR0 (R269). -/
theorem callIf_eq (s : State) (cond : Cond) (a : Word) :
    callIf s cond a = { s.setL false with pending := (jumpIf s cond ⟨none, a⟩).pending, lr0 := s.pc + 2#16 } := by
  unfold callIf jumpIf; split <;> rfl

/-- What an instruction without a parallel move field does where it answers a next state: one constructor for each
shape. -/
inductive OtherStep (s : State) : Instr → State → Prop where
  | ldc (c : Word) (r : MoveReg) : OtherStep s (.ldc c r) (s.writeReg false r c)
  | nopTotal : OtherStep s .nopTotal s
  | resp (op1 op2 : Reg16) (p : Word32)
      (hp : p = if Config.respOp1High then s.r16 op1 ++ s.r16 op2 else s.r16 op2 ++ s.r16 op1) :
      OtherStep s (.resp op1 op2) { s with p := p }
  | halt : OtherStep s .halt (if s.irqIdle then { s with halted := true } else s)
  | jcc (addr : Word) (cond : Cond) : OtherStep s (.jcc addr cond) (jumpIf s cond ⟨none, addr⟩)
  | j (addr : Word) : OtherStep s (.j addr) (jumpIf s .always ⟨none, addr⟩)
  | jrcc (cond : Cond) : OtherStep s (.jrcc cond) (jumpIf s cond ⟨none, s.lr0⟩)
  | jr : OtherStep s .jr (jumpIf s .always ⟨none, s.lr0⟩)
  | jrccIn (n : IReg) (cond : Cond) : OtherStep s (.jrccIn n cond) (jumpIf s cond ⟨some (s.idx n), s.lr0⟩)
  | callcc (addr : Word) (cond : Cond) : OtherStep s (.callcc addr cond) (callIf s cond addr)
  | call (addr : Word) : OtherStep s (.call addr) (callIf s .always addr)
  | reti : OtherStep s .reti (s.returnFromInterrupt none)
  | retiIn (n : IReg) : OtherStep s (.retiIn n) (s.returnFromInterrupt (some (s.idx n)))
  | jmpi (addr : Word) (mm : JmpiMod) (n : IReg) :
      OtherStep s (.jmpi addr mm n) { (jmpiIndex mm n s).schedule ⟨some 0#16, addr⟩ with cancel := true }
  | loop (cnt : MoveReg) (e : Word) (hc : cnt.loopCount = true) :
      OtherStep s (.loop cnt e) { s.setL false with ls := s.pc + 2#16, le := e, lc := s.readReg .busX cnt }
  | doubleFull (x y : Option FullMove) (hc : (writesOfHalf x ++ writesOfHalf y).Nodup) (ha : doubleAccess x y s = none) :
      OtherStep s (.doubleFull x y) (applyHalf y .y s (applyHalf x .x s s))
  | mvxMvyDouble (xs xd ys yd : MoveReg) (hx : withinUnit xs xd = false) (hy : withinUnit ys yd = false)
      (hc : (writesOfMove xs xd ++ writesOfMove ys yd).Nodup) :
      OtherStep s (.mvxMvyDouble xs xd ys yd) (moveReg .busY ys yd s (moveReg .busX xs xd s s))

/-- An instruction without a parallel move field that answers a next state has one of the shapes of `OtherStep`. -/
theorem exec_other_inv {i : Instr} {s t : State} (hi : hasParField i = false) (h : exec i s = .next t) :
    OtherStep s i t := by
  cases i with
  | ldc c r => injection h with h; exact h ▸ .ldc c r
  | jrcc cond => injection h with h; exact h ▸ .jrcc cond
  | jrccIn n cond => injection h with h; exact h ▸ .jrccIn n cond
  | reti => injection h with h; exact h ▸ .reti
  | retiIn n => injection h with h; exact h ▸ .retiIn n
  | resp op1 op2 => injection h with h; exact h ▸ .resp op1 op2 _ rfl
  | loop cnt e => obtain ⟨hc, ht⟩ := execLoop_inv h; exact ht ▸ .loop cnt e hc
  | jcc addr cond => injection h with h; exact h ▸ .jcc addr cond
  | callcc addr cond => injection h with h; exact h ▸ .callcc addr cond
  | jmpi addr mm n => injection h with h; exact h ▸ .jmpi addr mm n
  | mvxMvyDouble xs xd ys yd => obtain ⟨hx, hy, hc, ht⟩ := execMvxMvyDouble_inv h; exact ht ▸ .mvxMvyDouble xs xd ys yd hx hy hc
  | halt => injection h with h; exact h ▸ .halt
  | doubleFull x y => obtain ⟨hc, ha, ht⟩ := execDoubleFull_inv h; exact ht ▸ .doubleFull x y hc ha
  | j addr => injection h with h; exact h ▸ .j addr
  | call addr => injection h with h; exact h ▸ .call addr
  | jr => injection h with h; exact h ▸ .jr
  | nopTotal => injection h with h; exact h ▸ .nopTotal
  | reserved why w => cases h
  | _ => cases hi

end Sys2Proof.Machine
end

