-- ==== Sys2Proof/Laws/PerInstr.lean ====
section
/-! SUPPORT. One lemma per constructor of `Instr`: a second name has the word of the instruction it names, and every
other instruction stands for itself (R127; log entry 37). -/

namespace Sys2Proof.Laws

/-- The word of an instruction is the word of the instruction its words decode to. -/
def SecondName.Statement (i : Instr) : Prop := encode i.core = encode i

theorem SecondName.ldc (c : Word) (r : MoveReg) : SecondName.Statement (.ldc c r) := rfl
theorem SecondName.jrcc (cond : Cond) : SecondName.Statement (.jrcc cond) := rfl
theorem SecondName.jrccIn (n : IReg) (cond : Cond) : SecondName.Statement (.jrccIn n cond) := rfl
theorem SecondName.reti : SecondName.Statement (.reti) := rfl
theorem SecondName.retiIn (n : IReg) : SecondName.Statement (.retiIn n) := rfl
theorem SecondName.resp (op1 op2 : Reg16) : SecondName.Statement (.resp op1 op2) := rfl
theorem SecondName.loop (cnt : MoveReg) (endAddr : Word) : SecondName.Statement (.loop cnt endAddr) := rfl
theorem SecondName.jcc (addr : Word) (cond : Cond) : SecondName.Statement (.jcc addr cond) := rfl
theorem SecondName.callcc (addr : Word) (cond : Cond) : SecondName.Statement (.callcc addr cond) := rfl
theorem SecondName.jmpi (addr : Word) (mm : JmpiMod) (n : IReg) : SecondName.Statement (.jmpi addr mm n) := rfl
theorem SecondName.mvxMvyDouble (xs xd ys yd : MoveReg) : SecondName.Statement (.mvxMvyDouble xs xd ys yd) := rfl
theorem SecondName.halt : SecondName.Statement (.halt) := rfl
theorem SecondName.doubleFull (x y : Option FullMove) : SecondName.Statement (.doubleFull x y) := rfl
theorem SecondName.add (op1 op2 : AluSrc) (dst : AluDst) (pm : ParMove) : SecondName.Statement (.add op1 op2 dst pm) := rfl
theorem SecondName.sub (op1 op2 : AluSrc) (dst : AluDst) (pm : ParMove) : SecondName.Statement (.sub op1 op2 dst pm) := rfl
theorem SecondName.addc (op1 op2 : AluSrc) (dst : AluDst) (pm : ParMove) : SecondName.Statement (.addc op1 op2 dst pm) := rfl
theorem SecondName.subc (op1 op2 : AluSrc) (dst : AluDst) (pm : ParMove) : SecondName.Statement (.subc op1 op2 dst pm) := rfl
theorem SecondName.ashl (op1 op2 : AluSrc) (dst : AluDst) (pm : ParMove) : SecondName.Statement (.ashl op1 op2 dst pm) := rfl
theorem SecondName.and (op1 op2 : AluSrc) (dst : AluDst) (pm : ParMove) : SecondName.Statement (.and op1 op2 dst pm) := rfl
theorem SecondName.or (op1 op2 : AluSrc) (dst : AluDst) (pm : ParMove) : SecondName.Statement (.or op1 op2 dst pm) := rfl
theorem SecondName.xor (op1 op2 : AluSrc) (dst : AluDst) (pm : ParMove) : SecondName.Statement (.xor op1 op2 dst pm) := rfl
theorem SecondName.mac (op1 : Reg16) (mode : MulMode) (op2 : Reg16) (q : AccName) (pm : ParMove) : SecondName.Statement (.mac op1 mode op2 q pm) := rfl
theorem SecondName.msu (op1 : Reg16) (mode : MulMode) (op2 : Reg16) (q : AccName) (pm : ParMove) : SecondName.Statement (.msu op1 mode op2 q pm) := rfl
theorem SecondName.mul (mode : MulMode) (op1 op2 : Reg16) (pm : ParMove) : SecondName.Statement (.mul mode op1 op2 pm) := rfl
theorem SecondName.abs (op2 : AluSrc) (dst : AluDst) (pm : ParMove) : SecondName.Statement (.abs op2 dst pm) := rfl
theorem SecondName.asr (op2 : AluSrc) (dst : AluDst) (pm : ParMove) : SecondName.Statement (.asr op2 dst pm) := rfl
theorem SecondName.lsr (op2 : AluSrc) (dst : AluDst) (pm : ParMove) : SecondName.Statement (.lsr op2 dst pm) := rfl
theorem SecondName.lsrc (op2 : AluSrc) (dst : AluDst) (pm : ParMove) : SecondName.Statement (.lsrc op2 dst pm) := rfl
theorem SecondName.exp (op2 : AluSrc) (dst : Reg16) (pm : ParMove) : SecondName.Statement (.exp op2 dst pm) := rfl
theorem SecondName.sat (op2 : AluSrc) (dst : AccName) (pm : ParMove) : SecondName.Statement (.sat op2 dst pm) := rfl
theorem SecondName.rnd (op2 : AluSrc) (dst : Reg16) (pm : ParMove) : SecondName.Statement (.rnd op2 dst pm) := rfl
theorem SecondName.nop : SecondName.Statement (.nop) := rfl
theorem SecondName.ldxFull (n : IReg) (p : BitVec 4) (r : MoveReg) : SecondName.Statement (.ldxFull n p r) := rfl
theorem SecondName.stxFull (n : IReg) (p : BitVec 4) (r : MoveReg) : SecondName.Statement (.stxFull n p r) := rfl
theorem SecondName.ldyFull (n : IReg) (p : BitVec 4) (r : MoveReg) : SecondName.Statement (.ldyFull n p r) := rfl
theorem SecondName.styFull (n : IReg) (p : BitVec 4) (r : MoveReg) : SecondName.Statement (.styFull n p r) := rfl
theorem SecondName.twoShort (x y : ShortMove) : SecondName.Statement (.twoShort x y) := rfl
theorem SecondName.mvxParallel (src dst : MoveReg) : SecondName.Statement (.mvxParallel src dst) := rfl
theorem SecondName.ldxLong (n : IReg) (r : MoveReg) : SecondName.Statement (.ldxLong n r) := rfl
theorem SecondName.stxLong (n : IReg) (r : MoveReg) : SecondName.Statement (.stxLong n r) := rfl
theorem SecondName.ldi (n : IReg) (p : BitVec 4) (q : AccName) : SecondName.Statement (.ldi n p q) := rfl
theorem SecondName.sti (n : IReg) (p : BitVec 4) (q : AccName) : SecondName.Statement (.sti n p q) := rfl
theorem SecondName.mulss (op1 op2 : Reg16) (pm : ParMove) : SecondName.Statement (.mulss op1 op2 pm) := rfl
theorem SecondName.mulsu (op1 op2 : Reg16) (pm : ParMove) : SecondName.Statement (.mulsu op1 op2 pm) := rfl
theorem SecondName.mulus (op1 op2 : Reg16) (pm : ParMove) : SecondName.Statement (.mulus op1 op2 pm) := rfl
theorem SecondName.muluu (op1 op2 : Reg16) (pm : ParMove) : SecondName.Statement (.muluu op1 op2 pm) := rfl
theorem SecondName.lsl (op : AluSrc) (dst : AluDst) (pm : ParMove) : SecondName.Statement (.lsl op dst pm) := rfl
theorem SecondName.lslc (op : AluSrc) (dst : AluDst) (pm : ParMove) : SecondName.Statement (.lslc op dst pm) := rfl
theorem SecondName.not (op2 : AluSrc) (dst : AluDst) (pm : ParMove) : SecondName.Statement (.not op2 dst pm) := rfl
theorem SecondName.addNullP (q : AccName) (pm : ParMove) : SecondName.Statement (.addNullP q pm) := rfl
theorem SecondName.j (addr : Word) : SecondName.Statement (.j addr) := rfl
theorem SecondName.call (addr : Word) : SecondName.Statement (.call addr) := rfl
theorem SecondName.jr : SecondName.Statement (.jr) := rfl
theorem SecondName.nopTotal : SecondName.Statement (.nopTotal) := rfl
theorem SecondName.reserved (why : ReservedWhy) (w : Word32) : SecondName.Statement (.reserved why w) := rfl

end Sys2Proof.Laws
end

