-- ==== Sys2Proof/Laws/Step.lean ====
section
/-! SUPPORT. What one step can do, said once, and what no instruction touches. -/

namespace Sys2Proof.Machine

/-! ## What no instruction touches -/

theorem sameSequencer.inputs {s t : State} (h : sameSequencer s t) : sameInputs s t := by
  obtain ⟨h1, _, _, _, h5, h6, h7, h8, h9, h10, h11, h12, h13⟩ := h
  exact ⟨h1, h5, h6, h7, h8, h9, h10, h11, h12, h13⟩

theorem IsParStep.sequencer {ws : List MoveReg} {pm : ParMove} {f p : Bool} {s t : State}
    (h : IsParStep ws pm f p s t) : sameSequencer s t := by
  obtain ⟨s', ha, _, ht, _⟩ := h
  exact ht ▸ ha.keeps.sequencer.trans (applyPar_keeps pm s s').sequencer

/-- The instructions that touch the sequencer's own components: the control instructions and HALT. -/
def isControl (i : Instr) : Bool := changesFlow i || (i = .halt)

/-- No instruction but a change of flow and HALT touches the sequencer (R261). -/
theorem exec_sequencer {i : Instr} {s t : State} (hi : isControl i = false) (h : exec i s = .next t) :
    sameSequencer s t := by
  cases hp : hasParField i with
  | true => exact (exec_par_inv hp h).sequencer
  | false =>
    cases exec_other_inv hp h with
    | ldc c r => exact (State.writeReg_keeps s false r c).sequencer
    | nopTotal => exact (Keeps.refl s).sequencer
    | resp op1 op2 p hp => exact (Keeps.refl s).sequencer
    | doubleFull x y hc ha => exact (applyHalf_keeps x .x s s).sequencer.trans (applyHalf_keeps y .y s _).sequencer
    | mvxMvyDouble xs xd ys yd hx hy hc =>
      exact (moveReg_keeps .busX xs xd s s).sequencer.trans (moveReg_keeps .busY ys yd s _).sequencer
    | _ => cases hi

/-- No instruction at all touches the program counter, the history, the controller's state or the inputs: that is the
sequencer's part of the step. -/
theorem exec_inputs {i : Instr} {s t : State} (h : exec i s = .next t) : sameInputs s t := by
  have jump : ∀ (cond : Cond) (g : Target), sameInputs s (jumpIf s cond g) := by
    intro cond g
    rw [jumpIf_eq]
    exact ⟨rfl, rfl, rfl, rfl, rfl, rfl, rfl, rfl, rfl, rfl⟩
  have call : ∀ (cond : Cond) (a : Word), sameInputs s (callIf s cond a) := by
    intro cond a
    rw [callIf_eq]
    exact ⟨rfl, rfl, rfl, rfl, rfl, rfl, rfl, rfl, rfl, rfl⟩
  cases hi : isControl i with
  | false => exact (exec_sequencer hi h).inputs
  | true =>
    have hp : hasParField i = false := by cases i <;> first | rfl | cases hi
    cases exec_other_inv hp h with
    | jcc addr cond => exact jump _ _
    | j addr => exact jump _ _
    | jrcc cond => exact jump _ _
    | jr => exact jump _ _
    | jrccIn n cond => exact jump _ _
    | callcc addr cond => exact call _ _
    | call addr => exact call _ _
    | reti => exact ⟨rfl, rfl, rfl, rfl, rfl, rfl, rfl, rfl, rfl, rfl⟩
    | retiIn n => exact ⟨rfl, rfl, rfl, rfl, rfl, rfl, rfl, rfl, rfl, rfl⟩
    | loop cnt e hc => exact ⟨rfl, rfl, rfl, rfl, rfl, rfl, rfl, rfl, rfl, rfl⟩
    | jmpi addr mm n => cases mm <;> cases n <;> exact ⟨rfl, rfl, rfl, rfl, rfl, rfl, rfl, rfl, rfl, rfl⟩
    | halt => split <;> exact ⟨rfl, rfl, rfl, rfl, rfl, rfl, rfl, rfl, rfl, rfl⟩
    | _ => cases hi

/-! ## One step -/

/-- Where an interrupt is accepted: the conditions of R295, and the two of log entry 29, the second of
which does not hold back the request that ended HALT (R280). -/
theorem acceptsIrq_iff (s : State) : s.acceptsIrq = true ↔
    s.pending = none ∧ s.cancel = false ∧ s.loopSkip = 0 ∧ s.haltSkid = 0 ∧
      (∀ h, s.prev1 = some h → h.delayOwner = false) ∧
      (s.haltWake = false → s.fL = false → s.pc ≠ s.le ∧ s.pc ≠ s.le - 1#16) := by
  unfold State.acceptsIrq histHas atLoopEnd
  cases s.prev1 <;> cases s.fL <;> cases s.haltWake <;> simp [and_assoc]

/-- Everything a step that answers a next state can be: system reset (R330), a halted boundary (R280), the entry of an
interrupt (R296), a cancelled slot (R276), or the execution of the instruction at the fetch address (R261). -/
inductive StepKind (s t : State) : Prop where
  | reset (hr : s.resetIn = some 0) (ht : t = s.systemReset)
  | halted (hr : s.resetIn ≠ some 0) (hh : s.halted = true) (ht : t = haltedCycle s)
  | interrupt (vec : BitVec 5) (hr : s.resetIn ≠ some 0) (hh : s.halted = false) (hp : s.presented = some vec)
      (ha : s.acceptsIrq = true) (ht : t = s.enterInterrupt vec)
  | cancelled (hs : RunsSlot s) (hc : s.cancel = true) (ha : hazardAfter .nopTotal s s.begin = none) (ht : t = retire (histOfNop s) s s.begin)
  | executes (s' : State) (hs : Executes s) (hb : hazardBefore s.fetch s = none) (hh : haltRefused s.fetch s = none)
      (he : exec s.fetch s.begin = .next s') (hp : s.pending = none ∨ s'.pending = none)
      (ha : hazardAfter s.fetch s s' = none) (ht : t = retire (histOf s.fetch s s') s s')

theorem completeInstr_inv {i : Instr} {s t : State} {o : Result} (h : completeInstr i s o = .next t) :
    ∃ s', o = .next s' ∧ (s.pending = none ∨ s'.pending = none) ∧ hazardAfter i s s' = none ∧
      t = retire (histOf i s s') s s' := by
  cases o with
  | next s' =>
    simp only [completeInstr] at h
    split at h
    · cases h
    · rename_i hp
      split at h
      · cases h
      · rename_i ha
        refine ⟨s', rfl, ?_, ha, by injection h with h; exact h.symm⟩
        cases hq : s.pending
        · exact .inl rfl
        · cases hq' : s'.pending
          · exact .inr rfl
          · simp [hq, hq'] at hp
  | fault f => cases h
  | refused r => cases h

theorem runInstr_inv {i : Instr} {s t : State} (h : runInstr i s = .next t) :
    hazardBefore i s = none ∧ haltRefused i s = none ∧ ∃ s', exec i s.begin = .next s' ∧
      (s.pending = none ∨ s'.pending = none) ∧ hazardAfter i s s' = none ∧ t = retire (histOf i s s') s s' := by
  unfold runInstr at h
  split at h
  · cases h
  · rename_i hb
    split at h
    · cases h
    · rename_i hh
      exact ⟨hb, hh, completeInstr_inv h⟩

theorem cancelledSlot_inv {s t : State} (h : cancelledSlot s = .next t) :
    hazardAfter .nopTotal s s.begin = none ∧ t = retire (histOfNop s) s s.begin := by
  unfold cancelledSlot at h
  split at h
  · cases h
  · rename_i ha
    exact ⟨ha, by injection h with h; exact h.symm⟩

theorem runSlot_kind {s t : State} (hs : RunsSlot s) (h : runSlot s = .next t) : StepKind s t := by
  unfold runSlot at h
  split at h
  · rename_i hc
    obtain ⟨ha, ht⟩ := cancelledSlot_inv h
    exact .cancelled hs hc ha ht
  · rename_i hc
    split at h
    · cases h
    · rename_i hf
      split at h
      · cases h
      · rename_i hm
        obtain ⟨hb, hh, s', he, hp, ha, ht⟩ := runInstr_inv h
        exact .executes s' ⟨hs, by simpa using hc, by simpa using hf, hm⟩ hb hh he hp ha ht

/-- A step that answers a next state is one of the five kinds. -/
theorem step_kind {s t : State} (h : step s = .next t) : StepKind s t := by
  unfold step cycle at h
  split at h
  · rename_i hr
    exact .reset hr (by injection h with h; exact h.symm)
  · rename_i hr
    split at h
    · rename_i hh
      exact .halted hr hh (by injection h with h; exact h.symm)
    · rename_i hh
      replace hh : s.halted = false := by simpa using hh
      split at h
      · rename_i vec hp
        split at h
        · rename_i ha
          exact .interrupt vec hr hh hp ha (by injection h with h; exact h.symm)
        · rename_i ha
          exact runSlot_kind ⟨hr, hh, fun _ => by simpa using ha⟩ h
      · rename_i hp
        exact runSlot_kind ⟨hr, hh, fun hq => by simp [hp] at hq⟩ h

/-- In an instruction slot the step is the slot. -/
theorem step_of_runsSlot {s : State} (h : RunsSlot s) : step s = runSlot s := by
  obtain ⟨hr, hh, hp⟩ := h
  unfold step cycle
  rw [if_neg hr, if_neg (by simp [hh])]
  split
  · rename_i vec hq
    rw [if_neg (by simp [hp (by simp [hq])])]
  · rfl

/-- Where the slot executes an instruction, the step is that instruction's. -/
theorem step_of_executes {s : State} (h : Executes s) : step s = runInstr s.fetch s := by
  rw [step_of_runsSlot h.1, runSlot, if_neg (by simp [h.2.1]), if_neg (by simp [h.2.2.1]), h.2.2.2]

/-! ## The end of a slot -/

/-- What the end of a slot changes besides the program counter: LC at a loop end, the page at a transfer. -/
theorem advance_cases (t : Option Target) (k : Nat) (a : Word) (s : State) :
    (∃ g, t = some g ∧ advance t k a s = s.transfer g) ∨
    (t = none ∧ s.fL = false ∧ a = s.le ∧ k ≠ 1 ∧ s.lc ≠ 0#16 ∧
      advance t k a s = { s with lc := s.lc - 1#16, pc := s.ls }) ∨
    (t = none ∧ ¬(s.fL = false ∧ a = s.le ∧ k ≠ 1 ∧ s.lc ≠ 0#16) ∧ advance t k a s = { s with pc := a + 1#16 }) := by
  cases t with
  | some g => exact .inl ⟨g, rfl, rfl⟩
  | none =>
    right
    by_cases h : s.fL = false ∧ a = s.le ∧ k ≠ 1 ∧ s.lc ≠ 0#16
    · left
      obtain ⟨h1, h2, h3, h4⟩ := h
      refine ⟨rfl, h1, h2, h3, h4, ?_⟩
      subst h2
      simp [advance, loopEndTest, h1, h3, h4]
    · right
      refine ⟨rfl, h, ?_⟩
      simp only [advance]
      split
      · rename_i hc
        simp only [Bool.and_eq_true, Bool.not_eq_true', decide_eq_true_eq, bne_iff_ne] at hc
        unfold loopEndTest
        rw [if_neg]
        intro h4
        exact h ⟨hc.1.1, hc.1.2, hc.2, by simpa using h4⟩
      · rfl

end Sys2Proof.Machine
end

