-- ==== Sys2Proof/Tests/Slice0.lean ====
section
/-! SUPPORT. Tests: well-formedness, decoding from words written out from spec/30_encoding.md, one step per test with the
expected result from spec/95_test_vectors.md (the section named in each heading), and a witness for the hypotheses of
every obligation. -/

namespace Sys2Proof.Tests

open Sys2Proof.Machine

set_option Elab.async false

/-! ## Well-formedness: an ill-formed term for each check -/

theorem test_wf_add : (Instr.add (.acc .a) .p (.acc .b) .none).wf = true := by decide
theorem test_illformed_operand1_is_p : (Instr.sub .p (.acc .a) (.acc .b) .none).wf = false := by decide
theorem test_illformed_narrow_result_of_wide_sum : (Instr.add (.acc .a) .null (.r16 .b0) .none).wf = false := by decide
theorem test_illformed_wide_result_of_narrow_sum : (Instr.xor .null .ones (.acc .b) .none).wf = false := by decide
theorem test_illformed_shift_by_accumulator : (Instr.ashl (.acc .a) (.acc .b) (.acc .c) .none).wf = false := by decide
theorem test_illformed_shift_result : (Instr.ashl (.acc .a) (.r16 .b0) (.r16 .c0) .none).wf = false := by decide
theorem test_illformed_shift_of_p : (Instr.ashl .p (.r16 .b0) (.acc .c) .none).wf = false := by decide
theorem test_illformed_abs_width : (Instr.abs (.r16 .a0) (.acc .a) .none).wf = false := by decide
theorem test_illformed_move_of_nop :
    (Instr.mul .ss .a0 .a1 (.full .x ⟨false, .i0, 0#4, .nop⟩)).wf = false := by decide
theorem test_illformed_load_of_nop : (Instr.ldxFull .i0 1#4 .nop).wf = false := by decide
theorem test_illformed_half_of_nop : (Instr.doubleFull none (some ⟨true, .i0, 1#4, .nop⟩)).wf = false := by decide
theorem test_illformed_loop_count : (Instr.loop (.guard .a) 0x4000#16).wf = false := by decide
theorem test_illformed_reserved : (Instr.reserved .opcode 0xE0000000#32).wf = false := by decide

/-! ## Decoding: every constructor, its word field by field from the table of its rule in spec/30_encoding.md -/

/-- The filler of R122: a full move of the Move NOP register. -/
def filler : BitVec 17 := 0b000#3 ++ 0b0#1 ++ 0b000#3 ++ 0b0000#4 ++ 0b100100#6

theorem test_decode_ldc : decode (0b000#3 ++ 0b0000000#7 ++ 1234#16 ++ 0b010000#6) = .ldc 1234#16 (.idx .i0) := by decide
theorem test_decode_jrcc : decode (0b0010#4 ++ 0b0000#4 ++ 0#1 ++ 0#17 ++ 0b010101#6) = .jrcc .zc := by decide
theorem test_decode_jrccIn :
    decode (0b0010#4 ++ 0b0000#4 ++ 1#1 ++ 0#14 ++ 0b101#3 ++ 0b000001#6) = .jrccIn .i5 .cs := by decide
theorem test_decode_reti : decode (0b0010#4 ++ 0b0001#4 ++ 0#24) = .reti := by decide
theorem test_decode_retiIn : decode (0b0010#4 ++ 0b0001#4 ++ 1#1 ++ 0#14 ++ 0b011#3 ++ 0#6) = .retiIn .i3 := by decide
theorem test_decode_resp : decode (0b0010#4 ++ 0b0010#4 ++ 0#1 ++ 0b100#3 ++ 0b101#3 ++ 0#17) = .resp .c1 .c0 := by decide
theorem test_decode_loop :
    decode (0b0010#4 ++ 0b01#2 ++ 0#4 ++ 0x4009#16 ++ 0#1 ++ 0b01110#5) = .loop .ls 0x4009#16 := by decide
theorem test_decode_jcc : decode (0b0010#4 ++ 0b1000#4 ++ 0#2 ++ 0x4003#16 ++ 0b010101#6) = .jcc 0x4003#16 .zc := by decide
theorem test_decode_callcc :
    decode (0b0010#4 ++ 0b1001#4 ++ 0#2 ++ 0x4100#16 ++ 0b000001#6) = .callcc 0x4100#16 .cs := by decide
theorem test_decode_jmpi :
    decode (0b0010#4 ++ 0b1010#4 ++ 0#2 ++ 0x0100#16 ++ 0#1 ++ 0b01#2 ++ 0b110#3) = .jmpi 0x0100#16 .inc .i6 := by decide
theorem test_decode_mvxMvyDouble :
    decode (0b0010#4 ++ 0b1011#4 ++ 0b000000#6 ++ 0b010000#6 ++ 0b000001#6 ++ 0b010001#6) =
      .mvxMvyDouble (.r16 .a0) (.idx .i0) (.r16 .a1) (.idx .i1) := by decide
theorem test_decode_halt : decode (0b0010#4 ++ 0b1101#4 ++ 0#24) = .halt := by decide
theorem test_decode_doubleFull :
    decode (0b0011#4 ++ 0b0#1 ++ 0b000#3 ++ 0b0111#4 ++ 0b000000#6 ++ 0b1#1 ++ 0b010#3 ++ 0b0001#4 ++ 0b000000#6) =
      .doubleFull (some ⟨false, .i0, 7#4, .r16 .a0⟩) (some ⟨true, .i2, 1#4, .r16 .a0⟩) := by decide
theorem test_decode_add :
    decode (0b0100#4 ++ 0b0000#4 ++ 0b0001#4 ++ 0b010#3 ++ filler) = .add (.r16 .a0) (.r16 .a1) (.r16 .b0) .none := by decide
theorem test_decode_sub :
    decode (0b0110#4 ++ 0b1100#4 ++ 0b1101#4 ++ 0b001#3 ++ filler) = .sub (.acc .a) (.acc .b) (.acc .a) .none := by decide
theorem test_decode_addc :
    decode (0b1000#4 ++ 0b1100#4 ++ 0b1011#4 ++ 0b001#3 ++ filler) = .addc (.acc .a) .p (.acc .a) .none := by decide
theorem test_decode_subc :
    decode (0b1001#4 ++ 0b0111#4 ++ 0b1000#4 ++ 0b110#3 ++ filler) = .subc (.r16 .d1) .null (.r16 .d0) .none := by decide
theorem test_decode_ashl :
    decode (0b1010#4 ++ 0b1100#4 ++ 0b0010#4 ++ 0b101#3 ++ filler) = .ashl (.acc .a) (.r16 .b0) (.acc .c) .none := by decide
theorem test_decode_and :
    decode (0b1011#4 ++ 0b1100#4 ++ 0b1000#4 ++ 0b001#3 ++ filler) = .and (.acc .a) .null (.acc .a) .none := by decide
theorem test_decode_or :
    decode (0b1100#4 ++ 0b1110#4 ++ 0b1111#4 ++ 0b111#3 ++ filler) = .or (.acc .c) (.acc .d) (.acc .d) .none := by decide
theorem test_decode_xor :
    decode (0b1101#4 ++ 0b0101#4 ++ 0b0111#4 ++ 0b111#3 ++ filler) = .xor (.r16 .c1) (.r16 .d1) (.r16 .d1) .none := by decide
theorem test_decode_mac :
    decode (0b0101#4 ++ 0b011#3 ++ 0b00#2 ++ 0b010#3 ++ 0b001#3 ++ (0b1#1 ++ 0b0#1 ++ 0b000#3 ++ 0b1#1 ++ 0b011#3 ++
        (0b0#1 ++ 0b010#3 ++ 0b1#1 ++ 0b010#3))) =
      .mac .b1 .ss .b0 .a (.short ⟨false, .i0, true, .b1⟩ ⟨false, .i2, true, .b0⟩) := by decide
theorem test_decode_msu :
    decode (0b0111#4 ++ 0b000#3 ++ 0b10#2 ++ 0b111#3 ++ 0b101#3 ++ filler) = .msu .a0 .us .d1 .c .none := by decide
theorem test_decode_mul :
    decode (0b1111#4 ++ 0b111#3 ++ 0b01#2 ++ 0b001#3 ++ 0b000#3 ++ filler) = .mul .su .a0 .a1 .none := by decide
theorem test_decode_abs :
    decode (0b1111#4 ++ 0b0000#4 ++ 0b1100#4 ++ 0b001#3 ++ filler) = .abs (.acc .a) (.acc .a) .none := by decide
theorem test_decode_asr :
    decode (0b1111#4 ++ 0b0001#4 ++ 0b1101#4 ++ 0b011#3 ++ filler) = .asr (.acc .b) (.acc .b) .none := by decide
theorem test_decode_lsr :
    decode (0b1111#4 ++ 0b0010#4 ++ 0b0000#4 ++ 0b000#3 ++ filler) = .lsr (.r16 .a0) (.r16 .a0) .none := by decide
theorem test_decode_lsrc :
    decode (0b1111#4 ++ 0b0011#4 ++ 0b1001#4 ++ 0b100#3 ++ filler) = .lsrc .ones (.r16 .c0) .none := by decide
theorem test_decode_exp :
    decode (0b1111#4 ++ 0b0101#4 ++ 0b1100#4 ++ 0b010#3 ++ filler) = .exp (.acc .a) .b0 .none := by decide
theorem test_decode_sat :
    decode (0b1111#4 ++ 0b0110#4 ++ 0b1011#4 ++ 0b101#3 ++ filler) = .sat .p .c .none := by decide
theorem test_decode_rnd :
    decode (0b1111#4 ++ 0b0111#4 ++ 0b1100#4 ++ 0b011#3 ++ filler) = .rnd (.acc .a) .b1 .none := by decide
theorem test_decode_nop : decode (0b1111#4 ++ 0b0100#4 ++ 0#7 ++ filler) = .nop := by decide
theorem test_decode_ldxFull :
    decode (0b1111#4 ++ 0b0100#4 ++ 0#7 ++ 0b000#3 ++ (0b0#1 ++ 0b001#3 ++ 0b1100#4 ++ 0b111111#6)) =
      .ldxFull .i1 12#4 .ipr1 := by decide
theorem test_decode_stxFull :
    decode (0b1111#4 ++ 0b0100#4 ++ 0#7 ++ 0b000#3 ++ (0b1#1 ++ 0b111#3 ++ 0b1000#4 ++ 0b100011#6)) =
      .stxFull .i7 8#4 (.guard .d) := by decide
theorem test_decode_ldyFull :
    decode (0b1111#4 ++ 0b0100#4 ++ 0#7 ++ 0b010#3 ++ (0b0#1 ++ 0b011#3 ++ 0b0111#4 ++ 0b000111#6)) =
      .ldyFull .i3 7#4 (.r16 .d1) := by decide
theorem test_decode_styFull :
    decode (0b1111#4 ++ 0b0100#4 ++ 0#7 ++ 0b010#3 ++ (0b1#1 ++ 0b010#3 ++ 0b0001#4 ++ 0b001101#6)) =
      .styFull .i2 1#4 .lc := by decide
theorem test_decode_twoShort :
    decode (0b1111#4 ++ 0b0100#4 ++ 0#7 ++ (0b1#1 ++ (0b1#1 ++ 0b100#3 ++ 0b0#1 ++ 0b100#3) ++
        (0b0#1 ++ 0b101#3 ++ 0b0#1 ++ 0b111#3))) =
      .twoShort ⟨true, .i4, false, .c0⟩ ⟨false, .i5, false, .d1⟩ := by decide
theorem test_decode_mvxParallel :
    decode (0b1111#4 ++ 0b0100#4 ++ 0#7 ++ (0b00100#5 ++ 0b010000#6 ++ 0b001000#6)) = .mvxParallel (.idx .i0) .lr0 := by decide
theorem test_decode_ldxLong :
    decode (0b1111#4 ++ 0b0100#4 ++ 0#7 ++ (0b0010100#7 ++ 0b0#1 ++ 0b010#3 ++ 0b000000#6)) = .ldxLong .i2 (.r16 .a0) := by decide
theorem test_decode_stxLong :
    decode (0b1111#4 ++ 0b0100#4 ++ 0#7 ++ (0b0010100#7 ++ 0b1#1 ++ 0b110#3 ++ 0b001010#6)) = .stxLong .i6 .mr0 := by decide
theorem test_decode_ldi :
    decode (0b1111#4 ++ 0b0100#4 ++ 0#7 ++ (0b0010101#7 ++ 0b0#1 ++ 0b000#3 ++ 0b0001#4 ++ 0b00#2)) = .ldi .i0 1#4 .a := by decide
theorem test_decode_sti :
    decode (0b1111#4 ++ 0b0100#4 ++ 0#7 ++ (0b0010101#7 ++ 0b1#1 ++ 0b001#3 ++ 0b1000#4 ++ 0b01#2)) = .sti .i1 8#4 .b := by decide
/-- A second name's word decodes to the instruction it names (R127, R156, R191, R268). -/
theorem test_decode_second_names :
    decode 0xFE100024#32 = (Instr.mulss .a0 .a1 .none).core ∧ decode 0xFE900024#32 = (Instr.mulsu .a0 .a1 .none).core ∧
    decode 0xFF100024#32 = (Instr.mulus .a0 .a1 .none).core ∧ decode 0xFF900024#32 = (Instr.muluu .a0 .a1 .none).core ∧
    decode 0x4DD60024#32 = (Instr.lsl (.acc .b) (.acc .b) .none).core ∧
    decode 0x80000024#32 = (Instr.lslc (.r16 .a0) (.r16 .a0) .none).core ∧
    decode 0xD9040024#32 = (Instr.not (.r16 .a0) (.r16 .b0) .none).core ∧
    decode 0x48BA0024#32 = (Instr.addNullP .c .none).core ∧ decode 0x28104000#32 = (Instr.j 0x4100#16).core ∧
    decode 0x29104000#32 = (Instr.call 0x4100#16).core ∧ decode 0x20000000#32 = Instr.jr.core ∧
    decode 0x00000024#32 = Instr.nopTotal.core := by decide
theorem test_decode_reserved :
    decode 0xE0000024#32 = .reserved .opcode 0xE0000024#32 ∧ decode 0x23000000#32 = .reserved .controlCode 0x23000000#32 ∧
    decode 0xF8000024#32 = .reserved .singleCode 0xF8000024#32 ∧ decode 0x40A40024#32 = .reserved .aluOperand 0x40A40024#32 ∧
    decode 0x4B020024#32 = .reserved .pAsOp1 0x4B020024#32 ∧ decode 0xA0C40024#32 = .reserved .wideShiftCount 0xA0C40024#32 ∧
    decode 0x4CD80024#32 = .reserved .resultCode 0x4CD80024#32 ∧ decode 0x0000014B#32 = .reserved .moveRegister 0x0000014B#32 ∧
    decode 0x2A104016#32 = .reserved .jmpiMode 0x2A104016#32 ∧ decode 0xF400C000#32 = .reserved .parallelMove 0xF400C000#32 ∧
    decode 0x28000006#32 = .reserved .condition 0x28000006#32 := by decide
/-- Don't-care bits are ignored (R121): LDC with bits 28..22 set, a Move NOP with a store and an index. -/
theorem test_decode_dont_care :
    decode 0x1FC13490#32 = .ldc 1234#16 (.idx .i0) ∧ decode 0xF4002D64#32 = .nop ∧ decode 0x2D00FFFF#32 = .halt := by decide
theorem test_encode_of_manual_text :
    encode (.sub (.r16 .a0) (.r16 .a1) (.r16 .b0) (.full .x ⟨false, .i1, 12#4, .idx .i0⟩)) = 0x60140710#32 ∧
    encode (.doubleFull (some ⟨false, .i6, 0#4, .mr0⟩) none) = 0x36028024#32 ∧ encode .nop = 0xF4000024#32 := by decide

/-! ## One step -/

/-- The machine at 0x4000 in page 0 with the word there (spec/95 section 0). -/
def at4000 (w : Word32) (s : State) : State := { s with imem := s.imem.write32 0x4000 w }

/-- The step takes a next state that shows this. -/
def shows {α : Type} [DecidableEq α] (w : Word32) (s : State) (f : State → α) (v : α) : Bool :=
  match step (at4000 w s) with
  | .next t => f t = v
  | .fault _ => false
  | .refused _ => false

/-- The step stops with this fault. -/
def faults (w : Word32) (s : State) (e : Fault) : Bool :=
  match step (at4000 w s) with
  | .next _ => false
  | .fault f => f = e
  | .refused _ => false

/-- The reset state with A0, A1 and MR0. -/
def withA (a0 a1 mr0 : Word) : State := { State.reset.setMr0 mr0 with accA := ⟨0#8, a1, a0⟩ }

/-- The reset state with A, B, P and MR0. -/
def withAB (a b : Word40) (p : Word32) (mr0 : Word) : State :=
  { State.reset.setMr0 mr0 with accA := .ofValue a, accB := .ofValue b, p := p }

/-- B0 and the flags. -/
def b0Flags (t : State) : Word × Flags := (t.r16 .b0, t.flags)

def accFlags (q : AccName) (t : State) : Word40 × Flags := (t.accValue q, t.flags)

/-! ### spec/95 section 2.1 -/

theorem test_add_saturates :
    shows 0x40140024#32 (withA 0x8000#16 0x8000#16 0x0400#16) b0Flags (0x8000#16, ⟨false, true, true, false, true⟩) = true := by
  decide +kernel
theorem test_add_wide_overflow :
    shows 0x4CDA0024#32 (withAB 0x7FFFFFFFFF#40 1#40 0#32 0#16) (accFlags .c) (0x8000000000#40, ⟨false, true, true, true, false⟩)
      = true := by decide +kernel
theorem test_addc_wide :
    shows 0x8CB20024#32 (withAB 0x00FFFFFFFF#40 0#40 0#32 1#16) (accFlags .a) (0x0100000000#40, ⟨false, false, false, true, false⟩)
      = true := by decide +kernel
theorem test_sub_overflow :
    shows 0x60140024#32 (withA 0x8000#16 1#16 0#16) b0Flags (0x7FFF#16, ⟨false, false, true, false, true⟩) = true := by
  decide +kernel
theorem test_sub_with_load :
    shows 0x60140710#32 { withA 9#16 4#16 0#16 with i1 := 0x200#16, xmem := [(0x400, 0x12#8), (0x401, 0x34#8)] }
      (fun t => (t.r16 .b0, t.i0, t.i1, t.fC)) (5#16, 0x1234#16, 0x01FC#16, true) = true := by decide +kernel
theorem test_subc_borrow :
    shows 0x90140024#32 (withA 5#16 5#16 0#16) b0Flags (0xFFFF#16, ⟨false, true, false, false, false⟩) = true := by decide +kernel
theorem test_and :
    shows 0xB0140024#32 (withA 0xF0F0#16 0x8F0F#16 0#16) b0Flags (0x8000#16, ⟨false, true, false, false, false⟩) = true := by
  decide +kernel
theorem test_or_wide :
    shows 0xCCDA0024#32 (withAB 0x0080000000#40 1#40 0#32 0#16) (accFlags .c) (0x0080000001#40, ⟨false, false, false, true, false⟩)
      = true := by decide +kernel
theorem test_xor_high_half :
    shows 0xD57E0024#32 { State.reset with accC := ⟨0#8, 0x4000#16, 0#16⟩, accD := ⟨0#8, 0x8000#16, 0#16⟩ }
      (accFlags .d) (0xFFC0000000#40, ⟨false, true, false, false, false⟩) = true := by decide +kernel
theorem test_not : shows 0xD9040024#32 (withA 0x00FF#16 0#16 0#16) b0Flags (0xFF00#16, ⟨false, true, false, false, false⟩) = true := by
  decide +kernel
theorem test_ashl_left :
    shows 0xA0140024#32 (withA 0x4001#16 2#16 0#16) b0Flags (4#16, ⟨false, false, true, false, true⟩) = true := by decide +kernel
theorem test_ashl_right_wide :
    shows 0xAC2A0024#32 (withAB 0xFF80000000#40 0xFFE1#40 0#32 0#16) (accFlags .c)
      (0xFFFFFFFFFF#40, ⟨false, true, false, false, false⟩) = true := by decide +kernel
theorem test_lsl_wide :
    shows 0x4DD60024#32 (withAB 0#40 0x00C0000000#40 0#32 0#16) (accFlags .b) (0x0180000000#40, ⟨false, false, false, true, false⟩)
      = true := by decide +kernel
theorem test_lslc :
    shows 0x80000024#32 (withA 0x8001#16 0#16 1#16) (fun t => (t.r16 .a0, t.flags)) (3#16, ⟨false, false, true, false, true⟩)
      = true := by decide +kernel
theorem test_add_null_p :
    shows 0x48BA0024#32 { State.reset with p := 0x80000000#32 } (accFlags .c) (0xFF80000000#40, ⟨false, true, false, false, false⟩)
      = true := by decide +kernel
theorem test_reserved_faults : faults 0xE0000024#32 State.reset (.reservedEncoding .opcode) = true := by decide +kernel

/-! ### spec/95 section 2.2 -/

theorem test_abs_wide_saturates :
    shows 0xF0C20024#32 (withAB 0x8000000000#40 0#40 0#32 0x0400#16) (fun t => (t.accValue .a, t.fZ, t.fN, t.fV, t.fE))
      (0x7FFFFFFFFF#40, false, false, true, true) = true := by decide +kernel
theorem test_asr_into_high_half :
    shows 0xF1020024#32 (withA 0x8001#16 0#16 0#16) (fun t => (t.accValue .a, t.fZ, t.fV, t.fE, t.fC))
      (0xFFC0008001#40, false, false, false, true) = true := by decide +kernel
theorem test_lsr_wide :
    shows 0xF2C20024#32 (withAB 0xFF00000000#40 0#40 0#32 0#16) (accFlags .a) (0x7F80000000#40, ⟨false, false, false, true, false⟩)
      = true := by decide +kernel
theorem test_lsrc_wide :
    shows 0xF3D60024#32 (withAB 0#40 1#40 0#32 1#16) (accFlags .b) (0x8000000000#40, ⟨false, true, false, true, true⟩) = true := by
  decide +kernel
theorem test_nop : shows 0xF4000024#32 (withA 1#16 2#16 0x001F#16) (fun t => (t.accValue .a, t.mr0, t.pc))
    (0x0000020001#40, 0x001F#16, 0x4001#16) = true := by decide +kernel
theorem test_exp_positive : shows 0xF5C40024#32 (withAB 1#40 0#40 0#32 0#16) b0Flags (0x27#16, ⟨false, false, false, false, false⟩)
    = true := by decide +kernel
theorem test_exp_minus_one : shows 0xF5C40024#32 (withAB 0xFFFFFFFFFF#40 0#40 0#32 0#16) b0Flags
    (0x28#16, ⟨false, false, false, false, false⟩) = true := by decide +kernel
theorem test_sat : shows 0xF6C20024#32 (withAB 0xFF7FFFFFFF#40 0#40 0#32 0#16) (accFlags .a)
    (0xFF80000000#40, ⟨false, true, true, false, false⟩) = true := by decide +kernel
theorem test_sat_narrow_faults : faults 0xF6020024#32 State.reset .satRndOperand = true := by decide +kernel
theorem test_rnd_tie_to_even : shows 0xF7C40024#32 (withAB 0x0012348000#40 0#40 0#32 0x0100#16) b0Flags
    (0x1234#16, ⟨false, false, false, false, false⟩) = true := by decide +kernel
theorem test_rnd_truncates : shows 0xF7C40024#32 (withAB 0xFFFFFF8000#40 0#40 0#32 0#16) b0Flags
    (0#16, ⟨true, false, false, false, false⟩) = true := by decide +kernel

/-! ### spec/95 section 2.3 -/

theorem test_mul_saturates : shows 0xFE100024#32 (withA 0x8000#16 0x8000#16 0x0400#16) (·.p) 0x7FFFFFFF#32 = true := by decide +kernel
theorem test_muluu_wraps : shows 0xFF900024#32 (withA 0xFFFF#16 0xFFFF#16 0#16) (·.p) 0xFFFC0002#32 = true := by decide +kernel
theorem test_mulsu : shows 0xFE900024#32 (withA 0xFFFF#16 0xFFFF#16 0x0200#16) (·.p) 0xFFFF0001#32 = true := by decide +kernel
theorem test_mulus : shows 0xFF100024#32 (withA 0xFFFF#16 0xFFFF#16 0x0200#16) (·.p) 0xFFFF0001#32 = true := by decide +kernel
theorem test_mulss : shows 0xFE100024#32 (withA 0xFFFF#16 0xFFFF#16 0x0200#16) (·.p) 1#32 = true := by decide +kernel
theorem test_mac_uses_previous_p :
    shows 0x56220024#32 (withAB 0#40 0x0020004000#40 0x20000000#32 0#16) (fun t => (t.accValue .a, t.p))
      (0x0020000000#40, 0x10000000#32) = true := by decide +kernel
theorem test_msu_unsigned_signed :
    shows 0x717A0024#32 { withA 0xFFFF#16 0#16 0x0200#16 with accC := ⟨0#8, 0#16, 0x1000#16⟩, accD := ⟨0#8, 0xFFFF#16, 0#16⟩,
                                                              p := 0x1000#32 }
      (fun t => (t.accValue .c, t.p, t.fZ, t.fC)) (0#40, 0xFFFF0001#32, true, true) = true := by decide +kernel
theorem test_resp : exec (.resp .c1 .c0) { State.reset with accC := ⟨0#8, 0x1234#16, 0x5678#16⟩ } =
    .next { State.reset with accC := ⟨0#8, 0x1234#16, 0x5678#16⟩,
                             p := if Config.respOp1High then 0x12345678#32 else 0x56781234#32 } := by
  cases h : Config.respOp1High <;> simp [exec, execResp, h] <;> rfl

/-! ### spec/95 sections 1.1, 1.2 and 2.4 -/

/-- The reset state with one 16-bit word in X and one in Y memory. -/
def withXY (xa x ya y : Nat) : State :=
  { State.reset with xmem := Memory.write16 [] xa (BitVec.ofNat 16 x), ymem := Memory.write16 [] ya (BitVec.ofNat 16 y) }

theorem test_ldc_guard : shows 0x0004AAE0#32 (withAB 0x0011112222#40 0#40 0#32 0#16) (·.accValue .a) 0xAB11112222#40 = true := by
  decide +kernel
theorem test_ldc_mr0_masked : shows 0x003FFFCA#32 State.reset (·.mr0) 0x079F#16 = true := by decide +kernel
theorem test_nop_total : shows 0x00000024#32 State.reset (fun t => (t.accValue .a, t.i0, t.pc)) (0#40, 0#16, 0x4001#16) = true := by
  decide +kernel
theorem test_ldx_full_wraps :
    shows 0xF4000240#32 { withXY 3 1 0 0 with i0 := 3#16 } (fun t => (t.r16 .a0, t.i0)) (1#16, 0xFFFC#16) = true := by decide +kernel
theorem test_ldx_modulo_wraps :
    shows 0xF400020C#32 { State.reset with i0 := 0x0104#16, i1 := 0x8004#16 } (·.i0) 0x0100#16 = true := by decide +kernel
theorem test_ldy_full_bit_reversed :
    shows 0xF4008600#32 { withXY 0 0 0x3030 0x55 with i1 := 0x3030#16, i0 := 0xC020#16 } (fun t => (t.r16 .a0, t.i1))
      (0x55#16, 0x3008#16) = true := by decide +kernel
theorem test_ldy_full_into_high_half :
    shows 0xF4008DC7#32 { withXY 0 0 0xFFFE 0x8000 with i3 := 0xFFFE#16, accD := .ofValue 0x0012345678#40 }
      (fun t => (t.accValue .d, t.i3)) (0xFF80005678#40, 5#16) = true := by decide +kernel
theorem test_stx_full : shows 0xF400380A#32 { withA 0#16 0#16 0x041F#16 with i6 := 0x100#16 }
    (fun t => (t.xWord 0x100#16, t.i6)) (0x041F#16, 0x100#16) = true := by decide +kernel
theorem test_sty_full : shows 0xF400A840#32 { withA 0xAAAA#16 0#16 0#16 with i2 := 0x300#16 }
    (fun t => (t.yWord 0x300#16, t.i2)) (0xAAAA#16, 0x301#16) = true := by decide +kernel
theorem test_two_short : shows 0xF401C457#32 { withXY 0 0 0x20 0x7FFF with accC := .ofValue 0xCAFE#40, i4 := 0x10#16, i5 := 0x20#16 }
    (fun t => (t.xWord 0x10#16, t.accValue .d)) (0xCAFE#16, 0x007FFF0000#40) = true := by decide +kernel
theorem test_mvx_parallel : shows 0xF4004408#32 { State.reset with i0 := 0x4321#16 } (·.lr0) 0x4321#16 = true := by decide +kernel
theorem test_mvx_null_and_nop : shows 0xF4004313#32 { State.reset with i3 := 0x4321#16 } (·.i3) 0#16 = true ∧
    shows 0xF4004913#32 { State.reset with i3 := 0x4321#16 } (·.i3) 0x4321#16 = true := by decide +kernel
theorem test_ldx_long :
    shows 0xF4005080#32 { State.reset with i2 := 0x10#16, i3 := 2#16, xlmem := Memory.write16 [] 0x20010 0xBEEF#16 }
      (·.r16 .a0) 0xBEEF#16 = true := by decide +kernel
theorem test_stx_long :
    shows 0xF4005280#32 { withA 0xBEEF#16 0#16 0#16 with i2 := 0x10#16, i3 := 2#16 }
      (fun t => (t.longWord 0x20010#32, t.i2, t.i3)) (0xBEEF#16, 0x10#16, 2#16) = true := by decide +kernel
theorem test_ldi :
    shows 0xF4005404#32 { State.reset with i0 := 0x4100#16, imem := Memory.write32 [] 0x4100 0x12345678#32 }
      (fun t => (t.r16 .a1, t.r16 .a0, t.i0)) (0x1234#16, 0x5678#16, 0x4101#16) = true := by decide +kernel
theorem test_sti :
    shows 0xF4005661#32 { withAB 0#40 0x00DEADBEEF#40 0#32 0#16 with i1 := 0x4100#16, i0 := 1#16 }
      (fun t => (t.iWord 0x4100#32, t.i1)) (0xDEADBEEF#32, 0x4101#16) = true := by decide +kernel
theorem test_double_full_reads_first :
    shows 0x30702840#32 { withXY 0x100 0x5555 0 0 with accA := .ofValue 0xAAAA#40, i0 := 0x100#16, i2 := 0x300#16 }
      (fun t => (t.r16 .a0, t.yWord 0x300#16, t.i0, t.i2)) (0x5555#16, 0xAAAA#16, 0x107#16, 0x301#16) = true := by decide +kernel
theorem test_double_full_conflict : faults 0x30100041#32 State.reset .writeConflict = true := by decide +kernel
theorem test_double_register_exchange :
    shows 0x2B400010#32 { withA 0x1111#16 0#16 0#16 with i0 := 0x2222#16 } (fun t => (t.r16 .a0, t.i0)) (0x2222#16, 0x1111#16)
      = true := by decide +kernel
theorem test_double_register_units : faults 0x2B001042#32 State.reset .doubleMoveUnits = true := by decide +kernel
theorem test_move_of_mr0_wins :
    shows 0x4014180A#32 { withXY 0x100 0xFFFF 0 0 with accA := ⟨0#8, 1#16, 0xFFFF#16⟩, i6 := 0x100#16 }
      (fun t => (t.r16 .b0, t.mr0)) (0#16, 0x079F#16) = true := by decide +kernel

/-! ### spec/95 sections 2.5 and 2.6 -/

theorem test_jcc_taken : shows 0x281000D5#32 (State.reset.setMr0 0x0080#16) (fun t => (t.pending, t.mr0, t.pc))
    (some ⟨none, 0x4003#16⟩, 0#16, 0x4001#16) = true := by decide +kernel
theorem test_jcc_not_taken : shows 0x281000D5#32 (State.reset.setMr0 0x0090#16) (fun t => (t.pending, t.mr0))
    (none, 0x0010#16) = true := by decide +kernel
theorem test_callcc_saves_when_not_taken : shows 0x29104001#32 State.reset (fun t => (t.pending, t.lr0)) (none, 0x4002#16) = true := by
  decide +kernel
theorem test_jrcc : shows 0x20000000#32 { State.reset with lr0 := 0x4012#16 } (·.pending) (some ⟨none, 0x4012#16⟩) = true := by
  decide +kernel
theorem test_jrcc_far : shows 0x208000C0#32 { State.reset with lr0 := 0x4012#16, i3 := 7#16 } (·.pending)
    (some ⟨some 7#16, 0x4012#16⟩) = true := by decide +kernel
theorem test_reti : shows 0x21000000#32 { State.reset.setMr0 0x0080#16 with lr1 := 0x4567#16 } (fun t => (t.pending, t.mr0))
    (some ⟨none, 0x4567#16⟩, 0#16) = true := by decide +kernel
theorem test_reti_far : shows 0x21800040#32 { State.reset with lr1 := 0x4567#16, i1 := 3#16 } (·.pending)
    (some ⟨some 3#16, 0x4567#16⟩) = true := by decide +kernel
theorem test_jmpi : shows 0x2A10400E#32 { State.reset.setMr0 0x0080#16 with i6 := 0x1000#16 }
    (fun t => (t.pending, t.cancel, t.i6, t.mr0)) (some ⟨some 0#16, 0x4100#16⟩, true, 0x1001#16, 0x0080#16) = true := by decide +kernel
theorem test_loop : shows 0x24100100#32 (withA 3#16 0#16 0#16) (fun t => (t.ls, t.le, t.lc)) (0x4002#16, 0x4004#16, 3#16) = true := by
  decide +kernel
theorem test_loop_end : shows 0x64980024#32 { State.reset with ls := 0x3FFF#16, le := 0x4000#16, lc := 2#16 }
    (fun t => (t.pc, t.lc, t.r16 .c0)) (0x3FFF#16, 1#16, 1#16) = true := by decide +kernel
theorem test_halt : shows 0x2D000000#32 State.reset (fun t => (t.halted, t.pc)) (true, 0x4001#16) = true := by decide +kernel
theorem test_halt_busy : shows 0x2D000000#32 { State.reset with irqIdle := false } (fun t => (t.halted, t.pc)) (false, 0x4001#16)
    = true := by decide +kernel
theorem test_interrupt_entry :
    shows 0#32 { State.reset.setMr0 0x000C#16 with pc := 0x1234#16, ipr0 := 3#16, irqEnabled := true, irqInputs := [⟨0, 31⟩] }
      (fun t => (t.lr1, t.ipr1, t.ipr0, t.mr0, t.pc, t.irqEnabled)) (0x1234#16, 3#16, 0#16, 0x008C#16, 0x003F#16, false) = true := by
  decide +kernel
/-- R299: a request waits before LE with L = 0, and is entered there with L = 1. -/
theorem test_interrupt_at_loop_end :
    shows 0xF4000024#32 { State.reset with le := 0x4000#16, lc := 1#16, irqEnabled := true, irqInputs := [⟨0, 1⟩] }
      (fun t => (t.pc, t.lc)) (0#16, 0#16) = true ∧
    shows 0xF4000024#32 { State.reset.setMr0 0x80#16 with le := 0x4000#16, irqEnabled := true, irqInputs := [⟨0, 1⟩] }
      (·.pc) 0x21#16 = true := by decide +kernel
/-- R280: the request that ended HALT is entered before the fourth instruction, also where that stands at LE. -/
theorem test_interrupt_after_halt_at_loop_end :
    shows 0xF4000024#32 { State.reset with le := 0x4000#16, lc := 1#16, irqEnabled := true, irqIdle := false,
                                           irqInputs := [⟨0, 1⟩], haltWake := true }
      (fun t => (t.pc, t.lr1, t.haltWake)) (0x21#16, 0x4000#16, false) = true ∧
    shows 0xF4000024#32 { State.reset with halted := true, irqEnabled := true, irqInputs := [⟨0, 1⟩] }
      (fun t => (t.haltWake, t.haltSkid)) (true, 3) = true := by decide +kernel
/-- R339: a cancelled instruction at LE, LE moved two before. -/
theorem test_cancelled_at_loop_end :
    (match step { State.reset with
        pc := 0xFFFF#16, pending := some ⟨some 0#16, 0x100#16⟩, cancel := true, prev1 := some (histOfNop State.reset),
        prev2 := some { histOfNop State.reset with writes := [(.regMove, .le)] } } with
      | .next _ => none
      | .fault f => some f
      | .refused _ => none) = some .loopRegisterLoadNearLoopEnd := by decide +kernel
/-- R68, U22: the kinds of a map. -/
theorem test_memory_map :
    let m : MemMap := ⟨[⟨0, 16, .rom⟩, ⟨16, 16, .device⟩], [], [⟨0x4000, 1, .rom⟩], [], 0xC000#16⟩
    faults 0xF4003000#32 { State.reset with map := m, i4 := 15#16 } .romStore = true ∧
    faults 0xF4003000#32 { State.reset with map := m, i4 := 16#16 } .deviceStore = true ∧
    faults 0xF4001000#32 { State.reset with map := m, i4 := 32#16 } .unmappedAccess = true ∧
    faults 0xF4009000#32 { State.reset with map := m } .unmappedAccess = true ∧
    shows 0xF4003000#32 { State.reset with map := m, i4 := 0xC000#16 } (·.irqEnabled) true = true ∧
    shows 0xF4001000#32 { State.reset with map := m, xmem := [(31, 7#8)], i4 := 15#16 } (·.r16 .a0) 7#16 = true ∧
    faults 0xF4000024#32 { State.reset with map := { m with i := [] } } .unmappedAccess = true := by decide +kernel
theorem test_fetch_word_runs :
    decodeTableWord 32 0x0000014A = some (.ldc 5#16 .mr0) ∧
    (match step (State.reset.withFetchWord 32 0x0000014A) with
      | .next t => t.mr0
      | .fault _ => 0#16
      | .refused _ => 0#16) = 5#16 := by decide +kernel

/-! ## Witnesses: states and operands that meet the hypotheses of each obligation -/

/-- `exec` answers a next state. -/
def completes (i : Instr) (s : State) : Bool :=
  match exec i s with
  | .next _ => true
  | .fault _ => false
  | .refused _ => false

/-- `step` answers a next state. -/
def stepsOn (s : State) : Bool :=
  match step s with
  | .next _ => true
  | .fault _ => false
  | .refused _ => false

theorem exists_of_completes {i : Instr} {s : State} (h : completes i s = true) : ∃ t, exec i s = .next t := by
  unfold completes at h
  split at h
  · exact ⟨_, by assumption⟩
  · cases h
  · cases h

theorem exists_of_stepsOn {s : State} (h : stepsOn s = true) : ∃ t, step s = .next t := by
  unfold stepsOn at h
  split at h
  · exact ⟨_, by assumption⟩
  · cases h
  · cases h

/-- `RunsSlot` as a check. -/
def inSlot (s : State) : Bool := decide (s.resetIn ≠ some 0) && !s.halted && !(s.presented.isSome && s.acceptsIrq)

theorem runsSlot_of_inSlot {s : State} (h : inSlot s = true) : RunsSlot s := by
  simp only [inSlot, Bool.and_eq_true, decide_eq_true_eq, Bool.not_eq_true', Bool.and_eq_false_iff] at h
  refine ⟨h.1.1, h.1.2, fun hp => ?_⟩
  rcases h.2 with h2 | h2
  · rw [hp] at h2; cases h2
  · exact h2

/-- `Executes` as a check. -/
def inExecute (s : State) : Bool := inSlot s && !s.cancel && !s.fetchesRecentSti && s.fetchFault.isNone

theorem executes_of_inExecute {s : State} (h : inExecute s = true) : Executes s := by
  simp only [inExecute, Bool.and_eq_true, Bool.not_eq_true', Option.isNone_iff_eq_none] at h
  exact ⟨runsSlot_of_inSlot h.1.1.1, h.1.1.2, h.1.2, h.2⟩

/-- A history entry with nothing in it. -/
def noHist : Hist := histOfNop State.reset

/-- A legal state in the middle of a JMPI, with memory, countdowns and history. -/
def busy : State :=
  { State.reset.setMr0 0x079F#16 with
    pending := some ⟨some 0#16, 0x100#16⟩
    cancel := true
    loopSkip := 2
    haltSkid := 3
    prev1 := some noHist
    stiRecent := [(0#32, 3), (1#32, 1)]
    xmem := [(0, 1#8), (131071, 2#8)]
    imem := [(65536, 0xF4#8), (65539, 0x24#8)] }

theorem busy_legal : Legal busy where
  xmem := by decide
  ymem := by decide
  imem := by decide
  xlmem := by decide
  mr0 := by decide
  loopSkip := by decide
  haltSkid := by decide
  haltWake := by decide
  cancel := fun _ => ⟨_, rfl⟩
  halted := by decide
  sti := by decide
  history := by decide

/-- `DecodeOfEncodeGivesInstructionBack`. -/
theorem witness_decodeOfEncode :
    (Instr.loop (.idx .i7) 0xFFFF#16).WellFormed ∧ (Instr.doubleFull none (some ⟨true, .i7, 15#4, .ipr1⟩)).WellFormed ∧
    (Instr.lsl .null (.r16 .d1) (.ibus true .i7 15#4 .d)).WellFormed ∧ (Instr.ldxLong .i0 .nop).WellFormed := by decide

/-- `ListedWordsAreReserved`: a word for each clause of its hypothesis, in its order. -/
theorem witness_listedWords :
    (0xEFFFFFFF#32 : Word32).extractLsb' 28 4 = 14#4 ∧
    (0x23000000#32 : Word32).extractLsb' 24 8 = 0x23#8 ∧ (0x2F000000#32 : Word32).extractLsb' 24 8 = 0x2F#8 ∧
    (0xF8000000#32 : Word32).extractLsb' 24 8 = 0xF8#8 ∧ (0xFD000000#32 : Word32).extractLsb' 24 8 = 0xFD#8 ∧
    (0x4B020024#32 : Word32).extractLsb' 24 8 = 0x4B#8 ∧ (0xD0A00024#32 : Word32).extractLsb' 20 4 = 10#4 ∧
    (0xA0B00024#32 : Word32).extractLsb' 20 4 = 11#4 ∧
    ((0x6CD80024#32 : Word32).extractLsb' 24 4 = 12#4 ∧ (0x6CD80024#32 : Word32).getLsbD 17 = false) ∧
    ((0xACD00024#32 : Word32).extractLsb' 24 4 = 12#4 ∧ (0xACD00024#32 : Word32).getLsbD 17 = false) ∧
    ((0x56200024#32 : Word32).extractLsb' 28 4 = 5#4 ∧ (0x56200024#32 : Word32).getLsbD 17 = false) ∧
    ((0xF0A00024#32 : Word32).extractLsb' 20 8 = 0x0A#8) ∧
    ((0xF3B00024#32 : Word32).extractLsb' 20 8 = 0x3B#8 ∧ (0xF3B00024#32 : Word32).getLsbD 17 = false) ∧
    ((0xF6C00024#32 : Word32).extractLsb' 24 4 = 6#4 ∧ (0xF6C00024#32 : Word32).getLsbD 17 = false) ∧
    (0x1000000B#32 : Word32).extractLsb' 0 6 = 11#6 ∧ (0x2400001F#32 : Word32).extractLsb' 0 5 = 31#5 ∧
    (0x28000006#32 : Word32).extractLsb' 0 6 = 6#6 ∧ (0x2A000010#32 : Word32).extractLsb' 3 2 = 2#2 ∧
    (0x2B600000#32 : Word32).extractLsb' 18 6 = 24#6 ∧ (0x300F4000#32 : Word32).extractLsb' 14 6 = 61#6 ∧
    (0x4000C000#32 : Word32).extractLsb' 14 3 = 3#3 ∧
    ((0xF4005800#32 : Word32).extractLsb' 14 3 = 1#3 ∧ (0xF4005800#32 : Word32).extractLsb' 10 4 = 6#4) ∧
    ((0xF4008018#32 : Word32).extractLsb' 14 3 = 2#3 ∧ (0xF4008018#32 : Word32).extractLsb' 0 6 = 24#6) ∧
    ((0xF40042C0#32 : Word32).extractLsb' 12 5 = 4#5 ∧ (0xF40042C0#32 : Word32).extractLsb' 6 6 = 11#6) ∧
    ((0xF400500B#32 : Word32).extractLsb' 10 7 = 20#7 ∧ (0xF400500B#32 : Word32).extractLsb' 0 6 = 11#6) := by decide

theorem witness_resetInput : busy.systemReset.halted = false ∧ ({ busy with resetIn := some 0 } : State).resetIn = some 0 := by
  decide

theorem witness_everyStepKeepsLegal : ∃ s t, Legal s ∧ step s = .next t := by
  obtain ⟨t, ht⟩ := exists_of_stepsOn (s := busy) (by decide +kernel)
  exact ⟨busy, t, busy_legal, ht⟩

/-- `StepRunsTheDecodedInstruction`: an instruction that answers a next state, and one that faults. -/
theorem witness_stepRuns :
    (∃ s i rest s', decodeBytes (s.imem.bytes32 s.fetchAddr.toNat) = some (i, rest) ∧ i.WellFormed ∧ Executes s ∧
      hazardBefore i s = none ∧ haltRefused i s = none ∧ exec i s.begin = .next s' ∧ s.pending = none ∧
      hazardAfter i s s' = none) ∧
    (∃ s i rest, decodeBytes (s.imem.bytes32 s.fetchAddr.toNat) = some (i, rest) ∧ i.WellFormed ∧ Executes s ∧
      hazardBefore i s = none ∧ haltRefused i s = none ∧ exec i s.begin = .fault .satRndOperand) := by
  refine ⟨⟨at4000 0x0000014A#32 State.reset, .ldc 5#16 .mr0, [], _, by decide +kernel, by decide,
    executes_of_inExecute (by decide +kernel), by decide +kernel, by decide +kernel, rfl,
    by decide, by decide +kernel⟩,
    ⟨at4000 0xF6020024#32 State.reset, .sat (.r16 .a0) .a .none, [], by decide +kernel, by decide,
    executes_of_inExecute (by decide +kernel), by decide +kernel, by decide +kernel, rfl⟩⟩

/-- `ModeBitsChangeOnlyByWriteOrReset`: a step of an instruction that does not write MR0 whole. -/
theorem witness_modeBits :
    stepsOn (at4000 0x40140024#32 State.reset) = true ∧ State.reset.resetIn ≠ some 0 ∧
    writesRegister (explicitWrites (at4000 0x40140024#32 State.reset).fetch) .mr0 = false := by decide +kernel

theorem witness_onlyMultiplier : shows 0xFE100024#32 (withA 1#16 1#16 0#16) (fun t => decide (t.p ≠ 0#32)) true = true := by
  decide +kernel

/-- `LoopFlagChangesOnlyAsListed`: entry sets L, a write of MR0 sets it, a jump clears it. -/
theorem witness_loopFlag :
    shows 0#32 { State.reset with irqEnabled := true, irqInputs := [⟨0, 0⟩] } State.fL true = true ∧
    shows 0x0000200A#32 State.reset State.fL true = true ∧
    shows 0x28104000#32 (State.reset.setMr0 0x0080#16) State.fL false = true := by decide +kernel

/-- `PageChangesOnlyAsListed`: a far transfer, an interrupt entry, LDC. -/
theorem witness_page :
    shows 0x00000024#32 { State.reset with pending := some ⟨some 7#16, 0#16⟩ } (·.ipr0) 7#16 = true ∧
    shows 0#32 { State.reset with ipr0 := 3#16, irqEnabled := true, irqInputs := [⟨0, 0⟩] } (·.ipr0) 0#16 = true ∧
    shows 0x0000007E#32 State.reset (·.ipr0) 1#16 = true := by decide +kernel

theorem witness_interruptEntry : ∃ (s : State) (vec : BitVec 5), s.resetIn ≠ some 0 ∧ s.halted = false ∧
    s.presented = some vec ∧ s.pending = none ∧ s.cancel = false ∧ s.loopSkip = 0 ∧ s.haltSkid = 0 ∧
    (∀ h, s.prev1 = some h → h.delayOwner = false) ∧
    (s.haltWake = false → s.fL = false → s.pc ≠ s.le ∧ s.pc ≠ s.le - 1#16) :=
  ⟨{ State.reset with irqEnabled := true, irqInputs := [⟨0, 31⟩], prev1 := some noHist }, 31, by decide, rfl, by decide,
    rfl, rfl, rfl, rfl, fun h hh => by injection hh with hh; rw [← hh]; rfl, by decide⟩

/-- `InterruptWaitsForAnOpenBoundary`: each of its conditions, with a request presented; the loop end one at LE and at
LE - 1. -/
theorem witness_interruptWaits :
    stepsOn { State.reset with irqEnabled := true, irqInputs := [⟨0, 1⟩], pending := some ⟨none, 0#16⟩ } = true ∧
    stepsOn { State.reset with irqEnabled := true, irqInputs := [⟨0, 1⟩], pending := some ⟨some 0#16, 0#16⟩, cancel := true }
      = true ∧
    stepsOn { State.reset with irqEnabled := true, irqInputs := [⟨0, 1⟩], loopSkip := 1 } = true ∧
    stepsOn { State.reset with irqEnabled := true, irqInputs := [⟨0, 1⟩], haltSkid := 1 } = true ∧
    shows 0xF4000024#32 { State.reset with irqEnabled := true, irqInputs := [⟨0, 1⟩], prev1 := some { noHist with delayOwner := true } }
      (fun t => (t.pc, t.irqIdle)) (0x4001#16, false) = true ∧
    shows 0xF4000024#32 { State.reset with irqEnabled := true, irqInputs := [⟨0, 1⟩], le := 0x4000#16 } (·.pc) 0x4001#16 = true ∧
    shows 0xF4000024#32 { State.reset with irqEnabled := true, irqInputs := [⟨0, 1⟩], le := 0x4001#16 } (·.pc) 0x4001#16 = true := by
  decide +kernel

theorem witness_haltedCore :
    ({ State.reset with halted := true } : State).presented = none ∧
    ({ State.reset with halted := true, irqEnabled := true, irqInputs := [⟨0, 1⟩] } : State).presented.isSome = true := by decide

/-- `LoopSetsTheLoopRegisters`: the last code with five bits is I7's, and LS may be the count. -/
theorem witness_loop : (Instr.loop (.idx .i7) 0#16).WellFormed ∧ (Instr.loop .ls 0#16).WellFormed ∧ (Instr.loop .null 0#16).WellFormed := by
  decide

theorem witness_delayedTransfer :
    stepsOn { State.reset with pending := some ⟨none, 0x1234#16⟩ } = true ∧
    stepsOn { State.reset with pending := some ⟨some 1#16, 0x1234#16⟩ } = true := by decide +kernel

/-- The states of `LoopEndTest` and of `LoopEndComparisonSuppressedOnce`. -/
def atLe (lc : Word) (skip : Nat) : State :=
  at4000 0xF4000024#32 { State.reset with ls := 0x3000#16, le := 0x4000#16, lc := lc, loopSkip := skip }

theorem witness_loopEndTest :
    (∃ s s' t, Executes s ∧ s.pending = none ∧ exec s.fetch s.begin = .next s' ∧ step s = .next t ∧
      s.loopSkip ≠ 1 ∧ s'.fL = false ∧ s.pc = s'.le ∧ s'.lc ≠ 0#16) ∧
    (∃ s s' t, Executes s ∧ s.pending = none ∧ exec s.fetch s.begin = .next s' ∧ step s = .next t ∧
      s.loopSkip ≠ 1 ∧ s'.fL = false ∧ s.pc = s'.le ∧ s'.lc = 0#16) ∧
    (∃ s s' t, Executes s ∧ s.pending = none ∧ exec s.fetch s.begin = .next s' ∧ step s = .next t ∧ s.loopSkip = 1) ∧
    (∃ s s' t, Executes s ∧ s.pending = none ∧ exec s.fetch s.begin = .next s' ∧ step s = .next t ∧ s'.fL = true) ∧
    (∃ s s' t, Executes s ∧ s.pending = none ∧ exec s.fetch s.begin = .next s' ∧ step s = .next t ∧ s.pc ≠ s'.le) := by
  have key : ∀ s : State, s.fetch = .nop → inExecute s = true → s.pending = none → stepsOn s = true →
      ∃ t, Executes s ∧ s.pending = none ∧ exec s.fetch s.begin = .next s.begin ∧ step s = .next t :=
    fun s hf hs hp hn => by
    obtain ⟨t, ht⟩ := exists_of_stepsOn hn
    exact ⟨t, executes_of_inExecute hs, hp, by rw [hf]; rfl, ht⟩
  have at_le : ∀ lc skip, (atLe lc skip).pc = (atLe lc skip).begin.le := fun _ _ => rfl
  refine ⟨?_, ?_, ?_, ?_, ?_⟩
  · obtain ⟨t, h1, h2, h3, h4⟩ := key (atLe 1#16 2) (by decide +kernel) (by decide +kernel) rfl (by decide +kernel)
    exact ⟨_, _, t, h1, h2, h3, h4, by decide, by decide, at_le _ _, by decide⟩
  · obtain ⟨t, h1, h2, h3, h4⟩ := key (atLe 0#16 0) (by decide +kernel) (by decide +kernel) rfl (by decide +kernel)
    exact ⟨_, _, t, h1, h2, h3, h4, by decide, by decide, at_le _ _, by decide⟩
  · obtain ⟨t, h1, h2, h3, h4⟩ := key (atLe 1#16 1) (by decide +kernel) (by decide +kernel) rfl (by decide +kernel)
    exact ⟨_, _, t, h1, h2, h3, h4, rfl⟩
  · obtain ⟨t, h1, h2, h3, h4⟩ := key ((atLe 1#16 0).setL true) (by decide +kernel) (by decide +kernel) rfl
      (by decide +kernel)
    exact ⟨_, _, t, h1, h2, h3, h4, by decide⟩
  · obtain ⟨t, h1, h2, h3, h4⟩ := key (at4000 0xF4000024#32 State.reset) (by decide +kernel) (by decide +kernel) rfl
      (by decide +kernel)
    exact ⟨_, _, t, h1, h2, h3, h4, by decide⟩

theorem witness_loopEndSuppressed :
    (isLoopReg .lc = true ∧ (.memory, .lc) ∈ explicitWrites (.ldxFull .i0 0#4 .lc) ∧
      (∀ store n r', parOf (.ldxFull .i0 0#4 .lc) ≠ .longX store n r') ∧
      completes (.ldxFull .i0 0#4 .lc) State.reset = true) ∧
    ((∀ r, (.memory, r) ∈ explicitWrites (.ldc 5#16 .lc) → isLoopReg r = false) ∧
      completes (.ldc 5#16 .lc) State.reset = true) ∧
    inSlot (atLe 1#16 1) = true ∧ (atLe 1#16 1).loopSkip = 1 ∧ stepsOn (atLe 1#16 1) = true := by
  exact ⟨⟨rfl, by decide, fun _ _ _ => by simp [parOf], by decide +kernel⟩,
    ⟨by simp [explicitWrites], by decide +kernel⟩, by decide +kernel, rfl, by decide +kernel⟩

theorem witness_cancelled : RunsSlot busy ∧ busy.cancel = true ∧ busy.pending = some ⟨some 0#16, 0x100#16⟩ ∧
    hazardAfter .nopTotal busy busy.begin = none :=
  ⟨runsSlot_of_inSlot (by decide +kernel), rfl, rfl, by decide +kernel⟩

/-- Nothing is mapped. -/
def noMap : MemMap := ⟨[], [], [], [], 0xC000#16⟩

/-- The reset state with these maps. -/
def onMap (m : MemMap) : State := { State.reset with map := m }

/-- The slot after a JMPI stands at LE, and the instruction before the JMPI moved LE. -/
def cancelledAtLe : State :=
  { State.reset with
    pc := 0xFFFF#16
    pending := some ⟨some 0#16, 0x100#16⟩
    cancel := true
    prev1 := some noHist
    prev2 := some { noHist with writes := [(.regMove, .le)] } }

/-- A slot about to execute a word after the given history. -/
def after (h : Hist) (w : Word32) : State := { at4000 w State.reset with prev1 := some h }

/-- `RestrictedSequencesFault`: each of its conditions, the loop end one at LE and at LE - 1, those that need no history
right after reset. -/
theorem witness_restrictedSequences :
    (inSlot { at4000 0x28104000#32 State.reset with stiRecent := [(0x4000#32, 1)] } = true ∧
      ({ at4000 0x28104000#32 State.reset with stiRecent := [(0x4000#32, 1)] } : State).fetchesRecentSti = true) ∧
    (inSlot (onMap { noMap with x := [⟨0, 65536, .ram⟩] }) = true ∧
      kindAt noMap.i (onMap { noMap with x := [⟨0, 65536, .ram⟩] }).fetchAddr.toNat = none) ∧
    kindAt [⟨0x4000, 1, .device⟩] State.reset.fetchAddr.toNat = some .device ∧
    (inExecute { at4000 0x28104000#32 State.reset with haltSkid := 3 } = true ∧
      changesFlow (at4000 0x28104000#32 State.reset).fetch = true) ∧
    (inExecute { at4000 0x28104000#32 State.reset with le := 0x4000#16 } = true ∧
      inExecute { at4000 0x28104000#32 State.reset with le := 0x4001#16 } = true ∧ (0x4000#16 : Word) = 0x4001#16 - 1#16) ∧
    (inExecute { at4000 0x2A10400E#32 State.reset with irqEnabled := true } = true ∧
      isJmpi (at4000 0x2A10400E#32 State.reset).fetch = true ∧ isReti (at4000 0x21000000#32 State.reset).fetch = true) ∧
    (inExecute (after { noHist with delayOwner := true } 0x28104000#32) = true ∧
      changesFlow (after { noHist with delayOwner := true } 0x28104000#32).fetch = true) ∧
    (.z ∈ condUses (condOf (after { noHist with flags := [.z] } 0x28104005#32).fetch)) ∧
    (.s ∈ condUses (condOf (after { noHist with flags := [.s] } 0x28104008#32).fetch)) ∧
    changesFlow (after { noHist with ldiSti := true } 0x28104000#32).fetch = true ∧
    (.lr0 ∈ targetRegs (after { noHist with writes := [(.memory, .lr0)] } 0x20000000#32).fetch) ∧
    (.idx .i1 ∈ targetRegs (after { noHist with writes := [(.regMove, .idx .i1)] } 0x21800040#32).fetch) := by decide +kernel

/-- `LoopEndRestrictionsFault`: LE held before, after, or in the history; what the instruction there does; the history;
a write of MR0 with another L; and a cancelled slot. -/
theorem witness_loopEndRestrictions :
    (inExecute { at4000 0x000000CD#32 State.reset with le := 0x4000#16 } = true ∧
      haltRefused (.ldc 3#16 .lc) { at4000 0x000000CD#32 State.reset with le := 0x4000#16 } = none ∧
      (at4000 0x000000CD#32 State.reset).fetch = .ldc 3#16 .lc ∧
      (explicitWrites (.ldc 3#16 .lc)).any (fun w => isLoopReg w.2) = true) ∧
    (inExecute { after { noHist with leBefore := 0x4000#16, writes := [(.memory, .le)] } 0xF4000024#32 with le := 1#16 } = true ∧
      (Hist.writes { noHist with writes := [(.memory, .le)] }).any (fun w => isLoopReg w.2) = true) ∧
    loopWrittenBy (Hist.writes { noHist with writes := [(.regMove, .ls)] }) .regMove = true ∧
    (readsLc (.stxFull .i6 0#4 .lc) = true ∧ (at4000 0xF400380D#32 State.reset).fetch = .stxFull .i6 0#4 .lc ∧
      completes (.stxFull .i6 0#4 .lc) State.reset = true) ∧
    (inExecute { at4000 0x0000200A#32 State.reset with le := 0x4000#16 } = true ∧
      (at4000 0x0000200A#32 State.reset).fetch = .ldc 0x80#16 .mr0 ∧
      writesRegister (explicitWrites (.ldc 0x80#16 .mr0)) .mr0 = true ∧ (State.reset.setMr0 0x80#16).fL = true) ∧
    (inSlot cancelledAtLe = true ∧ cancelledAtLe.cancel = true ∧ cancelledAtLe.pc = cancelledAtLe.le ∧
      cancelledAtLe.fL = false) := by
  decide +kernel

/-- `FullLoads`: an index register may load itself where it is not modified. -/
theorem witness_fullLoads :
    (MoveReg.idx .i0 ≠ .nop ∧ NoConflict [] (.full .x ⟨false, .i0, 0#4, .idx .i0⟩)) ∧
    (MoveReg.r16 .a1 ≠ .nop ∧ NoConflict [] (.full .x ⟨false, .i0, 8#4, .r16 .a1⟩)) ∧
    (State.reset.idx .i0 ≠ State.reset.map.intGlobEn ∧ MapAllows false (kindAt State.reset.map.x 0) ∧
      MapAllows false (kindAt [⟨0, 65536, .rom⟩] 65535) ∧ MapAllows false (kindAt [⟨0, 65536, .device⟩] 0)) ∧
    (onMap noMap).idx .i0 ≠ noMap.intGlobEn := by unfold NoConflict MapAllows; decide

/-- `FullStores`: at INT_GLOB_EN, and in RAM. -/
theorem witness_fullStores : Legal busy ∧ MoveReg.mr0 ≠ .nop ∧
    ({ busy with i0 := 0xC000#16 } : State).idx .i0 = busy.map.intGlobEn ∧ busy.idx .i0 ≠ busy.map.intGlobEn ∧
    MapAllows true (kindAt busy.map.x (busy.idx .i0).toNat) ∧ MapAllows true (kindAt busy.map.y 65535) :=
  ⟨busy_legal, by decide, by decide, by decide, by unfold MapAllows; decide, by unfold MapAllows; decide⟩

theorem witness_twoShort :
    Legal busy ∧ CanRun [] (.short ⟨false, .i0, true, .b1⟩ ⟨false, .i2, true, .b0⟩) busy ∧
    CanRun [] (.short ⟨true, .i0, false, .b1⟩ ⟨true, .i0, true, .b1⟩) busy :=
  ⟨busy_legal, by unfold CanRun NoConflict; decide⟩

theorem witness_doubleFull :
    Legal busy ∧ (Instr.doubleFull (some ⟨false, .i6, 15#4, .r16 .a0⟩) (some ⟨true, .i5, 1#4, .lc⟩)).WellFormed ∧
    (allWrites (.doubleFull (some ⟨false, .i6, 15#4, .r16 .a0⟩) (some ⟨true, .i5, 1#4, .lc⟩))).Nodup ∧
    instrAccess (.doubleFull (some ⟨false, .i6, 15#4, .r16 .a0⟩) (some ⟨true, .i5, 1#4, .lc⟩)) busy = none ∧
    (allWrites (.doubleFull (some ⟨true, .i6, 0#4, .mr0⟩) none)).Nodup ∧
    instrAccess (.doubleFull (some ⟨true, .i6, 0#4, .mr0⟩) none) busy = none := ⟨busy_legal, by decide⟩

/-- `DoubleRegisterMoves`: a move inside one unit, and two moves that cross. -/
theorem witness_doubleRegister :
    crossesNoUnit (.mvxMvyDouble (.r16 .a0) (.r16 .a1) .null .null) = true ∧
    crossesNoUnit (.mvxMvyDouble (.idx .i0) (.r16 .a0) (.r16 .a0) (.idx .i0)) = false ∧
    (allWrites (.mvxMvyDouble (.idx .i0) (.r16 .a0) (.r16 .a0) (.idx .i0))).Nodup := by decide

/-- `LongAddressMoves`: beyond 2^16 the space is the long one, whatever the open parameter; below, the parameter alone says
that it is the 16-bit one. -/
theorem witness_longAddress :
    Legal { busy with i1 := 1#16 } ∧ longIsX (State.longAddr { busy with i1 := 1#16 } .i0) = false ∧
    (Legal busy ∧ (Config.longXSharesX = true → longIsX (busy.longAddr .i0) = true)) ∧
    MapAllows true (kindAt busy.map.xl 65536) ∧ MapAllows true (kindAt busy.map.x 0) :=
  ⟨{ busy_legal with halted := by decide }, by decide, ⟨busy_legal, fun h => by rw [longIsX, if_pos (by decide), h]⟩,
    by unfold MapAllows; decide⟩

theorem witness_instructionMemory : Legal busy ∧ MapAllows true (kindAt busy.map.i (busy.ipr0 ++ busy.idx .i0).toNat) ∧
    MapAllows false (kindAt busy.map.i (busy.ipr0 ++ busy.idx .i0).toNat) := ⟨busy_legal, by unfold MapAllows; decide⟩

/-- The hypotheses of the modulo part of `PairModificationLinearAndModulo`. -/
abbrev ModuloHypotheses (a m : Word) (k len : Nat) (delta : Int) : Prop :=
  ((m.toNat / 8192 = 4 ∧ len = m.toNat % 8192 + 1 ∧ delta = 1) ∨
    (m.toNat / 8192 = 5 ∧ len = m.toNat % 8192 + 1 ∧ delta = -1) ∨
    (m.toNat / 8192 = 1 ∧ len = m.toNat % 64 + 1 ∧ -64 ≤ delta ∧ delta < 64 ∧
      (delta - (m.toNat / 64 % 128 : Nat)) % 128 = 0) ∨
    (m.toNat / 16384 = 1 ∧ len = 64 * (m.toNat % 64 + 1) ∧ -128 ≤ delta ∧ delta < 128 ∧
      (delta - (m.toNat / 64 % 256 : Nat)) % 256 = 0)) ∧
  len ≤ 2 ^ k ∧ (∀ j < k, 2 ^ j < len) ∧ a.toNat % 2 ^ k < len ∧ -(len : Int) ≤ delta ∧ delta ≤ len

/-- Each mode at the ends of its ranges: longest and shortest buffer, least and greatest step, step as long as the
buffer. -/
theorem witness_modulo :
    ModuloHypotheses 0xFFFF#16 0x9FFF#16 13 8192 1 ∧ ModuloHypotheses 0x0123#16 0xA000#16 0 1 (-1) ∧
    ModuloHypotheses 0x0100#16 0x303F#16 6 64 (-64) ∧ ModuloHypotheses 0x0100#16 0x2FFE#16 6 63 63 ∧
    ModuloHypotheses 0x0100#16 0x5FC1#16 7 128 127 ∧ ModuloHypotheses 0x017F#16 0x6001#16 7 128 (-128) := by
  refine ⟨?_, ?_, ?_, ?_, ?_, ?_⟩ <;> refine ⟨?_, ?_, ?_, ?_, ?_, ?_⟩ <;> decide

theorem witness_linear :
    (0x1FFF#16 : Word).toInt.natAbs ≤ 8191 ∧ (0xE001#16 : Word).toInt.natAbs ≤ 8191 ∧ (0xE000#16 : Word).toInt = -8192 := by decide

theorem witness_bitReversed :
    ((0xC001#16 : Word).toNat / 8192 = 6 ∧ 2 ^ 0 ≤ (0xC001#16 : Word).toNat % 8192 ∧ (0xC001#16 : Word).toNat % 8192 < 2 ^ 1) ∧
    ((0xDFFF#16 : Word).toNat / 8192 = 6 ∧ 2 ^ 12 ≤ (0xDFFF#16 : Word).toNat % 8192 ∧
      (0xDFFF#16 : Word).toNat % 8192 < 2 ^ 13) := by decide

theorem witness_parallelMove :
    parOf (.add (.r16 .a0) (.r16 .a1) (.r16 .b0) (.full .x ⟨false, .i0, 1#4, .r16 .a0⟩)) ≠ .none ∧
    completes (.add (.r16 .a0) (.r16 .a1) (.r16 .b0) (.full .x ⟨false, .i0, 1#4, .r16 .a0⟩)) State.reset = true := by
  decide +kernel

/-- `MoveOfMr0WinsOverFlags`: one instruction for each kind of move. -/
theorem witness_moveOfMr0 :
    completes (.add (.r16 .a0) (.r16 .a1) (.r16 .b0) (.full .y ⟨false, .i0, 1#4, .mr0⟩)) State.reset = true ∧
    completes (.add (.r16 .a0) (.r16 .a1) (.r16 .b0) (.full .x ⟨false, .i0, 1#4, .mr0⟩)) State.reset = true ∧
    (State.reset.xDevice (State.reset.idx .i0) = false ∧ State.reset.yDevice (State.reset.idx .i0) = false) ∧
    completes (.add (.r16 .a0) (.r16 .a1) (.r16 .b0) (.longX false .i0 .mr0)) { State.reset with i1 := 1#16 } = true ∧
    (longIsX (State.longAddr { State.reset with i1 := 1#16 } .i0) = false ∧ State.reset.longDevice 0x10000#32 = false) ∧
    completes (.add (.r16 .a0) (.r16 .a1) (.r16 .b0) (.reg .lr0 .mr0)) State.reset = true := by decide +kernel

theorem witness_writeConflict :
    (Instr.add (.r16 .a0) (.r16 .a1) (.r16 .b1) (.full .x ⟨false, .i0, 0#4, .guard .b⟩)).WellFormed ∧
    ¬(allWrites (.add (.r16 .a0) (.r16 .a1) (.r16 .b1) (.full .x ⟨false, .i0, 0#4, .guard .b⟩))).Nodup := by decide

theorem witness_completes :
    (Instr.sat .p .c (.short ⟨true, .i0, true, .b1⟩ ⟨false, .i2, true, .b0⟩)).WellFormed ∧
    narrowSatRnd (.sat .p .c (.short ⟨true, .i0, true, .b1⟩ ⟨false, .i2, true, .b0⟩)) = false ∧
    crossesNoUnit (.sat .p .c (.short ⟨true, .i0, true, .b1⟩ ⟨false, .i2, true, .b0⟩)) = false ∧
    (allWrites (.sat .p .c (.short ⟨true, .i0, true, .b1⟩ ⟨false, .i2, true, .b0⟩))).Nodup ∧
    instrAccess (.sat .p .c (.short ⟨true, .i0, true, .b1⟩ ⟨false, .i2, true, .b0⟩)) State.reset = none ∧
    instrAccess (.sat .p .c (.short ⟨true, .i0, true, .b1⟩ ⟨false, .i2, true, .b0⟩)) (onMap noMap) = some .unmappedAccess := by
  decide

/-- A long-address move completes whatever the open parameter, where both maps allow it. -/
theorem witness_longCompletes :
    completes (.ldxLong .i0 (.r16 .a0)) State.reset = true ∧ completes (.stxLong .i0 (.r16 .a0)) State.reset = true := by
  decide +kernel

/-- The operand hypotheses of the statements about the ALU and the multiplier: no conflict, at either width. -/
theorem witness_alu :
    CanRun (writesOf (.r16 .b1)) (.short ⟨false, .i0, true, .a0⟩ ⟨false, .i2, true, .b0⟩) State.reset ∧
    CanRun (writesOfAcc .a) (.short ⟨false, .i0, true, .b1⟩ ⟨false, .i2, true, .b0⟩) State.reset ∧
    CanRun [] (.full .y ⟨false, .i3, 7#4, .guard .d⟩) State.reset ∧
    (AluSrc.r16 .a0).is40 = false ∧ (AluSrc.acc .a).is40 = true ∧ AluSrc.p.is40 = true ∧ AluSrc.acc .a ≠ .p := by
  unfold CanRun NoConflict; decide

/-- `ShiftInRange` and `ShiftOutOfRangeGoesOn` at the ends of their ranges: the counts a register can hold. -/
theorem witness_shiftCounts : ∀ n ∈ [-32768, -40, -39, -16, -15, 0, 15, 16, 39, 40, 32767],
    (State.val16 { State.reset with accB := ⟨0#8, 0#16, BitVec.ofInt 16 n⟩ } (.r16 .b0)).toInt = n := by decide

/-- A word placed with `withFetchWord` runs on the next step (log entry 34). -/
theorem witness_fetchWord : stepsOn (State.reset.withFetchWord 32 0x2D000000) = true := by decide +kernel

end Sys2Proof.Tests
end

/-! PROOF. The family 10_state: reset. -/

namespace Sys2Proof.Machine

/-- Settles O6: each register of the table of R46 by its name, the rest by the definition of `State.reset`. -/
theorem resetLeavesTheSpecifiedState : Obligations.ResetLeavesTheSpecifiedState := by
  have regs : ∀ r : Reg16, State.reset.r16 r = 0x0000#16 := fun r => by cases r <;> rfl
  have guards : ∀ q : AccName, (State.reset.acc q).guard = 0x00#8 := fun q => by cases q <;> rfl
  have indices : ∀ n : IReg, State.reset.idx n = 0x0000#16 := fun n => by cases n <;> rfl
  exact ⟨regs, guards, rfl, indices, rfl, rfl, rfl, rfl, rfl, rfl, rfl, rfl, rfl, rfl, rfl, rfl, rfl, rfl, rfl, rfl⟩

/-- Settles O8: the memories are empty, and every other clause is about a component that reset clears. -/
theorem resetIsLegal : Obligations.ResetIsLegal :=
  have ⟨hx, hy, hi, hl⟩ := Memory.reset_wf
  { xmem := hx, ymem := hy, imem := hi, xlmem := hl
    mr0 := rfl
    loopSkip := Nat.zero_le 2
    haltSkid := Nat.zero_le 3
    haltWake := nofun
    cancel := nofun
    halted := nofun
    sti := nofun
    history := fun _ => rfl }

end Sys2Proof.Machine

/-! PROOF. What a move reads and writes, and that its effect does not depend on the arithmetic part of its instruction
(spec/10_state.md section 6). -/

namespace Sys2Proof.Machine

/-! ## What a write of a register reads as -/

theorem State.writeReg_memory (s : State) (m : Bool) (r : MoveReg) (v : Word) :
    sameMemory s (s.writeReg m r v) := by
  cases r <;> cases m <;>
    simp [sameMemory, State.writeReg, State.writeGuard, State.writeR16, skipAfter]

@[simp] theorem State.writeReg_loopSkip (s : State) (m : Bool) (r : MoveReg) (v : Word) :
    (s.writeReg m r v).loopSkip = if m && isLoopReg r then 2 else s.loopSkip := by
  cases r <;> cases m <;>
    simp [isLoopReg, State.writeReg, State.writeGuard, State.writeR16, skipAfter]

@[simp] theorem State.writeReg_pageOpen (s : State) (m : Bool) (r : MoveReg) (v : Word) :
    (s.writeReg m r v).pageOpen = if r = .ipr0 then true else s.pageOpen := by
  cases r <;> cases m <;> simp [State.writeReg, State.writeGuard, State.writeR16, skipAfter]

@[simp] theorem State.writeReg_irqEnabled (s : State) (m : Bool) (r : MoveReg) (v : Word) :
    (s.writeReg m r v).irqEnabled = s.irqEnabled := (s.writeReg_keeps m r v).enable (by simp)

@[simp] theorem State.writeReg_stiRecent (s : State) (m : Bool) (r : MoveReg) (v : Word) :
    (s.writeReg m r v).stiRecent = s.stiRecent := (s.writeReg_keeps m r v).record rfl

theorem mr0_mem_writesOf {r : MoveReg} (h : .mr0 ∈ writesOf r) : r = .mr0 := by
  cases r with
  | r16 r => cases r <;> simp [writesOf, regHigh] at h
  | mr0 => rfl
  | _ => simp [writesOf] at h

/-- A move's write of MR0 keeps the bits that `modeMask` implements (D9); every other write leaves MR0 alone. -/
theorem State.writeReg_mr0 (s : State) (m : Bool) (r : MoveReg) (v : Word) :
    (s.writeReg m r v).mr0 = if r = .mr0 then v &&& modeMask else s.mr0 := by
  split
  · rename_i h; subst h; exact State.setMr0_mr0 s _
  · rename_i h; exact (s.writeReg_keeps m r v).regs .mr0 fun hm => h (mr0_mem_writesOf hm)

theorem mem_writesOf_r16 {r : Reg16} {r' : MoveReg} (h : r' ∈ writesOf (.r16 r)) :
    r' = .r16 r ∨ regHigh r = true ∧ r' = .guard (regAcc r) := by
  cases hh : regHigh r <;> simpa [writesOf, hh] using h

theorem mem_writesOf_other {r r' : MoveReg} (hr : ∀ q, r ≠ .r16 q) (h : r' ∈ writesOf r) : r' = r := by
  cases r with
  | r16 q => exact absurd rfl (hr q)
  | null => cases h
  | nop => cases h
  | _ => exact List.mem_singleton.mp h

/-- What a write leaves in the registers it changes is a matter of the value written only (R221). -/
theorem State.writeReg_peek (s t : State) (m : Bool) (r : MoveReg) (v : Word) :
    ∀ r' ∈ writesOf r, (t.writeReg m r v).peek r' = (s.writeReg m r v).peek r' := by
  intro r' hr
  by_cases h16 : ∃ q, r = .r16 q
  · obtain ⟨q, rfl⟩ := h16
    rcases mem_writesOf_r16 hr with rfl | ⟨hh, rfl⟩
    · exact (t.r16_writeR16_self q v).trans (s.r16_writeR16_self q v).symm
    · simp only [State.peek, State.writeReg, State.guard_writeR16 _ q v hh]
  · have hr' := mem_writesOf_other (fun q hq => h16 ⟨q, hq⟩) hr
    subst hr'
    cases r' with
    | r16 q => exact absurd ⟨q, rfl⟩ h16
    | idx n => simp [State.peek, State.writeReg]
    | guard q => simp [State.peek, State.writeReg, State.writeGuard]
    | mr0 => exact (State.setMr0_mr0 t _).trans (State.setMr0_mr0 s _).symm
    | _ => cases m <;> rfl

/-! ## States that a move treats alike -/

/-- What the effect of a move on a state can depend on: the registers listed, which moves have written already, the
memories and what else moves touch, and the maps, which decide what a store enables. -/
structure MoveAgree (written : List MoveReg) (s t : State) : Prop where
  regs : ∀ r ∈ written, t.peek r = s.peek r
  memory : sameMemory s t
  effects : sameMoveEffects s t
  map : t.map = s.map

/-- Two states that agree still do after the same write of registers. -/
theorem MoveAgree.extend {w w' : List MoveReg} {x y i l x' y' i' l' : List Nat} {s t s₁ t₁ : State}
    (h : MoveAgree w s t) (hs : Keeps w' x y i l s s₁) (ht : Keeps w' x' y' i' l' t t₁)
    (hr : ∀ r ∈ w', t₁.peek r = s₁.peek r) (hm : sameMemory s₁ t₁) (he : sameMoveEffects s₁ t₁) :
    MoveAgree (w ++ w') s₁ t₁ where
  regs := fun r hmem => by
    by_cases hw : r ∈ w'
    · exact hr r hw
    · have hold := h.regs r ((List.mem_append.mp hmem).resolve_right hw)
      rw [ht.regs r hw, hs.regs r hw, hold]
  memory := hm
  effects := he
  map := by rw [ht.sequencer.map, hs.sequencer.map, h.map]

theorem MoveAgree.writeReg {w : List MoveReg} {s t : State} (h : MoveAgree w s t) (m : Bool) (r : MoveReg)
    (v : Word) : MoveAgree (w ++ writesOf r) (s.writeReg m r v) (t.writeReg m r v) := by
  obtain ⟨hx, hy, hi, hl⟩ := h.memory
  obtain ⟨hskip, hen, hsti, hpage⟩ := h.effects
  obtain ⟨sx, sy, si, sl⟩ := s.writeReg_memory m r v
  obtain ⟨tx, ty, ti, tl⟩ := t.writeReg_memory m r v
  refine h.extend (s.writeReg_keeps m r v) (t.writeReg_keeps m r v) (State.writeReg_peek s t m r v) ?_ ?_
  · exact ⟨by rw [tx, sx, hx], by rw [ty, sy, hy], by rw [ti, si, hi], by rw [tl, sl, hl]⟩
  · simp [sameMoveEffects, hskip, hen, hsti, hpage]

theorem MoveAgree.setIdx {w : List MoveReg} {s t : State} (h : MoveAgree w s t) (n : IReg) (v : Word) :
    MoveAgree (w ++ [.idx n]) (s.setIdx n v) (t.setIdx n v) := by
  refine h.extend (s.setIdx_keeps n v) (t.setIdx_keeps n v) ?_ ?_ ?_
  · simp [State.peek]
  · simpa [sameMemory] using h.memory
  · simpa [sameMoveEffects] using h.effects

theorem MoveAgree.setAcc {w : List MoveReg} {s t : State} (h : MoveAgree w s t) (q : AccName) (v : AccReg) :
    MoveAgree (w ++ writesOfAcc q) (s.setAcc q v) (t.setAcc q v) := by
  refine h.extend (s.setAcc_keeps q v) (t.setAcc_keeps q v) ?_ ?_ ?_
  · intro r hr
    simp only [writesOfAcc, List.mem_cons, List.not_mem_nil, or_false] at hr
    rcases hr with rfl | rfl | rfl
    · cases q <;> rfl
    · cases q <;> rfl
    · simp [State.peek]
  · simpa [sameMemory] using h.memory
  · simpa [sameMoveEffects] using h.effects

theorem MoveAgree.busWrite {w : List MoveReg} {s t : State} (h : MoveAgree w s t) (b : Bus) (a v : Word) :
    MoveAgree (w ++ []) (s.busWrite b a v) (t.busWrite b a v) := by
  obtain ⟨hx, hy, hi, hl⟩ := h.memory
  obtain ⟨hskip, hen, hsti, hpage⟩ := h.effects
  cases b with
  | x =>
    refine h.extend (s.xWrite_keeps a v) (t.xWrite_keeps a v) nofun ?_ ?_
    · simp [sameMemory, State.busWrite, State.xWrite_xmem, hx, hy, hi, hl]
    · simp [sameMoveEffects, State.busWrite, State.xWrite_irqEnabled, hskip, hen, hsti, hpage, h.map]
  | y =>
    refine h.extend (s.yWrite_keeps a v) (t.yWrite_keeps a v) nofun ?_ h.effects
    exact ⟨hx, congrArg (·.write16 a.toNat v) hy, hi, hl⟩

theorem MoveAgree.xWriteL {w : List MoveReg} {s t : State} (h : MoveAgree w s t) (a : Word32) (v : Word) :
    MoveAgree (w ++ []) (s.xWriteL a v) (t.xWriteL a v) := by
  obtain ⟨hx, hy, hi, hl⟩ := h.memory
  rw [State.xWriteL_eq, State.xWriteL_eq]
  split
  · exact h.busWrite .x _ v
  · exact h.extend (s.xlmem_keeps a v) (t.xlmem_keeps a v) nofun
      ⟨hx, hy, hi, congrArg (·.write16 a.toNat v) hl⟩ h.effects

theorem MoveAgree.iWrite {w : List MoveReg} {s t : State} (h : MoveAgree w s t) (a v : Word32) :
    MoveAgree (w ++ []) (s.iWrite a v) (t.iWrite a v) := by
  obtain ⟨hx, hy, hi, hl⟩ := h.memory
  obtain ⟨hskip, hen, hsti, hpage⟩ := h.effects
  exact h.extend (s.iWrite_keeps a v) (t.iWrite_keeps a v) nofun ⟨hx, hy, congrArg (·.write32 a.toNat v) hi, hl⟩
    ⟨hskip, hen, congrArg ((a, 3) :: ·) hsti, hpage⟩

theorem MoveAgree.postMod {w : List MoveReg} {s t : State} (h : MoveAgree w s t) (u : Config.FreeUse) (n : IReg)
    (p : BitVec 4) (old : State) : MoveAgree (w ++ writesOfPost n p) (postMod u n p old s) (postMod u n p old t) := by
  unfold Machine.postMod writesOfPost
  split
  · simpa using h
  · exact h.setIdx n _

theorem MoveAgree.applyFull {w : List MoveReg} {s t : State} (h : MoveAgree w s t) (m : FullMove) (b : Bus)
    (old : State) : MoveAgree (w ++ writesOfFull m) (applyFull m b old s) (applyFull m b old t) := by
  unfold Machine.applyFull writesOfFull
  split
  · simpa using h
  · rw [← List.append_assoc]
    refine MoveAgree.postMod ?_ _ m.n m.p old
    split
    · exact h.busWrite b _ _
    · exact h.writeReg true m.reg _

theorem MoveAgree.moveReg {w : List MoveReg} {s t : State} (h : MoveAgree w s t) (u : Config.FreeUse)
    (src dst : MoveReg) (old : State) :
    MoveAgree (w ++ writesOfMove src dst) (moveReg u src dst old s) (moveReg u src dst old t) := by
  unfold Machine.moveReg writesOfMove
  split
  · simpa using h
  · exact h.writeReg false dst _

theorem MoveAgree.moveLong {w : List MoveReg} {s t : State} (h : MoveAgree w s t) (store : Bool) (n : IReg)
    (r : MoveReg) (old : State) :
    MoveAgree (w ++ if store then [] else writesOf r) (moveLong store n r old s) (moveLong store n r old t) := by
  unfold Machine.moveLong
  by_cases hr : r = .nop
  · subst hr; simpa [writesOf] using h
  · rw [if_neg hr, if_neg hr]
    split
    · exact h.xWriteL _ _
    · exact h.writeReg true r _

theorem MoveAgree.moveIbus {w : List MoveReg} {s t : State} (h : MoveAgree w s t) (store : Bool) (n : IReg)
    (p : BitVec 4) (q : AccName) (old : State) :
    MoveAgree (w ++ ((if store then [] else writesOfAcc q) ++ writesOfPost n p)) (moveIbus store n p q old s)
      (moveIbus store n p q old t) := by
  unfold Machine.moveIbus
  rw [← List.append_assoc]
  refine MoveAgree.postMod ?_ _ n p old
  split
  · exact h.iWrite _ _
  · exact h.setAcc q _

/-- A parallel move has the same effect on two states that agree on what moves touch. -/
theorem MoveAgree.applyPar {s t : State} (h : MoveAgree [] s t) (pm : ParMove) (old : State) :
    MoveAgree (writesOfPar pm) (applyPar pm old s) (applyPar pm old t) := by
  cases pm with
  | none => exact h
  | full bus m => exact h.applyFull m bus old
  | short x y => exact (h.applyFull x.toFull .x old).applyFull y.toFull .y old
  | reg src dst => exact h.moveReg .busX src dst old
  | longX store n r => exact h.moveLong store n r old
  | ibus store n p q => exact h.moveIbus store n p q old

/-! ## The move of an instruction -/

/-- What has no parallel move field has no parallel move. -/
theorem parOf_of_not_hasParField {i : Instr} (h : hasParField i = false) : parOf i = .none := by
  cases i with
  | ldc | jrcc | jrccIn | reti | retiIn | resp | loop | jcc | callcc | jmpi | mvxMvyDouble | halt | doubleFull | j
  | call | jr | nopTotal | reserved => rfl
  | _ => cases h

/-- An instruction with a parallel move that answers a next state is its arithmetic part with the move applied. -/
theorem exec_parStep {i : Instr} {s t : State} (hm : parOf i ≠ .none) (h : exec i s = .next t) :
    IsParStep (ownWrites i) (parOf i) (setsFlags i) (multiplies i) s t := by
  cases hp : hasParField i with
  | true => exact exec_par_inv hp h
  | false => exact absurd (parOf_of_not_hasParField hp) hm

/-- A move that stands alone does nothing before its move (R122, R176). -/
theorem exec_ofNopMove (pm : ParMove) (s : State) : exec (ofNopMove pm) s = finish [] pm s s := by
  cases pm with
  | full bus m => obtain ⟨store, n, p, r⟩ := m; cases bus <;> cases store <;> rfl
  | longX store n r => cases store <;> rfl
  | ibus store n p q => cases store <;> rfl
  | _ => rfl

theorem CanRun.alone {ws : List MoveReg} {pm : ParMove} {s : State} (h : CanRun ws pm s) : CanRun [] pm s :=
  ⟨(List.nodup_append.mp h.1).2.1, h.2⟩

theorem ArithPart.moveAgree {ws : List MoveReg} {s s' : State} (h : ArithPart ws s s') : MoveAgree [] s s' :=
  ⟨nofun, h.memory, h.moves, h.keeps.sequencer.map⟩

/-- Settles O41: the arithmetic part leaves everything that the effect of the move depends on. -/
theorem parallelMoveReadsTheStateBefore : Obligations.ParallelMoveReadsTheStateBefore := by
  intro i s t hm h
  obtain ⟨s', harith, hrun, rfl, -, -⟩ := exec_parStep hm h
  have hagree := harith.moveAgree.applyPar (parOf i) s
  refine ⟨applyPar (parOf i) s s, ?_, hagree.regs, hagree.memory, hagree.effects⟩
  rw [exec_ofNopMove, finish_next hrun.alone]

@[simp] theorem postMod_mr0 (u : Config.FreeUse) (n : IReg) (p : BitVec 4) (old s : State) :
    (postMod u n p old s).mr0 = s.mr0 := by
  unfold postMod; split <;> simp

/-- A full load of MR0 (R229): the word on the bus, at the implemented bits (D9). -/
theorem applyFull_load_mr0 (n : IReg) (p : BitVec 4) (b : Bus) (old s : State) :
    (applyFull ⟨false, n, p, .mr0⟩ b old s).mr0 = old.busRead b (old.idx n) &&& modeMask := by
  simp [applyFull, State.writeReg_mr0]

/-- A long load of MR0 (R236). -/
theorem moveLong_load_mr0 (n : IReg) (old s : State) :
    (moveLong false n .mr0 old s).mr0 = old.xReadL (old.longAddr n) &&& modeMask := by
  simp [moveLong, State.writeReg_mr0]

/-- A register move to MR0 (R233). -/
theorem moveReg_mr0 {src : MoveReg} (h : src ≠ .nop) (u : Config.FreeUse) (old s : State) :
    (moveReg u src .mr0 old s).mr0 = old.readReg u src &&& modeMask := by
  simp [moveReg, State.writeReg_mr0, h]

/-- A word read on a bus keeps its low byte under a byte of anything above it. -/
theorem extract_low_append (a b : Byte) : (a ++ b : Word).extractLsb' 0 8 = b := by
  rw [extract_append_low a b (by omega), extract_all]

/-- What `readReg` gives is a read of the register as the statements mean it (R220). -/
theorem State.readReg_isReadOf (s : State) (u : Config.FreeUse) (r : MoveReg) : IsReadOf r (s.readReg u r) s := by
  cases r with
  | guard q => exact extract_low_append _ _
  | _ => rfl

/-- Settles O42: the move is applied after the flags are written, and no post-modification touches MR0. -/
theorem moveOfMr0WinsOverFlags : Obligations.MoveOfMr0WinsOverFlags := by
  intro i s t h
  have moved : ∀ pm, parOf i = pm → pm ≠ .none → ∃ s', t = applyPar pm s s' := by
    rintro pm rfl hne
    obtain ⟨s', -, -, ht, -⟩ := exec_parStep hne h
    exact ⟨s', ht⟩
  refine ⟨fun n p hpar hdev => ?_, fun n p hpar hdev => ?_, fun n hpar hx hdev => ?_, fun src hpar hsrc => ?_⟩
  · obtain ⟨s', rfl⟩ := moved _ hpar nofun
    have hread : s.busRead .y (s.idx n) = s.yWord (s.idx n) := by simp [State.busRead, State.yRead, hdev]
    rw [← hread]
    exact applyFull_load_mr0 n p .y s s'
  · obtain ⟨s', rfl⟩ := moved _ hpar nofun
    have hread : s.busRead .x (s.idx n) = s.xWord (s.idx n) := by simp [State.busRead, State.xRead, hdev]
    rw [← hread]
    exact applyFull_load_mr0 n p .x s s'
  · obtain ⟨s', rfl⟩ := moved _ hpar nofun
    have hread : s.xReadL (s.longAddr n) = s.longWord (s.longAddr n) := by simp [State.xReadL, hx, hdev]
    rw [← hread]
    exact moveLong_load_mr0 n s s'
  · obtain ⟨s', rfl⟩ := moved _ hpar nofun
    exact ⟨s.readReg .busX src, s.readReg_isReadOf .busX src, moveReg_mr0 hsrc .busX s s'⟩

/-! ## Write conflicts -/

/-- A two-operand instruction of a fitting width faults where it writes a register twice. -/
theorem aluTwo_conflict {op1 op2 : AluSrc} {dst : AluDst} {pm : ParMove} (hwf : wfTwo op1 op2 dst pm = true)
    (h : ¬NoConflict (writesOfDst dst) pm) (f16 : Word → Word → AluOut 16) (f40 : Word40 → Word40 → AluOut 40)
    (s : State) : aluTwo f16 f40 op1 op2 dst pm s = .fault .writeConflict := by
  simp only [wfTwo, resultFits, Bool.and_eq_true, bne_iff_ne, beq_iff_eq] at hwf
  obtain ⟨⟨hp, hfit⟩, -⟩ := hwf
  unfold aluTwo
  rw [if_neg hp, ← hfit]
  cases dst with
  | r16 r => exact finish_conflict h s _
  | acc q => exact finish_conflict h s _

/-- The same of a single-operand instruction. -/
theorem aluOne_conflict {op2 : AluSrc} {dst : AluDst} {pm : ParMove} (hwf : wfOne op2 dst pm = true)
    (h : ¬NoConflict (writesOfDst dst) pm) (f16 : Word → AluOut 16) (f40 : Word40 → AluOut 40)
    (s : State) : aluOne f16 f40 op2 dst pm s = .fault .writeConflict := by
  simp only [wfOne, resultFits, Bool.and_eq_true, beq_iff_eq] at hwf
  obtain ⟨hfit, -⟩ := hwf
  unfold aluOne
  rw [← hfit]
  cases dst with
  | r16 r => exact finish_conflict h s _
  | acc q => exact finish_conflict h s _

/-- The same of ASHL, whose width is that of operand 1 (R153). -/
theorem execAshl_conflict {op1 op2 : AluSrc} {dst : AluDst} {pm : ParMove} (hwf : wfShift op1 op2 dst pm = true)
    (h : ¬NoConflict (writesOfDst dst) pm) (s : State) : execAshl op1 op2 dst pm s = .fault .writeConflict := by
  simp only [wfShift, resultFits, Bool.and_eq_true, bne_iff_ne, beq_iff_eq, Bool.not_eq_true'] at hwf
  obtain ⟨⟨⟨hp, hn⟩, hfit⟩, -⟩ := hwf
  unfold execAshl
  rw [if_neg hp, if_neg (by simp [hn]), ← hfit]
  cases dst with
  | r16 r => exact finish_conflict h s _
  | acc q => exact finish_conflict h s _

theorem wfTwo_ones_of_wfOne {op2 : AluSrc} {dst : AluDst} {pm : ParMove} (h : wfOne op2 dst pm = true) :
    wfTwo .ones op2 dst pm = true := by
  simpa [wfOne, wfTwo, AluSrc.is40] using h

theorem wfTwo_null_p {q : AccName} {pm : ParMove} (h : pm.wf = true) : wfTwo .null .p (.acc q) pm = true := by
  simp [wfTwo, resultFits, AluSrc.is40, AluDst.is40, h]

theorem twice_of_not_nodup {l : List MoveReg} (h : ¬l.Nodup) : twice l = true := by
  rw [← Bool.not_eq_false, twice_iff]; exact h

/-- Settles O43, form by form: `finish` finds the conflict in an instruction with a parallel move field, the double
forms look for it themselves, and no other instruction names a register twice. -/
theorem twoWritesOfOneRegisterFault : Obligations.TwoWritesOfOneRegisterFault := by
  intro i s hwf hsat hunit h
  cases i with
  | add op1 op2 dst pm | addc op1 op2 dst pm | lsl op dst pm | lslc op dst pm =>
    simp only [exec, execAdd, execAddc, execLsl, execLslc, addForm]
    exact aluTwo_conflict hwf h _ _ s
  | sub op1 op2 dst pm | subc op1 op2 dst pm =>
    simp only [exec, execSub, execSubc, subForm]
    exact aluTwo_conflict hwf h _ _ s
  | and op1 op2 dst pm | or op1 op2 dst pm | xor op1 op2 dst pm =>
    simp only [exec, execAnd, execOr, execXor, xorForm]
    exact aluTwo_conflict hwf h _ _ s
  | not op2 dst pm =>
    simp only [exec, execNot, xorForm]
    exact aluTwo_conflict (wfTwo_ones_of_wfOne hwf) h _ _ s
  | addNullP q pm =>
    simp only [exec, execAddNullP, addForm]
    exact aluTwo_conflict (wfTwo_null_p hwf) h _ _ s
  | ashl op1 op2 dst pm => exact execAshl_conflict hwf h s
  | abs op2 dst pm | asr op2 dst pm | lsr op2 dst pm | lsrc op2 dst pm =>
    simp only [exec, execAbs, execAsr, execLsr, execLsrc]
    exact aluOne_conflict hwf h _ _ s
  | sat op2 dst pm | rnd op2 dst pm =>
    have h40 : op2.is40 = true := by simpa [narrowSatRnd] using hsat
    simp only [exec, execSat, execRnd, h40, if_true]
    exact finish_conflict h s _
  | exp op2 dst pm | mac op1 mode op2 q pm | msu op1 mode op2 q pm | mul mode op1 op2 pm | mulss op1 op2 pm
  | mulsu op1 op2 pm | mulus op1 op2 pm | muluu op1 op2 pm | ldxFull n p r | stxFull n p r | ldyFull n p r
  | styFull n p r | twoShort x y | mvxParallel src dst | ldxLong n r | stxLong n r | ldi n p q | sti n p q =>
    exact finish_conflict h s _
  | doubleFull x y =>
    have ht : twice (writesOfHalf x ++ writesOfHalf y) = true :=
      twice_of_not_nodup (by simpa [allWrites, ownWrites, parOf, writesOfPar] using h)
    simp only [exec, execDoubleFull, ht, if_true]
  | mvxMvyDouble xs xd ys yd =>
    have ht : twice (writesOfMove xs xd ++ writesOfMove ys yd) = true :=
      twice_of_not_nodup (by simpa [allWrites, ownWrites, parOf, writesOfPar] using h)
    have hu : (withinUnit xs xd || withinUnit ys yd) = false := hunit
    simp [exec, execMvxMvyDouble, hu, ht]
  | _ => exact absurd List.nodup_nil h

end Sys2Proof.Machine

/-! PROOF. The bits of MR0 above the flags: which instructions and which steps change them (spec/10_state.md section
4). -/

namespace Sys2Proof.Machine

/-! ## Which instructions write MR0 -/

theorem writesRegister_append (a b : List (WriteKind × MoveReg)) (r : MoveReg) :
    writesRegister (a ++ b) r = (writesRegister a r || writesRegister b r) := List.any_append

theorem mr0_not_mem_writesOfPost (n : IReg) (p : BitVec 4) : .mr0 ∉ writesOfPost n p := by
  unfold writesOfPost; split <;> simp

/-- A move writes MR0 only where it names it: no high half, post-modification or accumulator has it beside it. -/
theorem mr0_written_by_full {m : FullMove} (h : .mr0 ∈ writesOfFull m) :
    writesRegister (loadsOfFull m) .mr0 = true := by
  obtain ⟨store, n, p, r⟩ := m
  have hpost := mr0_not_mem_writesOfPost n p
  by_cases hr : r = .nop
  · simp [writesOfFull, hr] at h
  · cases store
    · simp only [writesOfFull, hr, if_false, Bool.false_eq_true, List.mem_append, hpost, or_false] at h
      simp [loadsOfFull, writesRegister, mr0_mem_writesOf h]
    · simp [writesOfFull, hr, hpost] at h

theorem mr0_written_by_move {src dst : MoveReg} (h : .mr0 ∈ writesOfMove src dst) :
    writesRegister (movesOfPar (.reg src dst)) .mr0 = true := by
  unfold writesOfMove at h
  split at h
  · cases h
  · rename_i hn
    rw [movesOfPar, if_neg hn, mr0_mem_writesOf h]
    rfl

theorem mr0_written_by_half {m : Option FullMove} (h : .mr0 ∈ writesOfHalf m) :
    writesRegister (movesOfHalf m) .mr0 = true := by
  cases m with
  | none => cases h
  | some m => exact mr0_written_by_full h

theorem mr0_written_by_par {pm : ParMove} (h : .mr0 ∈ writesOfPar pm) :
    writesRegister (movesOfPar pm) .mr0 = true := by
  cases pm with
  | none => cases h
  | full bus m => exact mr0_written_by_full h
  | short x y =>
    rw [movesOfPar, writesRegister_append, Bool.or_eq_true]
    exact (List.mem_append.mp h).imp mr0_written_by_full mr0_written_by_full
  | reg src dst => exact mr0_written_by_move h
  | longX store n r =>
    cases store
    · have hr : r = .mr0 := mr0_mem_writesOf h
      subst hr; rfl
    · cases h
  | ibus store n p q =>
    cases store <;> simp [writesOfPar, writesOfAcc, mr0_not_mem_writesOfPost] at h

/-- What an instruction with a parallel move field writes explicitly is what its move writes (R333). -/
theorem explicitWrites_of_hasParField {i : Instr} (h : hasParField i = true) :
    explicitWrites i = movesOfPar (parOf i) := by
  cases i with
  | ldc | jrcc | jrccIn | reti | retiIn | resp | loop | jcc | callcc | jmpi | mvxMvyDouble | halt | doubleFull | j
  | call | jr | nopTotal | reserved => cases h
  | _ => rfl

/-! ## The bits of MR0 after an instruction -/

theorem sameModeBits.of_mr0 {s t : State} (h : t.mr0 = s.mr0) : sameModeBits s t := fun j _ => by rw [h]

theorem sameModeBits.trans {s t u : State} (h : sameModeBits s t) (h' : sameModeBits t u) : sameModeBits s u :=
  fun j hj => (h' j hj).trans (h j hj)

@[simp] theorem jumpIf_mr0 (s : State) (cond : Cond) (g : Target) : (jumpIf s cond g).mr0 = (s.setL false).mr0 := by
  rw [jumpIf_eq]; rfl

@[simp] theorem callIf_mr0 (s : State) (cond : Cond) (a : Word) : (callIf s cond a).mr0 = (s.setL false).mr0 := by
  rw [callIf_eq]; rfl

@[simp] theorem jmpiIndex_mr0 (mm : JmpiMod) (n : IReg) (s : State) : (jmpiIndex mm n s).mr0 = s.mr0 := by
  cases mm <;> simp [jmpiIndex]

/-- The bits of MR0 above the flags after an instruction that does not name MR0: as before, but that a change of flow
with a delay slot clears L (R32, R33, R266). -/
theorem exec_modeBits {i : Instr} {s t : State} (h : exec i s = .next t)
    (hw : writesRegister (explicitWrites i) .mr0 = false) :
    sameModeBits s t ∨ ownsDelaySlot i = true ∧ sameModeBits (s.setL false) t := by
  have unnamed : ∀ {r : List MoveReg}, (.mr0 ∈ r → writesRegister (explicitWrites i) .mr0 = true) → .mr0 ∉ r :=
    fun hr hm => Bool.false_ne_true (hw.symm.trans (hr hm))
  cases hp : hasParField i with
  | true =>
    obtain ⟨s', harith, -, rfl, -, -⟩ := exec_par_inv hp h
    have hmove : .mr0 ∉ writesOfPar (parOf i) :=
      unnamed fun hm => by rw [explicitWrites_of_hasParField hp]; exact mr0_written_by_par hm
    exact .inl (harith.modes.trans (.of_mr0 (mr0_applyPar s s' hmove)))
  | false =>
    cases exec_other_inv hp h with
    | ldc c r =>
      have hr : r ≠ .mr0 := by rintro rfl; cases hw
      exact .inl (.of_mr0 (by rw [State.writeReg_mr0, if_neg hr]))
    | nopTotal => exact .inl fun _ _ => rfl
    | resp op1 op2 p hp => exact .inl fun _ _ => rfl
    | halt => exact .inl (.of_mr0 (by split <;> rfl))
    | jmpi addr mm n => exact .inl (.of_mr0 (jmpiIndex_mr0 mm n s))
    | doubleFull x y hc ha =>
      have hx : .mr0 ∉ writesOfHalf x := unnamed fun hm => by
        simp [explicitWrites, writesRegister_append, mr0_written_by_half hm]
      have hy : .mr0 ∉ writesOfHalf y := unnamed fun hm => by
        simp [explicitWrites, writesRegister_append, mr0_written_by_half hm]
      exact .inl (.of_mr0 (((applyHalf_keeps y .y s _).regs .mr0 hy).trans ((applyHalf_keeps x .x s s).regs .mr0 hx)))
    | mvxMvyDouble xs xd ys yd hx hy hc =>
      have hx : .mr0 ∉ writesOfMove xs xd := unnamed fun hm => by
        simp [explicitWrites, writesRegister_append, mr0_written_by_move hm]
      have hy : .mr0 ∉ writesOfMove ys yd := unnamed fun hm => by
        simp [explicitWrites, writesRegister_append, mr0_written_by_move hm]
      exact .inl (.of_mr0 (((moveReg_keeps .busY ys yd s _).regs .mr0 hy).trans
        ((moveReg_keeps .busX xs xd s s).regs .mr0 hx)))
    | jcc addr cond | jrcc cond | jrccIn n cond => exact .inr ⟨rfl, .of_mr0 (jumpIf_mr0 s cond _)⟩
    | j addr | jr => exact .inr ⟨rfl, .of_mr0 (jumpIf_mr0 s .always _)⟩
    | callcc addr cond => exact .inr ⟨rfl, .of_mr0 (callIf_mr0 s cond addr)⟩
    | call addr => exact .inr ⟨rfl, .of_mr0 (callIf_mr0 s .always addr)⟩
    | reti => exact .inr ⟨rfl, fun _ _ => rfl⟩
    | retiIn n => exact .inr ⟨rfl, fun _ _ => rfl⟩
    | loop cnt e hc => exact .inr ⟨rfl, fun _ _ => rfl⟩

/-! ## What a step adds to an instruction -/

/-- The end of a slot writes the history and the next address, and with it LC, IPR0 and the open page. -/
theorem retire_eq (h : Hist) (s s' : State) : ∃ pc lc page isOpen, retire h s s' =
    { s' with prev1 := some h, prev2 := s.prev1, pc := pc, lc := lc, ipr0 := page, pageOpen := isOpen } := by
  unfold retire
  rcases advance_cases s.pending s.loopSkip s.pc { s' with prev1 := some h, prev2 := s.prev1 } with
    ⟨⟨page, addr⟩, -, ht⟩ | ⟨-, -, -, -, -, ht⟩ | ⟨-, -, ht⟩
  · rw [ht]; cases page <;> exact ⟨_, _, _, _, rfl⟩
  · rw [ht]; exact ⟨_, _, _, _, rfl⟩
  · rw [ht]; exact ⟨_, _, _, _, rfl⟩

@[simp] theorem retire_mr0 (h : Hist) (s s' : State) : (retire h s s').mr0 = s'.mr0 := by
  obtain ⟨_, _, _, _, ht⟩ := retire_eq h s s'
  rw [ht]; rfl

@[simp] theorem retire_p (h : Hist) (s s' : State) : (retire h s s').p = s'.p := by
  obtain ⟨_, _, _, _, ht⟩ := retire_eq h s s'
  rw [ht]

@[simp] theorem begin_mr0 (s : State) : s.begin.mr0 = s.mr0 := rfl

@[simp] theorem haltedCycle_mr0 (s : State) : (haltedCycle s).mr0 = s.mr0 := by
  unfold haltedCycle; split <;> rfl

@[simp] theorem haltedCycle_p (s : State) : (haltedCycle s).p = s.p := by
  unfold haltedCycle; split <;> rfl

/-- The bits of MR0 above the flags after a step without reset, in which no instruction names MR0: as before, but that
an accepted interrupt sets L and a change of flow with a delay slot clears it. -/
theorem step_modeBits {s t : State} (h : step s = .next t) (hr : s.resetIn ≠ some 0)
    (hw : ¬(Executes s ∧ writesRegister (explicitWrites s.fetch) .mr0 = true)) :
    sameModeBits s t ∨
    (s.presented.isSome = true ∧ s.acceptsIrq = true ∧ sameModeBits (s.setL true) t) ∨
    (Executes s ∧ ownsDelaySlot s.fetch = true ∧ sameModeBits (s.setL false) t) := by
  cases step_kind h with
  | reset hr' ht => exact absurd hr' hr
  | halted _ hh ht => subst ht; exact .inl (.of_mr0 (haltedCycle_mr0 s))
  | interrupt vec _ hh hp ha ht => subst ht; exact .inr (.inl ⟨by rw [hp]; rfl, ha, fun _ _ => rfl⟩)
  | cancelled hs hc ha ht => subst ht; exact .inl (.of_mr0 (retire_mr0 _ s s.begin))
  | executes s' hs hb hh he hp ha ht =>
    subst ht
    have hend : sameModeBits s' (retire (histOf s.fetch s s') s s') := .of_mr0 (retire_mr0 _ s s')
    have hbegin : sameModeBits (s.setL false) (s.begin.setL false) := fun _ _ => rfl
    rcases exec_modeBits he (by simpa [hs] using hw) with hsame | ⟨howner, hclear⟩
    · exact .inl (sameModeBits.trans hsame hend)
    · exact .inr (.inr ⟨hs, howner, hbegin.trans (hclear.trans hend)⟩)

theorem sameModeBits.fL {s t : State} (h : sameModeBits s t) : t.fL = s.fL := by
  obtain ⟨-, -, -, hs, -⟩ := s.mr0_fields
  obtain ⟨-, -, -, ht, -⟩ := t.mr0_fields
  rw [hs, ht, h 7 (by omega)]

/-- The mode bits S, I and R, bits 10 to 8 of MR0 (R31). -/
def sameModes (s t : State) : Prop := t.fS = s.fS ∧ t.fI = s.fI ∧ t.fR = s.fR

theorem sameModeBits.modes {s t : State} (h : sameModeBits s t) : sameModes s t := by
  obtain ⟨hS, hI, hR, -⟩ := s.mr0_fields
  obtain ⟨tS, tI, tR, -⟩ := t.mr0_fields
  exact ⟨by rw [tS, hS, h 10 (by omega)], by rw [tI, hI, h 9 (by omega)], by rw [tR, hR, h 8 (by omega)]⟩

/-- A write of L leaves the mode bits. -/
theorem State.setL_modes (s : State) (l : Bool) : sameModes s (s.setL l) := by
  obtain ⟨hS, hI, hR, -⟩ := s.mr0_fields
  obtain ⟨tS, tI, tR, -⟩ := (s.setL l).mr0_fields
  refine ⟨?_, ?_, ?_⟩
  · rw [tS, hS, State.setL_bit, if_neg (by omega)]
  · rw [tI, hI, State.setL_bit, if_neg (by omega)]
  · rw [tR, hR, State.setL_bit, if_neg (by omega)]

theorem sameModes.trans {s t u : State} (h : sameModes s t) (h' : sameModes t u) : sameModes s u :=
  ⟨h'.1.trans h.1, h'.2.1.trans h.2.1, h'.2.2.trans h.2.2⟩

/-- Settles O11: whatever a step does to L, the mode bits stay. -/
theorem modeBitsChangeOnlyByWriteOrReset : Obligations.ModeBitsChangeOnlyByWriteOrReset := by
  intro s t h hr hw
  rcases step_modeBits h hr hw with hsame | ⟨-, -, hset⟩ | ⟨-, -, hclear⟩
  · exact hsame.modes
  · exact (s.setL_modes true).trans hset.modes
  · exact (s.setL_modes false).trans hclear.modes

/-- Settles O13, by the same three cases. -/
theorem loopFlagChangesOnlyAsListed : Obligations.LoopFlagChangesOnlyAsListed := by
  intro s t h hr hL
  by_cases hw : Executes s ∧ writesRegister (explicitWrites s.fetch) .mr0 = true
  · exact .inr ⟨hw.1, .inl hw.2⟩
  · rcases step_modeBits h hr hw with hsame | ⟨hp, ha, hset⟩ | ⟨hs, howner, hclear⟩
    · exact absurd hsame.fL hL
    · exact .inl ⟨hset.fL.trans (s.setL_fL true), hp, ha⟩
    · exact .inr ⟨hs, .inr ⟨hclear.fL.trans (s.setL_fL false), howner⟩⟩

end Sys2Proof.Machine

/-! PROOF. What is fetched is no second name, and P is written by the multiplier instructions only (spec/10_state.md
section 2). -/

namespace Sys2Proof

/-! ## The decoder answers core forms -/

/-- Where a decoder answers an instruction, it is no second name (R127). -/
def DecodesToCore (e : Except ReservedWhy Instr) : Prop := ∀ i, e = .ok i → i.core = i

theorem DecodesToCore.ok {i : Instr} (h : i.core = i) : DecodesToCore (.ok i) := by
  rintro _ ⟨⟩; exact h

theorem DecodesToCore.error (why : ReservedWhy) : DecodesToCore (.error why) :=
  fun _ h => by cases h

theorem DecodesToCore.bind {α : Type} (e : Except ReservedWhy α) {f : α → Except ReservedWhy Instr}
    (h : ∀ a, DecodesToCore (f a)) : DecodesToCore (e >>= f) := by
  cases e with
  | ok a => exact h a
  | error why => exact .error why

theorem ofNopMove_core (pm : ParMove) : (ofNopMove pm).core = ofNopMove pm := by
  cases pm with
  | full bus m => obtain ⟨store, n, p, r⟩ := m; cases bus <;> cases store <;> rfl
  | longX store n r => cases store <;> rfl
  | ibus store n p q => cases store <;> rfl
  | _ => rfl

theorem decodeTwo_core {mk : AluSrc → AluSrc → AluDst → ParMove → Instr}
    (h : ∀ o1 o2 d pm, (mk o1 o2 d pm).core = mk o1 o2 d pm) (w : Word32) : DecodesToCore (decodeTwo mk w) :=
  .bind _ fun o1 => .bind _ fun o2 => .bind _ fun d => .bind _ fun pm => .ok (h o1 o2 d pm)

theorem decodeShift_core (w : Word32) : DecodesToCore (decodeShift w) := by
  refine .bind _ fun o1 => .bind _ fun o2 => ?_
  split
  · exact .error _
  · exact .bind _ fun d => .bind _ fun pm => .ok rfl

theorem decodeMac_core {mk : Reg16 → MulMode → Reg16 → AccName → ParMove → Instr}
    (h : ∀ op1 mode op2 q pm, (mk op1 mode op2 q pm).core = mk op1 mode op2 q pm) (w : Word32) :
    DecodesToCore (decodeMac mk w) :=
  .bind _ fun q => .bind _ fun pm => .ok (h _ _ _ q pm)

theorem decodeOne_core {mk : AluSrc → AluDst → ParMove → Instr} (h : ∀ o d pm, (mk o d pm).core = mk o d pm)
    (w : Word32) : DecodesToCore (decodeOne mk w) :=
  .bind _ fun o => .bind _ fun d => .bind _ fun pm => .ok (h o d pm)

theorem decodeOne16_core {mk : AluSrc → Reg16 → ParMove → Instr} (h : ∀ o r pm, (mk o r pm).core = mk o r pm)
    (w : Word32) : DecodesToCore (decodeOne16 mk w) :=
  .bind _ fun o => .bind _ fun pm => .ok (h o _ pm)

theorem decodeMul_core (w : Word32) : DecodesToCore (decodeMul w) := .bind _ fun _ => .ok rfl

theorem decodeSat_core (w : Word32) : DecodesToCore (decodeSat w) :=
  .bind _ fun _ => .bind _ fun _ => .bind _ fun _ => .ok rfl

theorem decodeSingle_core (w : Word32) : DecodesToCore (decodeSingle w) := by
  unfold decodeSingle
  split
  · exact decodeOne_core (fun _ _ _ => rfl) w
  · exact decodeOne_core (fun _ _ _ => rfl) w
  · exact decodeOne_core (fun _ _ _ => rfl) w
  · exact decodeOne_core (fun _ _ _ => rfl) w
  · exact .bind _ fun pm => .ok (ofNopMove_core pm)
  · exact decodeOne16_core (fun _ _ _ => rfl) w
  · exact decodeSat_core w
  · exact decodeOne16_core (fun _ _ _ => rfl) w
  · exact decodeMul_core w
  · exact decodeMul_core w
  · exact .error _

theorem decodeLoop_core (w : Word32) : DecodesToCore (decodeLoop w) := .bind _ fun _ => .ok rfl

theorem decodeControl_core (w : Word32) : DecodesToCore (decodeControl w) := by
  unfold decodeControl
  split
  · exact .bind _ fun cond => .ok (by split <;> rfl)
  · exact .ok (by split <;> rfl)
  · exact .ok rfl
  · exact decodeLoop_core w
  · exact decodeLoop_core w
  · exact decodeLoop_core w
  · exact decodeLoop_core w
  · exact .bind _ fun _ => .ok rfl
  · exact .bind _ fun _ => .ok rfl
  · exact .bind _ fun _ => .ok rfl
  · exact .bind _ fun _ => .bind _ fun _ => .bind _ fun _ => .bind _ fun _ => .ok rfl
  · exact .ok rfl
  · exact .error _

theorem decodeLdc_core (w : Word32) : DecodesToCore (decodeLdc w) := .bind _ fun _ => .ok rfl

theorem decodeWord_core (w : Word32) : DecodesToCore (decodeWord w) := by
  unfold decodeWord
  split
  · exact decodeLdc_core w
  · exact decodeLdc_core w
  · exact decodeControl_core w
  · exact .bind _ fun _ => .bind _ fun _ => .ok rfl
  · exact decodeTwo_core (fun _ _ _ _ => rfl) w
  · exact decodeMac_core (fun _ _ _ _ _ => rfl) w
  · exact decodeTwo_core (fun _ _ _ _ => rfl) w
  · exact decodeMac_core (fun _ _ _ _ _ => rfl) w
  · exact decodeTwo_core (fun _ _ _ _ => rfl) w
  · exact decodeTwo_core (fun _ _ _ _ => rfl) w
  · exact decodeShift_core w
  · exact decodeTwo_core (fun _ _ _ _ => rfl) w
  · exact decodeTwo_core (fun _ _ _ _ => rfl) w
  · exact decodeTwo_core (fun _ _ _ _ => rfl) w
  · exact .error _
  · exact decodeSingle_core w

/-- The decoder never answers a second name (R127, log entry 37). -/
theorem decode_core (w : Word32) : (decode w).core = decode w := by
  unfold decode
  split
  · rename_i i hi; exact decodeWord_core w i hi
  · rfl

end Sys2Proof

namespace Sys2Proof.Machine

/-- What is fetched is what the decoder reads from the word at the fetch address. -/
theorem fetch_eq (s : State) : s.fetch = decode (s.imem.read32 s.fetchAddr.toNat) := rfl

theorem fetch_core (s : State) : s.fetch.core = s.fetch := by rw [fetch_eq]; exact decode_core _

/-- The instructions with words of their own that write P (R25). -/
def WritesP (i : Instr) : Prop :=
  (∃ mode op1 op2 pm, i = .mul mode op1 op2 pm) ∨ (∃ op1 mode op2 q pm, i = .mac op1 mode op2 q pm) ∨
    (∃ op1 mode op2 q pm, i = .msu op1 mode op2 q pm) ∨ ∃ op1 op2, i = .resp op1 op2

/-- A multiplier instruction with a parallel move that is no second name is MUL, MAC or MSU. -/
theorem writesP_of_multiplies {i : Instr} (hm : multiplies i = true) (hc : i.core = i) : WritesP i := by
  cases i with
  | mul mode op1 op2 pm => exact .inl ⟨_, _, _, _, rfl⟩
  | mac op1 mode op2 q pm => exact .inr (.inl ⟨_, _, _, _, _, rfl⟩)
  | msu op1 mode op2 q pm => exact .inr (.inr (.inl ⟨_, _, _, _, _, rfl⟩))
  | mulss op1 op2 pm | mulsu op1 op2 pm | mulus op1 op2 pm | muluu op1 op2 pm => cases hc
  | _ => cases hm

/-- An instruction that is no second name writes P only if it is one of the four (R25). -/
theorem exec_p {i : Instr} {s t : State} (hc : i.core = i) (h : exec i s = .next t) : t.p = s.p ∨ WritesP i := by
  cases hp : hasParField i with
  | true =>
    obtain ⟨s', -, -, rfl, -, hprod⟩ := exec_par_inv hp h
    cases hm : multiplies i with
    | true => exact .inr (writesP_of_multiplies hm hc)
    | false => exact .inl ((applyPar_p _ s s').trans (hprod hm))
  | false =>
    cases exec_other_inv hp h with
    | ldc c r => exact .inl (s.writeReg_p false r c)
    | resp op1 op2 p hp => exact .inr (.inr (.inr (.inr ⟨op1, op2, rfl⟩)))
    | halt => exact .inl (by split <;> rfl)
    | jcc addr cond | jrcc cond | jrccIn n cond => exact .inl (by rw [jumpIf_eq]; rfl)
    | j addr | jr => exact .inl (by rw [jumpIf_eq]; rfl)
    | callcc addr cond | call addr => exact .inl (by rw [callIf_eq]; rfl)
    | jmpi addr mm n => exact .inl (by cases mm <;> simp [jmpiIndex])
    | doubleFull x y hc ha => exact .inl (by simp)
    | mvxMvyDouble xs xd ys yd hx hy hc => exact .inl (by simp)
    | nopTotal | reti | retiIn n | loop cnt e hc => exact .inl rfl

/-- Settles O12: of the kinds of step only an executed instruction can change P, and what is fetched is no second
name. -/
theorem onlyMultiplierInstructionsWriteP : Obligations.OnlyMultiplierInstructionsWriteP := by
  intro s t h hr hP
  cases step_kind h with
  | reset hr' ht => exact absurd hr' hr
  | halted _ hh ht => subst ht; exact absurd (haltedCycle_p s) hP
  | interrupt vec _ hh hp ha ht => subst ht; exact absurd rfl hP
  | cancelled hs hc ha ht => subst ht; exact absurd (retire_p _ s s.begin) hP
  | executes s' hs hb hh he hp ha ht =>
    subst ht
    rw [retire_p] at hP
    exact ⟨hs, (exec_p (fetch_core s) he).resolve_left hP⟩

end Sys2Proof.Machine

/-! PROOF. Every step keeps `Legal`: instructions keep its clauses about data and about control, the end of a slot and
the other kinds of step keep the rest (spec/10_state.md section 5). -/

namespace Sys2Proof.Machine

/-! ## The part of `Legal` that instructions can touch -/

/-- The bits of MR0 that are not implemented read 0 (D9). -/
def Mr0Masked (s : State) : Prop := s.mr0 &&& ~~~modeMask = 0#16

/-- The clauses of `Legal` about memory, MR0 and what only moves touch. -/
structure DataLegal (s : State) : Prop where
  xmem : Memory.wf dataBytes s.xmem = true
  ymem : Memory.wf dataBytes s.ymem = true
  imem : Memory.wf instrBytes s.imem = true
  xlmem : Memory.wf longBytes s.xlmem = true
  mr0 : Mr0Masked s
  loopSkip : s.loopSkip ≤ 2
  sti : ∀ e ∈ s.stiRecent, 1 ≤ e.2 ∧ e.2 ≤ 3

theorem DataLegal.of_same {s t : State} (h : DataLegal s) (hm : sameMemory s t) (hr : Mr0Masked t)
    (hk : t.loopSkip ≤ 2) (hs : t.stiRecent = s.stiRecent) : DataLegal t := by
  obtain ⟨hx, hy, hi, hl⟩ := hm
  exact ⟨hx ▸ h.xmem, hy ▸ h.ymem, hi ▸ h.imem, hl ▸ h.xlmem, hr, hk, hs ▸ h.sti⟩

theorem mr0Masked_iff (s : State) :
    Mr0Masked s ↔ ∀ j < 16, modeMask.getLsbD j = false → s.mr0.getLsbD j = false := by
  have bit : ∀ j < 16, (s.mr0 &&& ~~~modeMask).getLsbD j = (s.mr0.getLsbD j && !modeMask.getLsbD j) := by
    intro j hj
    rw [BitVec.getLsbD_and, BitVec.getLsbD_not, decide_eq_true hj, Bool.true_and]
  unfold Mr0Masked
  constructor
  · intro h j hj hmask
    have hbit := bit j hj
    rw [h, hmask] at hbit
    simpa using hbit.symm
  · intro h
    apply BitVec.eq_of_getLsbD_eq
    intro j hj
    rw [bit j hj, BitVec.getLsbD_zero]
    cases hmask : modeMask.getLsbD j with
    | true => simp
    | false => simp only [h j hj hmask, Bool.false_and]

theorem modeMask_below_five : ∀ j < 5, modeMask.getLsbD j = true := by decide

/-- The flags and L are implemented: MR0 stays masked where the other bits stay. -/
theorem Mr0Masked.of_bits {s t : State} (h : Mr0Masked s)
    (hb : ∀ j, 5 ≤ j → j ≠ 7 → t.mr0.getLsbD j = s.mr0.getLsbD j) : Mr0Masked t := by
  rw [mr0Masked_iff] at h ⊢
  intro j hj hmask
  have hflags : 5 ≤ j := by
    by_contra hlt
    rw [modeMask_below_five j (by omega)] at hmask; cases hmask
  have hL : j ≠ 7 := by rintro rfl; revert hmask; decide
  rw [hb j hflags hL, h j hj hmask]

theorem Mr0Masked.of_modeBits {s t : State} (h : Mr0Masked s) (hb : sameModeBits s t) : Mr0Masked t :=
  h.of_bits fun j hj _ => hb j hj

theorem Mr0Masked.setL {s : State} (h : Mr0Masked s) (l : Bool) : Mr0Masked (s.setL l) :=
  h.of_bits fun j _ hL => by rw [State.setL_bit, if_neg hL]

theorem and_modeMask_masked (v : Word) : (v &&& modeMask) &&& ~~~modeMask = 0#16 := by
  rw [BitVec.and_assoc]; simp

/-! ## Every instruction keeps it -/

theorem DataLegal.writeReg {s : State} (h : DataLegal s) (m : Bool) (r : MoveReg) (v : Word) :
    DataLegal (s.writeReg m r v) := by
  refine h.of_same (s.writeReg_memory m r v) ?_ ?_ (s.writeReg_stiRecent m r v)
  · unfold Mr0Masked
    rw [State.writeReg_mr0]
    split
    · exact and_modeMask_masked v
    · exact h.mr0
  · rw [State.writeReg_loopSkip]
    split
    · exact Nat.le_refl 2
    · exact h.loopSkip

theorem DataLegal.setIdx {s : State} (h : DataLegal s) (n : IReg) (v : Word) : DataLegal (s.setIdx n v) :=
  h.of_same (by simp [sameMemory]) (h.mr0.of_modeBits (.of_mr0 (by simp))) (by simpa using h.loopSkip) (by simp)

theorem DataLegal.setAcc {s : State} (h : DataLegal s) (q : AccName) (v : AccReg) : DataLegal (s.setAcc q v) :=
  h.of_same (by simp [sameMemory]) (h.mr0.of_modeBits (.of_mr0 (by simp))) (by simpa using h.loopSkip) (by simp)

theorem DataLegal.setL {s : State} (h : DataLegal s) (l : Bool) : DataLegal (s.setL l) :=
  h.of_same ⟨rfl, rfl, rfl, rfl⟩ (h.mr0.setL l) h.loopSkip rfl

theorem DataLegal.busWrite {s : State} (h : DataLegal s) (b : Bus) (a v : Word) : DataLegal (s.busWrite b a v) := by
  have ha : 2 * a.toNat + 1 < dataBytes := by have := a.isLt; unfold dataBytes; omega
  cases b with
  | x => exact { h with xmem := Memory.wf_write16 v ha h.xmem, mr0 := h.mr0 }
  | y => exact { h with ymem := Memory.wf_write16 v ha h.ymem, mr0 := h.mr0 }

theorem DataLegal.xWriteL {s : State} (h : DataLegal s) (a : Word32) (v : Word) : DataLegal (s.xWriteL a v) := by
  have ha : 2 * a.toNat + 1 < longBytes := by have := a.isLt; unfold longBytes; omega
  rw [State.xWriteL_eq]
  split
  · exact h.busWrite .x _ v
  · exact { h with xlmem := Memory.wf_write16 v ha h.xlmem, mr0 := h.mr0 }

theorem DataLegal.iWrite {s : State} (h : DataLegal s) (a v : Word32) : DataLegal (s.iWrite a v) := by
  have ha : 4 * a.toNat + 3 < instrBytes := by have := a.isLt; unfold instrBytes; omega
  refine { h with imem := Memory.wf_write32 v ha h.imem, mr0 := h.mr0, sti := fun e he => ?_ }
  rcases List.mem_cons.mp he with rfl | hold
  · exact ⟨by omega, Nat.le_refl 3⟩
  · exact h.sti e hold

theorem DataLegal.postMod {s : State} (h : DataLegal s) (u : Config.FreeUse) (n : IReg) (p : BitVec 4)
    (old : State) : DataLegal (postMod u n p old s) := by
  unfold Machine.postMod
  split
  · exact h
  · exact h.setIdx n _

theorem DataLegal.applyFull {s : State} (h : DataLegal s) (m : FullMove) (b : Bus) (old : State) :
    DataLegal (applyFull m b old s) := by
  unfold Machine.applyFull
  split
  · exact h
  · refine DataLegal.postMod ?_ _ m.n m.p old
    split
    · exact h.busWrite b _ _
    · exact h.writeReg true m.reg _

theorem DataLegal.moveReg {s : State} (h : DataLegal s) (u : Config.FreeUse) (src dst : MoveReg) (old : State) :
    DataLegal (moveReg u src dst old s) := by
  unfold Machine.moveReg
  split
  · exact h
  · exact h.writeReg false dst _

theorem DataLegal.moveLong {s : State} (h : DataLegal s) (store : Bool) (n : IReg) (r : MoveReg) (old : State) :
    DataLegal (moveLong store n r old s) := by
  unfold Machine.moveLong
  split
  · exact h
  · split
    · exact h.xWriteL _ _
    · exact h.writeReg true r _

theorem DataLegal.moveIbus {s : State} (h : DataLegal s) (store : Bool) (n : IReg) (p : BitVec 4) (q : AccName)
    (old : State) : DataLegal (moveIbus store n p q old s) := by
  unfold Machine.moveIbus
  refine DataLegal.postMod ?_ _ n p old
  split
  · exact h.iWrite _ _
  · exact h.setAcc q _

theorem DataLegal.applyPar {s : State} (h : DataLegal s) (pm : ParMove) (old : State) :
    DataLegal (applyPar pm old s) := by
  cases pm with
  | none => exact h
  | full bus m => exact h.applyFull m bus old
  | short x y => exact (h.applyFull x.toFull .x old).applyFull y.toFull .y old
  | reg src dst => exact h.moveReg .busX src dst old
  | longX store n r => exact h.moveLong store n r old
  | ibus store n p q => exact h.moveIbus store n p q old

theorem DataLegal.applyHalf {s : State} (h : DataLegal s) (m : Option FullMove) (b : Bus) (old : State) :
    DataLegal (applyHalf m b old s) := by
  cases m with
  | none => exact h
  | some m => exact h.applyFull m b old

theorem DataLegal.arithPart {ws : List MoveReg} {s s' : State} (h : DataLegal s) (ha : ArithPart ws s s') :
    DataLegal s' := by
  obtain ⟨hskip, -, hsti, -⟩ := ha.moves
  exact h.of_same ha.memory (h.mr0.of_modeBits ha.modes) (hskip ▸ h.loopSkip) hsti

theorem DataLegal.jumpIf {s : State} (h : DataLegal s) (cond : Cond) (g : Target) : DataLegal (jumpIf s cond g) := by
  rw [jumpIf_eq]
  exact (h.setL false).of_same ⟨rfl, rfl, rfl, rfl⟩ (h.setL false).mr0 h.loopSkip rfl

theorem DataLegal.callIf {s : State} (h : DataLegal s) (cond : Cond) (a : Word) : DataLegal (callIf s cond a) := by
  rw [callIf_eq]
  exact (h.setL false).of_same ⟨rfl, rfl, rfl, rfl⟩ (h.setL false).mr0 h.loopSkip rfl

theorem DataLegal.jmpiIndex {s : State} (h : DataLegal s) (mm : JmpiMod) (n : IReg) :
    DataLegal (jmpiIndex mm n s) := by
  cases mm with
  | keep => exact h
  | inc => exact h.setIdx n _
  | dec => exact h.setIdx n _

theorem exec_dataLegal {i : Instr} {s t : State} (hs : DataLegal s) (h : exec i s = .next t) : DataLegal t := by
  cases hp : hasParField i with
  | true =>
    obtain ⟨s', harith, -, rfl, -, -⟩ := exec_par_inv hp h
    exact (hs.arithPart harith).applyPar (parOf i) s
  | false =>
    have clearsL := hs.setL false
    cases exec_other_inv hp h with
    | ldc c r => exact hs.writeReg false r c
    | nopTotal => exact hs
    | resp op1 op2 p hp => exact hs.of_same ⟨rfl, rfl, rfl, rfl⟩ hs.mr0 hs.loopSkip rfl
    | halt =>
      split
      · exact hs.of_same ⟨rfl, rfl, rfl, rfl⟩ hs.mr0 hs.loopSkip rfl
      · exact hs
    | jcc addr cond | jrcc cond | jrccIn n cond => exact hs.jumpIf cond _
    | j addr | jr => exact hs.jumpIf .always _
    | callcc addr cond => exact hs.callIf cond addr
    | call addr => exact hs.callIf .always addr
    | reti | retiIn n | loop cnt e hc =>
      exact clearsL.of_same ⟨rfl, rfl, rfl, rfl⟩ clearsL.mr0 clearsL.loopSkip rfl
    | jmpi addr mm n =>
      have hidx := hs.jmpiIndex mm n
      exact hidx.of_same ⟨rfl, rfl, rfl, rfl⟩ hidx.mr0 hidx.loopSkip rfl
    | doubleFull x y hc ha => exact (hs.applyHalf x .x s).applyHalf y .y s
    | mvxMvyDouble xs xd ys yd hx hy hc => exact (hs.moveReg .busX xs xd s).moveReg .busY ys yd s

/-! ## The pending transfer, the cancelled slot and the halted core -/

/-- The clauses of `Legal` about what the control instructions and HALT set. -/
structure ControlLegal (s : State) : Prop where
  cancel : s.cancel = true → ∃ a, s.pending = some ⟨some 0#16, a⟩
  halted : s.halted = true → s.pending = none ∧ s.cancel = false

/-- A state in which neither a cancelled slot nor a halted core is recorded. -/
theorem ControlLegal.of_running {s : State} (hc : s.cancel = false) (hh : s.halted = false) : ControlLegal s :=
  ⟨fun h => by simp [hc] at h, fun h => by simp [hh] at h⟩

theorem ControlLegal.of_sequencer {s t : State} (hc : s.cancel = false) (hh : s.halted = false)
    (h : sameSequencer s t) : ControlLegal t := by
  obtain ⟨-, -, hcancel, hhalted, -⟩ := h
  exact .of_running (hcancel.trans hc) (hhalted.trans hh)

/-- From a state with nothing pending, cancelled or halted, JMPI alone cancels, with its transfer to page 0 (R276), and
HALT alone halts, with nothing pending. -/
theorem exec_controlLegal {i : Instr} {s t : State} (hp : s.pending = none) (hc : s.cancel = false)
    (hh : s.halted = false) (h : exec i s = .next t) : ControlLegal t := by
  cases hf : hasParField i with
  | true => exact .of_sequencer hc hh (exec_par_inv hf h).sequencer
  | false =>
    cases exec_other_inv hf h with
    | halt =>
      split
      · exact ⟨fun h' => by simp [hc] at h', fun _ => ⟨hp, hc⟩⟩
      · exact .of_running hc hh
    | jmpi addr mm n =>
      exact ⟨fun _ => ⟨addr, rfl⟩, fun h' => by cases mm <;> simp [jmpiIndex, hh] at h'⟩
    | jcc addr cond | jrcc cond | jrccIn n cond | j addr | jr =>
      rw [jumpIf_eq]; exact .of_running hc hh
    | callcc addr cond | call addr => rw [callIf_eq]; exact .of_running hc hh
    | reti | retiIn n | loop cnt e hc' => exact .of_running hc hh
    | ldc c r | nopTotal | resp op1 op2 p hp' | doubleFull x y hc' ha | mvxMvyDouble xs xd ys yd hx hy hc' =>
      exact .of_sequencer hc hh (exec_sequencer rfl h)

/-! ## Every step keeps `Legal` -/

theorem Legal.data {s : State} (h : Legal s) : DataLegal s := { h with mr0 := h.mr0 }

theorem Legal.of_parts {s : State} (hd : DataLegal s) (hc : ControlLegal s) (hskid : s.haltSkid ≤ 3)
    (hwake : s.haltWake = true → s.irqIdle = false) (hhist : s.prev1 = none → s.prev2 = none) : Legal s :=
  { hd with
    mr0 := hd.mr0, cancel := hc.cancel, halted := hc.halted, haltSkid := hskid, haltWake := hwake, history := hhist }

/-- An STI remembered for one instruction less is forgotten at 0 (R346). -/
theorem ageSti_range {l : List (Word32 × Nat)} (h : ∀ e ∈ l, 1 ≤ e.2 ∧ e.2 ≤ 3) :
    ∀ e ∈ ageSti l, 1 ≤ e.2 ∧ e.2 ≤ 3 := by
  intro e he
  simp only [ageSti, List.mem_filter, List.mem_map, decide_eq_true_eq] at he
  obtain ⟨⟨e', he', rfl⟩, hpos⟩ := he
  have hold := h e' he'
  exact ⟨hpos, by simp only; omega⟩

theorem Legal.begin {s : State} (h : Legal s) : DataLegal s.begin :=
  { h.data with
    mr0 := h.mr0
    loopSkip := (Nat.sub_le _ _).trans h.loopSkip
    sti := ageSti_range h.sti }

/-- The end of a slot keeps `Legal`, whatever effect the slot had: an instruction's, or none. -/
theorem Legal.retire {s s' : State} (h : Legal s) (hd : DataLegal s') (hc : ControlLegal s')
    (hi : sameInputs s.begin s') (e : Hist) : Legal (retire e s s') := by
  obtain ⟨-, hskid, -, -, hidle, -, -, -, -, hwake⟩ := hi
  obtain ⟨_, _, _, _, ht⟩ := retire_eq e s s'
  rw [ht]
  refine .of_parts { hd with mr0 := hd.mr0 } ⟨hc.cancel, hc.halted⟩ ?_ ?_ nofun
  · have hle : s.haltSkid - 1 ≤ 3 := (Nat.sub_le _ _).trans h.haltSkid
    exact hskid ▸ hle
  · intro hw
    have hbusy : s.irqIdle = false := h.haltWake (hwake ▸ hw)
    exact hidle.trans (by simp [State.begin, hbusy])

theorem Legal.haltedCycle {s : State} (h : Legal s) : Legal (haltedCycle s) := by
  unfold Machine.haltedCycle
  split
  · exact .of_parts { h.data with mr0 := h.mr0 } ⟨h.cancel, nofun⟩ (Nat.le_refl 3) (fun _ => rfl) h.history
  · exact { h with mr0 := h.mr0 }

theorem Legal.systemReset {s : State} (h : Legal s) : Legal s.systemReset :=
  .of_parts ⟨h.xmem, h.ymem, h.imem, h.xlmem, resetIsLegal.mr0, Nat.zero_le 2, nofun⟩ (.of_running rfl rfl)
    (Nat.zero_le 3) nofun (fun _ => rfl)

/-- An interrupt is accepted only where nothing is cancelled (R295). -/
theorem Legal.enterInterrupt {s : State} (h : Legal s) (ha : s.acceptsIrq = true) (vec : BitVec 5) :
    Legal (s.enterInterrupt vec) := by
  obtain ⟨-, hc, -⟩ := (acceptsIrq_iff s).mp ha
  have hd := h.data.setL true
  exact .of_parts { hd with mr0 := hd.mr0 } (.of_running hc rfl) h.haltSkid nofun (fun _ => rfl)

theorem step_keeps_legal {s t : State} (h : step s = .next t) (hs : Legal s) : Legal t := by
  cases step_kind h with
  | reset hr ht => subst ht; exact hs.systemReset
  | halted hr hh ht => subst ht; exact hs.haltedCycle
  | interrupt vec hr hh hp ha ht => subst ht; exact hs.enterInterrupt ha vec
  | cancelled hslot hc ha ht =>
    subst ht
    obtain ⟨-, hrun, -⟩ := hslot
    exact hs.retire hs.begin (.of_running rfl hrun) ⟨rfl, rfl, rfl, rfl, rfl, rfl, rfl, rfl, rfl, rfl⟩ _
  | executes s' hx hb hh he hp ha ht =>
    subst ht
    obtain ⟨⟨-, hrun, -⟩, -⟩ := hx
    exact hs.retire (exec_dataLegal hs.begin he) (exec_controlLegal (s := s.begin) rfl rfl hrun he) (exec_inputs he) _

theorem retire_map (e : Hist) (s s' : State) : (retire e s s').map = s'.map := by
  obtain ⟨_, _, _, _, ht⟩ := retire_eq e s s'
  rw [ht]

theorem haltedCycle_map (s : State) : (haltedCycle s).map = s.map := by
  unfold haltedCycle; split <;> rfl

theorem step_keeps_map {s t : State} (h : step s = .next t) : t.map = s.map := by
  cases step_kind h with
  | reset hr ht => subst ht; rfl
  | halted hr hh ht => subst ht; exact haltedCycle_map s
  | interrupt vec hr hh hp ha ht => subst ht; rfl
  | cancelled hslot hc ha ht => subst ht; exact retire_map _ s s.begin
  | executes s' hx hb hh he hp ha ht =>
    subst ht
    obtain ⟨-, -, -, -, -, -, -, -, hmap, -⟩ := exec_inputs he
    exact (retire_map _ s s').trans hmap

/-- Settles O9, by the five kinds of step. -/
theorem everyStepKeepsLegal : Obligations.EveryStepKeepsLegal :=
  fun _ _ h => ⟨step_keeps_legal h, step_keeps_map h⟩

end Sys2Proof.Machine

/-! PROOF. The family 30_encoding: the decoder format by format, and the encoder as its inverse. -/

namespace Sys2Proof

/-! ## Fields of fields -/

theorem ok_bind {ε α β : Type} (a : α) (f : α → Except ε β) : (Except.ok a >>= f) = f a := rfl

/-- A field of a field is a field of the word. -/
theorem extract_of_extract {w t m : Nat} {x : BitVec w} {c : BitVec m} (h : x.extractLsb' t m = c) (s n : Nat)
    (hs : s + n ≤ m) : x.extractLsb' (t + s) n = c.extractLsb' s n := by
  apply BitVec.eq_of_getLsbD_eq
  intro i hi
  have hsi : s + i < m := by omega
  simp [← h, hi, hsi, Nat.add_assoc]

/-- A bit of a field is a bit of the word. -/
theorem getLsbD_of_extract {w t m : Nat} {x : BitVec w} {c : BitVec m} (h : x.extractLsb' t m = c) (i : Nat)
    (hi : i < m) : x.getLsbD (t + i) = c.getLsbD i := by
  simp [← h, hi]

/-- A bit inside the high part of an append. -/
theorem getLsbD_append_high {a b i : Nat} (x : BitVec a) (y : BitVec b) (h : b ≤ i) :
    (x ++ y).getLsbD i = x.getLsbD (i - b) := by
  rw [BitVec.getLsbD_append, if_neg (by omega)]

/-- A bit inside the low part of an append. -/
theorem getLsbD_append_low {a b i : Nat} (x : BitVec a) (y : BitVec b) (h : i < b) :
    (x ++ y).getLsbD i = y.getLsbD i := by
  rw [BitVec.getLsbD_append, if_pos h]

theorem getLsbD_storeBit (store : Bool) : (storeBit store).getLsbD 0 = store := by cases store <;> rfl

/-! ## The decoder, format by format (R123) -/

section Patterns

variable {f : BitVec 17}

/-- A 1 in bit 16 is a pair of short moves (R112). -/
theorem decodePar_short (h : f.getLsbD 16 = true) :
    decodePar f = .ok (.short (decodeShort (f.extractLsb' 8 8)) (decodeShort (f.extractLsb' 0 8))) := by
  simp [decodePar, h]

theorem decodePar_full {bus : Bus} (h : f.extractLsb' 14 3 = 0#1 ++ bus.code ++ 0#1) :
    decodePar f = decodeFull (f.extractLsb' 0 14) >>= fun m => .ok (.ofFull bus m) := by
  have hbit : f.getLsbD 16 = false := (getLsbD_of_extract h 2 (by decide)).trans (by cases bus <;> rfl)
  have hpat : f.extractLsb' 14 2 = bus.code ++ 0#1 :=
    (extract_of_extract h 0 2 (by decide)).trans (by cases bus <;> rfl)
  cases bus <;> simp only [decodePar, hbit, hpat] <;> rfl

theorem decodePar_reg (h : f.extractLsb' 12 5 = 4#5) :
    decodePar f = MoveReg.ofCode (f.extractLsb' 6 6) >>= fun src => MoveReg.ofCode (f.extractLsb' 0 6) >>= fun dst =>
      .ok (.reg src dst) := by
  have hbit : f.getLsbD 16 = false := getLsbD_of_extract h 4 (by decide)
  have hpat : f.extractLsb' 14 2 = 1#2 := extract_of_extract h 2 2 (by decide)
  have hsub : f.extractLsb' 12 2 = 0#2 := extract_of_extract h 0 2 (by decide)
  simp only [decodePar, hbit, hpat, hsub] <;> rfl

theorem high_bits_ne_zero_of_four_le : ∀ c : BitVec 4, 4 ≤ c.toNat → c.extractLsb' 2 2 ≠ 0#2 := by decide

/-- The sub-patterns of pattern 01 by their bits 13..10, the register move left out. -/
theorem decodePar_sub {c : BitVec 4} (h : f.extractLsb' 14 3 = 1#3) (hc : f.extractLsb' 10 4 = c)
    (hge : 4 ≤ c.toNat) :
    decodePar f =
      if c = 4#4 then MoveReg.ofCode (f.extractLsb' 0 6) >>= fun r =>
        .ok (.longX (f.getLsbD 9) (IReg.ofCode (f.extractLsb' 6 3)) r)
      else if c = 5#4 then
        .ok (.ibus (f.getLsbD 9) (IReg.ofCode (f.extractLsb' 6 3)) (f.extractLsb' 2 4)
          (AccName.ofCode (f.extractLsb' 0 2)))
      else .error .parallelMove := by
  have hbit : f.getLsbD 16 = false := getLsbD_of_extract h 2 (by decide)
  have hpat : f.extractLsb' 14 2 = 1#2 := extract_of_extract h 0 2 (by decide)
  have hsub : f.extractLsb' 12 2 ≠ 0#2 := by
    rw [show f.extractLsb' 12 2 = c.extractLsb' 2 2 from extract_of_extract hc 2 2 (by decide)]
    exact high_bits_ne_zero_of_four_le c hge
  simp only [decodePar, hbit, hpat, hsub, hc] <;> rfl

theorem decodePar_unlisted (h : f.extractLsb' 14 3 = 3#3) : decodePar f = .error .parallelMove := by
  have hbit : f.getLsbD 16 = false := getLsbD_of_extract h 2 (by decide)
  have hpat : f.extractLsb' 14 2 = 3#2 := extract_of_extract h 0 2 (by decide)
  simp only [decodePar, hbit, hpat] <;> rfl

end Patterns

/-- The instruction of a two-operand opcode other than ASHL (R93, R105). -/
def twoForm : Nat → Option (AluSrc → AluSrc → AluDst → ParMove → Instr)
  | 4 => some .add | 6 => some .sub | 8 => some .addc | 9 => some .subc
  | 11 => some .and | 12 => some .or | 13 => some .xor
  | _ => none

/-- The instruction of a multiply-accumulate opcode (R93, R109). -/
def mulAccForm : Nat → Option (Reg16 → MulMode → Reg16 → AccName → ParMove → Instr)
  | 5 => some .mac | 7 => some .msu
  | _ => none

/-- The instruction of a single-operand code whose result has the operand's width (R108). -/
def oneForm : Nat → Option (AluSrc → AluDst → ParMove → Instr)
  | 0 => some .abs | 1 => some .asr | 2 => some .lsr | 3 => some .lsrc
  | _ => none

/-- The instruction of a single-operand code whose result is a 16-bit register (R108). -/
def one16Form : Nat → Option (AluSrc → Reg16 → ParMove → Instr)
  | 5 => some .exp | 7 => some .rnd
  | _ => none

section Opcodes

variable {w : Word32}

theorem decodeWord_ldc (h : (w.extractLsb' 28 4).toNat ≤ 1) : decodeWord w = decodeLdc w := by
  obtain h | h : (w.extractLsb' 28 4).toNat = 0 ∨ (w.extractLsb' 28 4).toNat = 1 := by omega
  · simp only [decodeWord, h]
  · simp only [decodeWord, h]

theorem decodeWord_control (h : (w.extractLsb' 28 4).toNat = 2) : decodeWord w = decodeControl w := by
  simp only [decodeWord, h]

theorem decodeWord_double (h : (w.extractLsb' 28 4).toNat = 3) :
    decodeWord w = decodeFull (w.extractLsb' 14 14) >>= fun x => decodeFull (w.extractLsb' 0 14) >>= fun y =>
      .ok (.doubleFull x y) := by
  simp only [decodeWord, h]

theorem decodeWord_two {n : Nat} {mk : AluSrc → AluSrc → AluDst → ParMove → Instr} (h : (w.extractLsb' 28 4).toNat = n)
    (hf : twoForm n = some mk) : decodeWord w = decodeTwo mk w := by
  unfold twoForm at hf
  split at hf <;> cases hf <;> simp only [decodeWord, h]

theorem decodeWord_mac {n : Nat} {mk : Reg16 → MulMode → Reg16 → AccName → ParMove → Instr}
    (h : (w.extractLsb' 28 4).toNat = n) (hf : mulAccForm n = some mk) : decodeWord w = decodeMac mk w := by
  unfold mulAccForm at hf
  split at hf <;> cases hf <;> simp only [decodeWord, h]

theorem decodeWord_shift (h : (w.extractLsb' 28 4).toNat = 10) : decodeWord w = decodeShift w := by
  simp only [decodeWord, h]

theorem decodeWord_reserved (h : (w.extractLsb' 28 4).toNat = 14) : decodeWord w = .error .opcode := by
  simp only [decodeWord, h]

theorem decodeWord_single (h : (w.extractLsb' 28 4).toNat = 15) : decodeWord w = decodeSingle w := by
  simp only [decodeWord, h]

theorem decodeSingle_one {n : Nat} {mk : AluSrc → AluDst → ParMove → Instr} (h : (w.extractLsb' 24 4).toNat = n)
    (hf : oneForm n = some mk) : decodeSingle w = decodeOne mk w := by
  unfold oneForm at hf
  split at hf <;> cases hf <;> simp only [decodeSingle, h]

theorem decodeSingle_one16 {n : Nat} {mk : AluSrc → Reg16 → ParMove → Instr} (h : (w.extractLsb' 24 4).toNat = n)
    (hf : one16Form n = some mk) : decodeSingle w = decodeOne16 mk w := by
  unfold one16Form at hf
  split at hf <;> cases hf <;> simp only [decodeSingle, h]

theorem decodeSingle_nop (h : (w.extractLsb' 24 4).toNat = 4) :
    decodeSingle w = decodePar (w.extractLsb' 0 17) >>= fun pm => .ok (ofNopMove pm) := by
  simp only [decodeSingle, h]

theorem decodeSingle_sat (h : (w.extractLsb' 24 4).toNat = 6) : decodeSingle w = decodeSat w := by
  simp only [decodeSingle, h]

theorem decodeSingle_mul (h : 14 ≤ (w.extractLsb' 24 4).toNat) : decodeSingle w = decodeMul w := by
  have hlt : (w.extractLsb' 24 4).toNat < 16 := (w.extractLsb' 24 4).isLt
  obtain h | h : (w.extractLsb' 24 4).toNat = 14 ∨ (w.extractLsb' 24 4).toNat = 15 := by omega
  · simp only [decodeSingle, h]
  · simp only [decodeSingle, h]

theorem decodeControl_jr (h : (w.extractLsb' 24 4).toNat = 0) :
    decodeControl w = Cond.ofCode (w.extractLsb' 0 6) >>= fun cond =>
      .ok (if w.getLsbD 23 then .jrccIn (IReg.ofCode (w.extractLsb' 6 3)) cond else .jrcc cond) := by
  simp only [decodeControl, h]

theorem decodeControl_reti (h : (w.extractLsb' 24 4).toNat = 1) :
    decodeControl w = .ok (if w.getLsbD 23 then .retiIn (IReg.ofCode (w.extractLsb' 6 3)) else .reti) := by
  simp only [decodeControl, h]

theorem decodeControl_resp (h : (w.extractLsb' 24 4).toNat = 2) :
    decodeControl w = .ok (.resp (Reg16.ofCode (w.extractLsb' 17 3)) (Reg16.ofCode (w.extractLsb' 20 3))) := by
  simp only [decodeControl, h]

/-- The two low bits of the control code of LOOP are not decoded (R99). -/
theorem decodeControl_loop (hlo : 4 ≤ (w.extractLsb' 24 4).toNat) (hhi : (w.extractLsb' 24 4).toNat ≤ 7) :
    decodeControl w = decodeLoop w := by
  generalize hc : (w.extractLsb' 24 4).toNat = c at hlo hhi
  interval_cases c <;> simp only [decodeControl, hc]

theorem decodeControl_jcc (h : (w.extractLsb' 24 4).toNat = 8) :
    decodeControl w = Cond.ofCode (w.extractLsb' 0 6) >>= fun cond => .ok (.jcc (w.extractLsb' 6 16) cond) := by
  simp only [decodeControl, h]

theorem decodeControl_callcc (h : (w.extractLsb' 24 4).toNat = 9) :
    decodeControl w = Cond.ofCode (w.extractLsb' 0 6) >>= fun cond => .ok (.callcc (w.extractLsb' 6 16) cond) := by
  simp only [decodeControl, h]

theorem decodeControl_jmpi (h : (w.extractLsb' 24 4).toNat = 10) :
    decodeControl w = JmpiMod.ofCode (w.extractLsb' 3 2) >>= fun mm =>
      .ok (.jmpi (w.extractLsb' 6 16) mm (IReg.ofCode (w.extractLsb' 0 3))) := by
  simp only [decodeControl, h]

theorem decodeControl_mvx (h : (w.extractLsb' 24 4).toNat = 11) :
    decodeControl w =
      MoveReg.ofCode (w.extractLsb' 18 6) >>= fun xs => MoveReg.ofCode (w.extractLsb' 12 6) >>= fun xd =>
      MoveReg.ofCode (w.extractLsb' 6 6) >>= fun ys => MoveReg.ofCode (w.extractLsb' 0 6) >>= fun yd =>
        .ok (.mvxMvyDouble xs xd ys yd) := by
  simp only [decodeControl, h]

theorem decodeControl_halt (h : (w.extractLsb' 24 4).toNat = 13) : decodeControl w = .ok .halt := by
  simp only [decodeControl, h]

end Opcodes

/-! ## The fields of an encoded word, and their decoding -/

theorem encodeFull_fields (store : Bool) (n : IReg) (p : BitVec 4) (r : MoveReg) :
    (encodeFull ⟨store, n, p, r⟩).getLsbD 13 = store ∧ (encodeFull ⟨store, n, p, r⟩).extractLsb' 10 3 = n.code ∧
    (encodeFull ⟨store, n, p, r⟩).extractLsb' 6 4 = p ∧ (encodeFull ⟨store, n, p, r⟩).extractLsb' 0 6 = r.code := by
  simp (disch := decide) only [encodeFull, extract_append_high, extract_append_low, extract_all, getLsbD_append_high,
    getLsbD_storeBit, Nat.reduceSub, and_self]

theorem decodeFull_encodeFull {m : FullMove} (h : m.wf = true) : decodeFull (encodeFull m) = .ok (some m) := by
  obtain ⟨store, n, p, r⟩ := m
  obtain ⟨hstore, hn, hp, hr⟩ := encodeFull_fields store n p r
  have hnop : r ≠ .nop := by simpa [FullMove.wf] using h
  simp only [decodeFull, hstore, hn, hp, hr, MoveReg.ofCode_code, IReg.ofCode_code, ok_bind, if_neg hnop]

theorem decodeFull_encodeHalf {h : Option FullMove} (hwf : wfHalf h = true) : decodeFull (encodeHalf h) = .ok h := by
  cases h with
  | none => rfl
  | some m => exact decodeFull_encodeFull hwf

theorem encodePar_full_fields (bus : Bus) (m : FullMove) :
    (encodePar (.full bus m)).extractLsb' 14 3 = 0#1 ++ bus.code ++ 0#1 ∧
    (encodePar (.full bus m)).extractLsb' 0 14 = encodeFull m := by
  simp (disch := decide) only [encodePar, extract_append_high, extract_append_low, extract_all, Nat.reduceSub, and_self]

theorem encodePar_short_fields (x y : ShortMove) :
    (encodePar (.short x y)).getLsbD 16 = true ∧ (encodePar (.short x y)).extractLsb' 8 8 = encodeShort x ∧
    (encodePar (.short x y)).extractLsb' 0 8 = encodeShort y := by
  simp (disch := decide) only [encodePar, extract_append_high, extract_append_low, extract_all, getLsbD_append_high,
    Nat.reduceSub, and_self, and_true] <;> rfl

theorem encodePar_reg_fields (src dst : MoveReg) :
    (encodePar (.reg src dst)).extractLsb' 12 5 = 4#5 ∧ (encodePar (.reg src dst)).extractLsb' 6 6 = src.code ∧
    (encodePar (.reg src dst)).extractLsb' 0 6 = dst.code := by
  simp (disch := decide) only [encodePar, extract_append_high, extract_append_low, extract_all, Nat.reduceSub, and_self]

theorem encodePar_longX_fields (store : Bool) (n : IReg) (r : MoveReg) :
    (encodePar (.longX store n r)).extractLsb' 10 7 = 20#7 ∧ (encodePar (.longX store n r)).getLsbD 9 = store ∧
    (encodePar (.longX store n r)).extractLsb' 6 3 = n.code ∧
    (encodePar (.longX store n r)).extractLsb' 0 6 = r.code := by
  simp (disch := decide) only [encodePar, extract_append_high, extract_append_low, extract_all, getLsbD_append_high,
    getLsbD_append_low, getLsbD_storeBit, Nat.reduceSub, and_self]

theorem encodePar_ibus_fields (store : Bool) (n : IReg) (p : BitVec 4) (q : AccName) :
    (encodePar (.ibus store n p q)).extractLsb' 10 7 = 21#7 ∧ (encodePar (.ibus store n p q)).getLsbD 9 = store ∧
    (encodePar (.ibus store n p q)).extractLsb' 6 3 = n.code ∧ (encodePar (.ibus store n p q)).extractLsb' 2 4 = p ∧
    (encodePar (.ibus store n p q)).extractLsb' 0 2 = q.code := by
  simp (disch := decide) only [encodePar, extract_append_high, extract_append_low, extract_all, getLsbD_append_high,
    getLsbD_append_low, getLsbD_storeBit, Nat.reduceSub, and_self]

theorem decodePar_encodePar {pm : ParMove} (h : pm.wf = true) : decodePar (encodePar pm) = .ok pm := by
  cases pm with
  | none => rfl
  | full bus m =>
    obtain ⟨hpat, hm⟩ := encodePar_full_fields bus m
    rw [decodePar_full hpat, hm, decodeFull_encodeFull h]
    rfl
  | short x y =>
    obtain ⟨hpat, hx, hy⟩ := encodePar_short_fields x y
    rw [decodePar_short hpat, hx, hy, decodeShort_encodeShort, decodeShort_encodeShort]
  | reg src dst =>
    obtain ⟨hpat, hs, hd⟩ := encodePar_reg_fields src dst
    rw [decodePar_reg hpat, hs, hd, MoveReg.ofCode_code, MoveReg.ofCode_code]
    rfl
  | longX store n r =>
    obtain ⟨hpat, hstore, hn, hr⟩ := encodePar_longX_fields store n r
    rw [decodePar_sub (extract_of_extract hpat 4 3 (by decide)) (extract_of_extract hpat 0 4 (by decide)) (by decide),
      hstore, hn, hr, MoveReg.ofCode_code, IReg.ofCode_code]
    rfl
  | ibus store n p q =>
    obtain ⟨hpat, hstore, hn, hp, hq⟩ := encodePar_ibus_fields store n p q
    rw [decodePar_sub (extract_of_extract hpat 4 3 (by decide)) (extract_of_extract hpat 0 4 (by decide)) (by decide),
      hstore, hn, hp, hq, IReg.ofCode_code, AccName.ofCode_code]
    rfl

end Sys2Proof

/-! PROOF. The family 30_encoding: decoding what the encoder writes. -/

namespace Sys2Proof

/-! ## The formats with a parallel move -/

theorem decode_of_ok {w : Word32} {i : Instr} (h : decodeWord w = .ok i) : decode w = i := by
  simp only [decode, h]

theorem encodeTwo_fields (opcode : BitVec 4) (op1 op2 : AluSrc) (dst : AluDst) (pm : ParMove) :
    (encodeTwo opcode op1 op2 dst pm).extractLsb' 28 4 = opcode ∧
    (encodeTwo opcode op1 op2 dst pm).extractLsb' 24 4 = op1.code ∧
    (encodeTwo opcode op1 op2 dst pm).extractLsb' 20 4 = op2.code ∧
    (encodeTwo opcode op1 op2 dst pm).extractLsb' 17 3 = dst.code ∧
    (encodeTwo opcode op1 op2 dst pm).extractLsb' 0 17 = encodePar pm := by
  simp (disch := decide) only [encodeTwo, extract_append_high, extract_append_low, extract_all, Nat.reduceSub, and_self]

theorem encodeMac_fields (opcode : BitVec 4) (op1 : Reg16) (mode : MulMode) (op2 : Reg16) (q : AccName) (pm : ParMove) :
    (encodeMac opcode op1 mode op2 q pm).extractLsb' 28 4 = opcode ∧
    (encodeMac opcode op1 mode op2 q pm).extractLsb' 25 3 = op1.code ∧
    (encodeMac opcode op1 mode op2 q pm).extractLsb' 23 2 = mode.code ∧
    (encodeMac opcode op1 mode op2 q pm).extractLsb' 20 3 = op2.code ∧
    (encodeMac opcode op1 mode op2 q pm).extractLsb' 17 3 = q.resultCode ∧
    (encodeMac opcode op1 mode op2 q pm).extractLsb' 0 17 = encodePar pm := by
  simp (disch := decide) only [encodeMac, extract_append_high, extract_append_low, extract_all, Nat.reduceSub, and_self]

theorem encodeMul_fields (mode : MulMode) (op1 op2 : Reg16) (pm : ParMove) :
    (encodeMul mode op1 op2 pm).extractLsb' 25 7 = 0x7F#7 ∧
    (encodeMul mode op1 op2 pm).extractLsb' 23 2 = mode.code ∧
    (encodeMul mode op1 op2 pm).extractLsb' 20 3 = op2.code ∧
    (encodeMul mode op1 op2 pm).extractLsb' 17 3 = op1.code ∧
    (encodeMul mode op1 op2 pm).extractLsb' 0 17 = encodePar pm := by
  simp (disch := decide) only [encodeMul, extract_append_high, extract_append_low, extract_all, Nat.reduceSub, and_self]

theorem encodeOne_fields (single : BitVec 4) (op2 : AluSrc) (dst : BitVec 3) (pm : ParMove) :
    (encodeOne single op2 dst pm).extractLsb' 28 4 = 15#4 ∧
    (encodeOne single op2 dst pm).extractLsb' 24 4 = single ∧
    (encodeOne single op2 dst pm).extractLsb' 20 4 = op2.code ∧
    (encodeOne single op2 dst pm).extractLsb' 17 3 = dst ∧
    (encodeOne single op2 dst pm).extractLsb' 0 17 = encodePar pm := by
  simp (disch := decide) only [encodeOne, extract_append_high, extract_append_low, extract_all, Nat.reduceSub, and_self]

theorem encodeLone_fields (pm : ParMove) :
    (encodeLone pm).extractLsb' 24 8 = 0xF4#8 ∧ (encodeLone pm).extractLsb' 0 17 = encodePar pm := by
  simp (disch := decide) only [encodeLone, extract_append_high, extract_append_low, extract_all, Nat.reduceSub,
    and_self]

/-- A two-operand instruction other than ASHL is read back (R105). -/
theorem decode_encodeTwo {opcode : BitVec 4} {mk : AluSrc → AluSrc → AluDst → ParMove → Instr}
    (hf : twoForm opcode.toNat = some mk) {op1 op2 : AluSrc} {dst : AluDst} {pm : ParMove}
    (hwf : wfTwo op1 op2 dst pm = true) : decode (encodeTwo opcode op1 op2 dst pm) = mk op1 op2 dst pm := by
  obtain ⟨hop, h1, h2, hd, hpm⟩ := encodeTwo_fields opcode op1 op2 dst pm
  simp only [wfTwo, Bool.and_eq_true, bne_iff_ne] at hwf
  obtain ⟨⟨hp, hfit⟩, hwfpm⟩ := hwf
  apply decode_of_ok
  rw [decodeWord_two (congrArg BitVec.toNat hop) hf]
  simp only [decodeTwo, h1, h2, hd, hpm, AluSrc.ofCode1_code hp, AluSrc.ofCode_code, AluDst.ofCode_code hfit,
    decodePar_encodePar hwfpm, ok_bind]

/-- ASHL is read back (R153). -/
theorem decode_encodeShift {op1 op2 : AluSrc} {dst : AluDst} {pm : ParMove} (hwf : wfShift op1 op2 dst pm = true) :
    decode (encodeTwo 10#4 op1 op2 dst pm) = .ashl op1 op2 dst pm := by
  obtain ⟨hop, h1, h2, hd, hpm⟩ := encodeTwo_fields 10#4 op1 op2 dst pm
  simp only [wfShift, Bool.and_eq_true, bne_iff_ne, Bool.not_eq_true'] at hwf
  obtain ⟨⟨⟨hp, hnarrow⟩, hfit⟩, hwfpm⟩ := hwf
  apply decode_of_ok
  rw [decodeWord_shift (congrArg BitVec.toNat hop)]
  simp only [decodeShift, h1, h2, hd, hpm, AluSrc.ofCode1_code hp, AluSrc.ofCode_code, AluDst.ofCode_code hfit,
    decodePar_encodePar hwfpm, ok_bind, hnarrow, Bool.false_eq_true, if_false]

/-- MAC and MSU are read back (R109). -/
theorem decode_encodeMac {opcode : BitVec 4} {mk : Reg16 → MulMode → Reg16 → AccName → ParMove → Instr}
    (hf : mulAccForm opcode.toNat = some mk) (op1 : Reg16) (mode : MulMode) (op2 : Reg16) (q : AccName) {pm : ParMove}
    (hwf : pm.wf = true) : decode (encodeMac opcode op1 mode op2 q pm) = mk op1 mode op2 q pm := by
  obtain ⟨hop, h1, hm, h2, hq, hpm⟩ := encodeMac_fields opcode op1 mode op2 q pm
  apply decode_of_ok
  rw [decodeWord_mac (congrArg BitVec.toNat hop) hf]
  simp only [decodeMac, h1, hm, h2, hq, hpm, accOfResult_resultCode, decodePar_encodePar hwf, ok_bind,
    Reg16.ofCode_code, MulMode.ofCode_code]

/-- The single-operand codes 1110 and 1111 are both MUL: bit 24 belongs to the mode (R109). -/
theorem encodeMul_single (mode : MulMode) (op1 op2 : Reg16) (pm : ParMove) :
    14 ≤ ((encodeMul mode op1 op2 pm).extractLsb' 24 4).toNat := by
  have hcode : (encodeMul mode op1 op2 pm).extractLsb' 24 4 = (0x7F#7 ++ mode.code).extractLsb' 1 4 := by
    simp (disch := decide) only [encodeMul, extract_append_high, Nat.reduceSub]
  rw [hcode]
  cases mode <;> decide

/-- MUL is read back (R109). -/
theorem decode_encodeMul (mode : MulMode) (op1 op2 : Reg16) {pm : ParMove} (hwf : pm.wf = true) :
    decode (encodeMul mode op1 op2 pm) = .mul mode op1 op2 pm := by
  obtain ⟨hop, hm, h2, h1, hpm⟩ := encodeMul_fields mode op1 op2 pm
  apply decode_of_ok
  rw [decodeWord_single (congrArg BitVec.toNat (extract_of_extract hop 3 4 (by decide))),
    decodeSingle_mul (encodeMul_single mode op1 op2 pm)]
  simp only [decodeMul, hm, h1, h2, hpm, decodePar_encodePar hwf, ok_bind, Reg16.ofCode_code, MulMode.ofCode_code]

/-- A single-operand instruction whose result has the operand's width is read back (R108, R170). -/
theorem decode_encodeOne {single : BitVec 4} {mk : AluSrc → AluDst → ParMove → Instr}
    (hf : oneForm single.toNat = some mk) {op2 : AluSrc} {dst : AluDst} {pm : ParMove} (hwf : wfOne op2 dst pm = true) :
    decode (encodeOne single op2 dst.code pm) = mk op2 dst pm := by
  obtain ⟨hop, hs, h2, hd, hpm⟩ := encodeOne_fields single op2 dst.code pm
  simp only [wfOne, Bool.and_eq_true] at hwf
  obtain ⟨hfit, hwfpm⟩ := hwf
  apply decode_of_ok
  rw [decodeWord_single (congrArg BitVec.toNat hop), decodeSingle_one (congrArg BitVec.toNat hs) hf]
  simp only [decodeOne, h2, hd, hpm, AluSrc.ofCode_code, AluDst.ofCode_code hfit, decodePar_encodePar hwfpm, ok_bind]

/-- EXP and RND are read back (R108, R170). -/
theorem decode_encodeOne16 {single : BitVec 4} {mk : AluSrc → Reg16 → ParMove → Instr}
    (hf : one16Form single.toNat = some mk) (op2 : AluSrc) (dst : Reg16) {pm : ParMove} (hwf : pm.wf = true) :
    decode (encodeOne single op2 dst.code pm) = mk op2 dst pm := by
  obtain ⟨hop, hs, h2, hd, hpm⟩ := encodeOne_fields single op2 dst.code pm
  apply decode_of_ok
  rw [decodeWord_single (congrArg BitVec.toNat hop), decodeSingle_one16 (congrArg BitVec.toNat hs) hf]
  simp only [decodeOne16, h2, hd, hpm, AluSrc.ofCode_code, Reg16.ofCode_code, decodePar_encodePar hwf, ok_bind]

/-- SAT is read back (R178). -/
theorem decode_encodeSat (op2 : AluSrc) (q : AccName) {pm : ParMove} (hwf : pm.wf = true) :
    decode (encodeOne 6#4 op2 q.resultCode pm) = .sat op2 q pm := by
  obtain ⟨hop, hs, h2, hq, hpm⟩ := encodeOne_fields 6#4 op2 q.resultCode pm
  apply decode_of_ok
  rw [decodeWord_single (congrArg BitVec.toNat hop), decodeSingle_sat (congrArg BitVec.toNat hs)]
  simp only [decodeSat, h2, hq, hpm, AluSrc.ofCode_code, accOfResult_resultCode, decodePar_encodePar hwf, ok_bind]

/-- A move that stands alone is read back under the arithmetic NOP (R122, R176). -/
theorem decode_encodeLone {pm : ParMove} (hwf : pm.wf = true) : decode (encodeLone pm) = ofNopMove pm := by
  obtain ⟨hop, hpm⟩ := encodeLone_fields pm
  apply decode_of_ok
  rw [decodeWord_single (congrArg BitVec.toNat (extract_of_extract hop 4 4 (by decide))),
    decodeSingle_nop (congrArg BitVec.toNat (extract_of_extract hop 0 4 (by decide))), hpm, decodePar_encodePar hwf]
  rfl

/-! ## The constant load, the control instructions and the double full move -/

/-- LDC is read back (R94). -/
theorem decode_encode_ldc (c : Word) (r : MoveReg) : decode (encode (.ldc c r)) = .ldc c r := by
  obtain ⟨hop, hc, hr⟩ : (encode (.ldc c r)).extractLsb' 28 4 = 0#4 ∧ (encode (.ldc c r)).extractLsb' 6 16 = c ∧
      (encode (.ldc c r)).extractLsb' 0 6 = r.code := by
    simp (disch := decide) only [encode, extract_append_high, extract_append_low, extract_all, Nat.reduceSub, and_self,
      and_true]
    rfl
  apply decode_of_ok
  rw [decodeWord_ldc (le_of_eq_of_le (congrArg BitVec.toNat hop) (by decide))]
  simp only [decodeLdc, hc, hr, MoveReg.ofCode_code, ok_bind]

/-- A control instruction by its first eight bits (R95). -/
theorem decode_of_control {w : Word32} {i : Instr} {code : BitVec 4} (h : w.extractLsb' 24 8 = 2#4 ++ code)
    (hi : (w.extractLsb' 24 4).toNat = code.toNat → decodeControl w = .ok i) : decode w = i := by
  have hop : w.extractLsb' 28 4 = 2#4 := (extract_of_extract h 4 4 (by decide)).trans
    ((extract_append_high (2#4) code (by decide)).trans (extract_all _))
  have hcode : w.extractLsb' 24 4 = code := (extract_of_extract h 0 4 (by decide)).trans
    ((extract_append_low (2#4) code (by decide)).trans (extract_all _))
  apply decode_of_ok
  rw [decodeWord_control (congrArg BitVec.toNat hop)]
  exact hi (congrArg BitVec.toNat hcode)

theorem decode_encode_jrcc (cond : Cond) : decode (encode (.jrcc cond)) = .jrcc cond := by
  cases cond <;> rfl

theorem decode_encode_jrccIn (n : IReg) (cond : Cond) : decode (encode (.jrccIn n cond)) = .jrccIn n cond := by
  obtain ⟨hop, hbit, hn, hc⟩ : (encode (.jrccIn n cond)).extractLsb' 24 8 = 2#4 ++ 0#4 ∧
      (encode (.jrccIn n cond)).getLsbD 23 = true ∧ (encode (.jrccIn n cond)).extractLsb' 6 3 = n.code ∧
      (encode (.jrccIn n cond)).extractLsb' 0 6 = cond.code := by
    simp (disch := decide) only [encode, extract_append_high, extract_append_low, extract_all, getLsbD_append_high,
      getLsbD_append_low, Nat.reduceSub, and_true]
    decide
  refine decode_of_control hop fun hcode => ?_
  rw [decodeControl_jr hcode, hbit, hn, hc, Cond.ofCode_code, IReg.ofCode_code]
  rfl

theorem decode_encode_retiIn (n : IReg) : decode (encode (.retiIn n)) = .retiIn n := by
  cases n <;> rfl

theorem decode_encode_resp (op1 op2 : Reg16) : decode (encode (.resp op1 op2)) = .resp op1 op2 := by
  obtain ⟨hop, h2, h1⟩ : (encode (.resp op1 op2)).extractLsb' 24 8 = 2#4 ++ 2#4 ∧
      (encode (.resp op1 op2)).extractLsb' 20 3 = op2.code ∧ (encode (.resp op1 op2)).extractLsb' 17 3 = op1.code := by
    simp (disch := decide) only [encode, extract_append_high, extract_append_low, extract_all, Nat.reduceSub, and_true]
    decide
  refine decode_of_control hop fun hcode => ?_
  rw [decodeControl_resp hcode, h1, h2, Reg16.ofCode_code, Reg16.ofCode_code]

/-- LOOP is read back: its count register has a code of five bits (R99). -/
theorem decode_encode_loop {cnt : MoveReg} (h : cnt.loopCount = true) (e : Word) :
    decode (encode (.loop cnt e)) = .loop cnt e := by
  obtain ⟨hop, he, hr⟩ : (encode (.loop cnt e)).extractLsb' 24 8 = 2#4 ++ 4#4 ∧
      (encode (.loop cnt e)).extractLsb' 6 16 = e ∧
      (encode (.loop cnt e)).extractLsb' 0 5 = cnt.code.extractLsb' 0 5 := by
    simp (disch := decide) only [encode, extract_append_high, extract_append_low, extract_all, Nat.reduceSub, and_true]
    decide
  refine decode_of_control hop fun hcode => ?_
  rw [decodeControl_loop (le_of_le_of_eq (by decide) hcode.symm) (le_of_eq_of_le hcode (by decide))]
  simp only [decodeLoop, he, hr, MoveReg.ofCode_loopCode h, ok_bind]

theorem encodeJump_fields (code : BitVec 4) (addr : Word) (cond : Cond) :
    (encodeJump code addr cond).extractLsb' 24 8 = 2#4 ++ code ∧ (encodeJump code addr cond).extractLsb' 6 16 = addr ∧
    (encodeJump code addr cond).extractLsb' 0 6 = cond.code := by
  simp (disch := decide) only [encodeJump, extract_append_high, extract_append_low, extract_all, Nat.reduceSub,
    and_self]

theorem decode_encode_jcc (addr : Word) (cond : Cond) : decode (encodeJump 8#4 addr cond) = .jcc addr cond := by
  obtain ⟨hop, ha, hc⟩ := encodeJump_fields 8#4 addr cond
  refine decode_of_control hop fun hcode => ?_
  rw [decodeControl_jcc hcode, ha, hc, Cond.ofCode_code]
  rfl

theorem decode_encode_callcc (addr : Word) (cond : Cond) : decode (encodeJump 9#4 addr cond) = .callcc addr cond := by
  obtain ⟨hop, ha, hc⟩ := encodeJump_fields 9#4 addr cond
  refine decode_of_control hop fun hcode => ?_
  rw [decodeControl_callcc hcode, ha, hc, Cond.ofCode_code]
  rfl

theorem decode_encode_jmpi (addr : Word) (mm : JmpiMod) (n : IReg) :
    decode (encode (.jmpi addr mm n)) = .jmpi addr mm n := by
  obtain ⟨hop, ha, hm, hn⟩ : (encode (.jmpi addr mm n)).extractLsb' 24 8 = 2#4 ++ 10#4 ∧
      (encode (.jmpi addr mm n)).extractLsb' 6 16 = addr ∧ (encode (.jmpi addr mm n)).extractLsb' 3 2 = mm.code ∧
      (encode (.jmpi addr mm n)).extractLsb' 0 3 = n.code := by
    simp (disch := decide) only [encode, extract_append_high, extract_append_low, extract_all, Nat.reduceSub, and_self]
  refine decode_of_control hop fun hcode => ?_
  rw [decodeControl_jmpi hcode, ha, hm, hn, JmpiMod.ofCode_code, IReg.ofCode_code]
  rfl

theorem decode_encode_mvx (xs xd ys yd : MoveReg) :
    decode (encode (.mvxMvyDouble xs xd ys yd)) = .mvxMvyDouble xs xd ys yd := by
  obtain ⟨hop, hxs, hxd, hys, hyd⟩ : (encode (.mvxMvyDouble xs xd ys yd)).extractLsb' 24 8 = 2#4 ++ 11#4 ∧
      (encode (.mvxMvyDouble xs xd ys yd)).extractLsb' 18 6 = xs.code ∧
      (encode (.mvxMvyDouble xs xd ys yd)).extractLsb' 12 6 = xd.code ∧
      (encode (.mvxMvyDouble xs xd ys yd)).extractLsb' 6 6 = ys.code ∧
      (encode (.mvxMvyDouble xs xd ys yd)).extractLsb' 0 6 = yd.code := by
    simp (disch := decide) only [encode, extract_append_high, extract_append_low, extract_all, Nat.reduceSub, and_true]
    decide
  refine decode_of_control hop fun hcode => ?_
  rw [decodeControl_mvx hcode]
  simp only [hxs, hxd, hys, hyd, MoveReg.ofCode_code, ok_bind]

/-- A double full move is read back (R104). -/
theorem decode_encode_double {x y : Option FullMove} (hx : wfHalf x = true) (hy : wfHalf y = true) :
    decode (encode (.doubleFull x y)) = .doubleFull x y := by
  obtain ⟨hop, h1, h2⟩ : (encode (.doubleFull x y)).extractLsb' 28 4 = 3#4 ∧
      (encode (.doubleFull x y)).extractLsb' 14 14 = encodeHalf x ∧
      (encode (.doubleFull x y)).extractLsb' 0 14 = encodeHalf y := by
    simp (disch := decide) only [encode, extract_append_high, extract_append_low, extract_all, Nat.reduceSub, and_self]
  apply decode_of_ok
  rw [decodeWord_double (congrArg BitVec.toNat hop)]
  simp only [h1, h2, decodeFull_encodeHalf hx, decodeFull_encodeHalf hy, ok_bind]

/-- Settles O1, format by format; a second name is encoded as the instruction it names. -/
theorem decodeOfEncodeGivesInstructionBack : Obligations.DecodeOfEncodeGivesInstructionBack := by
  intro i hwf
  cases i with
  | ldc c r => exact decode_encode_ldc c r
  | jrcc cond => exact decode_encode_jrcc cond
  | jrccIn n cond => exact decode_encode_jrccIn n cond
  | reti => rfl
  | retiIn n => exact decode_encode_retiIn n
  | resp op1 op2 => exact decode_encode_resp op1 op2
  | loop cnt e => exact decode_encode_loop hwf e
  | jcc addr cond => exact decode_encode_jcc addr cond
  | callcc addr cond => exact decode_encode_callcc addr cond
  | jmpi addr mm n => exact decode_encode_jmpi addr mm n
  | mvxMvyDouble xs xd ys yd => exact decode_encode_mvx xs xd ys yd
  | halt => rfl
  | doubleFull x y =>
    obtain ⟨hx, hy⟩ := (Bool.and_eq_true _ _).mp hwf
    exact decode_encode_double hx hy
  | add op1 op2 dst pm => exact decode_encodeTwo rfl hwf
  | sub op1 op2 dst pm => exact decode_encodeTwo rfl hwf
  | addc op1 op2 dst pm => exact decode_encodeTwo rfl hwf
  | subc op1 op2 dst pm => exact decode_encodeTwo rfl hwf
  | ashl op1 op2 dst pm => exact decode_encodeShift hwf
  | and op1 op2 dst pm => exact decode_encodeTwo rfl hwf
  | or op1 op2 dst pm => exact decode_encodeTwo rfl hwf
  | xor op1 op2 dst pm => exact decode_encodeTwo rfl hwf
  | mac op1 mode op2 q pm => exact decode_encodeMac rfl op1 mode op2 q hwf
  | msu op1 mode op2 q pm => exact decode_encodeMac rfl op1 mode op2 q hwf
  | mul mode op1 op2 pm => exact decode_encodeMul mode op1 op2 hwf
  | abs op2 dst pm => exact decode_encodeOne rfl hwf
  | asr op2 dst pm => exact decode_encodeOne rfl hwf
  | lsr op2 dst pm => exact decode_encodeOne rfl hwf
  | lsrc op2 dst pm => exact decode_encodeOne rfl hwf
  | exp op2 dst pm => exact decode_encodeOne16 rfl op2 dst hwf
  | sat op2 dst pm => exact decode_encodeSat op2 dst hwf
  | rnd op2 dst pm => exact decode_encodeOne16 rfl op2 dst hwf
  | nop => exact decode_encodeLone (pm := .none) rfl
  | ldxFull n p r => exact decode_encodeLone (pm := .full .x ⟨false, n, p, r⟩) hwf
  | stxFull n p r => exact decode_encodeLone (pm := .full .x ⟨true, n, p, r⟩) hwf
  | ldyFull n p r => exact decode_encodeLone (pm := .full .y ⟨false, n, p, r⟩) hwf
  | styFull n p r => exact decode_encodeLone (pm := .full .y ⟨true, n, p, r⟩) hwf
  | twoShort x y => exact decode_encodeLone (pm := .short x y) rfl
  | mvxParallel src dst => exact decode_encodeLone (pm := .reg src dst) rfl
  | ldxLong n r => exact decode_encodeLone (pm := .longX false n r) rfl
  | stxLong n r => exact decode_encodeLone (pm := .longX true n r) rfl
  | ldi n p q => exact decode_encodeLone (pm := .ibus false n p q) rfl
  | sti n p q => exact decode_encodeLone (pm := .ibus true n p q) rfl
  | mulss op1 op2 pm => exact decode_encodeMul .ss op1 op2 hwf
  | mulsu op1 op2 pm => exact decode_encodeMul .su op1 op2 hwf
  | mulus op1 op2 pm => exact decode_encodeMul .us op1 op2 hwf
  | muluu op1 op2 pm => exact decode_encodeMul .uu op1 op2 hwf
  | lsl op dst pm => exact decode_encodeTwo rfl hwf
  | lslc op dst pm => exact decode_encodeTwo rfl hwf
  | not op2 dst pm => exact decode_encodeTwo rfl (Machine.wfTwo_ones_of_wfOne hwf)
  | addNullP q pm => exact decode_encodeTwo rfl (Machine.wfTwo_null_p hwf)
  | j addr => exact decode_encode_jcc addr .always
  | call addr => exact decode_encode_callcc addr .always
  | jr => exact decode_encode_jrcc .always
  | nopTotal => exact decode_encode_ldc 0#16 .nop
  | reserved why w => cases hwf

end Sys2Proof

/-! PROOF. The family 30_encoding: what the decoder answers is well-formed, and what it reserves. -/

namespace Sys2Proof

/-! ## Totality: what is decoded is well-formed -/

/-- Whatever a decoder answers has the property; a reserved field answers nothing. -/
def Answers {α : Type} (P : α → Prop) (e : Except ReservedWhy α) : Prop := ∀ a, e = .ok a → P a

theorem Answers.ok {α : Type} {P : α → Prop} {a : α} (h : P a) : Answers P (.ok a) := by
  rintro _ ⟨⟩; exact h

theorem Answers.error {α : Type} {P : α → Prop} (why : ReservedWhy) : Answers P (.error why) :=
  fun _ h => by cases h

theorem Answers.trivial {α : Type} (e : Except ReservedWhy α) : Answers (fun _ => True) e := fun _ _ => True.intro

theorem Answers.bind {α β : Type} {P : α → Prop} {Q : β → Prop} {e : Except ReservedWhy α}
    {f : α → Except ReservedWhy β} (he : Answers P e) (hf : ∀ a, P a → Answers Q (f a)) : Answers Q (e >>= f) := by
  cases e with
  | ok a => exact hf a (he a rfl)
  | error why => exact .error why

/-- Where a decoder answers an instruction, an encoding exists for it (R105 to R120). -/
def DecodesToWf (e : Except ReservedWhy Instr) : Prop := Answers Instr.WellFormed e

theorem AluSrc.ofCode1_answers (c : BitVec 4) : Answers (· ≠ .p) (AluSrc.ofCode1 c) := by
  refine .bind (.trivial _) fun o _ => ?_
  split
  · exact .error _
  · rename_i hp; exact .ok hp

theorem AluDst.ofCode_answers (wide : Bool) (c : BitVec 3) :
    Answers (fun dst => resultFits wide dst = true) (AluDst.ofCode wide c) := by
  cases wide with
  | true => exact .bind (.trivial _) fun q _ => .ok rfl
  | false => exact .ok rfl

/-- A code of five bits names no guard register, no Move NOP and no interrupt page register (R99). -/
theorem MoveReg.ofCode_answers_loopCount (c : BitVec 5) :
    Answers (fun r => r.loopCount = true) (MoveReg.ofCode (0#1 ++ c)) := by
  have key : ∀ c : BitVec 5, (MoveReg.ofCode (0#1 ++ c)).toOption.all MoveReg.loopCount = true := by decide
  intro r hr
  have := key c
  rwa [hr] at this

theorem decodeFull_answers (f : BitVec 14) : Answers (fun h => wfHalf h = true) (decodeFull f) := by
  refine .bind (.trivial _) fun r _ => ?_
  split
  · exact .ok rfl
  · rename_i hr; exact .ok (by simpa [wfHalf, FullMove.wf] using hr)

theorem ofFull_wf (bus : Bus) {h : Option FullMove} (hwf : wfHalf h = true) : (ParMove.ofFull bus h).wf = true := by
  cases h with
  | none => rfl
  | some m => exact hwf

theorem decodePar_answers (f : BitVec 17) : Answers (fun pm => pm.wf = true) (decodePar f) := by
  unfold decodePar
  split
  · exact .ok rfl
  · split
    · exact .bind (decodeFull_answers _) fun m hm => .ok (ofFull_wf .x hm)
    · exact .bind (decodeFull_answers _) fun m hm => .ok (ofFull_wf .y hm)
    · split
      · exact .bind (.trivial _) fun src _ => .bind (.trivial _) fun dst _ => .ok rfl
      · split
        · exact .bind (.trivial _) fun r _ => .ok rfl
        · split
          · exact .ok rfl
          · exact .error _
    · exact .error _

theorem ofNopMove_wf {pm : ParMove} (h : pm.wf = true) : (ofNopMove pm).WellFormed := by
  cases pm with
  | full bus m => obtain ⟨store, n, p, r⟩ := m; cases bus <;> cases store <;> exact h
  | longX store n r => cases store <;> rfl
  | ibus store n p q => cases store <;> rfl
  | _ => rfl

theorem decodeTwo_wf {mk : AluSrc → AluSrc → AluDst → ParMove → Instr} (w : Word32)
    (h : ∀ o1 o2 d pm, wfTwo o1 o2 d pm = true → (mk o1 o2 d pm).WellFormed) : DecodesToWf (decodeTwo mk w) :=
  .bind (AluSrc.ofCode1_answers _) fun o1 hp => .bind (.trivial _) fun o2 _ =>
    .bind (AluDst.ofCode_answers _ _) fun d hd => .bind (decodePar_answers _) fun pm hpm =>
      .ok (h o1 o2 d pm (by simp [wfTwo, hp, hd, hpm]))

theorem decodeShift_wf (w : Word32) : DecodesToWf (decodeShift w) := by
  refine .bind (AluSrc.ofCode1_answers _) fun o1 hp => .bind (.trivial _) fun o2 _ => ?_
  split
  · exact .error _
  · rename_i hnarrow
    exact .bind (AluDst.ofCode_answers _ _) fun d hd => .bind (decodePar_answers _) fun pm hpm =>
      .ok (by simp [Instr.WellFormed, Instr.wf, wfShift, hp, hd, hpm, hnarrow])

theorem decodeMac_wf {mk : Reg16 → MulMode → Reg16 → AccName → ParMove → Instr} (w : Word32)
    (h : ∀ op1 mode op2 q pm, pm.wf = true → (mk op1 mode op2 q pm).WellFormed) : DecodesToWf (decodeMac mk w) :=
  .bind (.trivial _) fun q _ => .bind (decodePar_answers _) fun pm hpm => .ok (h _ _ _ q pm hpm)

theorem decodeOne_wf {mk : AluSrc → AluDst → ParMove → Instr} (w : Word32)
    (h : ∀ o d pm, wfOne o d pm = true → (mk o d pm).WellFormed) : DecodesToWf (decodeOne mk w) :=
  .bind (.trivial _) fun o _ => .bind (AluDst.ofCode_answers _ _) fun d hd => .bind (decodePar_answers _) fun pm hpm =>
    .ok (h o d pm (by simp [wfOne, hd, hpm]))

theorem decodeOne16_wf {mk : AluSrc → Reg16 → ParMove → Instr} (w : Word32)
    (h : ∀ o r pm, pm.wf = true → (mk o r pm).WellFormed) : DecodesToWf (decodeOne16 mk w) :=
  .bind (.trivial _) fun o _ => .bind (decodePar_answers _) fun pm hpm => .ok (h o _ pm hpm)

theorem decodeSat_wf (w : Word32) : DecodesToWf (decodeSat w) :=
  .bind (.trivial _) fun _ _ => .bind (.trivial _) fun _ _ => .bind (decodePar_answers _) fun _ hpm => .ok hpm

theorem decodeMul_wf (w : Word32) : DecodesToWf (decodeMul w) := .bind (decodePar_answers _) fun _ hpm => .ok hpm

theorem decodeSingle_wf (w : Word32) : DecodesToWf (decodeSingle w) := by
  unfold decodeSingle
  split
  · exact decodeOne_wf w fun _ _ _ h => h
  · exact decodeOne_wf w fun _ _ _ h => h
  · exact decodeOne_wf w fun _ _ _ h => h
  · exact decodeOne_wf w fun _ _ _ h => h
  · exact .bind (decodePar_answers _) fun pm hpm => .ok (ofNopMove_wf hpm)
  · exact decodeOne16_wf w fun _ _ _ h => h
  · exact decodeSat_wf w
  · exact decodeOne16_wf w fun _ _ _ h => h
  · exact decodeMul_wf w
  · exact decodeMul_wf w
  · exact .error _

theorem decodeLoop_wf (w : Word32) : DecodesToWf (decodeLoop w) :=
  .bind (MoveReg.ofCode_answers_loopCount _) fun _ hr => .ok hr

theorem decodeControl_wf (w : Word32) : DecodesToWf (decodeControl w) := by
  unfold decodeControl
  split
  · exact .bind (.trivial _) fun cond _ => .ok (by split <;> rfl)
  · exact .ok (by split <;> rfl)
  · exact .ok rfl
  · exact decodeLoop_wf w
  · exact decodeLoop_wf w
  · exact decodeLoop_wf w
  · exact decodeLoop_wf w
  · exact .bind (.trivial _) fun _ _ => .ok rfl
  · exact .bind (.trivial _) fun _ _ => .ok rfl
  · exact .bind (.trivial _) fun _ _ => .ok rfl
  · exact .bind (.trivial _) fun _ _ => .bind (.trivial _) fun _ _ => .bind (.trivial _) fun _ _ =>
      .bind (.trivial _) fun _ _ => .ok rfl
  · exact .ok rfl
  · exact .error _

theorem decodeLdc_wf (w : Word32) : DecodesToWf (decodeLdc w) := .bind (.trivial _) fun _ _ => .ok rfl

/-- Whatever word is not reserved is read as an instruction that an encoding exists for (R120). -/
theorem decodeWord_wf (w : Word32) : DecodesToWf (decodeWord w) := by
  unfold decodeWord
  split
  · exact decodeLdc_wf w
  · exact decodeLdc_wf w
  · exact decodeControl_wf w
  · exact .bind (decodeFull_answers _) fun x hx => .bind (decodeFull_answers _) fun y hy =>
      .ok (by simp [Instr.WellFormed, Instr.wf, hx, hy])
  · exact decodeTwo_wf w fun _ _ _ _ h => h
  · exact decodeMac_wf w fun _ _ _ _ _ h => h
  · exact decodeTwo_wf w fun _ _ _ _ h => h
  · exact decodeMac_wf w fun _ _ _ _ _ h => h
  · exact decodeTwo_wf w fun _ _ _ _ h => h
  · exact decodeTwo_wf w fun _ _ _ _ h => h
  · exact decodeShift_wf w
  · exact decodeTwo_wf w fun _ _ _ _ h => h
  · exact decodeTwo_wf w fun _ _ _ _ h => h
  · exact decodeTwo_wf w fun _ _ _ _ h => h
  · exact .error _
  · exact decodeSingle_wf w

theorem decode_of_error {w : Word32} {why : ReservedWhy} (h : decodeWord w = .error why) :
    decode w = .reserved why w := by
  simp only [decode, h]

/-- Settles O2: the decoder answers well-formed instructions only, and no second name. -/
theorem everyWordDecodesOrIsReserved : Obligations.EveryWordDecodesOrIsReserved := by
  intro w
  cases h : decodeWord w with
  | error why => exact .inl ⟨why, decode_of_error h⟩
  | ok i =>
    have hwf : i.WellFormed := decodeWord_wf w i h
    exact .inr ⟨(decode_of_ok h).symm ▸ hwf, decode_core w⟩

end Sys2Proof

/-! PROOF. The family 30_encoding: the reserved encodings (R120), and the jump conditions of Table 1 (R118). -/

namespace Sys2Proof

/-! ## Reserved fields -/

/-- A decoder answers no instruction: the word, or the field, is reserved. -/
def Fails {α : Type} (e : Except ReservedWhy α) : Prop := ∃ why, e = .error why

theorem Fails.error {α : Type} (why : ReservedWhy) : Fails (.error why : Except ReservedWhy α) := ⟨why, rfl⟩

theorem Fails.of_toBool {α : Type} {e : Except ReservedWhy α} (h : e.toBool = false) : Fails e := by
  cases e with
  | ok a => cases h
  | error why => exact .error why

/-- A reserved field makes the word reserved. -/
theorem Fails.head {α β : Type} {e : Except ReservedWhy α} {f : α → Except ReservedWhy β} (h : Fails e) :
    Fails (e >>= f) := by
  obtain ⟨why, rfl⟩ := h
  exact .error why

/-- Whatever the first field is, what follows it makes the word reserved. -/
theorem Fails.bind {α β : Type} {e : Except ReservedWhy α} {f : α → Except ReservedWhy β}
    (h : ∀ a, e = .ok a → Fails (f a)) : Fails (e >>= f) := by
  cases e with
  | ok a => exact h a rfl
  | error why => exact .error why

/-- The codes that Table 10 does not list (R113). -/
def NoMoveReg (c : Nat) : Prop := c = 11 ∨ (24 ≤ c ∧ c ≤ 31) ∨ (37 ≤ c ∧ c ≤ 61)

theorem MoveReg.ofCode_fails {c : BitVec 6} (h : NoMoveReg c.toNat) : Fails (MoveReg.ofCode c) := by
  have key : ∀ c : BitVec 6, (c.toNat = 11 ∨ (24 ≤ c.toNat ∧ c.toNat ≤ 31) ∨ (37 ≤ c.toNat ∧ c.toNat ≤ 61)) →
      (MoveReg.ofCode c).toBool = false := by decide
  exact .of_toBool (key c h)

/-- The codes that Table 1 does not list (R118). -/
theorem Cond.ofCode_fails {c : BitVec 6}
    (h : ¬(c.toNat ≤ 5 ∨ c.toNat = 8 ∨ c.toNat = 9 ∨ (17 ≤ c.toNat ∧ c.toNat ≤ 21) ∨ c.toNat = 24 ∨ c.toNat = 25)) :
    Fails (Cond.ofCode c) := by
  have key : ∀ c : BitVec 6,
      ¬(c.toNat ≤ 5 ∨ c.toNat = 8 ∨ c.toNat = 9 ∨ (17 ≤ c.toNat ∧ c.toNat ≤ 21) ∨ c.toNat = 24 ∨ c.toNat = 25) →
      (Cond.ofCode c).toBool = false := by decide
  exact .of_toBool (key c h)

theorem JmpiMod.ofCode_fails {c : BitVec 2} (h : c.toNat = 2) : Fails (JmpiMod.ofCode c) := by
  rw [show c = 2#2 from BitVec.eq_of_toNat_eq h]
  exact .error .jmpiMode

theorem AluSrc.ofCode_fails {c : BitVec 4} (h : c.toNat = 10) : Fails (AluSrc.ofCode c) := by
  rw [show c = 10#4 from BitVec.eq_of_toNat_eq h]
  exact .error .aluOperand

theorem AluSrc.ofCode1_fails {c : BitVec 4} (h : c.toNat = 10 ∨ c.toNat = 11) : Fails (AluSrc.ofCode1 c) := by
  rcases h with h | h
  · exact .head (AluSrc.ofCode_fails h)
  · rw [show c = 11#4 from BitVec.eq_of_toNat_eq h]
    exact .error .pAsOp1

/-- The codes of P and of the accumulators are the highest of Table 4 (R106). -/
theorem AluSrc.ofCode_is40 {c : BitVec 4} {o : AluSrc} (h : AluSrc.ofCode c = .ok o) :
    o.is40 = decide (11 ≤ c.toNat) := by
  have key : ∀ c : BitVec 4, (AluSrc.ofCode c).toOption.all (fun o => o.is40 == decide (11 ≤ c.toNat)) = true := by
    decide
  have hc := key c
  rw [h] at hc
  exact eq_of_beq hc

theorem AluSrc.ofCode1_is40 {c : BitVec 4} {o : AluSrc} (h : AluSrc.ofCode1 c = .ok o) (hc : 12 ≤ c.toNat) :
    o.is40 = true := by
  have hcode : AluSrc.ofCode c = .ok o := by
    unfold AluSrc.ofCode1 at h
    cases hs : AluSrc.ofCode c with
    | error why => rw [hs] at h; cases h
    | ok o' =>
      rw [hs, ok_bind] at h
      split at h
      · cases h
      · exact h
  rw [AluSrc.ofCode_is40 hcode, decide_eq_true_eq]
  omega

/-- Even result codes name no 40-bit register (R107). -/
theorem accOfResult_fails {w : Word32} (h : w.getLsbD 17 = false) : Fails (accOfResult (w.extractLsb' 17 3)) := by
  have hbit : (w.extractLsb' 17 3).getLsbD 0 = false := (getLsbD_of_extract rfl 0 (by decide)).symm.trans h
  simp only [accOfResult, hbit]
  exact .error .resultCode

theorem AluDst.ofCode_fails {w : Word32} {wide : Bool} (hw : wide = true) (h : w.getLsbD 17 = false) :
    Fails (AluDst.ofCode wide (w.extractLsb' 17 3)) := by
  subst hw
  exact .head (accOfResult_fails h)

theorem decodeFull_fails {f : BitVec 14} (h : NoMoveReg (f.extractLsb' 0 6).toNat) : Fails (decodeFull f) :=
  .head (MoveReg.ofCode_fails h)

/-- The opcodes of the two-operand format, ASHL's among them (R93, R105). -/
def TwoOperandOpcode (n : Nat) : Prop := n = 4 ∨ n = 6 ∨ n = 8 ∨ n = 9 ∨ (10 ≤ n ∧ n ≤ 13)

/-- But for ASHL's each is the opcode of one instruction of that format. -/
theorem TwoOperandOpcode.twoForm {n : Nat} (h : TwoOperandOpcode n) (hne : n ≠ 10) : ∃ mk, twoForm n = some mk := by
  obtain rfl | rfl | rfl | rfl | ⟨hlo, hhi⟩ := h
  · exact ⟨_, rfl⟩
  · exact ⟨_, rfl⟩
  · exact ⟨_, rfl⟩
  · exact ⟨_, rfl⟩
  · obtain rfl | rfl | rfl : n = 11 ∨ n = 12 ∨ n = 13 := by omega
    · exact ⟨_, rfl⟩
    · exact ⟨_, rfl⟩
    · exact ⟨_, rfl⟩

/-! ## Reserved parallel moves (R112, R113) -/

section ParallelMove

variable {w : Word32}

/-- The fields of the parallel move are those of the word. -/
theorem extract_parField (s n : Nat) (hs : s + n ≤ 17) : (w.extractLsb' 0 17).extractLsb' s n = w.extractLsb' s n := by
  have h := extract_of_extract (rfl : w.extractLsb' 0 17 = _) s n hs
  rw [Nat.zero_add] at h
  exact h.symm

theorem decodePar_fails_unlisted (h : (w.extractLsb' 14 3).toNat = 3) : Fails (decodePar (w.extractLsb' 0 17)) := by
  rw [decodePar_unlisted ((extract_parField 14 3 (by decide)).trans (BitVec.eq_of_toNat_eq h))]
  exact .error .parallelMove

theorem decodePar_fails_sub (h : (w.extractLsb' 14 3).toNat = 1) (hc : 6 ≤ (w.extractLsb' 10 4).toNat) :
    Fails (decodePar (w.extractLsb' 0 17)) := by
  have hne : ∀ c : BitVec 4, c.toNat < 6 → w.extractLsb' 10 4 ≠ c := by
    rintro c hlt rfl
    omega
  rw [decodePar_sub ((extract_parField 14 3 (by decide)).trans (BitVec.eq_of_toNat_eq h))
    (extract_parField 10 4 (by decide)) (by omega), if_neg (hne 4#4 (by decide)), if_neg (hne 5#4 (by decide))]
  exact .error .parallelMove

theorem decodePar_fails_full (h : (w.extractLsb' 14 3).toNat = 0 ∨ (w.extractLsb' 14 3).toNat = 2)
    (hr : NoMoveReg (w.extractLsb' 0 6).toNat) : Fails (decodePar (w.extractLsb' 0 17)) := by
  obtain ⟨bus, hbus⟩ : ∃ bus : Bus, w.extractLsb' 14 3 = 0#1 ++ bus.code ++ 0#1 := by
    rcases h with h | h
    · exact ⟨.x, BitVec.eq_of_toNat_eq h⟩
    · exact ⟨.y, BitVec.eq_of_toNat_eq h⟩
  rw [decodePar_full ((extract_parField 14 3 (by decide)).trans hbus), extract_parField 0 14 (by decide)]
  have hreg : (w.extractLsb' 0 14).extractLsb' 0 6 = w.extractLsb' 0 6 :=
    (extract_of_extract (rfl : w.extractLsb' 0 14 = _) 0 6 (by decide)).symm
  exact .head (decodeFull_fails (hreg.symm ▸ hr))

theorem decodePar_fails_reg (h : (w.extractLsb' 12 5).toNat = 4)
    (hr : NoMoveReg (w.extractLsb' 0 6).toNat ∨ NoMoveReg (w.extractLsb' 6 6).toNat) :
    Fails (decodePar (w.extractLsb' 0 17)) := by
  rw [decodePar_reg ((extract_parField 12 5 (by decide)).trans (BitVec.eq_of_toNat_eq h)),
    extract_parField 0 6 (by decide), extract_parField 6 6 (by decide)]
  rcases hr with hr | hr
  · exact .bind fun _ _ => .head (MoveReg.ofCode_fails hr)
  · exact .head (MoveReg.ofCode_fails hr)

theorem decodePar_fails_longX (h : (w.extractLsb' 10 7).toNat = 20) (hr : NoMoveReg (w.extractLsb' 0 6).toNat) :
    Fails (decodePar (w.extractLsb' 0 17)) := by
  have hpat : (w.extractLsb' 0 17).extractLsb' 10 7 = 20#7 :=
    (extract_parField 10 7 (by decide)).trans (BitVec.eq_of_toNat_eq h)
  rw [decodePar_sub (extract_of_extract hpat 4 3 (by decide)) (extract_of_extract hpat 0 4 (by decide)) (by decide),
    extract_parField 0 6 (by decide)]
  exact .head (MoveReg.ofCode_fails hr)

/-! ## Reserved operands, format by format -/

variable {mkTwo : AluSrc → AluSrc → AluDst → ParMove → Instr}
  {mkMac : Reg16 → MulMode → Reg16 → AccName → ParMove → Instr}
  {mkOne : AluSrc → AluDst → ParMove → Instr} {mkOne16 : AluSrc → Reg16 → ParMove → Instr}

/-- The operand fields of the two-operand format (R106). -/
theorem operands_fail {α : Type} {c1 c2 : BitVec 4} {g : AluSrc → AluSrc → Except ReservedWhy α}
    (h : c1.toNat = 10 ∨ c1.toNat = 11 ∨ c2.toNat = 10) :
    Fails (AluSrc.ofCode1 c1 >>= fun o1 => AluSrc.ofCode c2 >>= g o1) := by
  rcases h with h | h | h
  · exact .head (AluSrc.ofCode1_fails (.inl h))
  · exact .head (AluSrc.ofCode1_fails (.inr h))
  · exact .bind fun _ _ => .head (AluSrc.ofCode_fails h)

/-- A 40-bit operand makes the operation 40 bits wide (R140). -/
theorem decodeTwo_fails_of_result (h : 12 ≤ (w.extractLsb' 24 4).toNat ∨ 11 ≤ (w.extractLsb' 20 4).toNat)
    (hbit : w.getLsbD 17 = false) : Fails (decodeTwo mkTwo w) := by
  refine .bind fun o1 h1 => .bind fun o2 h2 => .head (AluDst.ofCode_fails ?_ hbit)
  rcases h with h | h
  · rw [AluSrc.ofCode1_is40 h1 h, Bool.true_or]
  · rw [AluSrc.ofCode_is40 h2, decide_eq_true h, Bool.or_true]

/-- The count of ASHL is a 16-bit register (R153). -/
theorem decodeShift_fails_of_count (h : 11 ≤ (w.extractLsb' 20 4).toNat) : Fails (decodeShift w) := by
  refine .bind fun o1 _ => .bind fun o2 h2 => ?_
  rw [if_pos ((AluSrc.ofCode_is40 h2).trans (decide_eq_true h))]
  exact .error .wideShiftCount

theorem decodeShift_fails_of_result (h : 12 ≤ (w.extractLsb' 24 4).toNat) (hbit : w.getLsbD 17 = false) :
    Fails (decodeShift w) := by
  refine .bind fun o1 h1 => .bind fun o2 _ => ?_
  split
  · exact .error .wideShiftCount
  · exact .head (AluDst.ofCode_fails (AluSrc.ofCode1_is40 h1 h) hbit)

theorem decodeMac_fails_of_result (hbit : w.getLsbD 17 = false) : Fails (decodeMac mkMac w) :=
  .head (accOfResult_fails hbit)

theorem decodeOne_fails_of_result (h : 11 ≤ (w.extractLsb' 20 4).toNat) (hbit : w.getLsbD 17 = false) :
    Fails (decodeOne mkOne w) :=
  .bind fun _ h2 => .head (AluDst.ofCode_fails ((AluSrc.ofCode_is40 h2).trans (decide_eq_true h)) hbit)

theorem decodeSat_fails_of_result (hbit : w.getLsbD 17 = false) : Fails (decodeSat w) :=
  .bind fun _ _ => .head (accOfResult_fails hbit)

theorem decodeTwo_fails_of_par (h : Fails (decodePar (w.extractLsb' 0 17))) : Fails (decodeTwo mkTwo w) :=
  .bind fun _ _ => .bind fun _ _ => .bind fun _ _ => .head h

theorem decodeShift_fails_of_par (h : Fails (decodePar (w.extractLsb' 0 17))) : Fails (decodeShift w) := by
  refine .bind fun _ _ => .bind fun _ _ => ?_
  split
  · exact .error .wideShiftCount
  · exact .bind fun _ _ => .head h

theorem decodeMac_fails_of_par (h : Fails (decodePar (w.extractLsb' 0 17))) : Fails (decodeMac mkMac w) :=
  .bind fun _ _ => .head h

theorem decodeOne_fails_of_par (h : Fails (decodePar (w.extractLsb' 0 17))) : Fails (decodeOne mkOne w) :=
  .bind fun _ _ => .bind fun _ _ => .head h

theorem decodeOne16_fails_of_par (h : Fails (decodePar (w.extractLsb' 0 17))) : Fails (decodeOne16 mkOne16 w) :=
  .bind fun _ _ => .head h

theorem decodeSat_fails_of_par (h : Fails (decodePar (w.extractLsb' 0 17))) : Fails (decodeSat w) :=
  .bind fun _ _ => .bind fun _ _ => .head h

/-! ## Reserved words, by opcode -/

theorem decodeSingle_fails_of_code (h : 8 ≤ (w.extractLsb' 24 4).toNat ∧ (w.extractLsb' 24 4).toNat ≤ 13) :
    Fails (decodeSingle w) := by
  unfold decodeSingle
  split
  any_goals omega
  exact .error .singleCode

/-- ABS, ASR, LSR, LSRC, EXP, SAT and RND have an operand field; NOP and MUL do not (R108). -/
theorem decodeSingle_fails_of_operand (hle : (w.extractLsb' 24 4).toNat ≤ 7) (hne : (w.extractLsb' 24 4).toNat ≠ 4)
    (h : (w.extractLsb' 20 4).toNat = 10) : Fails (decodeSingle w) := by
  unfold decodeSingle
  split
  · exact .head (AluSrc.ofCode_fails h)
  · exact .head (AluSrc.ofCode_fails h)
  · exact .head (AluSrc.ofCode_fails h)
  · exact .head (AluSrc.ofCode_fails h)
  · omega
  · exact .head (AluSrc.ofCode_fails h)
  · exact .head (AluSrc.ofCode_fails h)
  · exact .head (AluSrc.ofCode_fails h)
  · omega
  · omega
  · exact .error .singleCode

theorem decodeSingle_fails_of_result (hle : (w.extractLsb' 24 4).toNat ≤ 3) (h : 11 ≤ (w.extractLsb' 20 4).toNat)
    (hbit : w.getLsbD 17 = false) : Fails (decodeSingle w) := by
  obtain ⟨mk, hmk⟩ : ∃ mk, oneForm (w.extractLsb' 24 4).toNat = some mk := by
    generalize (w.extractLsb' 24 4).toNat = n at hle
    interval_cases n <;> exact ⟨_, rfl⟩
  rw [decodeSingle_one rfl hmk]
  exact decodeOne_fails_of_result h hbit

theorem decodeSingle_fails_of_par (h : Fails (decodePar (w.extractLsb' 0 17))) : Fails (decodeSingle w) := by
  unfold decodeSingle
  split
  · exact decodeOne_fails_of_par h
  · exact decodeOne_fails_of_par h
  · exact decodeOne_fails_of_par h
  · exact decodeOne_fails_of_par h
  · exact .head h
  · exact decodeOne16_fails_of_par h
  · exact decodeSat_fails_of_par h
  · exact decodeOne16_fails_of_par h
  · exact .head h
  · exact .head h
  · exact .error .singleCode

theorem decodeControl_fails_of_code
    (h : (w.extractLsb' 24 4).toNat = 3 ∨ (w.extractLsb' 24 4).toNat = 12 ∨ (w.extractLsb' 24 4).toNat = 14 ∨
      (w.extractLsb' 24 4).toNat = 15) : Fails (decodeControl w) := by
  unfold decodeControl
  split
  any_goals omega
  exact .error .controlCode

theorem decodeLoop_fails (h : NoMoveReg (w.extractLsb' 0 5).toNat) : Fails (decodeLoop w) := by
  refine .head (MoveReg.ofCode_fails ?_)
  rwa [BitVec.toNat_append, show (0#1).toNat <<< 5 = 0 from rfl, Nat.zero_or]

/-- JRcc, Jcc and CALLcc hold a condition (R118). -/
theorem decodeControl_fails_of_cond
    (hcode : (w.extractLsb' 24 4).toNat = 0 ∨ (w.extractLsb' 24 4).toNat = 8 ∨ (w.extractLsb' 24 4).toNat = 9)
    (h : Fails (Cond.ofCode (w.extractLsb' 0 6))) : Fails (decodeControl w) := by
  rcases hcode with hcode | hcode | hcode
  · rw [decodeControl_jr hcode]; exact .head h
  · rw [decodeControl_jcc hcode]; exact .head h
  · rw [decodeControl_callcc hcode]; exact .head h

/-- The double register move names four registers (R102). -/
theorem decodeControl_fails_of_mvx (hcode : (w.extractLsb' 24 4).toNat = 11)
    (h : ∃ k < 4, NoMoveReg (w.extractLsb' (6 * k) 6).toNat) : Fails (decodeControl w) := by
  obtain ⟨k, hk, hr⟩ := h
  rw [decodeControl_mvx hcode]
  interval_cases k
  · exact .bind fun _ _ => .bind fun _ _ => .bind fun _ _ => .head (MoveReg.ofCode_fails hr)
  · exact .bind fun _ _ => .bind fun _ _ => .head (MoveReg.ofCode_fails hr)
  · exact .bind fun _ _ => .head (MoveReg.ofCode_fails hr)
  · exact .head (MoveReg.ofCode_fails hr)

theorem decodeWord_fails_of_double (hop : (w.extractLsb' 28 4).toNat = 3)
    (h : NoMoveReg (w.extractLsb' 0 6).toNat ∨ NoMoveReg (w.extractLsb' 14 6).toNat) : Fails (decodeWord w) := by
  have hx : (w.extractLsb' 14 14).extractLsb' 0 6 = w.extractLsb' 14 6 :=
    (extract_of_extract (rfl : w.extractLsb' 14 14 = _) 0 6 (by decide)).symm
  have hy : (w.extractLsb' 0 14).extractLsb' 0 6 = w.extractLsb' 0 6 :=
    (extract_of_extract (rfl : w.extractLsb' 0 14 = _) 0 6 (by decide)).symm
  rw [decodeWord_double hop]
  rcases h with h | h
  · exact .bind fun _ _ => .head (decodeFull_fails (hy.symm ▸ h))
  · exact .head (decodeFull_fails (hx.symm ▸ h))

theorem decodeWord_fails_of_two (hop : TwoOperandOpcode (w.extractLsb' 28 4).toNat)
    (hne : (w.extractLsb' 28 4).toNat ≠ 10) (h : ∀ mk, Fails (decodeTwo mk w)) : Fails (decodeWord w) := by
  obtain ⟨mk, hmk⟩ := hop.twoForm hne
  rw [decodeWord_two rfl hmk]
  exact h mk

theorem decodeWord_fails_of_operand (hop : TwoOperandOpcode (w.extractLsb' 28 4).toNat)
    (h : (w.extractLsb' 24 4).toNat = 10 ∨ (w.extractLsb' 24 4).toNat = 11 ∨ (w.extractLsb' 20 4).toNat = 10) :
    Fails (decodeWord w) := by
  by_cases hshift : (w.extractLsb' 28 4).toNat = 10
  · rw [decodeWord_shift hshift]; exact operands_fail h
  · exact decodeWord_fails_of_two hop hshift fun _ => operands_fail h

theorem decodeWord_fails_of_mac (hop : (w.extractLsb' 28 4).toNat = 5 ∨ (w.extractLsb' 28 4).toNat = 7)
    (hbit : w.getLsbD 17 = false) : Fails (decodeWord w) := by
  rcases hop with hop | hop
  · rw [decodeWord_mac hop rfl]; exact decodeMac_fails_of_result hbit
  · rw [decodeWord_mac hop rfl]; exact decodeMac_fails_of_result hbit

/-- The opcodes 0100 to 1101 and 1111 have a parallel move field (R112). -/
theorem decodeWord_fails_of_par
    (hop : (4 ≤ (w.extractLsb' 28 4).toNat ∧ (w.extractLsb' 28 4).toNat ≤ 13) ∨ (w.extractLsb' 28 4).toNat = 15)
    (h : Fails (decodePar (w.extractLsb' 0 17))) : Fails (decodeWord w) := by
  unfold decodeWord
  split
  · omega
  · omega
  · omega
  · omega
  · exact decodeTwo_fails_of_par h
  · exact decodeMac_fails_of_par h
  · exact decodeTwo_fails_of_par h
  · exact decodeMac_fails_of_par h
  · exact decodeTwo_fails_of_par h
  · exact decodeTwo_fails_of_par h
  · exact decodeShift_fails_of_par h
  · exact decodeTwo_fails_of_par h
  · exact decodeTwo_fails_of_par h
  · exact decodeTwo_fails_of_par h
  · exact .error .opcode
  · exact decodeSingle_fails_of_par h

/-- A field that makes a control instruction reserved makes its word reserved. -/
theorem decodeWord_fails_of_control (hop : (w.extractLsb' 28 4).toNat = 2) (h : Fails (decodeControl w)) :
    Fails (decodeWord w) := by
  rwa [decodeWord_control hop]

/-- The same for opcode 1111. -/
theorem decodeWord_fails_of_single (hop : (w.extractLsb' 28 4).toNat = 15) (h : Fails (decodeSingle w)) :
    Fails (decodeWord w) := by
  rwa [decodeWord_single hop]

/-- The same for ASHL. -/
theorem decodeWord_fails_of_shift (hop : (w.extractLsb' 28 4).toNat = 10) (h : Fails (decodeShift w)) :
    Fails (decodeWord w) := by
  rwa [decodeWord_shift hop]

end ParallelMove

theorem decode_of_fails {w : Word32} (h : Fails (decodeWord w)) : ∃ why, decode w = .reserved why w := by
  obtain ⟨why, h⟩ := h
  exact ⟨why, decode_of_error h⟩

/-- Settles O3, entry by entry of the reserved list. -/
theorem listedWordsAreReserved : Obligations.ListedWordsAreReserved := by
  intro w
  dsimp only
  intro h
  apply decode_of_fails
  rcases h with hop | ⟨hop, hcode⟩ | ⟨hop, hcode⟩ | ⟨hop, h⟩ | ⟨hop, h⟩ | ⟨hop, hne, h, hbit⟩ | ⟨hop, h, hbit⟩ |
    ⟨hop, hbit⟩ | ⟨hop, hle, hne, h⟩ | ⟨hop, hle, h, hbit⟩ | ⟨hop, hcode, hbit⟩ | ⟨hop, h⟩ | ⟨hop, hlo, hhi, h⟩ |
    ⟨hop, hcode, h⟩ | ⟨hop, hcode, h⟩ | ⟨hop, hcode, h⟩ | ⟨hop, h⟩ | ⟨hop, h⟩ | ⟨hop, hpat, h⟩ | ⟨hop, hpat, h⟩ |
    ⟨hop, hpat, h⟩ | ⟨hop, hpat, h⟩
  · rw [decodeWord_reserved hop]; exact .error .opcode
  · exact decodeWord_fails_of_control hop (decodeControl_fails_of_code hcode)
  · exact decodeWord_fails_of_single hop (decodeSingle_fails_of_code hcode)
  · exact decodeWord_fails_of_operand hop h
  · exact decodeWord_fails_of_shift hop (decodeShift_fails_of_count h)
  · exact decodeWord_fails_of_two hop hne fun _ => decodeTwo_fails_of_result h hbit
  · exact decodeWord_fails_of_shift hop (decodeShift_fails_of_result h hbit)
  · exact decodeWord_fails_of_mac hop hbit
  · exact decodeWord_fails_of_single hop (decodeSingle_fails_of_operand hle hne h)
  · exact decodeWord_fails_of_single hop (decodeSingle_fails_of_result hle h hbit)
  · exact decodeWord_fails_of_single hop (decodeSingle_sat hcode ▸ decodeSat_fails_of_result hbit)
  · rw [decodeWord_ldc hop]; exact .head (MoveReg.ofCode_fails h)
  · exact decodeWord_fails_of_control hop (decodeControl_loop hlo hhi ▸ decodeLoop_fails h)
  · exact decodeWord_fails_of_control hop (decodeControl_fails_of_cond hcode (Cond.ofCode_fails h))
  · exact decodeWord_fails_of_control hop (decodeControl_jmpi hcode ▸ .head (JmpiMod.ofCode_fails h))
  · exact decodeWord_fails_of_control hop (decodeControl_fails_of_mvx hcode h)
  · exact decodeWord_fails_of_double hop h
  · exact decodeWord_fails_of_par (hop.imp_right And.left) (decodePar_fails_unlisted h)
  · exact decodeWord_fails_of_par (hop.imp_right And.left) (decodePar_fails_sub hpat h)
  · exact decodeWord_fails_of_par (hop.imp_right And.left) (decodePar_fails_full hpat h)
  · exact decodeWord_fails_of_par (hop.imp_right And.left) (decodePar_fails_reg hpat h)
  · exact decodeWord_fails_of_par (hop.imp_right And.left) (decodePar_fails_longX hpat h)

end Sys2Proof

namespace Sys2Proof.Machine

/-- Settles O4: `exec` has one arm for all reserved words, which stops. -/
theorem reservedEncodingFaults : Obligations.ReservedEncodingFaults := fun _ _ _ => rfl

/-! ## The jump conditions (R118, R265) -/

/-- Exclusive or is being different. -/
theorem State.lessThan_iff (s : State) : s.lessThan = true ↔ s.fN ≠ (s.fV && !s.fS) := by
  unfold State.lessThan
  exact bne_iff_ne

theorem State.lessThan_eq_false_iff (s : State) : s.lessThan = false ↔ s.fN = (s.fV && !s.fS) := by
  rw [← Bool.not_eq_true, s.lessThan_iff, not_ne_iff]

/-- Settles O19: the conditions of one flag by the flag, the signed comparisons by `State.lessThan`. -/
theorem conditionsFollowTableOne : Obligations.ConditionsFollowTableOne := by
  intro s
  have clear : ∀ b : Bool, (!b) = true ↔ b = false := fun b => (Bool.not_eq_true' b).to_iff
  have hge : condHolds s .ge = true ↔ s.fN = (s.fV && !s.fS) := by
    rw [condHolds, Bool.not_eq_true', s.lessThan_eq_false_iff]
  have hle : condHolds s .le = true ↔ s.fN ≠ (s.fV && !s.fS) ∨ s.fZ = true := by
    rw [condHolds, Bool.or_eq_true, s.lessThan_iff]
  have hgt : condHolds s .gt = true ↔ s.fN = (s.fV && !s.fS) ∧ s.fZ = false := by
    rw [condHolds, Bool.not_eq_true', Bool.or_eq_false_iff, s.lessThan_eq_false_iff]
  exact ⟨rfl, .rfl, clear _, .rfl, clear _, .rfl, clear _, .rfl, clear _, .rfl, clear _, s.lessThan_iff, hge, hle, hgt⟩

end Sys2Proof.Machine

/-! PROOF. The family 40_alu_two_operand: every well-formed instruction completes. -/

namespace Sys2Proof.Machine

/-! ## Every instruction with a parallel move field is a `finish` -/

/-- The result is the end of an instruction with its own writes `ws` and the move `pm`, whatever its arithmetic part. -/
def EndsIn (ws : List MoveReg) (pm : ParMove) (s : State) (r : Result) : Prop := ∃ s', r = finish ws pm s s'

/-- A two-operand instruction of a fitting width comes to its end. -/
theorem aluTwo_endsIn {op1 op2 : AluSrc} {dst : AluDst} {pm : ParMove} (hwf : wfTwo op1 op2 dst pm = true)
    (f16 : Word → Word → AluOut 16) (f40 : Word40 → Word40 → AluOut 40) (s : State) :
    EndsIn (writesOfDst dst) pm s (aluTwo f16 f40 op1 op2 dst pm s) := by
  simp only [wfTwo, resultFits, Bool.and_eq_true, bne_iff_ne, beq_iff_eq] at hwf
  obtain ⟨⟨hp, hfit⟩, -⟩ := hwf
  unfold aluTwo
  rw [if_neg hp, ← hfit]
  cases dst with
  | r16 r => exact ⟨_, rfl⟩
  | acc q => exact ⟨_, rfl⟩

/-- A single-operand instruction of a fitting width comes to its end. -/
theorem aluOne_endsIn {op2 : AluSrc} {dst : AluDst} {pm : ParMove} (hwf : wfOne op2 dst pm = true)
    (f16 : Word → AluOut 16) (f40 : Word40 → AluOut 40) (s : State) :
    EndsIn (writesOfDst dst) pm s (aluOne f16 f40 op2 dst pm s) := by
  simp only [wfOne, resultFits, Bool.and_eq_true, beq_iff_eq] at hwf
  obtain ⟨hfit, -⟩ := hwf
  unfold aluOne
  rw [← hfit]
  cases dst with
  | r16 r => exact ⟨_, rfl⟩
  | acc q => exact ⟨_, rfl⟩

/-- ASHL of a fitting width comes to its end, its count in range or not (R153). -/
theorem execAshl_endsIn {op1 op2 : AluSrc} {dst : AluDst} {pm : ParMove} (hwf : wfShift op1 op2 dst pm = true)
    (s : State) : EndsIn (writesOfDst dst) pm s (execAshl op1 op2 dst pm s) := by
  simp only [wfShift, resultFits, Bool.and_eq_true, bne_iff_ne, beq_iff_eq, Bool.not_eq_true'] at hwf
  obtain ⟨⟨⟨hp, hn⟩, hfit⟩, -⟩ := hwf
  unfold execAshl
  rw [if_neg hp, if_neg (by simp [hn]), ← hfit]
  cases dst with
  | r16 r => exact ⟨_, rfl⟩
  | acc q => exact ⟨_, rfl⟩

/-- A well-formed instruction with a parallel move field comes to its end, but for SAT and RND of a 16-bit operand. -/
theorem exec_par_endsIn {i : Instr} (hpar : hasParField i = true) (hwf : i.WellFormed) (hsat : narrowSatRnd i = false)
    (s : State) : EndsIn (ownWrites i) (parOf i) s (exec i s) := by
  cases i with
  | add op1 op2 dst pm | addc op1 op2 dst pm | lsl op dst pm | lslc op dst pm =>
    simp only [exec, execAdd, execAddc, execLsl, execLslc, addForm]
    exact aluTwo_endsIn hwf _ _ s
  | sub op1 op2 dst pm | subc op1 op2 dst pm =>
    simp only [exec, execSub, execSubc, subForm]
    exact aluTwo_endsIn hwf _ _ s
  | and op1 op2 dst pm | or op1 op2 dst pm | xor op1 op2 dst pm =>
    simp only [exec, execAnd, execOr, execXor, xorForm]
    exact aluTwo_endsIn hwf _ _ s
  | not op2 dst pm =>
    simp only [exec, execNot, xorForm]
    exact aluTwo_endsIn (wfTwo_ones_of_wfOne hwf) _ _ s
  | addNullP q pm =>
    simp only [exec, execAddNullP, addForm]
    exact aluTwo_endsIn (wfTwo_null_p hwf) _ _ s
  | ashl op1 op2 dst pm => exact execAshl_endsIn hwf s
  | abs op2 dst pm | asr op2 dst pm | lsr op2 dst pm | lsrc op2 dst pm =>
    simp only [exec, execAbs, execAsr, execLsr, execLsrc]
    exact aluOne_endsIn hwf _ _ s
  | sat op2 dst pm | rnd op2 dst pm =>
    have h40 : op2.is40 = true := by simpa [narrowSatRnd] using hsat
    simp only [exec, execSat, execRnd, h40, if_true]
    exact ⟨_, rfl⟩
  | exp op2 dst pm | mac op1 mode op2 q pm | msu op1 mode op2 q pm | mul mode op1 op2 pm | mulss op1 op2 pm
  | mulsu op1 op2 pm | mulus op1 op2 pm | muluu op1 op2 pm | nop | ldxFull n p r | stxFull n p r | ldyFull n p r
  | styFull n p r | twoShort x y | mvxParallel src dst | ldxLong n r | stxLong n r | ldi n p q | sti n p q =>
    exact ⟨_, rfl⟩
  | _ => cases hpar

/-! ## What the memory maps decide -/

/-- The memory maps alone decide an instruction without a write conflict: where `access` finds nothing to stop it takes a
next state, and otherwise it stops with what `access` finds. -/
def DecidedBy (access : Option Fault) (r : Result) : Prop :=
  (access = none → ∃ t, r = .next t) ∧ ∀ f, access = some f → r = .fault f

theorem DecidedBy.of_next {t : State} {r : Result} (h : r = .next t) : DecidedBy none r := ⟨fun _ => ⟨t, h⟩, nofun⟩

theorem EndsIn.decidedBy {ws : List MoveReg} {pm : ParMove} {s : State} {r : Result} (h : EndsIn ws pm s r)
    (hc : NoConflict ws pm) : DecidedBy (parAccess pm s) r := by
  obtain ⟨s', rfl⟩ := h
  exact ⟨fun ha => ⟨_, finish_next ⟨hc, ha⟩ s'⟩, fun _ hf => finish_access hc hf s'⟩

/-- Only the double full move makes accesses outside a parallel move field (R104, R228). -/
theorem instrAccess_of_hasParField {i : Instr} (h : hasParField i = true) (s : State) :
    instrAccess i s = parAccess (parOf i) s := by
  cases i with
  | doubleFull x y => cases h
  | _ => rfl

theorem execDoubleFull_decidedBy {x y : Option FullMove} (hc : (writesOfHalf x ++ writesOfHalf y).Nodup) (s : State) :
    DecidedBy (doubleAccess x y s) (execDoubleFull x y s) := by
  have ht : ¬twice (writesOfHalf x ++ writesOfHalf y) = true := by simp [(twice_iff _).mpr hc]
  unfold execDoubleFull
  rw [if_neg ht]
  cases doubleAccess x y s with
  | none => exact .of_next rfl
  | some f => exact ⟨nofun, fun _ hf => congrArg _ (Option.some.inj hf)⟩

theorem execMvxMvyDouble_next {xs xd ys yd : MoveReg} (hu : (withinUnit xs xd || withinUnit ys yd) = false)
    (hc : (writesOfMove xs xd ++ writesOfMove ys yd).Nodup) (s : State) :
    execMvxMvyDouble xs xd ys yd s = .next (moveReg .busY ys yd s (moveReg .busX xs xd s s)) := by
  simp [execMvxMvyDouble, hu, (twice_iff _).mpr hc]

theorem execLoop_next {cnt : MoveReg} (h : cnt.loopCount = true) (e : Word) (s : State) :
    execLoop cnt e s = .next { s.setL false with ls := s.pc + 2#16, le := e, lc := s.readReg .busX cnt } := by
  rw [execLoop, if_pos h]

/-- Settles O44: an instruction with a parallel move field comes to its end, where the maps decide; of the others only
the double full move accesses memory, and the rest have no way to stop. -/
theorem everyInstructionCompletes : Obligations.EveryInstructionCompletes := by
  intro i s hwf hsat hunit hc
  change DecidedBy (instrAccess i s) (exec i s)
  cases hpar : hasParField i with
  | true =>
    rw [instrAccess_of_hasParField hpar]
    exact (exec_par_endsIn hpar hwf hsat s).decidedBy hc
  | false =>
    have hown : (ownWrites i).Nodup := (List.nodup_append.mp hc).1
    cases i with
    | doubleFull x y => exact execDoubleFull_decidedBy hown s
    | mvxMvyDouble xs xd ys yd => exact .of_next (execMvxMvyDouble_next hunit hown s)
    | loop cnt e => exact .of_next (execLoop_next hwf e s)
    | reserved why w => cases hwf
    | ldc | jrcc | jrccIn | reti | retiIn | resp | jcc | callcc | jmpi | halt | j | call | jr | nopTotal => exact .of_next rfl
    | _ => cases hpar

end Sys2Proof.Machine

/-! PROOF. The family 40_alu_two_operand: operand values, and the sums at both widths. -/

namespace Sys2Proof.Machine

/-! ## Operands of a 40-bit operation (R141) -/

/-- A sign byte in front of a word is the word sign-extended (R24). -/
theorem guardOfSign_append (v : Word) : guardOfSign v ++ v = v.signExtend 24 :=
  (BitVec.signExtend_eq_append_of_le (x := v) (v := 24) (by omega)).symm

theorem toInt_wideOf16 (v : Word) : (wideOf16 v).toInt = 65536 * v.toInt := by
  have happ : (guardOfSign v ++ v ++ 0#16).toInt = 2 ^ 16 * (guardOfSign v ++ v).toInt := BitVec.toInt_append_zero
  rw [wideOf16, happ, guardOfSign_append, BitVec.toInt_signExtend_of_le (by omega)]
  rfl

theorem toInt_wideOfP (p : Word32) : (wideOfP p).toInt = p.toInt := BitVec.toInt_signExtend_of_le (by omega)

/-- P in a 40-bit operation is its sign byte and P (R25). -/
theorem wideOfP_eq_append (p : Word32) : wideOfP p = (if p.msb then 0xFF#8 else 0x00#8) ++ p :=
  BitVec.signExtend_eq_append_of_le (by omega)

/-- The number of bits put side by side. -/
theorem toNat_append_eq {m n : Nat} (x : BitVec m) (y : BitVec n) : (x ++ y).toNat = x.toNat * 2 ^ n + y.toNat := by
  rw [BitVec.toNat_append, ← Nat.shiftLeft_add_eq_or_of_lt y.isLt, Nat.shiftLeft_eq]

theorem AccReg.toNat_value (r : AccReg) :
    r.value.toNat = r.guard.toNat * 2 ^ 32 + r.high.toNat * 2 ^ 16 + r.low.toNat := by
  rw [AccReg.value, toNat_append_eq, toNat_append_eq]
  omega

/-- Settles O45, operand by operand. -/
theorem wideOperandValues : Obligations.WideOperandValues := fun s r q =>
  ⟨toInt_wideOf16 (s.r16 r), rfl, rfl, toInt_wideOfP s.p, (s.acc q).toNat_value⟩

/-! ## The two-operand form at its two widths (R140) -/

section Form

variable {f16 : Word → Word → AluOut 16} {f40 : Word40 → Word40 → AluOut 40} {op1 op2 : AluSrc}

/-- P is 40 bits wide. -/
theorem ne_p_of_narrow {op : AluSrc} (h : op.is40 = false) : op ≠ .p := by
  rintro rfl; cases h

theorem aluTwo_narrow (h1 : op1.is40 = false) (h2 : op2.is40 = false) (r : Reg16) (pm : ParMove) (s : State) :
    aluTwo f16 f40 op1 op2 (.r16 r) pm s = put16 r (f16 (s.val16 op1) (s.val16 op2)) pm s := by
  have hw : (op1.is40 || op2.is40) = false := by rw [h1, h2]; rfl
  unfold aluTwo
  rw [if_neg (ne_p_of_narrow h1), hw]

theorem aluTwo_wide (hp : op1 ≠ .p) (h : op1.is40 = true ∨ op2.is40 = true) (q : AccName) (pm : ParMove) (s : State) :
    aluTwo f16 f40 op1 op2 (.acc q) pm s = put40 q (f40 (s.val40 op1) (s.val40 op2)) pm s := by
  have hw : (op1.is40 || op2.is40) = true := by simpa using h
  unfold aluTwo
  rw [if_neg hp, hw]

theorem addForm_narrow (h1 : op1.is40 = false) (h2 : op2.is40 = false) (cin : Bool) (r : Reg16) (pm : ParMove)
    (s : State) :
    addForm op1 op2 cin (.r16 r) pm s = put16 r (adder s.fS (s.val16 op1) (s.val16 op2) cin) pm s :=
  aluTwo_narrow h1 h2 r pm s

theorem subForm_narrow (h1 : op1.is40 = false) (h2 : op2.is40 = false) (cin : Bool) (r : Reg16) (pm : ParMove)
    (s : State) :
    subForm op1 op2 cin (.r16 r) pm s = put16 r (adder s.fS (s.val16 op1) (~~~s.val16 op2) cin) pm s :=
  aluTwo_narrow h1 h2 r pm s

theorem addForm_wide (hp : op1 ≠ .p) (h : op1.is40 = true ∨ op2.is40 = true) (cin : Bool) (q : AccName) (pm : ParMove)
    (s : State) :
    addForm op1 op2 cin (.acc q) pm s = put40 q (adder s.fS (s.val40 op1) (s.val40 op2) cin) pm s :=
  aluTwo_wide hp h q pm s

theorem subForm_wide (hp : op1 ≠ .p) (h : op1.is40 = true ∨ op2.is40 = true) (cin : Bool) (q : AccName) (pm : ParMove)
    (s : State) :
    subForm op1 op2 cin (.acc q) pm s = put40 q (adder s.fS (s.val40 op1) (~~~s.val40 op2) cin) pm s :=
  aluTwo_wide hp h q pm s

end Form

/-! ## A result with the flags of R143 -/

/-- An instruction that puts a 16-bit result with Z, N and E of it completes with it. -/
theorem gives16_of_put16 {i : Instr} {r : Reg16} {pm : ParMove} {s : State} {o : AluOut 16} {v c : Bool}
    (hrun : CanRun (writesOf (.r16 r)) pm s) (hi : exec i s = put16 r o pm s) (ho : o.flags = Flags.ofResult o.res v c) :
    Gives16 i r pm s o.res o.res.msb v c := by
  rw [Gives16, hi]
  exact put16_next hrun (by rw [ho]; rfl) (by rw [ho]; rfl) (by rw [ho]; rfl) (by rw [ho]; rfl)
    (by rw [ho]; exact extFlag_sixteen o.res)

/-- The same at 40 bits. -/
theorem gives40_of_put40 {i : Instr} {q : AccName} {pm : ParMove} {s : State} {o : AluOut 40} {v c : Bool}
    (hrun : CanRun (writesOfAcc q) pm s) (hi : exec i s = put40 q o pm s) (ho : o.flags = Flags.ofResult o.res v c) :
    Gives40 i q pm s o.res o.res.msb v c := by
  rw [Gives40, hi]
  exact put40_next hrun (by rw [ho]; rfl) (by rw [ho]; rfl) (by rw [ho]; rfl) (by rw [ho]; rfl)
    (by rw [ho]; exact extFlag_forty o.res)

/-! ## The adder (R144) -/

/-- The flags of the adder: V where the exact sum does not fit, C the carry out (R143, R144). -/
theorem adder_flags {w : Nat} (sat : Bool) (x y : BitVec w) (cin : Bool) :
    (adder sat x y cin).flags = Flags.ofResult (adder sat x y cin).res
      (decide (¬FitsSigned w (x.toInt + y.toInt + (cin.toNat : Int)))) (decide (2 ^ w ≤ x.toNat + y.toNat + cin.toNat)) := by
  rw [← outside_iff]; rfl

/-- An instruction that puts a 16-bit sum adds: the caller says what the exact sum and the carry are. -/
theorem addsTo16_of_adder {i : Instr} {r : Reg16} {pm : ParMove} {s : State} {x y : Word} {cin carry : Bool} {total : Int}
    (hrun : CanRun (writesOf (.r16 r)) pm s) (hi : exec i s = put16 r (adder s.fS x y cin) pm s)
    (ht : x.toInt + y.toInt + (cin.toNat : Int) = total) (hc : decide (2 ^ 16 ≤ x.toNat + y.toNat + cin.toNat) = carry) :
    AddsTo16 i r pm s total carry := by
  obtain ⟨t, hnext, hres, hp⟩ := gives16_of_put16 hrun hi (adder_flags s.fS x y cin)
  rw [ht, hc] at hres
  exact ⟨t, _, hnext, ht ▸ adder_sum (by omega) s.fS x y cin, hres, hp⟩

/-- The same at 40 bits. -/
theorem addsTo40_of_adder {i : Instr} {q : AccName} {pm : ParMove} {s : State} {x y : Word40} {cin carry : Bool}
    {total : Int} (hrun : CanRun (writesOfAcc q) pm s) (hi : exec i s = put40 q (adder s.fS x y cin) pm s)
    (ht : x.toInt + y.toInt + (cin.toNat : Int) = total) (hc : decide (2 ^ 40 ≤ x.toNat + y.toNat + cin.toNat) = carry) :
    AddsTo40 i q pm s total carry := by
  obtain ⟨t, hnext, hres, hp⟩ := gives40_of_put40 hrun hi (adder_flags s.fS x y cin)
  rw [ht, hc] at hres
  exact ⟨t, _, hnext, ht ▸ adder_sum (by omega) s.fS x y cin, hres, hp⟩

/-! ## Subtraction and doubling as sums (R147, R148, R154, R155) -/

section Exact

variable {w : Nat}

/-- The complement is the negation less one. -/
theorem toInt_not_eq (hw : 0 < w) (y : BitVec w) : (~~~y).toInt = -y.toInt - 1 := by
  have hy := y.isLt
  rw [BitVec.toInt_eq_toNat_cond, BitVec.toInt_eq_toNat_cond, BitVec.toNat_not]
  have hpow : 2 ^ w = 2 * 2 ^ (w - 1) := by rw [← pow_succ', Nat.sub_add_cancel hw]
  split <;> split <;> omega

/-- A subtraction's exact sum: with the carry-in the difference, without it one less. -/
theorem exact_sub (hw : 0 < w) (x y : BitVec w) (cin : Bool) :
    x.toInt + (~~~y).toInt + (cin.toNat : Int) = x.toInt - y.toInt - (1 - (cin.toNat : Int)) := by
  rw [toInt_not_eq hw]; ring

/-- The carry out of a subtraction is no borrow. -/
theorem carry_sub (x y : BitVec w) (cin : Bool) :
    decide (2 ^ w ≤ x.toNat + (~~~y).toNat + cin.toNat) = decide (y.toNat + 1 ≤ x.toNat + cin.toNat) := by
  have hy := y.isLt
  rw [BitVec.toNat_not, decide_eq_decide]
  omega

/-- The carry out of a doubling is the bit shifted out, whatever is shifted in. -/
theorem carry_double (hw : 0 < w) (x : BitVec w) (cin : Bool) :
    decide (2 ^ w ≤ x.toNat + x.toNat + cin.toNat) = x.msb := by
  have hpow : 2 ^ w = 2 * 2 ^ (w - 1) := by rw [← pow_succ', Nat.sub_add_cancel hw]
  have hcin := cin.toNat_le
  rw [BitVec.msb_eq_decide, decide_eq_decide]
  omega

end Exact

/-- Settles O46: each instruction is the adder on the operands of its rule. -/
theorem narrowSums : Obligations.NarrowSums := by
  intro op1 op2 r pm s h1 h2 hrun x y
  have sum : ∀ cin, addForm op1 op2 cin (.r16 r) pm s = put16 r (adder s.fS x y cin) pm s :=
    fun cin => addForm_narrow h1 h2 cin r pm s
  have difference : ∀ cin, subForm op1 op2 cin (.r16 r) pm s = put16 r (adder s.fS x (~~~y) cin) pm s :=
    fun cin => subForm_narrow h1 h2 cin r pm s
  have double : ∀ cin, addForm op1 op1 cin (.r16 r) pm s = put16 r (adder s.fS x x cin) pm s :=
    fun cin => addForm_narrow h1 h1 cin r pm s
  refine ⟨?_, ?_, ?_, ?_, ?_, ?_⟩
  · exact addsTo16_of_adder hrun (sum false) (by simp) (by simp)
  · exact addsTo16_of_adder hrun (sum s.fC) rfl rfl
  · exact addsTo16_of_adder hrun (difference true) (by rw [exact_sub (by omega)]; simp) (by rw [carry_sub]; simp)
  · exact addsTo16_of_adder hrun (difference s.fC) (exact_sub (by omega) x y s.fC) (carry_sub x y s.fC)
  · exact addsTo16_of_adder hrun (double false) (by simp [two_mul]) (carry_double (by omega) x false)
  · exact addsTo16_of_adder hrun (double s.fC) (by rw [two_mul]; rfl) (carry_double (by omega) x s.fC)

/-! ## ADD NULL,P,An (R156) -/

/-- A word's signed value fits in its width. -/
theorem fitsSigned_toInt {w : Nat} (x : BitVec w) : FitsSigned w x.toInt := ⟨x.le_toInt, x.toInt_lt⟩

/-- Adding to 0 gives the other operand, with V = 0 and C = 0, whatever S is. -/
theorem adder_zero_left {w : Nat} (hw : 0 < w) (sat : Bool) (y : BitVec w) :
    adder sat 0#w y false = ⟨y, Flags.ofResult y false false⟩ := by
  have hsum : (0#w).toInt + y.toInt + (false.toNat : Int) = y.toInt := by simp
  have hover : decide (¬FitsSigned w y.toInt) = false := decide_eq_false (not_not_intro (fitsSigned_toInt y))
  have hcarry : decide (2 ^ w ≤ (0#w).toNat + y.toNat + false.toNat) = false := by
    simpa using y.isLt
  have hres : (adder sat 0#w y false).res = y := by
    have hwritten := (adder_sum hw sat 0#w y false).1
    rw [hsum] at hwritten
    rw [hwritten (.inl (fitsSigned_toInt y)), BitVec.ofInt_toInt]
  have hflags := adder_flags sat 0#w y false
  rw [hres, hsum, hover, hcarry] at hflags
  calc adder sat 0#w y false
    _ = ⟨(adder sat 0#w y false).res, (adder sat 0#w y false).flags⟩ := rfl
    _ = ⟨y, Flags.ofResult y false false⟩ := by rw [hres, hflags]

theorem msb_wideOfP (p : Word32) : (wideOfP p).msb = p.msb := by
  rw [BitVec.msb_eq_toInt, BitVec.msb_eq_toInt, toInt_wideOfP]

/-- Settles O47: at 40 bits as at 16; ADD NULL,P,An adds to 0. -/
theorem wideSums : Obligations.WideSums := by
  intro op1 op2 q pm s hp hrun x y
  refine ⟨fun h => ?_, fun h => ?_, ?_⟩
  · have sum : ∀ cin, addForm op1 op2 cin (.acc q) pm s = put40 q (adder s.fS x y cin) pm s :=
      fun cin => addForm_wide hp h cin q pm s
    have difference : ∀ cin, subForm op1 op2 cin (.acc q) pm s = put40 q (adder s.fS x (~~~y) cin) pm s :=
      fun cin => subForm_wide hp h cin q pm s
    refine ⟨?_, ?_, ?_, ?_⟩
    · exact addsTo40_of_adder hrun (sum false) (by simp) (by simp)
    · exact addsTo40_of_adder hrun (sum s.fC) rfl rfl
    · exact addsTo40_of_adder hrun (difference true) (by rw [exact_sub (by omega)]; simp) (by rw [carry_sub]; simp)
    · exact addsTo40_of_adder hrun (difference s.fC) (exact_sub (by omega) x y s.fC) (carry_sub x y s.fC)
  · have double : ∀ cin, addForm op1 op1 cin (.acc q) pm s = put40 q (adder s.fS x x cin) pm s :=
      fun cin => addForm_wide hp (.inl h) cin q pm s
    refine ⟨?_, ?_⟩
    · exact addsTo40_of_adder hrun (double false) (by simp [two_mul]) (carry_double (by omega) x false)
    · exact addsTo40_of_adder hrun (double s.fC) (by rw [two_mul]; rfl) (carry_double (by omega) x s.fC)
  · have hadd : exec (.addNullP q pm) s = put40 q ⟨wideOfP s.p, Flags.ofResult (wideOfP s.p) false false⟩ pm s := by
      rw [← adder_zero_left (by omega) s.fS]
      exact addForm_wide (op1 := .null) (op2 := .p) nofun (.inr rfl) false q pm s
    obtain ⟨t, hnext, hres, htp⟩ := gives40_of_put40 hrun hadd rfl
    have hval : t.accValue q = wideOfP s.p := hres.1
    refine ⟨t, hnext, ?_, ?_, ?_, htp⟩
    · rw [hval, wideOfP_eq_append]; exact BitVec.extractLsb'_append_eq_right
    · rw [hval, wideOfP_eq_append]; exact BitVec.extractLsb'_append_eq_left
    · rw [hval, ← msb_wideOfP]; exact hres

end Sys2Proof.Machine

/-! PROOF. The family 40_alu_two_operand: the logic instructions. -/

namespace Sys2Proof.Machine

/-! ## The logic instructions (R149 to R152) -/

theorem gives16_of_logicOut {i : Instr} {r : Reg16} {pm : ParMove} {s : State} {res : Word}
    (hrun : CanRun (writesOf (.r16 r)) pm s) (hi : exec i s = put16 r (logicOut res) pm s) :
    Gives16 i r pm s res (res.getLsbD 15) false false := by
  have hmsb : res.msb = res.getLsbD 15 := res.msb_eq_getLsbD_last
  rw [← hmsb]
  exact gives16_of_put16 hrun hi rfl

theorem gives40_of_logicOut {i : Instr} {q : AccName} {pm : ParMove} {s : State} {res : Word40}
    (hrun : CanRun (writesOfAcc q) pm s) (hi : exec i s = put40 q (logicOut res) pm s) :
    Gives40 i q pm s res (res.getLsbD 39) false false := by
  have hmsb : res.msb = res.getLsbD 39 := res.msb_eq_getLsbD_last
  rw [← hmsb]
  exact gives40_of_put40 hrun hi rfl

section Form

variable {op1 op2 : AluSrc}

theorem execAnd_narrow (h1 : op1.is40 = false) (h2 : op2.is40 = false) (r : Reg16) (pm : ParMove) (s : State) :
    execAnd op1 op2 (.r16 r) pm s = put16 r (logicOut (s.val16 op1 &&& s.val16 op2)) pm s :=
  aluTwo_narrow h1 h2 r pm s

theorem execOr_narrow (h1 : op1.is40 = false) (h2 : op2.is40 = false) (r : Reg16) (pm : ParMove) (s : State) :
    execOr op1 op2 (.r16 r) pm s = put16 r (logicOut (s.val16 op1 ||| s.val16 op2)) pm s :=
  aluTwo_narrow h1 h2 r pm s

theorem xorForm_narrow (h1 : op1.is40 = false) (h2 : op2.is40 = false) (r : Reg16) (pm : ParMove) (s : State) :
    xorForm op1 op2 (.r16 r) pm s = put16 r (logicOut (s.val16 op1 ^^^ s.val16 op2)) pm s :=
  aluTwo_narrow h1 h2 r pm s

/-- NOT puts the complement: it is XOR with ONES (R152). -/
theorem execNot_narrow (h2 : op2.is40 = false) (r : Reg16) (pm : ParMove) (s : State) :
    execNot op2 (.r16 r) pm s = put16 r (logicOut (~~~s.val16 op2)) pm s := by
  have hones : s.val16 .ones ^^^ s.val16 op2 = ~~~s.val16 op2 := BitVec.allOnes_xor
  rw [execNot, xorForm_narrow rfl h2, hones]

theorem execAnd_wide (hp : op1 ≠ .p) (h : op1.is40 = true ∨ op2.is40 = true) (q : AccName) (pm : ParMove) (s : State) :
    execAnd op1 op2 (.acc q) pm s = put40 q (logicOut (s.val40 op1 &&& s.val40 op2)) pm s :=
  aluTwo_wide hp h q pm s

theorem execOr_wide (hp : op1 ≠ .p) (h : op1.is40 = true ∨ op2.is40 = true) (q : AccName) (pm : ParMove) (s : State) :
    execOr op1 op2 (.acc q) pm s = put40 q (logicOut (s.val40 op1 ||| s.val40 op2)) pm s :=
  aluTwo_wide hp h q pm s

theorem xorForm_wide (hp : op1 ≠ .p) (h : op1.is40 = true ∨ op2.is40 = true) (q : AccName) (pm : ParMove) (s : State) :
    xorForm op1 op2 (.acc q) pm s = put40 q (logicOut (s.val40 op1 ^^^ s.val40 op2)) pm s :=
  aluTwo_wide hp h q pm s

theorem execNot_wide (h2 : op2.is40 = true) (q : AccName) (pm : ParMove) (s : State) :
    execNot op2 (.acc q) pm s = put40 q (logicOut (~~~s.val40 op2)) pm s := by
  have hones : s.val40 .ones ^^^ s.val40 op2 = ~~~s.val40 op2 := BitVec.allOnes_xor
  rw [execNot, xorForm_wide (by decide) (.inr h2), hones]

end Form

theorem getLsbD_not_of_lt {w i : Nat} (x : BitVec w) (h : i < w) : (~~~x).getLsbD i = !x.getLsbD i := by
  rw [BitVec.getLsbD_not, decide_eq_true h, Bool.true_and]

/-- Settles O48: AND at each width, bit by bit, and its coding by the encoder. -/
theorem logicAnd : Obligations.LogicAnd := by
  intro op1 op2 pm s hp
  refine ⟨fun r h1 h2 hrun => ?_, fun q h hrun => ?_, fun dst => rfl⟩
  · exact ⟨_, fun _ _ => BitVec.getLsbD_and, gives16_of_logicOut hrun (execAnd_narrow h1 h2 r pm s)⟩
  · exact ⟨_, fun _ _ => BitVec.getLsbD_and, gives40_of_logicOut hrun (execAnd_wide hp h q pm s)⟩

/-- Settles O49: OR, XOR and NOT at each width, bit by bit, and their codings by the encoder. -/
theorem logicOrXorNot : Obligations.LogicOrXorNot := by
  intro op1 op2 pm s hp
  refine ⟨fun r h1 h2 hrun => ?_, fun q h hrun => ?_, fun dst => ⟨rfl, rfl, rfl⟩⟩
  · exact ⟨_, _, _, fun _ _ => BitVec.getLsbD_or, fun _ _ => BitVec.getLsbD_xor, fun _ hi => getLsbD_not_of_lt _ hi,
      gives16_of_logicOut hrun (execOr_narrow h1 h2 r pm s), gives16_of_logicOut hrun (xorForm_narrow h1 h2 r pm s),
      gives16_of_logicOut hrun (execNot_narrow h2 r pm s)⟩
  · exact ⟨_, _, _, fun _ _ => BitVec.getLsbD_or, fun _ _ => BitVec.getLsbD_xor, fun _ hi => getLsbD_not_of_lt _ hi,
      gives40_of_logicOut hrun (execOr_wide hp h q pm s), gives40_of_logicOut hrun (xorForm_wide hp h q pm s),
      fun h2 => gives40_of_logicOut hrun (execNot_wide h2 q pm s)⟩

end Sys2Proof.Machine

/-! PROOF. The family 40_alu_two_operand: ASHL. -/

namespace Sys2Proof.Machine

/-! ## The form of ASHL (R153) -/

section Form

variable {op1 op2 : AluSrc}

theorem execAshl_narrow (h1 : op1.is40 = false) (h2 : op2.is40 = false) (r : Reg16) (pm : ParMove) (s : State) :
    execAshl op1 op2 (.r16 r) pm s = put16 r (shiftArith s (s.val16 op1) (s.val16 op2).toInt) pm s := by
  unfold execAshl
  rw [if_neg (ne_p_of_narrow h1), if_neg (by simp [h2]), h1]

theorem execAshl_wide (hp : op1 ≠ .p) (h1 : op1.is40 = true) (h2 : op2.is40 = false) (q : AccName) (pm : ParMove)
    (s : State) :
    execAshl op1 op2 (.acc q) pm s = put40 q (shiftArith s (s.val40 op1) (s.val16 op2).toInt) pm s := by
  unfold execAshl
  rw [if_neg hp, if_neg (by simp [h2]), h1]

end Form

theorem shiftCountOk_iff (w : Nat) (n : Int) : shiftCountOk w n = true ↔ n ≤ (w : Int) - 1 ∧ -((w : Int) - 1) ≤ n := by
  rw [shiftCountOk, Bool.and_eq_true, decide_eq_true_eq, decide_eq_true_eq]

section Shift

variable {w : Nat}

theorem shiftArith_of_inRange {n : Int} (hlo : -((w : Int) - 1) ≤ n) (hhi : n ≤ (w : Int) - 1) (s : State) (x : BitVec w) :
    shiftArith s x n = shiftInRange s.fS x n := if_pos ((shiftCountOk_iff w n).mpr ⟨hhi, hlo⟩)

theorem shiftArith_of_outOfRange {n : Int} (h : n < -((w : Int) - 1) ∨ (w : Int) - 1 < n) (s : State) (x : BitVec w) :
    shiftArith s x n = shiftOutOfRange w s n := by
  refine if_neg fun hok => ?_
  obtain ⟨hhi, hlo⟩ := (shiftCountOk_iff w n).mp hok
  omega

/-! ## Shifts as exact arithmetic -/

/-- A shift to the right is the floor of the quotient. -/
theorem toInt_sshiftRight_eq_div (x : BitVec w) (k : Nat) : (x.sshiftRight k).toInt = x.toInt / 2 ^ k := by
  rw [BitVec.toInt_sshiftRight, Int.shiftRight_eq_div_pow]
  norm_cast

theorem twoPow_eq_ofInt (k : Nat) : BitVec.twoPow w k = BitVec.ofInt w (2 ^ k) := by
  have hcast : (2 : Int) ^ k = ((2 ^ k : Nat) : Int) := by norm_cast
  rw [hcast, BitVec.ofInt_natCast]
  exact BitVec.eq_of_toNat_eq (by rw [BitVec.toNat_twoPow, BitVec.toNat_ofNat])

/-- A shift to the left is the product modulo 2^w. -/
theorem shiftLeft_eq_ofInt (x : BitVec w) (k : Nat) : x <<< k = BitVec.ofInt w (x.toInt * 2 ^ k) := by
  rw [BitVec.shiftLeft_eq_mul_twoPow, twoPow_eq_ofInt, BitVec.ofInt_mul, BitVec.ofInt_toInt]

/-- The sign of a product with a power of two. -/
theorem msb_eq_product_neg (x : BitVec w) (k : Nat) : x.msb = decide (x.toInt * 2 ^ k < 0) := by
  rw [BitVec.msb_eq_toInt, decide_eq_decide, ← not_le, ← not_le, mul_nonneg_iff_of_pos_right (by positivity)]

/-- A product with a power of two fits just where the quotient by the remaining one is 0 or -1. -/
theorem fitsSigned_product_iff {k : Nat} (hk : k < w) (a : Int) :
    FitsSigned w (a * 2 ^ k) ↔ a / 2 ^ (w - 1 - k) = 0 ∨ a / 2 ^ (w - 1 - k) = -1 := by
  have hpow : (2 : Int) ^ (w - 1) = 2 ^ (w - 1 - k) * 2 ^ k := by rw [← pow_add, Nat.sub_add_cancel (by omega)]
  have hd : (0 : Int) < 2 ^ (w - 1 - k) := by positivity
  have hp : (0 : Int) < 2 ^ k := by positivity
  have hlow : -2 ^ (w - 1) ≤ a * 2 ^ k ↔ -1 ≤ a / 2 ^ (w - 1 - k) := by
    rw [hpow, ← neg_mul, mul_le_mul_iff_left₀ hp, Int.le_ediv_iff_mul_le hd, neg_one_mul]
  have hhigh : a * 2 ^ k < 2 ^ (w - 1) ↔ a / 2 ^ (w - 1 - k) < 1 := by
    rw [hpow, mul_lt_mul_iff_left₀ hp, Int.ediv_lt_iff_lt_mul hd, one_mul]
  rw [FitsSigned, hlow, hhigh]
  omega

/-- The bits shifted out and the new sign are all the same just where the product fits (R153). -/
theorem shiftedOut_eq {k : Nat} (hk : k < w) (x : BitVec w) :
    ((x.sshiftRight (w - 1 - k) != 0#w) && (x.sshiftRight (w - 1 - k) != BitVec.allOnes w)) =
      decide (¬FitsSigned w (x.toInt * 2 ^ k)) := by
  have hzero : x.sshiftRight (w - 1 - k) = 0#w ↔ x.toInt / 2 ^ (w - 1 - k) = 0 := by
    rw [← BitVec.toInt_inj, toInt_sshiftRight_eq_div, BitVec.toInt_zero]
  have hones : x.sshiftRight (w - 1 - k) = BitVec.allOnes w ↔ x.toInt / 2 ^ (w - 1 - k) = -1 := by
    rw [← BitVec.toInt_inj, toInt_sshiftRight_eq_div, BitVec.toInt_allOnes, if_pos (by omega)]
  rw [Bool.eq_iff_iff, Bool.and_eq_true, bne_iff_ne, bne_iff_ne, decide_eq_true_eq, fitsSigned_product_iff hk, ne_eq,
    ne_eq, hzero, hones, not_or]

/-- What a saturating operation writes: the exact result modulo 2^w, or the limit on its side (R144, D17). -/
theorem sumWritten_limit (hw : 0 < w) (sat : Bool) (t : Int) :
    SumWritten w sat t (if decide (¬FitsSigned w t) && sat then (if decide (t < 0) then minNeg w else maxPos w)
      else BitVec.ofInt w t) := by
  have hp : (0 : Int) < 2 ^ (w - 1) := by positivity
  refine ⟨fun h => if_neg ?_, fun hs ht => ?_, fun hs ht => ?_⟩
  · rcases h with h | h <;> simp [h]
  · have hout : ¬FitsSigned w t := by unfold FitsSigned; omega
    rw [if_pos (by simp [hout, hs]), if_neg (by rw [decide_eq_true_eq]; omega), toInt_maxPos hw]
  · have hout : ¬FitsSigned w t := by unfold FitsSigned; omega
    rw [if_pos (by simp [hout, hs]), if_pos (by rw [decide_eq_true_eq]; omega), toInt_minNeg hw]

/-- ASHL to the left by `k` places: the product, its overflow as V and the last bit shifted out as C (R153). -/
theorem shiftInRange_left {k : Nat} (hpos : 0 < k) (hk : k < w) (sat : Bool) (x : BitVec w) :
    ∃ res, shiftInRange sat x (k : Int) =
        ⟨res, Flags.ofResult res (decide (¬FitsSigned w (x.toInt * 2 ^ k))) (x.getLsbD (w - k))⟩ ∧
      SumWritten w sat (x.toInt * 2 ^ k) res := by
  refine ⟨_, ?_, sumWritten_limit (by omega) sat _⟩
  rw [← shiftedOut_eq hk, ← msb_eq_product_neg, ← shiftLeft_eq_ofInt]
  unfold shiftInRange
  rw [if_neg (by omega), if_pos (by omega), Int.toNat_natCast]

/-- ASHL to the right: V = 0, C the last bit shifted out (R153). -/
theorem shiftInRange_right {n : Int} (h : n < 0) (sat : Bool) (x : BitVec w) :
    shiftInRange sat x n = ⟨x.sshiftRight (-n).toNat,
      Flags.ofResult (x.sshiftRight (-n).toNat) false (x.getLsbD ((-n).toNat - 1))⟩ := by
  unfold shiftInRange
  rw [if_neg (by omega), if_neg (by omega)]

/-- The result, V and C of ASHL with a count in range, as R153 says them (C1, D17). -/
def ShiftWritten (sat : Bool) (x : BitVec w) (n : Int) (res : BitVec w) (v c : Bool) : Prop :=
  (0 < n → SumWritten w sat (x.toInt * 2 ^ n.toNat) res ∧ v = decide (¬FitsSigned w (x.toInt * 2 ^ n.toNat)) ∧
    c = x.getLsbD (w - n.toNat)) ∧
  (n = 0 → res = x ∧ v = false ∧ c = false) ∧
  (n < 0 → res.toInt = x.toInt / 2 ^ (-n).toNat ∧ v = false ∧ c = x.getLsbD ((-n).toNat - 1))

/-- ASHL with a count in range, by the direction of the shift. -/
theorem shiftArith_written {n : Int} (hlo : -((w : Int) - 1) ≤ n) (hhi : n ≤ (w : Int) - 1) (s : State) (x : BitVec w) :
    ∃ res v c, shiftArith s x n = ⟨res, Flags.ofResult res v c⟩ ∧ ShiftWritten s.fS x n res v c := by
  rw [shiftArith_of_inRange hlo hhi]
  rcases lt_trichotomy n 0 with hneg | rfl | hpos
  · exact ⟨_, _, _, shiftInRange_right hneg s.fS x, fun h => absurd h (by omega), fun h => absurd h (by omega),
      fun _ => ⟨toInt_sshiftRight_eq_div x _, rfl, rfl⟩⟩
  · exact ⟨x, false, false, rfl, fun h => absurd h (by omega), fun _ => ⟨rfl, rfl, rfl⟩, fun h => absurd h (by omega)⟩
  · obtain ⟨k, rfl⟩ := Int.eq_ofNat_of_zero_le hpos.le
    obtain ⟨res, hshift, hres⟩ := shiftInRange_left (k := k) (by omega) (by omega) s.fS x
    exact ⟨res, _, _, hshift, fun _ => ⟨hres, rfl, rfl⟩, fun h => absurd h (by omega), fun h => absurd h (by omega)⟩

/-- ASHL with a count out of range: a free result with its flags, V = 0 to the right (log entry 14). -/
theorem shiftArith_free {n : Int} (h : n < -((w : Int) - 1) ∨ (w : Int) - 1 < n) (s : State) (x : BitVec w) :
    ∃ res v c, shiftArith s x n = ⟨res, Flags.ofResult res v c⟩ ∧ (n < 0 → v = false) := by
  rw [shiftArith_of_outOfRange h]
  refine ⟨_, _, _, rfl, fun hneg => ?_⟩
  rw [decide_eq_false (by omega), Bool.false_and]

end Shift

/-- ASHL of 16-bit operands completes with the shifted value and the flags of it. -/
theorem execAshl_gives16 {op1 op2 : AluSrc} {r : Reg16} {pm : ParMove} {s : State} {res : Word} {v c : Bool}
    (h1 : op1.is40 = false) (h2 : op2.is40 = false) (hrun : CanRun (writesOf (.r16 r)) pm s)
    (hshift : shiftArith s (s.val16 op1) (s.val16 op2).toInt = ⟨res, Flags.ofResult res v c⟩) :
    Gives16 (.ashl op1 op2 (.r16 r) pm) r pm s res res.msb v c := by
  have hexec : exec (.ashl op1 op2 (.r16 r) pm) s = put16 r ⟨res, Flags.ofResult res v c⟩ pm s := by
    rw [← hshift]; exact execAshl_narrow h1 h2 r pm s
  exact gives16_of_put16 hrun hexec rfl

/-- The same of a 40-bit operand. -/
theorem execAshl_gives40 {op1 op2 : AluSrc} {q : AccName} {pm : ParMove} {s : State} {res : Word40} {v c : Bool}
    (hp : op1 ≠ .p) (h1 : op1.is40 = true) (h2 : op2.is40 = false) (hrun : CanRun (writesOfAcc q) pm s)
    (hshift : shiftArith s (s.val40 op1) (s.val16 op2).toInt = ⟨res, Flags.ofResult res v c⟩) :
    Gives40 (.ashl op1 op2 (.acc q) pm) q pm s res res.msb v c := by
  have hexec : exec (.ashl op1 op2 (.acc q) pm) s = put40 q ⟨res, Flags.ofResult res v c⟩ pm s := by
    rw [← hshift]; exact execAshl_wide hp h1 h2 q pm s
  exact gives40_of_put40 hrun hexec rfl

/-- Settles O51: the free result is written as any other. -/
theorem shiftOutOfRangeGoesOn : Obligations.ShiftOutOfRangeGoesOn := by
  intro op1 op2 pm s hp h2 n
  refine ⟨fun r h1 hrun hn => ?_, fun q h1 hrun hn => ?_⟩
  · obtain ⟨res, v, c, hshift, hv⟩ := shiftArith_free hn s (s.val16 op1)
    exact ⟨res, v, c, execAshl_gives16 h1 h2 hrun hshift, hv⟩
  · obtain ⟨res, v, c, hshift, hv⟩ := shiftArith_free hn s (s.val40 op1)
    exact ⟨res, v, c, execAshl_gives40 hp h1 h2 hrun hshift, hv⟩

end Sys2Proof.Machine

namespace Sys2Proof

open Machine

/-- Settles O50: the shift is that of R153 at either width. (In `Sys2Proof.Machine` the name is the model's own.) -/
theorem shiftInRange : Obligations.ShiftInRange := by
  intro op1 op2 pm s hp h2 n done
  refine ⟨fun r h1 hrun hlo hhi => ?_, fun q h1 hrun hlo hhi => ?_⟩
  · obtain ⟨res, v, c, hshift, hwritten⟩ := shiftArith_written hlo hhi s (s.val16 op1)
    exact ⟨res, v, c, execAshl_gives16 h1 h2 hrun hshift, hwritten⟩
  · obtain ⟨res, v, c, hshift, hwritten⟩ := shiftArith_written hlo hhi s (s.val40 op1)
    exact ⟨res, v, c, execAshl_gives40 hp h1 h2 hrun hshift, hwritten⟩

end Sys2Proof


/-! PROOF. The family 41_alu_single_operand: ABS and the shifts to the right by one place. -/

namespace Sys2Proof.Machine

/-! ## The single-operand form at its two widths (R170) -/

section Form

variable {f16 : Word → AluOut 16} {f40 : Word40 → AluOut 40} {op2 : AluSrc}

theorem aluOne_narrow (h : op2.is40 = false) (r : Reg16) (pm : ParMove) (s : State) :
    aluOne f16 f40 op2 (.r16 r) pm s = put16 r (f16 (s.val16 op2)) pm s := by
  unfold aluOne
  rw [h]

theorem aluOne_wide (h : op2.is40 = true) (q : AccName) (pm : ParMove) (s : State) :
    aluOne f16 f40 op2 (.acc q) pm s = put40 q (f40 (s.val40 op2)) pm s := by
  unfold aluOne
  rw [h]

end Form

/-! ## A result whose N is not its top bit -/

/-- An instruction that puts a 16-bit result with Z and E of it and an N of its own completes with it. -/
theorem gives16_of_put16_ownN {i : Instr} {r : Reg16} {pm : ParMove} {s : State} {o : AluOut 16} {n v c : Bool}
    (hrun : CanRun (writesOf (.r16 r)) pm s) (hi : exec i s = put16 r o pm s)
    (ho : o.flags = { Flags.ofResult o.res v c with n := n }) : Gives16 i r pm s o.res n v c := by
  rw [Gives16, hi]
  exact put16_next hrun (by rw [ho]; rfl) (by rw [ho]) (by rw [ho]; rfl) (by rw [ho]; rfl)
    (by rw [ho]; exact extFlag_sixteen o.res)

/-- The same at 40 bits. -/
theorem gives40_of_put40_ownN {i : Instr} {q : AccName} {pm : ParMove} {s : State} {o : AluOut 40} {n v c : Bool}
    (hrun : CanRun (writesOfAcc q) pm s) (hi : exec i s = put40 q o pm s)
    (ho : o.flags = { Flags.ofResult o.res v c with n := n }) : Gives40 i q pm s o.res n v c := by
  rw [Gives40, hi]
  exact put40_next hrun (by rw [ho]; rfl) (by rw [ho]) (by rw [ho]; rfl) (by rw [ho]; rfl)
    (by rw [ho]; exact extFlag_forty o.res)

/-! ## ABS (R171) -/

section Abs

variable {w : Nat}

theorem eq_minNeg_iff (hw : 0 < w) (x : BitVec w) : x = minNeg w ↔ x.toInt = -2 ^ (w - 1) := by
  rw [← BitVec.toInt_inj, toInt_minNeg hw]

/-- The magnitude of a word fits in its width but for the most negative one. -/
theorem not_fitsSigned_abs_iff (x : BitVec w) : ¬FitsSigned w |x.toInt| ↔ x.toInt = -2 ^ (w - 1) := by
  obtain ⟨hlo, hhi⟩ := fitsSigned_toInt x
  have hp : (0 : Int) < 2 ^ (w - 1) := by positivity
  rcases abs_cases x.toInt with ⟨habs, hsign⟩ | ⟨habs, hsign⟩ <;> rw [habs, FitsSigned] <;> omega

/-- The two's complement of a negative word is its magnitude modulo 2^w. -/
theorem ofNat_complement_eq_abs {x : BitVec w} (h : x.msb = true) :
    BitVec.ofNat w (2 ^ w - x.toNat) = BitVec.ofInt w |x.toInt| := by
  have hneg : x.toInt < 0 := by simpa [BitVec.msb_eq_toInt] using h
  have hval : x.toInt = (x.toNat : Int) - ((2 ^ w : Nat) : Int) := by rw [BitVec.toInt_eq_msb_cond, if_pos h]
  have habs : |x.toInt| = ((2 ^ w - x.toNat : Nat) : Int) := by
    rw [abs_of_neg hneg, hval, Nat.cast_sub x.isLt.le, neg_sub]
  rw [habs, BitVec.ofInt_natCast]

theorem absOut_res_of_neg {x : BitVec w} (h : x.msb = true) (s : State) :
    (absOut s x).res = if decide (x = minNeg w) && s.fS then maxPos w else BitVec.ofInt w |x.toInt| := by
  rw [← ofNat_complement_eq_abs h]
  exact if_pos h

theorem absOut_res_of_nonneg {x : BitVec w} (h : x.msb = false) (s : State) : (absOut s x).res = x :=
  if_neg (by rw [h]; exact Bool.false_ne_true)

/-- A word is what is written for its own value. -/
theorem sumWritten_toInt (sat : Bool) (x : BitVec w) : SumWritten w sat x.toInt x :=
  ⟨fun _ => BitVec.ofInt_toInt.symm, fun _ h => absurd x.toInt_lt (not_lt.mpr h),
    fun _ h => absurd x.le_toInt (not_le.mpr h)⟩

/-- V of ABS is that its operand is the most negative word. -/
theorem absOut_flags (hw : 0 < w) (s : State) (x : BitVec w) :
    (absOut s x).flags = Flags.ofResult (absOut s x).res (decide (x.toInt = -2 ^ (w - 1))) (s.freeBit .absCarry) := by
  simp only [← eq_minNeg_iff hw]
  rfl

/-- ABS writes the magnitude as a saturating operation does, a negative operand's by its two's complement. -/
theorem absOut_sum (hw : 0 < w) (s : State) (x : BitVec w) : SumWritten w s.fS |x.toInt| (absOut s x).res := by
  cases hmsb : x.msb with
  | true =>
    have hover : decide (x = minNeg w) = decide (¬FitsSigned w |x.toInt|) := by
      rw [decide_eq_decide, eq_minNeg_iff hw, not_fitsSigned_abs_iff]
    have hside : ¬decide (|x.toInt| < 0) = true := by simp
    have hlimit := sumWritten_limit hw s.fS |x.toInt|
    rw [if_neg hside, ← hover] at hlimit
    rwa [absOut_res_of_neg hmsb]
  | false =>
    have hnonneg : 0 ≤ x.toInt := by simpa [BitVec.msb_eq_toInt] using hmsb
    rw [absOut_res_of_nonneg hmsb, abs_of_nonneg hnonneg]
    exact sumWritten_toInt s.fS x

end Abs

/-- Settles O52: ABS at either width. -/
theorem absoluteValue : Obligations.AbsoluteValue := by
  intro op2 pm s
  refine ⟨fun r h hrun => ?_, fun q h hrun => ?_⟩
  · exact ⟨_, _, absOut_sum (by omega) s _,
      gives16_of_put16 hrun (aluOne_narrow h r pm s) (absOut_flags (by omega) s (s.val16 op2))⟩
  · exact ⟨_, _, absOut_sum (by omega) s _,
      gives40_of_put40 hrun (aluOne_wide h q pm s) (absOut_flags (by omega) s (s.val40 op2))⟩

/-! ## ASR (R172) -/

/-- The half rounded down. -/
theorem toInt_asrOut_res {w : Nat} (s : State) (x : BitVec w) : (asrOut s x).res.toInt = x.toInt / 2 := by
  rw [show (asrOut s x).res = x.sshiftRight 1 from rfl, toInt_sshiftRight_eq_div, pow_one]

/-- N of a non-negative operand is 0, whatever the free bit (D27). -/
theorem asrNegative_of_nonneg {w : Nat} {x : BitVec w} (h : 0 ≤ x.toInt) (b : Bool) : (x.msb && b) = false := by
  rw [BitVec.msb_eq_toInt, decide_eq_false (not_lt.mpr h), Bool.false_and]

/-- Settles O53: ASR at either width, N being its own. -/
theorem arithmeticShiftRight : Obligations.ArithmeticShiftRight := by
  intro op2 pm s
  refine ⟨fun r h hrun => ?_, fun q h hrun => ?_⟩
  · exact ⟨_, _, toInt_asrOut_res s _, fun hx => asrNegative_of_nonneg hx _,
      gives16_of_put16_ownN hrun (aluOne_narrow h r pm s) rfl⟩
  · exact ⟨_, _, toInt_asrOut_res s _, fun hx => asrNegative_of_nonneg hx _,
      gives40_of_put40_ownN hrun (aluOne_wide h q pm s) rfl⟩

/-! ## LSR and LSRC (R173, R175) -/

section LogicalShift

variable {w : Nat}

/-- Each bit of LSR's result is the one above it, with nothing above the top. -/
theorem getLsbD_lsrOut_res (x : BitVec w) (i : Nat) : (lsrOut x).res.getLsbD i = x.getLsbD (i + 1) := by
  rw [Nat.add_comm]
  exact BitVec.getLsbD_ushiftRight x 1 i

/-- LSRC's result is LSR's with the carry put in at the top. -/
theorem getLsbD_lsrcOut_res (hw : 0 < w) (c : Bool) (x : BitVec w) (i : Nat) :
    (lsrcOut c x).res.getLsbD i = (x.getLsbD (i + 1) || (c && decide (w - 1 = i))) := by
  have hin : decide (w - 1 < w) = true := decide_eq_true (by omega)
  cases c with
  | true =>
    have hres : (lsrcOut true x).res = (lsrOut x).res ||| BitVec.twoPow w (w - 1) := rfl
    rw [hres, BitVec.getLsbD_or, BitVec.getLsbD_twoPow, hin, getLsbD_lsrOut_res]
  | false =>
    have hres : (lsrcOut false x).res = (lsrOut x).res := rfl
    rw [hres, getLsbD_lsrOut_res, Bool.false_and, Bool.or_false]

/-- Below the top bit LSRC shifts as LSR does. -/
theorem getLsbD_lsrcOut_res_of_lt {i : Nat} (hi : i < w - 1) (c : Bool) (x : BitVec w) :
    (lsrcOut c x).res.getLsbD i = x.getLsbD (i + 1) := by
  rw [getLsbD_lsrcOut_res (by omega), decide_eq_false (by omega), Bool.and_false, Bool.or_false]

theorem getLsbD_lsrOut_res_top (hw : 0 < w) (x : BitVec w) : (lsrOut x).res.getLsbD (w - 1) = false := by
  rw [getLsbD_lsrOut_res, BitVec.getLsbD_of_ge x _ (by omega)]

theorem getLsbD_lsrcOut_res_top (hw : 0 < w) (c : Bool) (x : BitVec w) : (lsrcOut c x).res.getLsbD (w - 1) = c := by
  rw [getLsbD_lsrcOut_res hw, BitVec.getLsbD_of_ge x _ (by omega), decide_eq_true rfl, Bool.and_true, Bool.false_or]

/-- N of LSRC is the carry shifted in. -/
theorem lsrcOut_flags (hw : 0 < w) (c : Bool) (x : BitVec w) :
    (lsrcOut c x).flags = { Flags.ofResult (lsrcOut c x).res false (x.getLsbD 0) with n := c } := by
  have hn : (lsrcOut c x).res.msb = c := by rw [BitVec.msb_eq_getLsbD_last, getLsbD_lsrcOut_res_top hw]
  calc (lsrcOut c x).flags
    _ = { Flags.ofResult (lsrcOut c x).res false (x.getLsbD 0) with n := (lsrcOut c x).res.msb } := rfl
    _ = _ := by rw [hn]

end LogicalShift

/-- Settles O54: LSR and LSRC at either width, bit by bit, and their codings by the encoder. -/
theorem logicalShiftsRight : Obligations.LogicalShiftsRight := by
  intro op2 pm s
  refine ⟨fun r h hrun => ?_, fun q h hrun => ?_, fun dst => ⟨rfl, rfl⟩⟩
  · exact ⟨_, _, fun i hi => ⟨getLsbD_lsrOut_res _ i, getLsbD_lsrcOut_res_of_lt hi s.fC _⟩,
      getLsbD_lsrOut_res_top (by omega) _, getLsbD_lsrcOut_res_top (by omega) s.fC _,
      gives16_of_put16_ownN hrun (aluOne_narrow h r pm s) rfl,
      gives16_of_put16_ownN hrun (aluOne_narrow h r pm s) (lsrcOut_flags (by omega) s.fC (s.val16 op2))⟩
  · exact ⟨_, _, fun i hi => ⟨getLsbD_lsrOut_res _ i, getLsbD_lsrcOut_res_of_lt hi s.fC _⟩,
      getLsbD_lsrOut_res_top (by omega) _, getLsbD_lsrcOut_res_top (by omega) s.fC _,
      gives40_of_put40_ownN hrun (aluOne_wide h q pm s) rfl,
      gives40_of_put40_ownN hrun (aluOne_wide h q pm s) (lsrcOut_flags (by omega) s.fC (s.val40 op2))⟩

end Sys2Proof.Machine

/-! PROOF. The family 41_alu_single_operand: EXP. -/

namespace Sys2Proof.Machine

/-! ## The run of leading bits (R177, D19) -/

section Run

variable {w : Nat}

/-- A run is no longer than the bits it is looked for in. -/
theorem runFrom_le (x : BitVec w) (m : Bool) (k : Nat) : runFrom x m k ≤ k := by
  induction k with
  | zero => exact le_rfl
  | succ k ih =>
    unfold runFrom
    split
    · omega
    · omega

/-- The bits of a run all equal `m`. -/
theorem getLsbD_of_lt_runFrom (x : BitVec w) (m : Bool) (k : Nat) :
    ∀ j < runFrom x m k, x.getLsbD (k - 1 - j) = m := by
  induction k with
  | zero => exact fun j hj => absurd hj (Nat.not_lt_zero j)
  | succ k ih =>
    intro j hj
    unfold runFrom at hj
    split at hj
    next hbit =>
      cases j with
      | zero => exact hbit
      | succ j =>
        have hbelow := ih j (by omega)
        rwa [show k + 1 - 1 - (j + 1) = k - 1 - j by omega]
    next => exact absurd hj (Nat.not_lt_zero j)

/-- The bit below a run, if there is one, does not equal `m`. -/
theorem getLsbD_runFrom_ne (x : BitVec w) (m : Bool) (k : Nat) :
    runFrom x m k < k → x.getLsbD (k - 1 - runFrom x m k) ≠ m := by
  induction k with
  | zero => exact fun h => absurd h (Nat.not_lt_zero _)
  | succ k ih =>
    intro h
    unfold runFrom at h ⊢
    split
    next hbit =>
      rw [if_pos hbit] at h
      have hbelow := ih (by omega)
      rwa [show k + 1 - 1 - (runFrom x m k + 1) = k - 1 - runFrom x m k by omega]
    next hbit => exact hbit

theorem expCount_le (x : BitVec w) : expCount x ≤ w := runFrom_le x x.msb w

/-- The most significant bit itself is counted (D19). -/
theorem one_le_expCount (hw : 0 < w) (x : BitVec w) : 1 ≤ expCount x := by
  by_contra hnone
  have hzero : runFrom x x.msb w = 0 := Nat.lt_one_iff.mp (not_le.mp hnone)
  have hbit := getLsbD_runFrom_ne x x.msb w (by omega)
  rw [hzero, Nat.sub_zero, ← BitVec.msb_eq_getLsbD_last] at hbit
  exact hbit rfl

/-- `k` is what EXP counts in `x`, as R177 says it (D19). -/
def IsLeadingRun (x : BitVec w) (k : Nat) : Prop :=
  (x = 0#w → k = 0) ∧ (x ≠ 0#w → 1 ≤ k ∧ k ≤ w ∧ (∀ j < k, x.getLsbD (w - 1 - j) = x.msb) ∧
    (k < w → x.getLsbD (w - 1 - k) ≠ x.msb))

/-- The count fits in the 16-bit result. -/
theorem toNat_expOut_res (hw : w < 2 ^ 16) (x : BitVec w) :
    (expOut x).res.toNat = if x = 0#w then 0 else expCount x := by
  have hle := expCount_le x
  refine Nat.mod_eq_of_lt ?_
  split <;> omega

theorem isLeadingRun_expOut (hpos : 0 < w) (hw : w < 2 ^ 16) (x : BitVec w) :
    IsLeadingRun x (expOut x).res.toNat := by
  rw [toNat_expOut_res hw]
  refine ⟨fun hzero => if_pos hzero, fun hne => ?_⟩
  rw [if_neg hne]
  exact ⟨one_le_expCount hpos x, expCount_le x, getLsbD_of_lt_runFrom x x.msb w, getLsbD_runFrom_ne x x.msb w⟩

/-- Of the flags EXP sets Z alone. -/
theorem expOut_flags (x : BitVec w) :
    (expOut x).flags = { Flags.ofResult (expOut x).res false false with n := false } := by
  rw [Flags.ofResult, extFlag_sixteen]
  rfl

end Run

theorem execExp_narrow {op2 : AluSrc} (h : op2.is40 = false) (r : Reg16) (pm : ParMove) (s : State) :
    execExp op2 r pm s = put16 r (expOut (s.val16 op2)) pm s := by
  rw [execExp, if_neg (by simp [h])]

theorem execExp_wide {op2 : AluSrc} (h : op2.is40 = true) (r : Reg16) (pm : ParMove) (s : State) :
    execExp op2 r pm s = put16 r (expOut (s.val40 op2)) pm s := by
  rw [execExp, if_pos h]

/-- Settles O55, by the width of the operand. -/
theorem exponentCountsLeadingBits : Obligations.ExponentCountsLeadingBits := by
  intro op2 r pm s hrun counts
  cases h : op2.is40 with
  | true =>
    exact ⟨_, gives16_of_put16_ownN hrun (execExp_wide h r pm s) (expOut_flags _),
      fun _ => isLeadingRun_expOut (by omega) (by omega) (s.val40 op2), fun hn => absurd hn.symm Bool.false_ne_true⟩
  | false =>
    exact ⟨_, gives16_of_put16_ownN hrun (execExp_narrow h r pm s) (expOut_flags _),
      fun hw => absurd hw Bool.false_ne_true, fun _ => isLeadingRun_expOut (by omega) (by omega) (s.val16 op2)⟩

end Sys2Proof.Machine

/-! PROOF. The family 41_alu_single_operand: SAT and RND. -/

namespace Sys2Proof.Machine

/-! ## SAT (R178) -/

theorem execSat_wide {op2 : AluSrc} (h : op2.is40 = true) (q : AccName) (pm : ParMove) (s : State) :
    execSat op2 q pm s = put40 q (satOut (s.val40 op2)) pm s := if_pos h

theorem execSat_narrow {op2 : AluSrc} (h : op2.is40 = false) (q : AccName) (pm : ParMove) (s : State) :
    execSat op2 q pm s = .fault .satRndOperand := if_neg (by simp [h])

theorem toInt_satOut_res (x : Word40) :
    (satOut x).res.toInt =
      if 2 ^ 31 - 1 < x.toInt then 2 ^ 31 - 1 else if x.toInt < -2 ^ 31 then -2 ^ 31 else x.toInt := by
  have hres : (satOut x).res = if 2147483647 < x.toInt then 0x007FFFFFFF#40
      else if x.toInt < -2147483648 then 0xFF80000000#40 else x := rfl
  rw [hres, apply_ite BitVec.toInt, apply_ite BitVec.toInt]
  rfl

theorem fitsSigned_satOut_res (x : Word40) : FitsSigned 32 (satOut x).res.toInt := by
  rw [toInt_satOut_res, FitsSigned]
  split
  · omega
  · split <;> omega

/-- E of a 40-bit word that holds a signed 32-bit number is 0. -/
theorem extFlag_of_fitsSigned {x : Word40} (h : FitsSigned 32 x.toInt) : extFlag x = false := by
  have hlt := x.isLt
  have htop : (x.extractLsb' 31 9).toNat = x.toNat / 2 ^ 31 % 2 ^ 9 := by
    rw [BitVec.extractLsb'_toNat, Nat.shiftRight_eq_div_pow]
  have hends : x.toNat / 2 ^ 31 % 2 ^ 9 = 0 ∨ x.toNat / 2 ^ 31 % 2 ^ 9 = 511 := by
    rw [FitsSigned, BitVec.toInt_eq_toNat_cond] at h
    split at h <;> omega
  unfold extFlag
  rcases hends with hzero | hones
  · have hbits : x.extractLsb' 31 9 = 0#9 := BitVec.eq_of_toNat_eq (htop.trans hzero)
    simp [hbits]
  · have hbits : x.extractLsb' 31 9 = BitVec.allOnes 9 := BitVec.eq_of_toNat_eq (htop.trans hones)
    simp [hbits]

/-- V of SAT is that the operand is out of range; E of what it writes is 0. -/
theorem satOut_flags (x : Word40) :
    (satOut x).flags = Flags.ofResult (satOut x).res (decide (2 ^ 31 - 1 < x.toInt ∨ x.toInt < -2 ^ 31)) false := by
  rw [Flags.ofResult, extFlag_of_fitsSigned (fitsSigned_satOut_res x), Bool.decide_or]
  rfl

/-- Where an instruction gives a 40-bit result, E is that of the result (R37). -/
theorem fE_of_gives40 {i : Instr} {q : AccName} {pm : ParMove} {s t : State} {res : Word40} {n v c : Bool}
    (h : Gives40 i q pm s res n v c) (ht : exec i s = .next t) (hm : .mr0 ∉ writesOfPar pm) :
    t.fE = extFlag res := by
  obtain ⟨u, hu, ⟨-, hflags, -⟩, -⟩ := h
  obtain rfl : t = u := by rw [hu] at ht; injection ht with htu; exact htu.symm
  obtain ⟨-, -, -, -, he, -⟩ := hflags hm
  rw [Bool.eq_iff_iff, he, extFlag_iff]

/-- Settles O56: the value written lies in the 32-bit range, so E is 0. -/
theorem saturateToThirtyTwoBits : Obligations.SaturateToThirtyTwoBits := by
  intro op2 q pm s
  refine ⟨fun h hrun => ?_, fun h => execSat_narrow h q pm s, rfl⟩
  have hres := toInt_satOut_res (s.val40 op2)
  have hgives := gives40_of_put40 (i := .sat op2 q pm) hrun (execSat_wide h q pm s) (satOut_flags (s.val40 op2))
  refine ⟨_, fun habove => ?_, fun hbelow => ?_, fun hlo hhi => ?_, hgives, fun t ht hm => ?_⟩
  · rw [hres, if_pos habove]
  · rw [hres, if_neg (by omega), if_pos hbelow]
  · rw [hres, if_neg (by omega), if_neg (by omega)]
  · rw [fE_of_gives40 hgives ht hm, extFlag_of_fitsSigned (fitsSigned_satOut_res _)]

/-! ## RND (R179) -/

theorem execRnd_wide {op2 : AluSrc} (h : op2.is40 = true) (r : Reg16) (pm : ParMove) (s : State) :
    execRnd op2 r pm s = put16 r (rndOut s.fR (s.val40 op2)) pm s := if_pos h

theorem execRnd_narrow {op2 : AluSrc} (h : op2.is40 = false) (r : Reg16) (pm : ParMove) (s : State) :
    execRnd op2 r pm s = .fault .satRndOperand := if_neg (by simp [h])

/-- The low 16 bits are what a word is above a multiple of 65536. -/
theorem toInt_eq_top_add_low (x : Word40) :
    x.toInt = 65536 * (x.toInt / 65536) + ((x.toNat % 65536 : Nat) : Int) := by
  rw [BitVec.toInt_eq_toNat_cond]
  split <;> omega

/-- With R = 1 the nearest integer, and on a tie the even one. -/
theorem roundTop_nearest (x : Word40) :
    |x.toInt - 65536 * roundTop true x| ≤ 32768 ∧
      (|x.toInt - 65536 * roundTop true x| = 32768 → roundTop true x % 2 = 0) := by
  have hsplit := toInt_eq_top_add_low x
  have hlow : x.toNat % 65536 < 65536 := Nat.mod_lt _ (by omega)
  unfold roundTop
  generalize x.toInt / 65536 = q at *
  generalize x.toNat % 65536 = f at *
  simp only [if_true, Bool.or_eq_true, Bool.and_eq_true, decide_eq_true_eq, bne_iff_ne, ne_eq]
  split
  next hup =>
    rw [hsplit, abs_of_nonpos (by omega)]
    omega
  next hdown =>
    rw [hsplit, abs_of_nonneg (by omega)]
    omega

/-- With R = 0 the truncation toward zero: up where a negative word has low bits, else down (D20). -/
theorem roundTop_truncated (x : Word40) :
    |65536 * roundTop false x| ≤ |x.toInt| ∧ |x.toInt| < |65536 * roundTop false x| + 65536 ∧
      0 ≤ x.toInt * roundTop false x := by
  have hsplit := toInt_eq_top_add_low x
  have hlow : x.toNat % 65536 < 65536 := Nat.mod_lt _ (by omega)
  have hround : roundTop false x =
      if x.toInt < 0 ∧ x.toNat % 65536 ≠ 0 then x.toInt / 65536 + 1 else x.toInt / 65536 := by
    unfold roundTop rndMode0
    simp [BitVec.msb_eq_toInt]
  generalize roundTop false x = m at *
  generalize x.toInt / 65536 = q at *
  generalize x.toNat % 65536 = f at *
  rcases lt_or_ge x.toInt 0 with hneg | hnonneg
  · have hm : m ≤ 0 := by split at hround <;> omega
    refine ⟨?_, ?_, mul_nonneg_of_nonpos_of_nonpos hneg.le hm⟩ <;>
      · rw [abs_of_neg hneg, abs_of_nonpos (by omega)]
        split at hround <;> omega
  · have hm : m = q := by rw [hround, if_neg (by omega)]
    refine ⟨?_, ?_, mul_nonneg hnonneg (by omega)⟩ <;>
      · rw [abs_of_nonneg hnonneg, abs_of_nonneg (by omega)]
        omega

section Saturate

variable (convergent : Bool) (x : Word40)

/-- What RND writes: the rounded value where it fits 16 bits, else the limit on its side. -/
theorem rndOut_res : (rndOut convergent x).res =
    if 32767 < roundTop convergent x then 0x7FFF#16
    else if roundTop convergent x < -32768 then 0x8000#16 else BitVec.ofInt 16 (roundTop convergent x) := rfl

theorem toInt_rndOut_res (h : FitsSigned 16 (roundTop convergent x)) :
    (rndOut convergent x).res.toInt = roundTop convergent x := by
  obtain ⟨hlo, hhi⟩ := h
  rw [rndOut_res, if_neg (by omega), if_neg (by omega), BitVec.toInt_ofInt_eq_self (by omega) hlo hhi]

/-- V of RND is that it saturated; E is 0. -/
theorem rndOut_flags : (rndOut convergent x).flags =
    Flags.ofResult (rndOut convergent x).res (decide (¬FitsSigned 16 (roundTop convergent x))) false := by
  rw [Flags.ofResult, extFlag_sixteen, ← outside_iff]
  rfl

end Saturate

/-- Settles O57: the integer is the rounded one of the mode bit R. -/
theorem roundToSixteenBits : Obligations.RoundToSixteenBits := by
  intro op2 r pm s
  refine ⟨fun h => execRnd_narrow h r pm s, fun h hrun => ?_⟩
  refine ⟨(rndOut s.fR (s.val40 op2)).res, roundTop s.fR (s.val40 op2), fun hR => ?_, fun hR => ?_,
    toInt_rndOut_res s.fR _, fun habove => ?_, fun hbelow => ?_,
    gives16_of_put16 hrun (execRnd_wide h r pm s) (rndOut_flags s.fR _)⟩
  · rw [hR]; exact roundTop_nearest _
  · rw [hR]; exact roundTop_truncated _
  · rw [rndOut_res, if_pos (by omega)]
  · rw [rndOut_res, if_neg (by omega), if_pos (by omega)]

end Sys2Proof.Machine

/-! PROOF. The family 42_multiplier: MUL and its spellings, MAC and MSU, RESP. -/

namespace Sys2Proof.Machine

/-! ## A write of P (R25) -/

/-- P is no register that a move can name: a write of it alone is within every frame. -/
theorem State.withP_keeps (s : State) (p : Word32) : Keeps [] [] [] [] [] s { s with p := p } :=
  { Keeps.refl s with regs := fun r _ => s.peek_withP p r }

/-! ## RESP (R194) -/

/-- Settles O60: either order of the open parameter is one of the two. -/
theorem respRestoresP : Obligations.RespRestoresP := by
  intro op1 op2 s
  refine ⟨_, rfl, ?_, s.withP_keeps _⟩
  cases Config.respOp1High
  case true => exact .inl rfl
  case false => exact .inr rfl

/-! ## MUL (R190, R191) -/

/-- MUL in any mode completes: the product in P, and the frame of its parallel move. -/
theorem mulForm_next {pm : ParMove} {s : State} (hrun : CanRun [] pm s) (mode : MulMode) (op1 op2 : Reg16) :
    ∃ t, mulForm mode op1 op2 pm s = .next t ∧ ProductWritten mode (s.r16 op1) (s.r16 op2) s t.p ∧ Frame [] pm s t := by
  refine ⟨_, finish_next hrun _, ?_, finish_frame (s.withP_keeps _) pm⟩
  rw [applyPar_p]
  exact product_written s mode op1 op2

/-- Settles O58: each spelling is the one form in its mode. -/
theorem multiplyWritesP : Obligations.MultiplyWritesP := by
  intro mode op1 op2 pm s hrun multiplies
  exact ⟨mulForm_next hrun mode op1 op2, mulForm_next hrun .ss op1 op2, mulForm_next hrun .su op1 op2,
    mulForm_next hrun .us op1 op2, mulForm_next hrun .uu op1 op2⟩

/-! ## MAC and MSU (R192, R193) -/

/-- The accumulating form on the adder completes: the sum and its flags, and the product of the operands as they were;
the caller says what the exact sum and the carry are. -/
theorem macForm_next {q : AccName} {pm : ParMove} {s : State} {x y : Word40} {cin carry : Bool} {total : Int}
    (hrun : CanRun (writesOfAcc q) pm s) (mode : MulMode) (op1 op2 : Reg16)
    (ht : x.toInt + y.toInt + (cin.toNat : Int) = total) (hc : decide (2 ^ 40 ≤ x.toNat + y.toNat + cin.toNat) = carry) :
    ∃ t res, macForm (adder s.fS x y cin) mode op1 op2 q pm s = .next t ∧ SumWritten 40 s.fS total res ∧
      Result40 q res res.msb (decide (¬FitsSigned 40 total)) carry pm s t ∧
      ProductWritten mode (s.r16 op1) (s.r16 op2) s t.p := by
  subst ht hc
  have hkeeps := ((s.retire40_part q (adder s.fS x y cin)).withP (s.product mode op1 op2)).keeps
  refine ⟨_, _, finish_next hrun _, adder_sum (by omega) s.fS x y cin, ?_, ?_⟩
  · exact result40_of_retire hrun.1 hkeeps rfl rfl (adder_flags_z ..) (adder_flags_n ..) (adder_flags_v ..)
      (adder_flags_c ..) (extFlag_forty _)
  · rw [applyPar_p]
    exact product_written s mode op1 op2

/-- Settles O59: the other summand is the P of before, complemented with a carry-in for MSU. -/
theorem multiplyAccumulate : Obligations.MultiplyAccumulate := by
  intro mode op1 op2 q pm s hrun x old accumulates
  have hold : old.toInt = s.p.toInt := toInt_wideOfP s.p
  refine ⟨?_, ?_⟩
  · refine macForm_next (x := x) (y := old) (cin := false) hrun mode op1 op2 ?_ (by simp)
    rw [hold]; simp
  · refine macForm_next (x := x) (y := ~~~old) (cin := true) hrun mode op1 op2 ?_ ?_
    · rw [exact_sub (by omega), hold]; simp
    · rw [carry_sub]; simp

end Sys2Proof.Machine

/-! PROOF. The family 43_moves: what a move leaves in the register, the word and the index register it writes, and that
what does not write them keeps it. -/

namespace Sys2Proof.Machine

/-! ## A register after a move's write (R221) -/

theorem State.writeReg_holdsWritten (s : State) (m : Bool) (r : MoveReg) (v : Word) :
    HoldsWritten r v (s.writeReg m r v) := by
  cases r with
  | r16 r => exact ⟨s.r16_writeR16_self r v, s.guard_writeR16 r v⟩
  | mr0 => exact State.setMr0_mr0 s _
  | idx n => exact s.idx_setIdx_self n v
  | guard q => exact congrArg AccReg.guard (s.acc_setAcc_self q _)
  | null | nop => exact True.intro
  | lr0 | lr1 | ipr0 | ipr1 => rfl
  | lc | ls | le => cases m <;> rfl

/-- What a register holds is a matter of the registers that a write of it changes. -/
theorem HoldsWritten.of_peek {r : MoveReg} {v : Word} {s t : State} (h : HoldsWritten r v s)
    (hp : ∀ r' ∈ writesOf r, t.peek r' = s.peek r') : HoldsWritten r v t := by
  cases r with
  | r16 r =>
    obtain ⟨hval, hguard⟩ := h
    refine ⟨?_, fun hh => ?_⟩
    · have hr : t.r16 r = s.r16 r := hp (.r16 r) (by cases r <;> simp [writesOf, regHigh])
      rw [hr, hval]
    · rw [guard_of_peek (hp (.guard (regAcc r)) (by simp [writesOf, hh])), hguard hh]
  | guard q => exact (guard_of_peek (hp _ (by simp [writesOf]))).trans h
  | null | nop => exact True.intro
  | mr0 => exact (hp .mr0 (by simp [writesOf])).trans h
  | _ => exact (hp _ (by simp [writesOf])).trans h

theorem HoldsWritten.of_keeps {r : MoveReg} {v : Word} {w : List MoveReg} {x y i l : List Nat} {s t : State}
    (h : HoldsWritten r v s) (hk : Keeps w x y i l s t) (hd : (writesOf r).Disjoint w) : HoldsWritten r v t :=
  h.of_peek fun r' hr => hk.regs r' fun hw => hd hr hw

/-! ## An index register after a post-modification (R212) -/

theorem toInt_postValue_linear (s : State) (u : Config.FreeUse) (n : IReg) {p : BitVec 4} (h : p ≠ 8#4) :
    (s.postValue u n p).toInt % 65536 = ((s.idx n).toInt + p.toInt) % 65536 := by
  have hext : (p.signExtend 16).toInt = p.toInt := BitVec.toInt_signExtend_of_le (by omega)
  rw [State.postValue, if_neg h, BitVec.toInt_add, hext]
  exact Int.bmod_emod

theorem postMod_postModified (u : Config.FreeUse) (n : IReg) (p : BitVec 4) (old s : State) :
    PostModified n p old (postMod u n p old s) := by
  have hidx : p ≠ 0#4 → (postMod u n p old s).idx n = old.postValue u n p := fun h0 => by
    rw [postMod, if_neg h0, State.idx_setIdx_self]
  refine ⟨fun h0 h8 => ?_, ?_⟩
  · rw [hidx h0, toInt_postValue_linear old u n h8]
  · rintro rfl a ha
    rw [hidx (by decide), State.postValue, if_pos rfl, ha, Option.getD_some]

theorem PostModified.of_keeps {n : IReg} {p : BitVec 4} {w : List MoveReg} {x y i l : List Nat} {s t u : State}
    (h : PostModified n p s t) (hk : Keeps w x y i l t u) (hd : (writesOfPost n p).Disjoint w) : PostModified n p s u := by
  obtain ⟨hlin, hpair⟩ := h
  have hidx : p ≠ 0#4 → u.idx n = t.idx n := fun h0 => hk.regs (.idx n) (hd (by simp [writesOfPost, h0]))
  refine ⟨fun h0 h8 => ?_, ?_⟩
  · rw [hidx h0, hlin h0 h8]
  · rintro rfl a ha
    rw [hidx (by decide), hpair rfl a ha]

/-! ## The words of memory -/

theorem Memory.read16_of_sameBytes {m m' : Memory} (h : sameBytesBut [] m m') (a : Nat) : m'.read16 a = m.read16 a := by
  unfold Memory.read16
  rw [h _ List.not_mem_nil, h _ List.not_mem_nil]

theorem Memory.read32_of_sameBytes {m m' : Memory} (h : sameBytesBut [] m m') (a : Nat) : m'.read32 a = m.read32 a := by
  unfold Memory.read32
  rw [h _ List.not_mem_nil, h _ List.not_mem_nil, h _ List.not_mem_nil, h _ List.not_mem_nil]

section Keeps
variable {w : List MoveReg} {x y i l : List Nat} {s t : State}

theorem Keeps.xWord (h : Keeps w [] y i l s t) (a : Word) : t.xWord a = s.xWord a :=
  Memory.read16_of_sameBytes h.xBytes a.toNat

theorem Keeps.yWord (h : Keeps w x [] i l s t) (a : Word) : t.yWord a = s.yWord a :=
  Memory.read16_of_sameBytes h.yBytes a.toNat

theorem Keeps.iWord (h : Keeps w x y [] l s t) (a : Word32) : t.iWord a = s.iWord a :=
  Memory.read32_of_sameBytes h.iBytes a.toNat

theorem Keeps.irqEnabled (h : Keeps w [] y i l s t) : t.irqEnabled = s.irqEnabled := h.enable List.not_mem_nil

end Keeps

/-- The word that a data bus addresses, whatever stands there. -/
def State.busWord (s : State) : Bus → Word → Word
  | .x => s.xWord
  | .y => s.yWord

/-- Whether a load on a data bus meets a device. -/
def State.busDevice (s : State) : Bus → Word → Bool
  | .x => s.xDevice
  | .y => s.yDevice

theorem State.busRead_of_not_device (s : State) (b : Bus) {a : Word} (h : s.busDevice b a = false) :
    s.busRead b a = s.busWord b a := by
  cases b with
  | x => exact if_neg (ne_true_of_eq_false h)
  | y => exact if_neg (ne_true_of_eq_false h)

theorem dataBytes_bound (a : Word) : 2 * a.toNat + 1 < dataBytes := by
  have := a.isLt; unfold dataBytes; omega

theorem State.busWord_busWrite_self {s : State} (h : DataLegal s) (b : Bus) (a v : Word) :
    (s.busWrite b a v).busWord b a = v := by
  cases b with
  | x => exact Memory.read16_write16_self a.toNat v (dataBytes_bound a) h.xmem
  | y => exact Memory.read16_write16_self a.toNat v (dataBytes_bound a) h.ymem

theorem State.longWord_write_self {s : State} (h : DataLegal s) (a : Word32) (v : Word) :
    ({ s with xlmem := s.xlmem.write16 a.toNat v } : State).longWord a = v := by
  have ha : 2 * a.toNat + 1 < longBytes := by have := a.isLt; unfold longBytes; omega
  exact Memory.read16_write16_self a.toNat v ha h.xlmem

theorem State.iWord_iWrite_self {s : State} (h : DataLegal s) (a v : Word32) : (s.iWrite a v).iWord a = v := by
  have ha : 4 * a.toNat + 3 < instrBytes := by have := a.isLt; unfold instrBytes; omega
  exact Memory.read32_write32_self a.toNat v ha h.imem

theorem postMod_busWord (u : Config.FreeUse) (n : IReg) (p : BitVec 4) (old s : State) (b : Bus) (a : Word) :
    (postMod u n p old s).busWord b a = s.busWord b a := by
  cases b with
  | x => exact (postMod_keeps u n p old s).xWord a
  | y => exact (postMod_keeps u n p old s).yWord a

theorem postMod_irqEnabled (u : Config.FreeUse) (n : IReg) (p : BitVec 4) (old s : State) :
    (postMod u n p old s).irqEnabled = s.irqEnabled := (postMod_keeps u n p old s).irqEnabled

/-! ## A full move (R211) -/

/-- What a full move on a bus leaves, where it and what comes with it write no register twice: its index register
post-modified, and the word stored or the register loaded. A store to `INT_GLOB_EN` enables interrupts (R294). -/
structure FullDone (m : FullMove) (b : Bus) (s t : State) : Prop where
  post : PostModified m.n m.p s t
  stored : m.store = true → IsReadOf m.reg (t.busWord b (s.idx m.n)) s
  enables : m.store = true → b = .x → s.idx m.n = s.map.intGlobEn → t.irqEnabled = true
  loaded : m.store = false → ∃ v, HoldsWritten m.reg v t ∧
    (s.busDevice b (s.idx m.n) = false → v = s.busWord b (s.idx m.n))

section FullMove
variable {m : FullMove} {b : Bus} {old s : State}

theorem applyFull_of_load (hr : m.reg ≠ .nop) (hs : m.store = false) : applyFull m b old s =
    postMod (postUse b) m.n m.p old (s.writeReg true m.reg (old.busRead b (old.idx m.n))) := by
  simp [applyFull, hr, hs]

theorem applyFull_of_store (hr : m.reg ≠ .nop) (hs : m.store = true) : applyFull m b old s =
    postMod (postUse b) m.n m.p old (s.busWrite b (old.idx m.n) (old.readReg (busUse b) m.reg)) := by
  simp [applyFull, hr, hs]

theorem applyFull_postModified (hr : m.reg ≠ .nop) : PostModified m.n m.p old (applyFull m b old s) := by
  rw [applyFull, if_neg hr]
  exact postMod_postModified ..

theorem writesOfFull_of_load (hr : m.reg ≠ .nop) (hs : m.store = false) :
    writesOfFull m = writesOf m.reg ++ writesOfPost m.n m.p := by
  simp [writesOfFull, hr, hs]

theorem applyFull_holdsWritten (hr : m.reg ≠ .nop) (hs : m.store = false) (hc : (writesOfFull m).Nodup) :
    HoldsWritten m.reg (old.busRead b (old.idx m.n)) (applyFull m b old s) := by
  rw [writesOfFull_of_load hr hs] at hc
  rw [applyFull_of_load hr hs]
  exact (s.writeReg_holdsWritten true m.reg _).of_keeps (postMod_keeps ..) (List.disjoint_of_nodup_append hc)

theorem applyFull_stored (hr : m.reg ≠ .nop) (hs : m.store = true) (hl : DataLegal s) :
    (applyFull m b old s).busWord b (old.idx m.n) = old.readReg (busUse b) m.reg := by
  rw [applyFull_of_store hr hs, postMod_busWord, State.busWord_busWrite_self hl]

theorem applyFull_enables (hr : m.reg ≠ .nop) (hs : m.store = true) (ha : old.idx m.n = s.map.intGlobEn) :
    (applyFull m .x old s).irqEnabled = true := by
  rw [applyFull_of_store hr hs, postMod_irqEnabled]
  exact (State.xWrite_irqEnabled ..).trans (if_pos ha)

theorem hasLoopReg_writesOfPost (n : IReg) (p : BitVec 4) : hasLoopReg (writesOfPost n p) = false := by
  unfold writesOfPost; split <;> rfl

theorem applyFull_skipAfterLoad (hr : m.reg ≠ .nop) (hs : m.store = false) :
    SkipAfterLoad m.reg s (applyFull m b old s) := by
  have hpost : ∀ u : State, (postMod (postUse b) m.n m.p old u).loopSkip = u.loopSkip := fun u =>
    (postMod_keeps ..).skip (hasLoopReg_writesOfPost m.n m.p)
  rw [SkipAfterLoad, applyFull_of_load hr hs, hpost, State.writeReg_loopSkip, Bool.true_and]

theorem applyFull_done (hr : m.reg ≠ .nop) (hc : (writesOfFull m).Nodup) (hl : DataLegal s) (hmap : s.map = old.map) :
    FullDone m b old (applyFull m b old s) where
  post := applyFull_postModified hr
  stored := fun hs => applyFull_stored (b := b) (old := old) hr hs hl ▸ old.readReg_isReadOf (busUse b) m.reg
  enables := by
    rintro hs rfl ha
    exact applyFull_enables hr hs (hmap ▸ ha)
  loaded := fun hs => ⟨_, applyFull_holdsWritten hr hs hc, old.busRead_of_not_device b⟩

end FullMove

/-- What leaves X memory and a full X move's registers alone keeps what the move left. -/
theorem FullDone.of_keeps {m : FullMove} {w : List MoveReg} {y i l : List Nat} {s t u : State} (h : FullDone m .x s t)
    (hr : m.reg ≠ .nop) (hk : Keeps w [] y i l t u) (hd : (writesOfFull m).Disjoint w) : FullDone m .x s u where
  post := h.post.of_keeps hk fun _ hm => hd (by simp [writesOfFull, hr, hm])
  stored := fun hs => by
    have hword : u.busWord .x (s.idx m.n) = t.busWord .x (s.idx m.n) := hk.xWord _
    exact hword ▸ h.stored hs
  enables := fun hs hb ha => hk.irqEnabled.trans (h.enables hs hb ha)
  loaded := fun hs => by
    obtain ⟨v, hv, hread⟩ := h.loaded hs
    rw [writesOfFull_of_load hr hs, List.disjoint_append_left] at hd
    exact ⟨v, hv.of_keeps hk hd.1, hread⟩

end Sys2Proof.Machine

/-! PROOF. The family 43_moves: LDC, and the full loads and stores. -/

namespace Sys2Proof.Machine

/-! ## LDC and the NOPs (R222) -/

/-- Settles O30: LDC is one write of a register, and the NOPs write none. -/
theorem loadConstantWritesItsRegister : Obligations.LoadConstantWritesItsRegister := by
  refine ⟨fun c r s => ?_, fun s => ⟨rfl, rfl, rfl⟩⟩
  exact ⟨_, rfl, s.writeReg_holdsWritten false r c, s.writeReg_p false r c, s.writeReg_loopSkip false r c,
    s.writeReg_keeps false r c⟩

/-! ## What the maps allow a data bus (R68) -/

section Access
variable (s : State) (a : Word)

theorem busLoadFault_x_eq_none :
    s.busLoadFault .x a = none ↔ a = s.map.intGlobEn ∨ MapAllows false (kindAt s.map.x a.toNat) := by
  rw [← loadFault_eq_none]
  by_cases h : a = s.map.intGlobEn <;> simp [State.busLoadFault, h]

theorem busStoreFault_x_eq_none :
    s.busStoreFault .x a = none ↔ a = s.map.intGlobEn ∨ MapAllows true (kindAt s.map.x a.toNat) := by
  rw [← storeFault_eq_none]
  by_cases h : a = s.map.intGlobEn <;> simp [State.busStoreFault, h]

theorem busLoadFault_y_eq_none : s.busLoadFault .y a = none ↔ MapAllows false (kindAt s.map.y a.toNat) :=
  loadFault_eq_none s.map.y a.toNat

theorem busStoreFault_y_eq_none : s.busStoreFault .y a = none ↔ MapAllows true (kindAt s.map.y a.toNat) :=
  storeFault_eq_none s.map.y a.toNat

variable {s a}

theorem busLoadFault_x_of_ne (h : a ≠ s.map.intGlobEn) :
    s.busLoadFault .x a = loadFault s.map.x a.toNat := if_neg h

theorem busStoreFault_x_of_ne (h : a ≠ s.map.intGlobEn) :
    s.busStoreFault .x a = storeFault s.map.x a.toNat := if_neg h

theorem deviceAt_eq_false {m : List Region} {k : Nat} (h : kindAt m k ≠ some .device) : deviceAt m k = false :=
  decide_eq_false h

theorem xDevice_eq_false (h : a ≠ s.map.intGlobEn) (hd : kindAt s.map.x a.toNat ≠ some .device) :
    s.xDevice a = false := by
  simp [State.xDevice, h, deviceAt_eq_false hd]

end Access

/-! ## A full move that stands alone (R223, R224) -/

/-- A full move of the Move NOP register does nothing (R227). -/
theorem finish_full_nop (store : Bool) (b : Bus) (n : IReg) (p : BitVec 4) (s : State) :
    finish [] (.full b ⟨store, n, p, .nop⟩) s s = .next s := rfl

section FullMove
variable {n : IReg} {p : BitVec 4} {r : MoveReg} {s : State}

theorem parAccess_full_load (hr : r ≠ .nop) (b : Bus) :
    parAccess (.full b ⟨false, n, p, r⟩) s = s.busLoadFault b (s.idx n) := if_neg hr

theorem parAccess_full_store (hr : r ≠ .nop) (b : Bus) :
    parAccess (.full b ⟨true, n, p, r⟩) s = s.busStoreFault b (s.idx n) := if_neg hr

theorem nodup_writesOfPost (n : IReg) (p : BitVec 4) : (writesOfPost n p).Nodup := by
  unfold writesOfPost; split <;> simp

/-- A store writes its index register only, so it has no conflict. -/
theorem noConflict_full_store (b : Bus) : NoConflict [] (.full b ⟨true, n, p, r⟩) := by
  show (writesOfFull _).Nodup
  unfold writesOfFull
  split
  · exact List.nodup_nil
  · exact nodup_writesOfPost n p

/-- A full load that nothing stops. -/
theorem full_load_next (b : Bus) (hr : r ≠ .nop) (hc : NoConflict [] (.full b ⟨false, n, p, r⟩))
    (ha : s.busLoadFault b (s.idx n) = none) :
    ∃ t v, finish [] (.full b ⟨false, n, p, r⟩) s s = .next t ∧ HoldsWritten r v t ∧
      (s.busDevice b (s.idx n) = false → v = s.busWord b (s.idx n)) ∧ PostModified n p s t ∧ SkipAfterLoad r s t ∧
      t.p = s.p ∧ Frame [] (.full b ⟨false, n, p, r⟩) s t :=
  ⟨_, _, finish_next ⟨hc, (parAccess_full_load hr b).trans ha⟩ s,
    applyFull_holdsWritten (m := ⟨false, n, p, r⟩) (b := b) hr rfl hc, s.busRead_of_not_device b,
    applyFull_postModified (m := ⟨false, n, p, r⟩) hr, applyFull_skipAfterLoad (m := ⟨false, n, p, r⟩) hr rfl,
    applyPar_p .., finish_frame (Keeps.refl s) _⟩

/-- A full store that nothing stops. -/
theorem full_store_next (b : Bus) (hr : r ≠ .nop) (hl : Legal s) (ha : s.busStoreFault b (s.idx n) = none) :
    ∃ t, finish [] (.full b ⟨true, n, p, r⟩) s s = .next t ∧ FullDone ⟨true, n, p, r⟩ b s t ∧ t.p = s.p ∧
      Frame [] (.full b ⟨true, n, p, r⟩) s t :=
  ⟨_, finish_next ⟨noConflict_full_store b, (parAccess_full_store hr b).trans ha⟩ s,
    applyFull_done hr (noConflict_full_store b) hl.data rfl, applyPar_p .., finish_frame (Keeps.refl s) _⟩

end FullMove

/-- Settles O31: on each bus the map decides between the load and the fault. -/
theorem fullLoads : Obligations.FullLoads := by
  intro n p r s x y
  refine ⟨fun hr hc => ⟨fun ha => ?_, fun hne => ?_, fun ha => ?_, ?_⟩, ?_⟩
  · obtain ⟨t, v, hexec, hv, hread, hpost, hskip, hp, hframe⟩ :=
      full_load_next .x hr hc ((busLoadFault_x_eq_none s _).mpr ha)
    exact ⟨t, v, hexec, hv, fun hne hd => hread (xDevice_eq_false hne hd), hpost, hskip, hp, hframe⟩
  · exact finish_load_stops hc ((parAccess_full_load hr .x).trans (busLoadFault_x_of_ne hne)) s
  · obtain ⟨t, v, hexec, hv, hread, hpost, hskip, hp, hframe⟩ :=
      full_load_next .y hr hc ((busLoadFault_y_eq_none s _).mpr ha)
    exact ⟨t, v, hexec, hv, fun hd => hread (deviceAt_eq_false hd), hpost, hskip, hp, hframe⟩
  · exact finish_load_stops (pm := .full .y ⟨false, n, p, r⟩) hc (parAccess_full_load hr .y) s
  · rintro rfl
    exact ⟨finish_full_nop false .x n p s, finish_full_nop false .y n p s⟩

/-- Settles O32: on each bus the map decides between the store and the fault. -/
theorem fullStores : Obligations.FullStores := by
  intro n p r s hl x y
  refine ⟨fun hr => ⟨fun ha => ?_, fun hne => ?_, fun ha => ?_, ?_⟩, ?_⟩
  · obtain ⟨t, hexec, hdone, hp, hframe⟩ := full_store_next .x hr hl ((busStoreFault_x_eq_none s _).mpr ha)
    exact ⟨t, hexec, hdone.stored rfl, hdone.post, hdone.enables rfl rfl, hp, hframe⟩
  · exact finish_store_stops (noConflict_full_store .x)
      ((parAccess_full_store hr .x).trans (busStoreFault_x_of_ne hne)) s
  · obtain ⟨t, hexec, hdone, hp, hframe⟩ := full_store_next .y hr hl ((busStoreFault_y_eq_none s _).mpr ha)
    exact ⟨t, hexec, hdone.stored rfl, hdone.post, hp, hframe⟩
  · exact finish_store_stops (noConflict_full_store .y) (parAccess_full_store hr .y) s
  · rintro rfl
    exact ⟨finish_full_nop true .x n p s, finish_full_nop true .y n p s⟩

end Sys2Proof.Machine

/-! PROOF. The family 43_moves: two moves in one instruction. -/

namespace Sys2Proof.Machine

/-! ## Two full moves, on X and on Y (R225, R228) -/

theorem reg_ne_nop_of_wfHalf {m : FullMove} (h : wfHalf (some m) = true) : m.reg ≠ .nop := bne_iff_ne.mp h

/-- What the X move leaves, the Y move after it keeps: it reads the state before, writes none of its registers and
stores to no X memory. -/
theorem applyHalf_both {x y : Option FullMove} {s : State} (hwx : wfHalf x = true) (hwy : wfHalf y = true)
    (hc : (writesOfHalf x ++ writesOfHalf y).Nodup) (hl : DataLegal s) :
    (∀ m, x = some m → FullDone m .x s (applyHalf y .y s (applyHalf x .x s s))) ∧
      ∀ m, y = some m → FullDone m .y s (applyHalf y .y s (applyHalf x .x s s)) := by
  obtain ⟨hcx, hcy, -⟩ := List.nodup_append.mp hc
  refine ⟨?_, ?_⟩
  · rintro m rfl
    have hr := reg_ne_nop_of_wfHalf hwx
    exact (applyFull_done hr hcx hl rfl).of_keeps hr (applyHalf_keeps y .y s _) (List.disjoint_of_nodup_append hc)
  · rintro m rfl
    have hmap : (applyHalf x .x s s).map = s.map := (applyHalf_keeps x .x s s).sequencer.map
    exact applyFull_done (reg_ne_nop_of_wfHalf hwy) hcy (hl.applyHalf x .x s) hmap

/-- A short move names an arithmetic register, never Move NOP (R111). -/
theorem wfHalf_toFull (m : ShortMove) : wfHalf (some m.toFull) = true := rfl

theorem hasLoopReg_append (a b : List MoveReg) : hasLoopReg (a ++ b) = (hasLoopReg a || hasLoopReg b) := List.any_append

/-- A short move writes arithmetic and index registers only (R111). -/
theorem hasLoopReg_writesOfFull_toFull (m : ShortMove) : hasLoopReg (writesOfFull m.toFull) = false := by
  have hreg : hasLoopReg (writesOf (.r16 m.reg)) = false := by cases m.reg <;> rfl
  rw [writesOfFull, if_neg (reg_ne_nop_of_wfHalf (wfHalf_toFull m)), hasLoopReg_append, Bool.or_eq_false_iff]
  refine ⟨?_, hasLoopReg_writesOfPost _ _⟩
  split
  · rfl
  · exact hreg

theorem toFull_postModified {m : ShortMove} {s t : State} (hstar : m.star = true)
    (h : PostModified m.toFull.n m.toFull.p s t) : PostModified m.n 8#4 s t := by
  simpa only [ShortMove.toFull, hstar, if_true] using h

/-- Settles O33: two full moves that name no loop register. -/
theorem twoShortMoves : Obligations.TwoShortMoves := by
  intro x y s hl hrun
  obtain ⟨hbothX, hbothY⟩ := applyHalf_both (wfHalf_toFull x) (wfHalf_toFull y) hrun.1 hl.data
  have hx := hbothX _ rfl
  have hy := hbothY _ rfl
  have hframe : Frame [] (.short x y) s (applyPar (.short x y) s s) := finish_frame (Keeps.refl s) _
  have hskip : hasLoopReg (writesOfPar (.short x y)) = false := by
    simp only [writesOfPar, hasLoopReg_append, hasLoopReg_writesOfFull_toFull, Bool.or_false]
  exact ⟨_, finish_next hrun s, fun hs => ⟨hx.stored hs, hx.enables hs rfl⟩, hx.loaded, hy.stored, hy.loaded,
    fun hstar => toFull_postModified hstar hx.post, fun hstar => toFull_postModified hstar hy.post, applyPar_p ..,
    hframe.skip hskip, hframe⟩

theorem execDoubleFull_next {x y : Option FullMove} {s : State} (hc : (writesOfHalf x ++ writesOfHalf y).Nodup)
    (ha : doubleAccess x y s = none) : execDoubleFull x y s = .next (applyHalf y .y s (applyHalf x .x s s)) := by
  simp [execDoubleFull, (twice_iff _).mpr hc, ha]

/-- Settles O34: each half that is a move does what it does alone, in the presence of the other. -/
theorem doubleFullMoves : Obligations.DoubleFullMoves := by
  intro x y s hl hwf hcAll ha
  have hw : allWrites (.doubleFull x y) = writesOfHalf x ++ writesOfHalf y := List.append_nil _
  rw [hw] at hcAll ⊢
  obtain ⟨hwx, hwy⟩ := Bool.and_eq_true_iff.mp hwf
  obtain ⟨hx, hy⟩ := applyHalf_both hwx hwy hcAll hl.data
  refine ⟨_, execDoubleFull_next hcAll ha, fun m hm => ?_, fun m hm => ?_, ?_, ?_⟩
  · exact ⟨(hx m hm).post, fun hs => ⟨(hx m hm).stored hs, (hx m hm).enables hs rfl⟩, (hx m hm).loaded⟩
  · exact ⟨(hy m hm).post, (hy m hm).stored, (hy m hm).loaded⟩
  · rw [applyHalf_p, applyHalf_p]
  · exact ((applyHalf_keeps x .x s s).trans (applyHalf_keeps y .y s _)).mono (by simp) (by simp) (by simp) (by simp) (by simp)

/-! ## Register moves (R233, R234) -/

theorem moveReg_of_ne {src dst : MoveReg} (hs : src ≠ .nop) (hd : dst ≠ .nop) (u : Config.FreeUse) (old s : State) :
    moveReg u src dst old s = s.writeReg false dst (old.readReg u src) := by
  simp [moveReg, hs, hd]

theorem moveReg_of_nop {src dst : MoveReg} (h : src = .nop ∨ dst = .nop) (u : Config.FreeUse) (old s : State) :
    moveReg u src dst old s = s := by
  simp [moveReg, h]

theorem moveReg_holdsWritten {src : MoveReg} (hs : src ≠ .nop) (dst : MoveReg) (u : Config.FreeUse) (old s : State) :
    HoldsWritten dst (old.readReg u src) (moveReg u src dst old s) := by
  by_cases hd : dst = .nop
  · subst hd; exact True.intro
  · rw [moveReg_of_ne hs hd]
    exact s.writeReg_holdsWritten false dst _

theorem writesOfMove_of_ne {src : MoveReg} (hs : src ≠ .nop) (dst : MoveReg) : writesOfMove src dst = writesOf dst := by
  by_cases hd : dst = .nop
  · subst hd; simp [writesOfMove, writesOf]
  · simp [writesOfMove, hs, hd]

theorem nodup_writesOf (r : MoveReg) : (writesOf r).Nodup := by
  cases r with
  | r16 r => cases r <;> decide
  | null | nop => exact List.nodup_nil
  | _ => exact List.nodup_singleton _

/-- A register move writes one register, so it has no conflict. -/
theorem canRun_reg (src dst : MoveReg) (s : State) : CanRun [] (.reg src dst) s := by
  refine ⟨?_, rfl⟩
  show (writesOfMove src dst).Nodup
  unfold writesOfMove
  split
  · exact List.nodup_nil
  · exact nodup_writesOf dst

theorem exec_mvxParallel (src dst : MoveReg) (s : State) :
    exec (.mvxParallel src dst) s = .next (moveReg .busX src dst s s) := finish_next (canRun_reg src dst s) s

/-- Settles O35: a register move is one write of what the source reads as. -/
theorem registerMoves : Obligations.RegisterMoves := by
  intro src dst s
  rw [exec_mvxParallel]
  refine ⟨fun hs hd => ?_, fun h => by rw [moveReg_of_nop h]⟩
  rw [moveReg_of_ne hs hd]
  exact ⟨_, _, rfl, s.readReg_isReadOf .busX src, s.writeReg_holdsWritten false dst _, s.writeReg_p false dst _,
    s.writeReg_loopSkip false dst _, s.writeReg_keeps false dst _⟩

/-- Settles O36: the second move writes none of the registers of the first. -/
theorem doubleRegisterMoves : Obligations.DoubleRegisterMoves := by
  intro xs xd ys yd s
  refine ⟨fun hu => if_pos hu, fun hu hcAll => ?_⟩
  have hw : allWrites (.mvxMvyDouble xs xd ys yd) = writesOfMove xs xd ++ writesOfMove ys yd := List.append_nil _
  rw [hw] at hcAll ⊢
  have hkeepsX := moveReg_keeps .busX xs xd s s
  have hkeepsY := moveReg_keeps .busY ys yd s (moveReg .busX xs xd s s)
  refine ⟨_, _, _, execMvxMvyDouble_next hu hcAll s, s.readReg_isReadOf .busX xs, s.readReg_isReadOf .busY ys,
    fun hx => ?_, fun hy => moveReg_holdsWritten hy yd .busY s _, ?_, ?_⟩
  · have hd := List.disjoint_of_nodup_append hcAll
    rw [writesOfMove_of_ne hx] at hd
    exact (moveReg_holdsWritten hx xd .busX s s).of_keeps hkeepsY hd
  · rw [moveReg_p, moveReg_p]
  · exact hkeepsX.trans hkeepsY

end Sys2Proof.Machine

/-! PROOF. The family 43_moves: the long-address moves, and LDI and STI. -/

namespace Sys2Proof.Machine

/-! ## An access that one map decides (R68) -/

/-- What stops a load, or a store, at an address of a map. -/
def mapFault (store : Bool) (m : List Region) (a : Nat) : Option Fault := if store then storeFault m a else loadFault m a

theorem mapFault_eq_none (store : Bool) (m : List Region) (a : Nat) :
    mapFault store m a = none ↔ MapAllows store (kindAt m a) := by
  cases store with
  | false => exact loadFault_eq_none m a
  | true => exact storeFault_eq_none m a

theorem finish_map_stops {pm : ParMove} {store : Bool} {m : List Region} {a : Nat} {s : State} (h : NoConflict [] pm)
    (hf : parAccess pm s = mapFault store m a) (s' : State) : MapStops store (kindAt m a) (finish [] pm s s') := by
  cases store with
  | false => exact finish_load_stops h hf s'
  | true => exact finish_store_stops h hf s'

/-! ## The long address (R236, R62) -/

section Long
variable (s : State) (n : IReg)

theorem longAddr_toNat : (s.longAddr n).toNat = (s.idx (pairReg n)).toNat * 65536 + (s.idx n).toNat :=
  toNat_append_eq (s.idx (pairReg n)) (s.idx n)

theorem longAddr_low : (s.longAddr n).extractLsb' 0 16 = s.idx n :=
  (extract_append_low (s.idx (pairReg n)) (s.idx n) (by omega)).trans (extract_all _)

/-- What stands at the long address, in the part of the X space that it is in. -/
def State.longKind : Option MemKind :=
  if longIsX (s.longAddr n) then kindAt s.map.x (s.idx n).toNat else kindAt s.map.xl (s.longAddr n).toNat

/-- The long address is the controller's register, a word of the 16-bit X space. -/
def State.longIsEnable : Prop := longIsX (s.longAddr n) = true ∧ s.idx n = s.map.intGlobEn

variable {s n}

theorem longFault_near (hX : longIsX (s.longAddr n) = true) (store : Bool) : s.longFault store (s.longAddr n) =
    if s.idx n = s.map.intGlobEn then none else mapFault store s.map.x (s.idx n).toNat := by
  rw [State.longFault_eq, if_pos hX, State.nearFault, longAddr_low]
  cases store <;> rfl

theorem longFault_far (hX : longIsX (s.longAddr n) = false) (store : Bool) :
    s.longFault store (s.longAddr n) = mapFault store s.map.xl (s.longAddr n).toNat := by
  rw [State.longFault_eq, hX]
  rfl

/-- One map decides the long access, but at the controller's register. -/
theorem longFault_of_not_enable (h : ¬s.longIsEnable n) : ∃ m a, s.longKind n = kindAt m a ∧
    ∀ store, s.longFault store (s.longAddr n) = mapFault store m a := by
  cases hX : longIsX (s.longAddr n) with
  | true =>
    refine ⟨s.map.x, (s.idx n).toNat, by simp [State.longKind, hX], fun store => ?_⟩
    rw [longFault_near hX, if_neg fun ha => h ⟨hX, ha⟩]
  | false => exact ⟨s.map.xl, (s.longAddr n).toNat, by simp [State.longKind, hX], longFault_far hX⟩

theorem longFault_eq_none {store : Bool} (h : s.longIsEnable n ∨ MapAllows store (s.longKind n)) :
    s.longFault store (s.longAddr n) = none := by
  by_cases he : s.longIsEnable n
  · rw [longFault_near he.1, if_pos he.2]
  · obtain ⟨m, a, hkind, hfault⟩ := longFault_of_not_enable he
    rw [hfault, mapFault_eq_none, ← hkind]
    exact h.resolve_left he

theorem xReadL_far (hX : longIsX (s.longAddr n) = false) (hd : s.longKind n ≠ some .device) :
    s.xReadL (s.longAddr n) = s.longWord (s.longAddr n) := by
  simp only [State.longKind, hX] at hd
  simp [State.xReadL, hX, State.longDevice, deviceAt_eq_false hd]

theorem xReadL_near (hX : longIsX (s.longAddr n) = true) (he : ¬s.longIsEnable n) (hd : s.longKind n ≠ some .device) :
    s.xReadL (s.longAddr n) = s.xWord (s.idx n) := by
  simp only [State.longKind, hX, if_true] at hd
  rw [State.xReadL, if_pos hX, longAddr_low, State.xRead, xDevice_eq_false (fun ha => he ⟨hX, ha⟩) hd]
  rfl

end Long

/-! ## The long-address moves (R236) -/

section LongMove
variable {n : IReg} {r : MoveReg} {s : State}

theorem noConflict_longX (store : Bool) (n : IReg) (r : MoveReg) : NoConflict [] (.longX store n r) := by
  cases store with
  | false => exact nodup_writesOf r
  | true => exact List.nodup_nil

theorem parAccess_longX (hr : r ≠ .nop) (store : Bool) :
    parAccess (.longX store n r) s = s.longFault store (s.longAddr n) := if_neg hr

/-- A long move of the Move NOP register does nothing (R227). -/
theorem finish_longX_nop (store : Bool) (n : IReg) (s : State) : finish [] (.longX store n .nop) s s = .next s := by
  cases store <;> rfl

theorem moveLong_load (hr : r ≠ .nop) : moveLong false n r s s = s.writeReg true r (s.xReadL (s.longAddr n)) := by
  simp [moveLong, hr]

theorem moveLong_store (hr : r ≠ .nop) :
    moveLong true n r s s = s.xWriteL (s.longAddr n) (s.readReg .busX r) := by
  simp [moveLong, hr]

theorem long_load_next (hr : r ≠ .nop) (ha : s.longFault false (s.longAddr n) = none) :
    ∃ t, finish [] (.longX false n r) s s = .next t ∧ HoldsWritten r (s.xReadL (s.longAddr n)) t ∧
      SkipAfterLoad r s t ∧ t.p = s.p ∧ Frame [] (.longX false n r) s t := by
  refine ⟨_, finish_next ⟨noConflict_longX false n r, (parAccess_longX hr false).trans ha⟩ s, ?_, ?_, applyPar_p ..,
    finish_frame (Keeps.refl s) _⟩
  · rw [applyPar, moveLong_load hr]
    exact s.writeReg_holdsWritten true r _
  · rw [applyPar, moveLong_load hr]
    exact s.writeReg_loopSkip true r _

theorem long_store_next (hr : r ≠ .nop) (hl : Legal s) (ha : s.longFault true (s.longAddr n) = none) :
    ∃ t, finish [] (.longX true n r) s s = .next t ∧
      (longIsX (s.longAddr n) = false → t.longWord (s.longAddr n) = s.readReg .busX r) ∧
      (longIsX (s.longAddr n) = true → t.xWord (s.idx n) = s.readReg .busX r) ∧
      (s.longIsEnable n → t.irqEnabled = true) ∧ t.p = s.p ∧ Frame [] (.longX true n r) s t := by
  refine ⟨_, finish_next ⟨noConflict_longX true n r, (parAccess_longX hr true).trans ha⟩ s, ?_, ?_, ?_, applyPar_p ..,
    finish_frame (Keeps.refl s) _⟩
  all_goals rw [applyPar, moveLong_store hr, State.xWriteL_eq]
  · intro hX
    rw [hX]
    exact State.longWord_write_self hl.data _ _
  · intro hX
    rw [if_pos hX, longAddr_low]
    exact State.busWord_busWrite_self hl.data .x _ _
  · rintro ⟨hX, he⟩
    rw [if_pos hX, longAddr_low, State.xWrite_irqEnabled, if_pos he]

end LongMove

/-- Settles O37: the part of the X space that the address is in decides the access, and takes the store. -/
theorem longAddressMoves : Obligations.LongAddressMoves := by
  intro n r s hl a isX kind enable
  refine ⟨longAddr_toNat s n, ?_, fun hr => ⟨fun ha => ?_, fun ha => ?_, fun he => ?_⟩⟩
  · rintro rfl
    exact ⟨finish_longX_nop false n s, finish_longX_nop true n s⟩
  · obtain ⟨t, hexec, hv, hskip, hp, hframe⟩ := long_load_next hr (longFault_eq_none ha)
    exact ⟨t, _, hexec, hv, xReadL_far, xReadL_near, hskip, hp, hframe⟩
  · obtain ⟨t, hexec, hfar, hnear, henable, hp, hframe⟩ := long_store_next hr hl (longFault_eq_none ha)
    have hread := s.readReg_isReadOf .busX r
    exact ⟨t, hexec, fun hX => (hfar hX).symm ▸ hread, fun hX => (hnear hX).symm ▸ hread, henable, hp, hframe⟩
  · obtain ⟨m, key, hkind, hfault⟩ := longFault_of_not_enable he
    have hstops : ∀ store, MapStops store (s.longKind n) (finish [] (.longX store n r) s s) := fun store => by
      rw [hkind]
      exact finish_map_stops (noConflict_longX store n r) ((parAccess_longX hr store).trans (hfault store)) s
    exact ⟨hstops false, hstops true⟩

/-! ## LDI and STI (R237, R238) -/

section Ibus
variable (n : IReg) (p : BitVec 4) (q : AccName) (s : State)

theorem noConflict_ibus (store : Bool) : NoConflict [] (.ibus store n p q) := by
  have hacc : (writesOfAcc q).Nodup := by cases q <;> decide
  have hdis : (writesOfAcc q).Disjoint (writesOfPost n p) := by
    unfold writesOfPost; split <;> simp [writesOfAcc]
  have hboth : (writesOfAcc q ++ writesOfPost n p).Nodup := List.nodup_append'.mpr ⟨hacc, nodup_writesOfPost n p, hdis⟩
  cases store with
  | false => exact hboth
  | true => exact nodup_writesOfPost n p

theorem parAccess_ibus (store : Bool) :
    parAccess (.ibus store n p q) s = mapFault store s.map.i (s.ipr0 ++ s.idx n).toNat := rfl

theorem finish_ibus_next {store : Bool} (ha : MapAllows store (kindAt s.map.i (s.ipr0 ++ s.idx n).toNat)) :
    finish [] (.ibus store n p q) s s = .next (moveIbus store n p q s s) :=
  finish_next ⟨noConflict_ibus n p q store, (mapFault_eq_none store _ _).mpr ha⟩ s

theorem halves_append (v : Word32) : v.extractLsb' 16 16 ++ v.extractLsb' 0 16 = v := by
  rw [BitVec.extractLsb'_append_extractLsb'_eq_extractLsb' (by omega), extract_all]

theorem postMod_acc (u : Config.FreeUse) (old : State) : (postMod u n p old s).acc q = s.acc q := by
  unfold postMod; split <;> simp

theorem moveIbus_load_halves (hd : kindAt s.map.i (s.ipr0 ++ s.idx n).toNat ≠ some .device) :
    ((moveIbus false n p q s s).acc q).high ++ ((moveIbus false n p q s s).acc q).low = s.iWord (s.ipr0 ++ s.idx n) := by
  have hacc : (moveIbus false n p q s s).acc q = (loadAcc n q s s).acc q := postMod_acc ..
  have hread : s.iRead (s.ipr0 ++ s.idx n) = s.iWord (s.ipr0 ++ s.idx n) := by
    simp [State.iRead, State.iDevice, deviceAt_eq_false hd]
  rw [hacc, loadAcc, State.acc_setAcc_self, halves_append, ← hread]
  rfl

theorem moveIbus_store_word (hl : Legal s) :
    (moveIbus true n p q s s).iWord (s.ipr0 ++ s.idx n) = (s.acc q).high ++ (s.acc q).low := by
  have hkeeps : (moveIbus true n p q s s).iWord (s.ipr0 ++ s.idx n) = (storeAcc n q s s).iWord (s.ipr0 ++ s.idx n) :=
    (postMod_keeps ..).iWord _
  exact hkeeps.trans (State.iWord_iWrite_self hl.data _ _)

/-- An STI is remembered for three instructions (D4). -/
theorem moveIbus_store_recent : (s.ipr0 ++ s.idx n, 3) ∈ (moveIbus true n p q s s).stiRecent := by
  have hkeeps : (moveIbus true n p q s s).stiRecent = (storeAcc n q s s).stiRecent := (postMod_keeps ..).record rfl
  rw [hkeeps]
  exact List.mem_cons_self

end Ibus

/-- Settles O38: the map of instruction memory decides the access. -/
theorem instructionMemoryMoves : Obligations.InstructionMemoryMoves := by
  intro n p q s hl kind
  have hframe : ∀ store, Frame [] (.ibus store n p q) s (moveIbus store n p q s s) := fun store =>
    finish_frame (Keeps.refl s) (.ibus store n p q)
  have hpost : ∀ store, PostModified n p s (moveIbus store n p q s s) := fun store => postMod_postModified ..
  have hstops : ∀ store, MapStops store kind (finish [] (.ibus store n p q) s s) := fun store =>
    finish_map_stops (noConflict_ibus n p q store) (parAccess_ibus n p q s store) s
  refine ⟨fun ha => ?_, fun ha => ?_, hstops false, hstops true⟩
  · exact ⟨_, finish_ibus_next n p q s ha, moveIbus_load_halves n p q s, hpost false, moveIbus_p .., hframe false⟩
  · exact ⟨_, finish_ibus_next n p q s ha, moveIbus_store_word n p q s hl, hpost true, moveIbus_p ..,
      moveIbus_store_recent n p q s, hframe true⟩

end Sys2Proof.Machine

/-! PROOF. The family 43_moves: modification of an index by its pair register. -/

namespace Sys2Proof.Machine

/-! ## The fields of a modifier (R213) -/

theorem toNat_extract_eq {w : Nat} (x : BitVec w) (s n : Nat) : (x.extractLsb' s n).toNat = x.toNat / 2 ^ s % 2 ^ n := by
  rw [BitVec.extractLsb'_toNat, Nat.shiftRight_eq_div_pow]

theorem modifier_mode (m : Word) : (m.extractLsb' 13 3).toNat = m.toNat / 8192 := by
  have := m.isLt
  rw [toNat_extract_eq]
  omega

/-- A signed field is the number in its range with its low bits. -/
theorem toInt_eq_of_congr {w : Nat} {x : BitVec w} {d : Int} (hlo : -((2 ^ w : Nat) : Int) ≤ d * 2)
    (hhi : d * 2 < ((2 ^ w : Nat) : Int)) (h : (d - (x.toNat : Int)) % ((2 ^ w : Nat) : Int) = 0) : x.toInt = d := by
  have hcongr := Int.emod_eq_emod_iff_emod_sub_eq_zero.mpr h
  rw [BitVec.toInt_eq_toNat_bmod, ← Int.emod_bmod, ← hcongr, Int.emod_bmod, Int.bmod_eq_of_le_mul_two hlo hhi]

/-! ## A word with its low bits replaced -/

/-- The buffer that an address lies in begins at a multiple of its size, so a step inside it changes the low bits only. -/
theorem replace_low_bits (a : Word) {k r : Nat} (hk : k ≤ 16) (hr : r < 2 ^ k) :
    (BitVec.ofNat 16 (a.toNat - a.toNat % 2 ^ k + r)).toNat / 2 ^ k = a.toNat / 2 ^ k ∧
      (BitVec.ofNat 16 (a.toNat - a.toNat % 2 ^ k + r)).toNat % 2 ^ k = r := by
  have hpow : 2 ^ 16 = 2 ^ k * 2 ^ (16 - k) := by rw [← Nat.pow_add, Nat.add_sub_cancel' hk]
  have hblock : a.toNat - a.toNat % 2 ^ k = 2 ^ k * (a.toNat / 2 ^ k) := by
    have := Nat.div_add_mod a.toNat (2 ^ k)
    omega
  have hindex : a.toNat / 2 ^ k < 2 ^ (16 - k) := Nat.div_lt_of_lt_mul (hpow ▸ a.isLt)
  have hfit : 2 ^ k * (a.toNat / 2 ^ k) + r < 2 ^ 16 := by
    calc 2 ^ k * (a.toNat / 2 ^ k) + r < 2 ^ k * (a.toNat / 2 ^ k) + 2 ^ k := by omega
      _ = 2 ^ k * (a.toNat / 2 ^ k + 1) := (Nat.mul_succ _ _).symm
      _ ≤ 2 ^ k * 2 ^ (16 - k) := Nat.mul_le_mul_left _ hindex
      _ = 2 ^ 16 := hpow.symm
  rw [hblock, BitVec.toNat_ofNat, Nat.mod_eq_of_lt hfit]
  refine ⟨?_, ?_⟩
  · rw [Nat.mul_add_div (Nat.two_pow_pos k), Nat.div_eq_of_lt hr, Nat.add_zero]
  · rw [Nat.mul_add_mod, Nat.mod_eq_of_lt hr]

/-! ## Modulo modification (R217, D21) -/

theorem alignFrom_eq {len k : Nat} (hle : len ≤ 2 ^ k) (hlt : ∀ j < k, 2 ^ j < len) :
    ∀ {fuel k₀ : Nat}, k₀ ≤ k → k ≤ k₀ + fuel → alignFrom len fuel k₀ = k
  | 0, k₀, hlo, hhi => Nat.le_antisymm hlo hhi
  | fuel + 1, k₀, hlo, hhi => by
    rw [alignFrom]
    rcases Nat.eq_or_lt_of_le hlo with rfl | hk
    · rw [if_pos hle]
    · rw [if_neg (Nat.not_le.mpr (hlt k₀ hk))]
      exact alignFrom_eq hle hlt hk (by omega)

/-- The alignment of a buffer is the least `k` with `len ≤ 2 ^ k`. -/
theorem alignBits_eq {len k : Nat} (hk : k ≤ 13) (hle : len ≤ 2 ^ k) (hlt : ∀ j < k, 2 ^ j < len) : alignBits len = k :=
  alignFrom_eq hle hlt (Nat.zero_le k) (by omega)

/-- A step no longer than the buffer from an offset inside it: the offset moves modulo the length. -/
theorem modStep_inside {a : Word} {step : Int} {len k : Nat} (hk : k ≤ 13) (hle : len ≤ 2 ^ k) (hlt : ∀ j < k, 2 ^ j < len)
    (hoff : a.toNat % 2 ^ k < len) (hlo : -(len : Int) ≤ step) (hhi : step ≤ len) :
    ∃ b, modStep a step len = some b ∧ b.toNat / 2 ^ k = a.toNat / 2 ^ k ∧
      (b.toNat % 2 ^ k : Nat) = ((a.toNat % 2 ^ k : Nat) + step) % (len : Int) := by
  have hpos : (0 : Int) < len := by omega
  have hnonneg := Int.emod_nonneg ((a.toNat % 2 ^ k : Nat) + step) (Int.ne_of_gt hpos)
  have hbound := Int.emod_lt_of_pos ((a.toNat % 2 ^ k : Nat) + step) hpos
  have hrange : ¬(decide ((len : Int) < step) || decide (step < -(len : Int))) = true := by
    simp only [Bool.or_eq_true, decide_eq_true_eq]; omega
  obtain ⟨hhigh, hlow⟩ := replace_low_bits a (k := k)
    (r := (((a.toNat % 2 ^ k : Nat) + step) % (len : Int)).toNat) (by omega) (by omega)
  refine ⟨_, ?_, hhigh, ?_⟩
  · simp only [modStep, alignBits_eq hk hle hlt]
    rw [if_neg (Nat.not_le.mpr hoff), if_neg hrange]
  · rw [hlow, Int.toNat_of_nonneg hnonneg]

theorem pairMod_linear {m : Word} (h : m.toNat / 8192 = 0 ∨ m.toNat / 8192 = 7) (a : Word) : pairMod a m = some (a + m) := by
  rw [← modifier_mode] at h
  rcases h with h | h <;> simp only [pairMod, h]

/-- Modes 100 and 101: a step of one (R217). -/
theorem pairMod_unitStep {m : Word} {step : Int} (h : m.toNat / 8192 = 4 ∧ step = 1 ∨ m.toNat / 8192 = 5 ∧ step = -1)
    (a : Word) : pairMod a m = modStep a step (m.toNat % 8192 + 1) := by
  have hlen : (m.extractLsb' 0 13).toNat = m.toNat % 8192 := by rw [toNat_extract_eq]; omega
  rw [← modifier_mode] at h
  rcases h with ⟨h, rfl⟩ | ⟨h, rfl⟩ <;> simp only [pairMod, h, hlen]

/-- Mode 001: a signed 7-bit step in a short buffer (R215). -/
theorem pairMod_shortBuffer {m : Word} {step : Int} (h : m.toNat / 8192 = 1) (hlo : -64 ≤ step) (hhi : step < 64)
    (hstep : (step - (m.toNat / 64 % 128 : Nat)) % 128 = 0) (a : Word) :
    pairMod a m = modStep a step (m.toNat % 64 + 1) := by
  have hlen : (m.extractLsb' 0 6).toNat = m.toNat % 64 := by rw [toNat_extract_eq]; omega
  have hfield : (m.extractLsb' 6 7).toInt = step :=
    toInt_eq_of_congr (by omega) (by omega) (by rw [toNat_extract_eq]; exact hstep)
  rw [← modifier_mode] at h
  simp only [pairMod, h, hlen, hfield]

/-- Modes 010 and 011: a signed 8-bit step in a buffer of blocks of 64 (R216). -/
theorem pairMod_blockBuffer {m : Word} {step : Int} (h : m.toNat / 16384 = 1) (hlo : -128 ≤ step) (hhi : step < 128)
    (hstep : (step - (m.toNat / 64 % 256 : Nat)) % 256 = 0) (a : Word) :
    pairMod a m = modStep a step (64 * (m.toNat % 64 + 1)) := by
  have hlen : (m.extractLsb' 0 6).toNat = m.toNat % 64 := by rw [toNat_extract_eq]; omega
  have hfield : (m.extractLsb' 6 8).toInt = step :=
    toInt_eq_of_congr (by omega) (by omega) (by rw [toNat_extract_eq]; exact hstep)
  have hmode : (m.extractLsb' 13 3).toNat = 2 ∨ (m.extractLsb' 13 3).toNat = 3 := by rw [modifier_mode]; omega
  rcases hmode with h | h <;> simp only [pairMod, h, hlen, hfield]

/-- Settles O39: the linear modes are the two ends of the modifier's range, and each modulo mode is one `modStep`. -/
theorem pairModificationLinearAndModulo : Obligations.PairModificationLinearAndModulo := by
  refine ⟨fun a m hm => ?_, fun a m k len delta hmode hle hlt hoff hlo hhi => ?_⟩
  · have hm' : m.toNat / 8192 = 0 ∨ m.toNat / 8192 = 7 := by
      rw [BitVec.toInt_eq_toNat_cond] at hm
      have := m.isLt
      omega
    exact ⟨a + m, pairMod_linear hm' a, BitVec.toNat_add a m⟩
  · have hlen : len ≤ 2 ^ 13 := by omega
    have hk : k ≤ 13 := by
      by_contra hk
      exact absurd (hlt 13 (by omega)) (by omega)
    have hpair : pairMod a m = modStep a delta len := by
      rcases hmode with ⟨h, rfl, rfl⟩ | ⟨h, rfl, rfl⟩ | ⟨h, rfl, h1, h2, h3⟩ | ⟨h, rfl, h1, h2, h3⟩
      · exact pairMod_unitStep (.inl ⟨h, rfl⟩) a
      · exact pairMod_unitStep (.inr ⟨h, rfl⟩) a
      · exact pairMod_shortBuffer h h1 h2 h3 a
      · exact pairMod_blockBuffer h h1 h2 h3 a
    rw [hpair]
    exact modStep_inside hk hle hlt hoff hlo hhi

/-! ## Bit-reversed modification (R218) -/

theorem revBits_lt (k v : Nat) : revBits k v < 2 ^ k := by
  induction k generalizing v with
  | zero => simp [revBits]
  | succ k ih =>
    have hrest := ih (v / 2)
    have hbit : v % 2 * 2 ^ k ≤ 1 * 2 ^ k := Nat.mul_le_mul_right _ (by omega)
    rw [revBits, Nat.pow_succ]
    omega

theorem testBit_revBits {k i : Nat} (hi : i < k) (v : Nat) : (revBits k v).testBit i = v.testBit (k - 1 - i) := by
  induction k generalizing v with
  | zero => omega
  | succ k ih =>
    rw [revBits, Nat.mul_comm, Nat.testBit_two_pow_mul_add _ (revBits_lt k (v / 2))]
    split
    · rename_i hik
      rw [ih hik, Nat.testBit_div_two, show k - 1 - i + 1 = k + 1 - 1 - i by omega]
    · rw [show i - k = 0 by omega, show k + 1 - 1 - i = 0 by omega, Nat.testBit_zero, Nat.testBit_zero, Nat.mod_mod]

/-- The reversed bits say which number it is. -/
theorem eq_revBits {k x v : Nat} (hx : x < 2 ^ k) (h : ∀ i < k, x.testBit i = v.testBit (k - 1 - i)) :
    x = revBits k v := by
  apply Nat.eq_of_testBit_eq
  intro i
  by_cases hi : i < k
  · rw [h i hi, testBit_revBits hi]
  · have hle : 2 ^ k ≤ 2 ^ i := Nat.pow_le_pow_right (by omega) (by omega)
    rw [Nat.testBit_lt_two_pow (by omega), Nat.testBit_lt_two_pow (by have := revBits_lt k v; omega)]

theorem revBits_revBits {k v : Nat} (hv : v < 2 ^ k) : revBits k (revBits k v) = v :=
  (eq_revBits hv fun i hi => by rw [testBit_revBits (by omega), show k - 1 - (k - 1 - i) = i by omega]).symm

/-- Only the bits below `k` count in the reverse of `k` bits. -/
theorem revBits_mod {k n : Nat} (hk : k ≤ n) (v : Nat) : revBits k (v % 2 ^ n) = revBits k v :=
  eq_revBits (revBits_lt k _) fun i hi => by
    rw [testBit_revBits hi, Nat.testBit_mod_two_pow, decide_eq_true (by omega), Bool.true_and]

/-- Mode 110: the sum of the reversed low bits, reversed, in place of the low bits (R218). -/
theorem pairMod_bitReversed {m : Word} {k : Nat} (h : m.toNat / 8192 = 6) (hlo : 2 ^ k ≤ m.toNat % 8192)
    (hhi : m.toNat % 8192 < 2 ^ (k + 1)) (a : Word) : pairMod a m = some (BitVec.ofNat 16
      (a.toNat - a.toNat % 2 ^ (k + 1) +
        revBits (k + 1) ((revBits (k + 1) a.toNat + revBits (k + 1) m.toNat) % 2 ^ (k + 1)))) := by
  have hk : k + 1 ≤ 13 := by
    by_contra hk
    have : 2 ^ 13 ≤ 2 ^ k := Nat.pow_le_pow_right (by omega) (by omega)
    omega
  have hfield : (m.extractLsb' 0 13).toNat = m.toNat % 2 ^ 13 := by rw [toNat_extract_eq]; omega
  have hpos : m.toNat % 2 ^ 13 ≠ 0 := by have := Nat.two_pow_pos k; omega
  have hne : m.extractLsb' 0 13 ≠ 0#13 := fun hz => hpos (by rw [← hfield, hz]; rfl)
  have hlog : (m.toNat % 2 ^ 13).log2 = k := (Nat.log2_eq_iff hpos).mpr ⟨hlo, hhi⟩
  rw [← modifier_mode] at h
  simp only [pairMod, h, bitRev, hfield, hlog, if_neg hne, revBits_mod (Nat.le_refl _), revBits_mod hk]

/-- Settles O40: what the statement says of `x`, `y` and `z` bit by bit makes them the reverses of the low bits of the
index, the modifier and the new index. -/
theorem pairModificationBitReversed : Obligations.PairModificationBitReversed := by
  intro a m k hmode hlo hhi
  have hk : k + 1 ≤ 16 := by
    by_contra hk
    have : 2 ^ 13 ≤ 2 ^ k := Nat.pow_le_pow_right (by omega) (by omega)
    omega
  have hsum : (revBits (k + 1) a.toNat + revBits (k + 1) m.toNat) % 2 ^ (k + 1) < 2 ^ (k + 1) :=
    Nat.mod_lt _ (Nat.two_pow_pos _)
  obtain ⟨hhigh, hlow⟩ := replace_low_bits a hk (revBits_lt (k + 1)
    ((revBits (k + 1) a.toNat + revBits (k + 1) m.toNat) % 2 ^ (k + 1)))
  refine ⟨_, pairMod_bitReversed hmode hlo hhi a, hhigh, fun x y z hx hy hz hxa hym hzb => ?_⟩
  rw [eq_revBits hx fun i hi => hxa i (by omega), eq_revBits hy fun i hi => hym i (by omega),
    eq_revBits hz fun i hi => hzb i (by omega), ← revBits_mod (Nat.le_refl _), hlow, revBits_revBits hsum]

end Sys2Proof.Machine

/-! PROOF. The family 43_moves: words of spec/95_test_vectors.md. -/

namespace Sys2Proof.Machine

/-- A word that the encoder writes for a well-formed instruction that is no second name decodes to it. -/
theorem decode_of_encode {i : Instr} {w : Word32} (hw : encode i = w) (hwf : i.WellFormed) (hcore : i.core = i) :
    decode w = i := by
  rw [← hw, decodeOfEncodeGivesInstructionBack i hwf, hcore]

/-- Settles O5: the encoder writes these words, and the decoder is its inverse. -/
theorem specWordsDecode : Obligations.SpecWordsDecode :=
  ⟨decode_of_encode (by decide) rfl rfl, decode_of_encode (by decide) rfl rfl, decode_of_encode (by decide) rfl rfl,
    decode_of_encode (by decide) rfl rfl, decode_of_encode (by decide) rfl rfl⟩

end Sys2Proof.Machine

/-! PROOF. The family 44_control: what each control instruction changes, and that it leaves the rest (sections 2 to 6). -/

namespace Sys2Proof.Machine

/-! ## Registers do not depend on the sequencer's components -/

@[simp] theorem State.peek_withPending (s : State) (g : Option Target) (r : MoveReg) :
    ({ s with pending := g } : State).peek r = s.peek r := by cases r <;> rfl

@[simp] theorem State.peek_withHalted (s : State) (h : Bool) (r : MoveReg) :
    ({ s with halted := h } : State).peek r = s.peek r := by cases r <;> rfl

theorem sameRegsBut.trans {w : List MoveReg} {s t u : State} (h : sameRegsBut w s t) (h' : sameRegsBut w t u) :
    sameRegsBut w s u := fun r hr => (h' r hr).trans (h r hr)

/-! ## L cleared and a transfer pending (R262, R266) -/

/-- What the change-of-flow instructions with a delay slot have in common: L cleared, this transfer pending. -/
def State.clearL (s : State) (g : Option Target) : State := { s.setL false with pending := g }

theorem clearL_mr0 (s : State) (g : Option Target) :
    (s.clearL g).fL = false ∧ ∀ i, i ≠ 7 → (s.clearL g).mr0.getLsbD i = s.mr0.getLsbD i :=
  ⟨s.setL_fL false, fun i hi => (s.setL_bit false i).trans (if_neg hi)⟩

theorem clearL_regs (s : State) (g : Option Target) : sameRegsBut [.mr0] s (s.clearL g) := fun r hr =>
  ((s.setL false).peek_withPending g r).trans ((s.setL_keeps false).regs r hr)

theorem jumpIf_eq_clearL (s : State) (cond : Cond) (g : Target) :
    jumpIf s cond g = s.clearL (if condHolds s cond then some g else s.pending) := by
  rw [jumpIf_eq, jumpIf_pending]; rfl

theorem callIf_eq_clearL (s : State) (cond : Cond) (a : Word) : callIf s cond a =
    { s.clearL (if condHolds s cond then some ⟨none, a⟩ else s.pending) with lr0 := s.pc + 2#16 } := by
  rw [callIf_eq, jumpIf_pending]; rfl

/-- A call also writes LR0 (R269). -/
theorem clearL_lr0_regs (s : State) (g : Option Target) (a : Word) :
    sameRegsBut [.mr0, .lr0] s { s.clearL g with lr0 := a } := by
  intro r hr
  obtain ⟨hmr0, hlr0⟩ : r ∉ [.mr0] ∧ r ≠ .lr0 := by simpa using hr
  refine Eq.trans ?_ (clearL_regs s g r hmr0)
  cases r with
  | lr0 => exact absurd rfl hlr0
  | _ => rfl

/-- LOOP also writes the loop registers (R278). -/
theorem setL_loop_regs (s : State) (ls le lc : Word) :
    sameRegsBut [.mr0, .ls, .le, .lc] s { s.setL false with ls := ls, le := le, lc := lc } := by
  intro r hr
  obtain ⟨hmr0, hls, hle, hlc⟩ : r ∉ [.mr0] ∧ r ≠ .ls ∧ r ≠ .le ∧ r ≠ .lc := by simpa using hr
  refine Eq.trans ?_ ((s.setL_keeps false).regs r hmr0)
  cases r with
  | ls => exact absurd rfl hls
  | le => exact absurd rfl hle
  | lc => exact absurd rfl hlc
  | _ => rfl

/-- An address two further on, modulo the page (D29). -/
theorem toNat_add_two (a : Word) : (a + 2#16).toNat = (a.toNat + 2) % 65536 := BitVec.toNat_add a 2#16

/-- Settles O20: all seven forms clear L and set the pending transfer, and do nothing else. -/
theorem jumpsAndReturnsScheduleTheirTarget : Obligations.JumpsAndReturnsScheduleTheirTarget := by
  intro s cond addr n jumps
  have clears : ∀ {i taken g}, exec i s = .next (s.clearL (if taken then some g else s.pending)) → jumps i taken g := by
    intro i taken g h
    obtain ⟨hL, hbits⟩ := clearL_mr0 s (if taken then some g else s.pending)
    exact ⟨_, h, rfl, hL, hbits, clearL_regs s _, rfl, ⟨rfl, rfl, rfl, rfl⟩, rfl, rfl, ⟨rfl, rfl, rfl, rfl⟩,
      exec_inputs h⟩
  have jump : ∀ c g, Host.Outcome.next (jumpIf s c g) =
      (.next (s.clearL (if condHolds s c then some g else s.pending)) : Result) := fun c g =>
    congrArg _ (jumpIf_eq_clearL s c g)
  exact ⟨clears (jump cond _), clears (jump .always _), clears (jump cond _), clears (jump .always _),
    clears (jump cond _), clears rfl, clears rfl⟩

/-- Settles O21: a call is a jump that also writes LR0. -/
theorem callsSaveTheReturnAddress : Obligations.CallsSaveTheReturnAddress := by
  intro s cond addr calls
  have call : ∀ {i} c, exec i s = .next (callIf s c addr) → calls i (condHolds s c) := by
    intro i c h
    rw [callIf_eq_clearL] at h
    obtain ⟨hL, hbits⟩ := clearL_mr0 s (if condHolds s c then some ⟨none, addr⟩ else s.pending)
    exact ⟨_, h, toNat_add_two s.pc, rfl, hL, hbits, clearL_lr0_regs s _ _, rfl, ⟨rfl, rfl, rfl, rfl⟩, rfl, rfl,
      ⟨rfl, rfl, rfl, rfl⟩, exec_inputs h⟩
  exact ⟨call cond rfl, call .always rfl⟩

/-! ## LOOP (R278) -/

/-- Settles O23: the count is read before any register is written. -/
theorem loopSetsTheLoopRegisters : Obligations.LoopSetsTheLoopRegisters := by
  intro s cnt e hwf
  have hexec : exec (.loop cnt e) s =
      .next { s.setL false with ls := s.pc + 2#16, le := e, lc := s.readReg .busX cnt } := execLoop_next hwf e s
  obtain ⟨hL, hbits⟩ := clearL_mr0 s s.pending
  exact ⟨_, hexec, toNat_add_two s.pc, rfl, s.readReg_isReadOf .busX cnt, hL, hbits, setL_loop_regs s _ _ _, rfl,
    ⟨rfl, rfl, rfl, rfl⟩, rfl, rfl, rfl, ⟨rfl, rfl, rfl, rfl⟩, exec_inputs hexec⟩

/-! ## JMPI (R276) -/

theorem jmpiIndex_keeps (mm : JmpiMod) (n : IReg) (s : State) :
    Keeps [.idx n] [] [] [] [] s (jmpiIndex mm n s) := by
  cases mm with
  | keep => exact (Keeps.refl s).mono (by simp) (by simp) (by simp) (by simp) (by simp)
  | inc | dec => exact s.setIdx_keeps n _

theorem jmpiIndex_memory (mm : JmpiMod) (n : IReg) (s : State) : sameMemory s (jmpiIndex mm n s) := by
  cases mm <;> simp [jmpiIndex, sameMemory]

theorem jmpiIndex_p (mm : JmpiMod) (n : IReg) (s : State) : (jmpiIndex mm n s).p = s.p := by
  cases mm <;> simp [jmpiIndex]

/-- The index register moves by 0, +1 or -1, never through its pair register. -/
theorem jmpiIndex_idx (mm : JmpiMod) (n : IReg) (s : State) : ((jmpiIndex mm n s).idx n).toNat =
    match mm with
    | .keep => (s.idx n).toNat
    | .inc => ((s.idx n).toNat + 1) % 65536
    | .dec => ((s.idx n).toNat + 65535) % 65536 := by
  cases mm with
  | keep => rfl
  | inc => simp [jmpiIndex, BitVec.toNat_add]
  | dec => simp [jmpiIndex, BitVec.toNat_sub, Nat.add_comm]

/-- JMPI's transfer and the cancel bit are no register. -/
theorem State.peek_withCancel (s : State) (g : Option Target) (c : Bool) (r : MoveReg) :
    ({ s with pending := g, cancel := c } : State).peek r = s.peek r := by cases r <;> rfl

theorem jmpi_regs (addr : Word) (mm : JmpiMod) (n : IReg) (s : State) :
    sameRegsBut [.idx n] s { (jmpiIndex mm n s).schedule ⟨some 0#16, addr⟩ with cancel := true } := fun r hr =>
  ((jmpiIndex mm n s).peek_withCancel _ _ r).trans ((jmpiIndex_keeps mm n s).regs r hr)

/-- Settles O22: beside the transfer and the cancel bit only the index register changes. -/
theorem jmpiJumpsToPageZero : Obligations.JmpiJumpsToPageZero := by
  intro s addr mm n
  have hexec : exec (.jmpi addr mm n) s =
      .next { (jmpiIndex mm n s).schedule ⟨some 0#16, addr⟩ with cancel := true } := rfl
  have hkeeps := jmpiIndex_keeps mm n s
  obtain ⟨-, -, -, hhalted, -⟩ := hkeeps.sequencer
  refine ⟨_, hexec, rfl, rfl, jmpiIndex_idx mm n s, jmpi_regs addr mm n s, jmpiIndex_p mm n s, jmpiIndex_memory mm n s,
    hhalted, ⟨hkeeps.skip rfl, hkeeps.irqEnabled, hkeeps.record rfl, hkeeps.page (by simp)⟩, exec_inputs hexec⟩

/-! ## HALT (R280) -/

/-- Settles O18: a core that is halted already stays so. -/
theorem haltTakesEffectWhenIdle : Obligations.HaltTakesEffectWhenIdle := by
  intro s
  refine ⟨_, rfl, ?_⟩
  by_cases h : s.irqIdle = true
  · rw [if_pos h, h, Bool.true_or]
  · have hor : (s.irqIdle || s.halted) = s.halted := by simp [h]
    rw [if_neg h, hor]

end Sys2Proof.Machine

/-! PROOF. The family 44_control: which instructions and which steps write the page register IPR0 (section 7). -/

namespace Sys2Proof.Machine

/-! ## Which instructions write a register of the program control unit -/

/-- No other register stands beside a register of the program control unit in what a write changes (R24, R234). -/
theorem pcu_mem_writesOf {r r' : MoveReg} (hr : unitOf r = some .pcu) (h : r ∈ writesOf r') : r' = r := by
  by_cases h16 : ∃ q, r' = .r16 q
  · obtain ⟨q, rfl⟩ := h16
    rcases mem_writesOf_r16 h with rfl | ⟨-, rfl⟩ <;> cases hr
  · exact (mem_writesOf_other (fun q hq => h16 ⟨q, hq⟩) h).symm

theorem pcu_not_mem_writesOfAcc {r : MoveReg} (hr : unitOf r = some .pcu) (q : AccName) : r ∉ writesOfAcc q := by
  intro h
  simp only [writesOfAcc, List.mem_cons, List.not_mem_nil, or_false] at h
  rcases h with rfl | rfl | rfl <;> cases hr

theorem pcu_not_mem_writesOfPost {r : MoveReg} (hr : unitOf r = some .pcu) (n : IReg) (p : BitVec 4) :
    r ∉ writesOfPost n p := by
  intro h
  unfold writesOfPost at h
  split at h
  · cases h
  · rw [List.mem_singleton.mp h] at hr; cases hr

/-- The arithmetic part of an instruction writes no register of the program control unit but MR0's flags (R142). -/
theorem pcu_not_mem_ownWrites {r : MoveReg} (hr : unitOf r = some .pcu) {i : Instr} (hi : hasParField i = true) :
    r ∉ ownWrites i := by
  have reg16 : ∀ q : Reg16, r ∉ writesOf (.r16 q) := fun q h => by
    rw [← pcu_mem_writesOf hr h] at hr; cases hr
  have result : ∀ d : AluDst, r ∉ writesOfDst d := fun d => by
    cases d with
    | r16 q => exact reg16 q
    | acc q => exact pcu_not_mem_writesOfAcc hr q
  cases i with
  | add op1 op2 dst pm | sub op1 op2 dst pm | addc op1 op2 dst pm | subc op1 op2 dst pm | ashl op1 op2 dst pm
  | and op1 op2 dst pm | or op1 op2 dst pm | xor op1 op2 dst pm | abs op2 dst pm | asr op2 dst pm | lsr op2 dst pm
  | lsrc op2 dst pm | lsl op dst pm | lslc op dst pm | not op2 dst pm => exact result dst
  | exp op2 dst pm | rnd op2 dst pm => exact reg16 dst
  | mac op1 mode op2 q pm | msu op1 mode op2 q pm | sat op2 q pm | addNullP q pm => exact pcu_not_mem_writesOfAcc hr q
  | doubleFull | mvxMvyDouble => cases hi
  | _ => exact List.not_mem_nil

/-! A move writes a register of the program control unit only where it names it. -/

section Named
variable {r : MoveReg} (hr : unitOf r = some .pcu)
include hr

theorem pcu_written_by_full {m : FullMove} (h : r ∈ writesOfFull m) : writesRegister (loadsOfFull m) r = true := by
  obtain ⟨store, n, p, r'⟩ := m
  have hpost := pcu_not_mem_writesOfPost hr n p
  by_cases hn : r' = .nop
  · simp [writesOfFull, hn] at h
  · cases store
    · simp only [writesOfFull, hn, if_false, Bool.false_eq_true, List.mem_append, hpost, or_false] at h
      rw [pcu_mem_writesOf hr h] at hn ⊢
      simp [loadsOfFull, writesRegister, hn]
    · simp [writesOfFull, hn, hpost] at h

theorem pcu_written_by_move {src dst : MoveReg} (h : r ∈ writesOfMove src dst) :
    writesRegister (movesOfPar (.reg src dst)) r = true := by
  unfold writesOfMove at h
  split at h
  · cases h
  · rename_i hn
    rw [movesOfPar, if_neg hn, pcu_mem_writesOf hr h]
    simp [writesRegister]

theorem pcu_written_by_half {m : Option FullMove} (h : r ∈ writesOfHalf m) :
    writesRegister (movesOfHalf m) r = true := by
  cases m with
  | none => cases h
  | some m => exact pcu_written_by_full hr h

theorem pcu_written_by_par {pm : ParMove} (h : r ∈ writesOfPar pm) : writesRegister (movesOfPar pm) r = true := by
  cases pm with
  | none => cases h
  | full bus m => exact pcu_written_by_full hr h
  | short x y =>
    rw [movesOfPar, writesRegister_append, Bool.or_eq_true]
    exact (List.mem_append.mp h).imp (pcu_written_by_full hr) (pcu_written_by_full hr)
  | reg src dst => exact pcu_written_by_move hr h
  | longX store n r' =>
    cases store
    · obtain rfl := pcu_mem_writesOf hr h
      have hn : r' ≠ .nop := by rintro rfl; cases hr
      simp [movesOfPar, writesRegister, hn]
    · cases h
  | ibus store n p q =>
    cases store <;> simp [writesOfPar, pcu_not_mem_writesOfAcc hr, pcu_not_mem_writesOfPost hr] at h

/-! ## A page, link or loop register after an instruction -/

/-- A register of the program control unit other than MR0, which the control instructions and the flags change, and
LR0, which a call writes, is as before after an instruction that does not name it. -/
theorem exec_keeps_pcu {i : Instr} {s t : State} (hmr0 : r ≠ .mr0) (hlr0 : r ≠ .lr0)
    (hw : writesRegister (explicitWrites i) r = false) (h : exec i s = .next t) : t.peek r = s.peek r := by
  have unnamed : ∀ {l : List MoveReg}, (r ∈ l → writesRegister (explicitWrites i) r = true) → r ∉ l :=
    fun hl hm => Bool.false_ne_true (hw.symm.trans (hl hm))
  cases hp : hasParField i with
  | true =>
    obtain ⟨s', harith, -, rfl, -, -⟩ := exec_par_inv hp h
    have hmove : r ∉ writesOfPar (parOf i) :=
      unnamed fun hm => by rw [explicitWrites_of_hasParField hp]; exact pcu_written_by_par hr hm
    have hown : r ∉ .mr0 :: ownWrites i := List.not_mem_cons_of_ne_of_not_mem hmr0 (pcu_not_mem_ownWrites hr hp)
    exact ((applyPar_keeps _ s s').regs r hmove).trans (harith.keeps.regs r hown)
  | false =>
    have clears : ∀ g, (s.clearL g).peek r = s.peek r := fun g => clearL_regs s g r (by simpa using hmr0)
    cases exec_other_inv hp h with
    | ldc c r' =>
      refine (s.writeReg_keeps false r' c).regs r (unnamed fun hm => ?_)
      rw [pcu_mem_writesOf hr hm]
      simp [explicitWrites, writesRegister]
    | nopTotal => rfl
    | resp op1 op2 p hp => exact s.peek_withP p r
    | halt => split <;> simp
    | jcc addr cond | jrcc cond | jrccIn n cond | j addr | jr => rw [jumpIf_eq_clearL]; exact clears _
    | callcc addr cond | call addr =>
      rw [callIf_eq_clearL]
      exact clearL_lr0_regs s _ _ r (by simp [hmr0, hlr0])
    | reti | retiIn n => exact clears _
    | loop cnt e hc =>
      have hloop : r ∉ [.ls, .le, .lc] := unnamed fun hm => by
        simp only [List.mem_cons, List.not_mem_nil, or_false] at hm
        rcases hm with rfl | rfl | rfl <;> rfl
      exact setL_loop_regs s _ _ _ r (List.not_mem_cons_of_ne_of_not_mem hmr0 hloop)
    | jmpi addr mm n =>
      have hidx : r ≠ .idx n := by rintro rfl; cases hr
      exact jmpi_regs addr mm n s r (by simpa using hidx)
    | doubleFull x y hc ha =>
      have hx : r ∉ writesOfHalf x := unnamed fun hm => by
        simp [explicitWrites, writesRegister_append, pcu_written_by_half hr hm]
      have hy : r ∉ writesOfHalf y := unnamed fun hm => by
        simp [explicitWrites, writesRegister_append, pcu_written_by_half hr hm]
      exact ((applyHalf_keeps y .y s _).regs r hy).trans ((applyHalf_keeps x .x s s).regs r hx)
    | mvxMvyDouble xs xd ys yd hx hy hc =>
      have hx : r ∉ writesOfMove xs xd := unnamed fun hm => by
        simp [explicitWrites, writesRegister_append, pcu_written_by_move hr hm]
      have hy : r ∉ writesOfMove ys yd := unnamed fun hm => by
        simp [explicitWrites, writesRegister_append, pcu_written_by_move hr hm]
      exact ((moveReg_keeps .busY ys yd s _).regs r hy).trans ((moveReg_keeps .busX xs xd s s).regs r hx)

end Named

/-! ## The page after a step (R281) -/

/-- The end of a slot changes IPR0 only to the page that a pending transfer carries. -/
theorem retire_ipr0 (e : Hist) (s s' : State) : (retire e s s').ipr0 = s'.ipr0 ∨
    ∃ a page, s.pending = some ⟨some page, a⟩ ∧ (retire e s s').ipr0 = page := by
  unfold retire
  rcases advance_cases s.pending s.loopSkip s.pc { s' with prev1 := some e, prev2 := s.prev1 } with
    ⟨⟨page, a⟩, hg, ht⟩ | ⟨-, -, -, -, -, ht⟩ | ⟨-, -, ht⟩
  · rw [ht]
    cases page with
    | none => exact .inl rfl
    | some page => exact .inr ⟨a, page, hg, rfl⟩
  · rw [ht]; exact .inl rfl
  · rw [ht]; exact .inl rfl

theorem haltedCycle_ipr0 (s : State) : (haltedCycle s).ipr0 = s.ipr0 := by
  unfold haltedCycle; split <;> rfl

/-- Settles O14, by the kinds of step: an instruction writes IPR0 only where it names it, and what the end of its slot
adds is a transfer's page. -/
theorem pageChangesOnlyAsListed : Obligations.PageChangesOnlyAsListed := by
  intro s t h hr hpage
  cases step_kind h with
  | reset hr' ht => exact absurd hr' hr
  | halted _ hh ht => subst ht; exact absurd (haltedCycle_ipr0 s) hpage
  | interrupt vec _ hh hp ha ht => subst ht; exact .inr (.inl ⟨by rw [hp]; rfl, ha, rfl, rfl⟩)
  | cancelled hs hc ha ht => subst ht; exact .inl ((retire_ipr0 _ s s.begin).resolve_left hpage)
  | executes s' hs hb hh he hp ha ht =>
    subst ht
    cases hw : writesRegister (explicitWrites s.fetch) .ipr0 with
    | true => exact .inr (.inr ⟨hs, rfl⟩)
    | false =>
      have hexec : s'.ipr0 = s.ipr0 := exec_keeps_pcu (s := s.begin) (r := .ipr0) rfl nofun nofun hw he
      exact .inl ((retire_ipr0 _ s s').resolve_left fun hend => hpage (hend.trans hexec))

end Sys2Proof.Machine

/-! PROOF. The family 44_control: the instruction slot, its end, and the halted core (sections 1, 4 and 6). -/

namespace Sys2Proof.Machine

/-! ## An instruction slot runs the instruction that is fetched (R261) -/

theorem fetch_of_decodeBytes {s : State} {i : Instr} {rest : List Byte}
    (h : decodeBytes (s.imem.bytes32 s.fetchAddr.toNat) = some (i, rest)) : s.fetch = i := by
  rw [State.fetch, h]

section Unrestricted
variable {i : Instr} {s : State} (hb : hazardBefore i s = none) (hh : haltRefused i s = none)
include hb hh

/-- Where no restriction stops it before, the slot is what the sequencer makes of the instruction's outcome. -/
theorem runInstr_of_unrestricted : runInstr i s = completeInstr i s (exec i s.begin) := by
  rw [runInstr, hb]
  dsimp only
  rw [hh]

theorem runInstr_fault {f : Fault} (he : exec i s.begin = .fault f) : runInstr i s = .fault f := by
  rw [runInstr_of_unrestricted hb hh, he]
  rfl

theorem runInstr_next {s' : State} (he : exec i s.begin = .next s') (hp : s.pending = none ∨ s'.pending = none)
    (ha : hazardAfter i s s' = none) : runInstr i s = .next (retire (histOf i s s') s s') := by
  have hslot : ¬(s.pending.isSome && s'.pending.isSome) = true := by
    rcases hp with hp | hp <;> simp [hp]
  rw [runInstr_of_unrestricted hb hh, he, completeInstr, if_neg hslot, ha]

end Unrestricted

/-- Settles O10: the step is `runInstr` of what the bytes decode to. -/
theorem stepRunsTheDecodedInstruction : Obligations.StepRunsTheDecodedInstruction := by
  intro s i rest hdec _ hs hb hh
  have hstep : step s = runInstr i s := by rw [step_of_executes hs, fetch_of_decodeBytes hdec]
  rw [hstep]
  exact ⟨fun f he => runInstr_fault hb hh he, fun s' he hp ha => runInstr_next hb hh he hp ha⟩

/-! ## The end of a slot: the history, then the next address -/

/-- The history moved on by an executed instruction (R333). -/
def State.record (s : State) (e : Hist) (before : Option Hist) : State := { s with prev1 := some e, prev2 := before }

/-- The history is no register. -/
theorem record_regs (s : State) (e : Hist) (before : Option Hist) : sameRegsBut [] s (s.record e before) := fun r _ => by
  cases r <;> rfl

theorem retire_eq_advance (e : Hist) (s s' : State) :
    retire e s s' = advance s.pending s.loopSkip s.pc (s'.record e s.prev1) := rfl

theorem retire_pending (e : Hist) (s s' : State) : (retire e s s').pending = s'.pending := by
  obtain ⟨_, _, _, _, ht⟩ := retire_eq e s s'
  rw [ht]

theorem retire_memory (e : Hist) (s s' : State) : sameMemory s' (retire e s s') := by
  obtain ⟨_, _, _, _, ht⟩ := retire_eq e s s'
  rw [ht]
  exact ⟨rfl, rfl, rfl, rfl⟩

theorem retire_halted (e : Hist) (s s' : State) : (retire e s s').halted = s'.halted := by
  obtain ⟨_, _, _, _, ht⟩ := retire_eq e s s'
  rw [ht]

theorem retire_cancel (e : Hist) (s s' : State) : (retire e s s').cancel = s'.cancel := by
  obtain ⟨_, _, _, _, ht⟩ := retire_eq e s s'
  rw [ht]

/-! ### A transfer pending (R262) -/

@[simp] theorem transfer_pc (s : State) (g : Target) : (s.transfer g).pc = g.addr := by
  unfold State.transfer; split <;> rfl

theorem transfer_ipr0 (s : State) (g : Target) : (s.transfer g).ipr0 = g.page.getD s.ipr0 := by
  unfold State.transfer; split <;> simp [*]

theorem transfer_of_page (s : State) {g : Target} {page : Word} (h : g.page = some page) :
    (s.transfer g).ipr0 = page ∧ (s.transfer g).pageOpen = false := by
  unfold State.transfer
  rw [h]
  exact ⟨rfl, rfl⟩

theorem transfer_regs (s : State) (g : Target) : sameRegsBut [.ipr0] s (s.transfer g) := by
  intro r hr
  have hne : r ≠ .ipr0 := by simpa using hr
  unfold State.transfer
  split
  · cases r with
    | ipr0 => exact absurd rfl hne
    | _ => rfl
  · cases r <;> rfl

theorem retire_of_pending {s : State} {g : Target} (h : s.pending = some g) (e : Hist) (s' : State) :
    retire e s s' = (s'.record e s.prev1).transfer g := by
  rw [retire_eq_advance, h]
  rfl

/-- Settles O24: no interrupt is accepted with a transfer pending, and a running slot ends with the transfer. -/
theorem delayedTransferTakesPlace : Obligations.DelayedTransferTakesPlace := by
  intro s t g hr hh hg h
  have ends : ∀ (e : Hist) (s' : State), s'.pending = none → t = retire e s s' →
      t.pc = g.addr ∧ t.pending = none ∧ ∀ page, g.page = some page → t.ipr0 = page ∧ t.pageOpen = false := by
    rintro e s' hp rfl
    refine ⟨?_, (retire_pending e s s').trans hp, fun page hpage => ?_⟩
    · rw [retire_of_pending hg, transfer_pc]
    · rw [retire_of_pending hg]
      exact transfer_of_page _ hpage
  cases step_kind h with
  | reset hr' ht => exact absurd hr' hr
  | halted _ hh' ht => simp [hh] at hh'
  | interrupt vec _ _ hp ha ht =>
    obtain ⟨hnone, -⟩ := (acceptsIrq_iff s).mp ha
    simp [hg] at hnone
  | cancelled hs hc ha ht => exact ends _ s.begin rfl ht
  | executes s' hs hb hh' he hp ha ht => exact ends _ s' (hp.resolve_left (by simp [hg])) ht

theorem begin_regs (s : State) : sameRegsBut [] s s.begin := fun r _ => by cases r <;> rfl

/-- A cancelled slot is the end of a slot whose instruction did nothing (R276). -/
theorem step_of_cancelled {s : State} (hs : RunsSlot s) (hc : s.cancel = true)
    (ha : hazardAfter .nopTotal s s.begin = none) : step s = .next (retire (histOfNop s) s s.begin) := by
  rw [step_of_runsSlot hs, runSlot, if_pos hc, cancelledSlot, ha]

/-- Settles O27: of the end of a slot only the transfer and the history are left. -/
theorem cancelledInstructionHasNoEffect : Obligations.CancelledInstructionHasNoEffect := by
  intro s g hs hc hg ha
  refine ⟨_, step_of_cancelled hs hc ha, retire_cancel _ s s.begin, retire_pending _ s s.begin, ?_, fun r hr => ?_, ?_,
    retire_p _ s s.begin, retire_memory _ s s.begin, retire_halted _ s s.begin⟩
  · rw [retire_of_pending hg, transfer_pc]
  · rw [retire_of_pending hg, transfer_regs _ g r hr, record_regs _ _ _ r nofun, begin_regs s r nofun]
  · rw [retire_of_pending hg, transfer_ipr0]; rfl

/-! ### Nothing pending (R263, R264) -/

section Linear
variable {s s' : State} (hp : s.pending = none) (e : Hist)
include hp

/-- The loop goes round: LC counts down, and LS is next. -/
theorem retire_at_loopEnd (h : s'.fL = false ∧ s.pc = s'.le ∧ s.loopSkip ≠ 1 ∧ s'.lc ≠ 0#16) :
    retire e s s' = { s'.record e s.prev1 with lc := s'.lc - 1#16, pc := s'.ls } := by
  rw [retire_eq_advance, hp]
  rcases advance_cases none s.loopSkip s.pc (s'.record e s.prev1) with ⟨g, hg, -⟩ | ⟨-, -, -, -, -, ht⟩ | ⟨-, hn, -⟩
  · cases hg
  · exact ht
  · exact absurd h hn

theorem retire_linear (h : ¬(s'.fL = false ∧ s.pc = s'.le ∧ s.loopSkip ≠ 1 ∧ s'.lc ≠ 0#16)) :
    retire e s s' = { s'.record e s.prev1 with pc := s.pc + 1#16 } := by
  rw [retire_eq_advance, hp]
  rcases advance_cases none s.loopSkip s.pc (s'.record e s.prev1) with
    ⟨g, hg, -⟩ | ⟨-, hL, ha, hk, hlc, -⟩ | ⟨-, -, ht⟩
  · cases hg
  · exact absurd ⟨hL, ha, hk, hlc⟩ h
  · exact ht

end Linear

theorem withPc_regs (s : State) (a : Word) : sameRegsBut [] s { s with pc := a } := fun r _ => by cases r <;> rfl

theorem withLcPc_regs (s : State) (c a : Word) : sameRegsBut [.lc] s { s with lc := c, pc := a } := by
  intro r hr
  cases r with
  | lc => exact absurd List.mem_cons_self hr
  | _ => rfl

/-- A register counted down from something else than 0. -/
theorem toNat_sub_one {c : Word} (h : c ≠ 0#16) : (c - 1#16).toNat + 1 = c.toNat := by
  bv_omega

/-- The step of an executed instruction is the end of its slot. -/
theorem step_ends {s s' t : State} (hs : Executes s) (he : exec s.fetch s.begin = .next s') (h : step s = .next t) :
    t = retire (histOf s.fetch s s') s s' := by
  rw [step_of_executes hs] at h
  obtain ⟨-, -, u, hu, -, -, ht⟩ := runInstr_inv h
  obtain rfl : s' = u := by rw [he] at hu; injection hu
  exact ht

end Sys2Proof.Machine

namespace Sys2Proof

open Machine

/-- Settles O25: with nothing pending a slot ends in the loop test or at the following address. -/
theorem loopEndTest : Obligations.LoopEndTest := by
  intro s s' t hs hp he h
  obtain rfl := step_ends hs he h
  have hrec := record_regs s' (histOf s.fetch s s') s.prev1
  have linear : ¬(s'.fL = false ∧ s.pc = s'.le ∧ s.loopSkip ≠ 1 ∧ s'.lc ≠ 0#16) →
      (retire (histOf s.fetch s s') s s').pc.toNat = (s.pc.toNat + 1) % 65536 ∧
        sameRegsBut [] s' (retire (histOf s.fetch s s') s s') := by
    intro hn
    rw [retire_linear hp _ hn]
    exact ⟨BitVec.toNat_add s.pc 1#16, hrec.trans (withPc_regs _ _)⟩
  refine ⟨fun hk hL hle hlc => ?_, fun _ _ _ hlc => linear fun hn => ?_, fun hor => linear ?_, retire_p _ s s',
    retire_memory _ s s'⟩
  · rw [retire_at_loopEnd hp _ ⟨hL, hle, hk, hlc⟩]
    exact ⟨rfl, toNat_sub_one hlc, fun r hr => (withLcPc_regs _ _ _ r hr).trans (hrec r nofun)⟩
  · obtain ⟨-, -, -, hne⟩ := hn
    exact hne hlc
  · rintro ⟨hL, hle, hk, -⟩
    rcases hor with hskip | hL' | hne
    · exact hk hskip
    · rw [hL] at hL'; cases hL'
    · exact hne hle

end Sys2Proof

namespace Sys2Proof.Machine

/-! ## The halted core (R280, R312) -/

theorem step_of_halted {s : State} (hh : s.halted = true) (hr : s.resetIn ≠ some 0) :
    step s = .next (haltedCycle s) := by
  rw [step, cycle, if_neg hr, if_pos hh]

theorem haltedCycle_of_presented {s : State} (h : s.presented.isSome = true) : haltedCycle s =
    { s.tick with halted := false, haltSkid := 3, haltWake := true, irqIdle := false } := if_pos h

theorem haltedCycle_of_not_presented {s : State} (h : s.presented = none) : haltedCycle s = s.tick :=
  if_neg (by simp [h])

/-- A halted boundary passes, and may end HALT. -/
theorem haltedCycle_eq (s : State) : ∃ halted skid wake idle,
    haltedCycle s = { s.tick with halted := halted, haltSkid := skid, haltWake := wake, irqIdle := idle } := by
  unfold haltedCycle
  split <;> exact ⟨_, _, _, _, rfl⟩

theorem haltedCycle_regs (s : State) : sameRegsBut [] s (haltedCycle s) := by
  intro r _
  obtain ⟨_, _, _, _, ht⟩ := haltedCycle_eq s
  rw [ht]
  cases r <;> rfl

/-- The controller's requests stay what they are as they come nearer (R292). -/
theorem tick_vecs (s : State) : s.tick.irqInputs.map (·.vec) = s.irqInputs.map (·.vec) := by
  unfold State.tick
  cases s.irqInputs <;> rfl

/-- Settles O17. -/
theorem haltedCoreWaitsForARequest : Obligations.HaltedCoreWaitsForARequest := by
  intro s hh hr
  obtain ⟨halted, skid, wake, idle, ht⟩ := haltedCycle_eq s
  refine ⟨haltedCycle s, step_of_halted hh hr, haltedCycle_regs s, haltedCycle_p s, ?_, ?_, ?_, ?_, ?_, fun hp => ?_,
    fun hp => ?_⟩
  · rw [ht]; rfl
  · rw [ht]; exact ⟨rfl, rfl, rfl, rfl⟩
  · rw [ht]; rfl
  · rw [ht]; rfl
  · rw [ht]; exact tick_vecs s
  · rw [haltedCycle_of_not_presented hp]; exact ⟨hh, rfl, rfl, rfl⟩
  · rw [haltedCycle_of_presented hp]; exact ⟨rfl, rfl, rfl, rfl⟩

end Sys2Proof.Machine

/-! PROOF. The family 60_exceptions: where an interrupt is entered, what its entry changes, and that it waits for an open
boundary (section 3). -/

namespace Sys2Proof.Machine

/-! ## What the entry of an interrupt changes (R296) -/

/-- The entry touches MR0 as a write of L does. -/
theorem enterInterrupt_mr0 (s : State) (vec : BitVec 5) : (s.enterInterrupt vec).mr0 = (s.setL true).mr0 := rfl

theorem enterInterrupt_fL (s : State) (vec : BitVec 5) : (s.enterInterrupt vec).fL = true := s.setL_fL true

theorem enterInterrupt_mr0_bit (s : State) (vec : BitVec 5) {i : Nat} (hi : i ≠ 7) :
    (s.enterInterrupt vec).mr0.getLsbD i = s.mr0.getLsbD i := by
  rw [enterInterrupt_mr0, State.setL_bit, if_neg hi]

theorem enterInterrupt_regs (s : State) (vec : BitVec 5) :
    sameRegsBut [.lr1, .ipr1, .ipr0, .mr0] s (s.enterInterrupt vec) := by
  intro r hr
  cases r with
  | lr1 | ipr1 | ipr0 | mr0 => exact absurd (by decide) hr
  | _ => rfl

/-- The vectors stand at 0x20 to 0x3F (R292). -/
theorem vectorAddr_toNat (vec : BitVec 5) : (vectorAddr vec).toNat = 0x20 + vec.toNat := by
  rw [vectorAddr, BitVec.toNat_append, ← Nat.shiftLeft_add_eq_or_of_lt vec.isLt]
  rfl

theorem step_of_accepted {s : State} {vec : BitVec 5} (hr : s.resetIn ≠ some 0) (hh : s.halted = false)
    (hp : s.presented = some vec) (ha : s.acceptsIrq = true) : step s = .next (s.enterInterrupt vec) := by
  rw [step, cycle, if_neg hr, if_neg (by simp [hh]), hp]
  exact if_pos ha

/-- Settles O15: the boundary is open, and the entry is what the step does. -/
theorem interruptEntry : Obligations.InterruptEntry := by
  intro s vec hr hh hp hpend hcancel hskip hskid hdelay hend
  have ha : s.acceptsIrq = true := (acceptsIrq_iff s).mpr ⟨hpend, hcancel, hskip, hskid, hdelay, hend⟩
  exact ⟨s.enterInterrupt vec, step_of_accepted hr hh hp ha, rfl, rfl, rfl, enterInterrupt_fL s vec,
    vectorAddr_toNat vec, rfl, rfl, rfl, enterInterrupt_regs s vec, fun _ hi => enterInterrupt_mr0_bit s vec hi, rfl,
    ⟨rfl, rfl, rfl, rfl⟩, hpend, hcancel, hskip, hskid, rfl, rfl, rfl⟩

/-! ## A boundary that is not open (R295, R299) -/

/-- What keeps a boundary from being open: each condition of R295 and of log entry 29, negated. -/
theorem acceptsIrq_eq_false {s : State}
    (h : s.pending ≠ none ∨ s.cancel = true ∨ s.loopSkip ≠ 0 ∨ s.haltSkid ≠ 0 ∨
      (∃ e, s.prev1 = some e ∧ e.delayOwner = true) ∨
      (s.haltWake = false ∧ s.fL = false ∧ (s.pc = s.le ∨ s.pc = s.le - 1#16))) : s.acceptsIrq = false := by
  refine Bool.eq_false_iff.mpr fun ha => ?_
  obtain ⟨hpend, hcancel, hskip, hskid, hdelay, hend⟩ := (acceptsIrq_iff s).mp ha
  rcases h with h | h | h | h | ⟨e, he, howner⟩ | ⟨hwake, hL, hpc⟩
  · exact h hpend
  · simp [hcancel] at h
  · exact h hskip
  · exact h hskid
  · simp [hdelay e he] at howner
  · obtain ⟨hle, hle1⟩ := hend hwake hL
    exact hpc.elim hle hle1

/-- Requests come nearer, and none is taken or added (R292). -/
theorem tick_irqInputs_length (s : State) : s.tick.irqInputs.length = s.irqInputs.length := by
  unfold State.tick
  cases s.irqInputs <;> rfl

/-- The end of a slot leaves what no instruction touches as it was when the slot began, and has a history. -/
theorem retire_inputs (e : Hist) {s s' : State} (h : sameInputs s.begin s') :
    (retire e s s').prev1 = some e ∧ (retire e s s').irqInputs = s.tick.irqInputs ∧
      (retire e s s').irqIdle = (s.irqIdle && s.presented.isNone) ∧ (retire e s s').haltWake = s.haltWake ∧
      (retire e s s').haltSkid = s.haltSkid - 1 := by
  obtain ⟨-, hskid, -, -, hidle, hirqs, -, -, -, hwake⟩ := h
  obtain ⟨_, _, _, _, ht⟩ := retire_eq e s s'
  rw [ht]
  exact ⟨rfl, hirqs, hidle, hwake, hskid⟩

/-- A step of a running core that enters no interrupt is the end of an instruction slot. -/
theorem step_runsSlot {s t : State} (h : step s = .next t) (hr : s.resetIn ≠ some 0) (hh : s.halted = false)
    (ha : s.acceptsIrq = false) : RunsSlot s ∧ ∃ e s', sameInputs s.begin s' ∧ t = retire e s s' := by
  cases step_kind h with
  | reset hr' ht => exact absurd hr' hr
  | halted _ hh' ht => simp [hh] at hh'
  | interrupt vec _ _ hp ha' ht => simp [ha] at ha'
  | cancelled hs hc hz ht =>
    exact ⟨hs, histOfNop s, s.begin, ⟨rfl, rfl, rfl, rfl, rfl, rfl, rfl, rfl, rfl, rfl⟩, ht⟩
  | executes s' hs hb hh' he hp hz ht => exact ⟨hs.1, histOf s.fetch s s', s', exec_inputs he, ht⟩

/-- Settles O16: at a boundary that is not open the step is an instruction slot, and its end keeps the controller's
part. -/
theorem interruptWaitsForAnOpenBoundary : Obligations.InterruptWaitsForAnOpenBoundary := by
  intro s t hr hh hclosed h
  obtain ⟨hs, e, s', hin, rfl⟩ := step_runsSlot h hr hh (acceptsIrq_eq_false hclosed)
  obtain ⟨hprev, hirqs, hidle, hwake, hskid⟩ := retire_inputs e hin
  refine ⟨hs, ?_, ?_, hidle, hwake, hskid⟩
  · rw [hprev]; exact Option.some_ne_none e
  · rw [hirqs]; exact tick_irqInputs_length s

end Sys2Proof.Machine

/-! PROOF. The family 70_reset_and_hazards: the reset input (section 1). -/

namespace Sys2Proof.Machine

/-- A reset that is due comes before everything else a step can do (R330). -/
theorem step_of_resetDue {s : State} (hr : s.resetIn = some 0) : step s = .next s.systemReset := by
  rw [step, cycle, if_pos hr]

theorem systemReset_peek (s : State) (r : MoveReg) : s.systemReset.peek r = State.reset.peek r := by
  cases r with
  | r16 r => cases r <;> rfl
  | idx n => cases n <;> rfl
  | guard q => cases q <;> rfl
  | _ => rfl

/-- Settles O7: the step is the system reset, which takes only memory, the maps and the inputs from before. -/
theorem resetInputOverridesEverything : Obligations.ResetInputOverridesEverything := fun s hr =>
  ⟨s.systemReset, step_of_resetDue hr, systemReset_peek s, rfl, rfl, rfl, rfl, rfl, ⟨rfl, rfl, rfl, rfl⟩, rfl⟩

end Sys2Proof.Machine

/-! PROOF. The family 70_reset_and_hazards: the suppressed loop end comparison (section 2, R341). -/

namespace Sys2Proof.Machine

/-! ## Which moves set the countdown -/

theorem loopWrittenBy_append (a b : List (WriteKind × MoveReg)) (k : WriteKind) :
    loopWrittenBy (a ++ b) k = (loopWrittenBy a k || loopWrittenBy b k) := List.any_append

theorem loopWrittenBy_memory_iff (ws : List (WriteKind × MoveReg)) :
    loopWrittenBy ws .memory = true ↔ ∃ r, (.memory, r) ∈ ws ∧ isLoopReg r = true := by
  simp [loopWrittenBy]

/-- The countdown after moves that write the registers `ws` explicitly: 2 where one of them is a loop register loaded
from memory, else what it was. -/
def skipAfterWrites (ws : List (WriteKind × MoveReg)) (s : State) : Nat :=
  if loopWrittenBy ws .memory then 2 else s.loopSkip

/-- Two moves after one another set the countdown as the list of their writes says. -/
theorem skipAfterWrites_append {ws ws' : List (WriteKind × MoveReg)} {s t : State}
    (h : t.loopSkip = skipAfterWrites ws s) : skipAfterWrites ws' t = skipAfterWrites (ws ++ ws') s := by
  unfold skipAfterWrites at h ⊢
  rw [loopWrittenBy_append, h]
  cases loopWrittenBy ws .memory <;> cases loopWrittenBy ws' .memory <;> rfl

theorem busWrite_loopSkip (s : State) (b : Bus) (a v : Word) : (s.busWrite b a v).loopSkip = s.loopSkip := by
  cases b <;> rfl

theorem postMod_loopSkip (u : Config.FreeUse) (n : IReg) (p : BitVec 4) (old s : State) :
    (postMod u n p old s).loopSkip = s.loopSkip := (postMod_keeps u n p old s).skip (hasLoopReg_writesOfPost n p)

theorem applyFull_loopSkip (m : FullMove) (b : Bus) (old s : State) :
    (applyFull m b old s).loopSkip = skipAfterWrites (loadsOfFull m) s := by
  by_cases hr : m.reg = .nop
  · simp [applyFull, loadsOfFull, skipAfterWrites, loopWrittenBy, hr]
  · cases hs : m.store with
    | false =>
      rw [applyFull_skipAfterLoad hr hs]
      simp [loadsOfFull, skipAfterWrites, loopWrittenBy, hr, hs]
    | true =>
      rw [applyFull_of_store hr hs, postMod_loopSkip, busWrite_loopSkip]
      simp [loadsOfFull, skipAfterWrites, loopWrittenBy, hs]

theorem applyHalf_loopSkip (h : Option FullMove) (b : Bus) (old s : State) :
    (applyHalf h b old s).loopSkip = skipAfterWrites (movesOfHalf h) s := by
  cases h with
  | none => rfl
  | some m => exact applyFull_loopSkip m b old s

theorem moveReg_loopSkip (u : Config.FreeUse) (src dst : MoveReg) (old s : State) :
    (moveReg u src dst old s).loopSkip = skipAfterWrites (movesOfPar (.reg src dst)) s := by
  by_cases hnop : (src = .nop || dst = .nop) = true
  · rw [moveReg, if_pos hnop, movesOfPar, if_pos hnop]; rfl
  · rw [moveReg, if_neg hnop, movesOfPar, if_neg hnop]; exact s.writeReg_loopSkip false dst _

theorem moveLong_loopSkip (store : Bool) (n : IReg) (r : MoveReg) (old s : State) :
    (moveLong store n r old s).loopSkip = skipAfterWrites (movesOfPar (.longX store n r)) s := by
  by_cases hr : r = .nop
  · simp [moveLong, movesOfPar, skipAfterWrites, loopWrittenBy, hr]
  · cases store with
    | false => simp [moveLong, movesOfPar, skipAfterWrites, loopWrittenBy, hr]
    | true => simp [moveLong, movesOfPar, skipAfterWrites, loopWrittenBy, hr, State.xWriteL]

theorem moveIbus_loopSkip (store : Bool) (n : IReg) (p : BitVec 4) (q : AccName) (old s : State) :
    (moveIbus store n p q old s).loopSkip = s.loopSkip := by
  unfold moveIbus
  rw [postMod_loopSkip]
  cases store with
  | false => exact s.setAcc_loopSkip q _
  | true => rfl

/-- A parallel move sets the countdown by its loads, the long-address form's too (R341, log entry 46). -/
theorem applyPar_loopSkip (pm : ParMove) (old s : State) :
    (applyPar pm old s).loopSkip = skipAfterWrites (movesOfPar pm) s := by
  cases pm with
  | none => rfl
  | full b m => exact applyFull_loopSkip m b old s
  | short x y =>
    exact (applyFull_loopSkip y.toFull .y old _).trans (skipAfterWrites_append (applyFull_loopSkip x.toFull .x old s))
  | reg src dst => exact moveReg_loopSkip .busX src dst old s
  | longX store n r => exact moveLong_loopSkip store n r old s
  | ibus store n p q => exact moveIbus_loopSkip store n p q old s

/-! ## The countdown after an instruction -/

theorem jumpIf_loopSkip (s : State) (cond : Cond) (g : Target) : (jumpIf s cond g).loopSkip = s.loopSkip := by
  rw [jumpIf_eq]; rfl

theorem callIf_loopSkip (s : State) (cond : Cond) (a : Word) : (callIf s cond a).loopSkip = s.loopSkip := by
  rw [callIf_eq]; rfl

/-- An instruction sets the countdown to 2 where it loads a loop register from memory, and leaves it otherwise. -/
theorem exec_loopSkip {i : Instr} {s t : State} (h : exec i s = .next t) :
    t.loopSkip = skipAfterWrites (explicitWrites i) s := by
  cases hp : hasParField i with
  | true =>
    obtain ⟨s', harith, -, rfl, -, -⟩ := exec_par_inv hp h
    obtain ⟨hskip, -, -, -⟩ := harith.moves
    rw [applyPar_loopSkip, explicitWrites_of_hasParField hp, skipAfterWrites, hskip]
    rfl
  | false =>
    cases exec_other_inv hp h with
    | ldc c r => exact s.writeReg_loopSkip false r c
    | nopTotal | resp | reti | retiIn | loop => rfl
    | halt => split <;> rfl
    | jcc | j | jrcc | jr | jrccIn => exact jumpIf_loopSkip ..
    | callcc | call => exact callIf_loopSkip ..
    | jmpi addr mm n => exact (jmpiIndex_keeps mm n s).skip rfl
    | doubleFull x y hc ha =>
      exact (applyHalf_loopSkip y .y s _).trans (skipAfterWrites_append (applyHalf_loopSkip x .x s s))
    | mvxMvyDouble xs xd ys yd hx hy hc =>
      exact (moveReg_loopSkip .busY ys yd s _).trans (skipAfterWrites_append (moveReg_loopSkip .busX xs xd s s))

/-- Settles O26: `exec_loopSkip` says what sets the countdown, and a slot that finds it at 1 ends at the next address. -/
theorem loopEndComparisonSuppressedOnce : Obligations.LoopEndComparisonSuppressedOnce := by
  refine ⟨fun i s t r hr hload _ h => ?_, fun i s t hnone h => ?_, fun _ => rfl, fun s s' t hs hp hskip he h => ?_⟩
  · rw [exec_loopSkip h, skipAfterWrites, if_pos ((loopWrittenBy_memory_iff _).mpr ⟨r, hload, hr⟩)]
  · rw [exec_loopSkip h, skipAfterWrites, if_neg]
    intro hloop
    obtain ⟨r, hload, hr⟩ := (loopWrittenBy_memory_iff _).mp hloop
    simp [hnone r hload] at hr
  · obtain rfl := step_ends hs he h
    rw [retire_linear hp _ (fun ⟨_, _, hk, _⟩ => hk hskip)]
    exact ⟨BitVec.toNat_add s.pc 1#16, rfl⟩

end Sys2Proof.Machine

/-! PROOF. The family 70_reset_and_hazards: the restricted sequences (section 2, R333 to R348). -/

namespace Sys2Proof.Machine

/-! ## The fetch (R346, U22) -/

theorem step_of_recentSti {s : State} (hs : RunsSlot s) (hc : s.cancel = false) (h : s.fetchesRecentSti = true) :
    step s = .fault .fetchAfterSti := by
  rw [step_of_runsSlot hs, runSlot, if_neg (by simp [hc]), if_pos h]

theorem step_of_fetchFault {s : State} {f : Fault} (hs : RunsSlot s) (hc : s.cancel = false)
    (hf : s.fetchesRecentSti = false) (h : s.fetchFault = some f) : step s = .fault f := by
  rw [step_of_runsSlot hs, runSlot, if_neg (by simp [hc]), if_neg (by simp [hf]), h]

theorem fetchFault_of_unmapped {s : State}
    (h : kindAt s.map.i s.fetchAddr.toNat = none ∨ kindAt s.map.i s.fetchAddr.toNat = some .device) :
    s.fetchFault = some .unmappedAccess := by
  unfold State.fetchFault fetchFaultAt
  rcases h with h | h <;> rw [h]

/-! ## What a check answers -/

theorem ite_some_eq_none {c : Prop} [Decidable c] {f : Fault} {o : Option Fault}
    (h : (if c then some f else o) = none) : ¬c ∧ o = none := by
  by_cases hc : c
  · rw [if_pos hc] at h; cases h
  · exact ⟨hc, by rwa [if_neg hc] at h⟩

theorem histHas_of {p : Option Hist} {e : Hist} {f : Hist → Bool} (h : p = some e) (hf : f e = true) :
    histHas p f = true := by
  subst h; exact hf

theorem movedInto_iff (e : Hist) (r : MoveReg) :
    movedInto e r = true ↔ (.memory, r) ∈ e.writes ∨ (.regMove, r) ∈ e.writes := by
  simp only [movedInto, List.any_eq_true, Bool.and_eq_true, Bool.or_eq_true, decide_eq_true_eq]
  constructor
  · rintro ⟨⟨k, r'⟩, hw, rfl | rfl, rfl⟩
    · exact .inl hw
    · exact .inr hw
  · rintro (h | h)
    · exact ⟨_, h, .inl rfl, rfl⟩
    · exact ⟨_, h, .inr rfl, rfl⟩

theorem atLoopEnd_iff (s : State) : atLoopEnd s = true ↔ s.fL = false ∧ (s.pc = s.le ∨ s.pc = s.le - 1#16) := by
  simp [atLoopEnd]

/-! ## The restrictions before an instruction (R334 to R338, R342, R343, R280) -/

/-- What holds of an instruction that no restriction stops before it executes. -/
structure PassesBefore (i : Instr) (s : State) : Prop where
  delaySlot : ¬(changesFlow i && histHas s.prev1 (·.delayOwner)) = true
  haltSkid : ¬(changesFlow i && decide (0 < s.haltSkid)) = true
  flags : ¬histHas s.prev1 (fun h => (condUses (condOf i)).any h.flags.contains) = true
  loopEnd : ¬(changesFlow i && atLoopEnd s) = true
  jmpi : ¬(isJmpi i && s.irqEnabled) = true
  reti : ¬(isReti i && s.irqEnabled) = true
  ldiSti : ¬(changesFlow i && histHas s.prev1 (·.ldiSti)) = true
  target : ¬histHas s.prev1 (fun h => (targetRegs i).any (movedInto h)) = true

theorem hazardBefore_none_inv {i : Instr} {s : State} (h : hazardBefore i s = none) : PassesBefore i s := by
  unfold hazardBefore at h
  obtain ⟨hslot, h⟩ := ite_some_eq_none h
  obtain ⟨hskid, h⟩ := ite_some_eq_none h
  obtain ⟨hflags, h⟩ := ite_some_eq_none h
  obtain ⟨hend, h⟩ := ite_some_eq_none h
  obtain ⟨hjmpi, h⟩ := ite_some_eq_none h
  obtain ⟨hreti, h⟩ := ite_some_eq_none h
  obtain ⟨hldi, h⟩ := ite_some_eq_none h
  obtain ⟨htarget, -⟩ := ite_some_eq_none h
  exact ⟨hslot, hskid, hflags, hend, hjmpi, hreti, hldi, htarget⟩

theorem step_of_hazardBefore {s : State} {f : Fault} (hs : Executes s) (h : hazardBefore s.fetch s = some f) :
    step s = .fault f := by
  rw [step_of_executes hs, runInstr, h]

theorem step_fault_of_not_passesBefore {s : State} (hs : Executes s) (h : ¬PassesBefore s.fetch s) :
    ∃ f, step s = .fault f := by
  cases hb : hazardBefore s.fetch s with
  | none => exact absurd (hazardBefore_none_inv hb) h
  | some f => exact ⟨f, step_of_hazardBefore hs hb⟩

/-- A change of flow in a delay slot is the restriction that is checked first (R334). -/
theorem hazardBefore_delaySlot {i : Instr} {s : State} {e : Hist} (hp : s.prev1 = some e) (hi : changesFlow i = true)
    (ho : e.delayOwner = true) : hazardBefore i s = some .changeOfFlowInDelaySlot := by
  rw [hazardBefore, if_pos (by rw [hi, histHas_of hp ho]; rfl)]

/-- Settles O28: each sequence negates a clause of `PassesBefore`, or stops the fetch. -/
theorem restrictedSequencesFault : Obligations.RestrictedSequencesFault := by
  intro s hs hc
  refine ⟨step_of_recentSti hs hc, fun hf hk => step_of_fetchFault hs hc hf (fetchFault_of_unmapped hk), fun hx =>
    ⟨fun h => step_fault_of_not_passesBefore hx fun hpass => ?_, fun e he =>
      ⟨fun hi ho => step_of_hazardBefore hx (hazardBefore_delaySlot he hi ho), fun h =>
        step_fault_of_not_passesBefore hx fun hpass => ?_⟩⟩⟩
  · rcases h with ⟨hi, hskid⟩ | ⟨hi, hend⟩ | ⟨hi, hen⟩ | ⟨hi, hen⟩
    · exact hpass.haltSkid (by simp [hi, Nat.pos_of_ne_zero hskid])
    · exact hpass.loopEnd (by rw [hi, (atLoopEnd_iff s).mpr hend]; rfl)
    · exact hpass.jmpi (by rw [hi, hen]; rfl)
    · exact hpass.reti (by rw [hi, hen]; rfl)
  · rcases h with ⟨f, huse, hf⟩ | ⟨hi, hldi⟩ | ⟨r, hr, hw⟩
    · exact hpass.flags (histHas_of he (List.any_eq_true.mpr ⟨f, huse, List.contains_iff_mem.mpr hf⟩))
    · exact hpass.ldiSti (by rw [hi, histHas_of he hldi]; rfl)
    · exact hpass.target (histHas_of he (List.any_eq_true.mpr ⟨r, hr, (movedInto_iff e r).mpr hw⟩))

/-! ## The restrictions near a loop end (R339, R340) -/

/-- The loop registers an instruction wrote explicitly, in whatever way. -/
def writesLoopReg (ws : List (WriteKind × MoveReg)) : Bool := ws.any fun w => isLoopReg w.2

/-- One of the two instructions before changed L (R340). -/
def ChangedLBefore (s : State) : Prop :=
  (∃ h, s.prev1 = some h ∧ h.changedL = true) ∨ (∃ h, s.prev2 = some h ∧ h.changedL = true)

/-- What the two instructions before may not have done with the loop registers (R339, R340). -/
def RestrictedBefore (s : State) : Prop :=
  (∃ h, s.prev1 = some h ∧ writesLoopReg h.writes = true) ∨
    (∃ h, s.prev2 = some h ∧ loopWrittenBy h.writes .regMove = true) ∨ (∃ h, s.prev1 = some h ∧ h.readsLc = true)

/-- What holds, near a loop end with L = 0, of an instruction that no restriction on the loop registers stops (R339). -/
structure LeavesLoopAlone (i : Instr) (s : State) : Prop where
  writes : ¬writesLoopReg (explicitWrites i) = true
  written1 : ¬histHas s.prev1 (fun h => writesLoopReg h.writes) = true
  moved2 : ¬histHas s.prev2 (fun h => loopWrittenBy h.writes .regMove) = true
  reads : ¬readsLc i = true
  read1 : ¬histHas s.prev1 (·.readsLc) = true

/-- What holds of an instruction near a loop end that no restriction stops after it has executed. -/
structure PassesAfter (i : Instr) (s s' : State) : Prop where
  changesL : ¬(writesRegister (explicitWrites i) .mr0 = true ∧ s'.fL ≠ s.fL)
  changedL1 : ¬histHas s.prev1 (·.changedL) = true
  changedL2 : ¬histHas s.prev2 (·.changedL) = true
  loop : s'.fL = false → LeavesLoopAlone i s

theorem hazardAfter_none_inv {i : Instr} {s s' : State} (hle : s.pc ∈ leValues s s') (h : hazardAfter i s s' = none) :
    PassesAfter i s s' := by
  rw [hazardAfter, if_pos (List.contains_iff_mem.mpr hle)] at h
  obtain ⟨hchange, h⟩ := ite_some_eq_none h
  simp only [Bool.or_eq_true, Bool.and_eq_true, bne_iff_ne, not_or] at hchange
  obtain ⟨⟨hc, hc1⟩, hc2⟩ := hchange
  refine ⟨hc, hc1, hc2, fun hL => ?_⟩
  rw [hL, if_neg Bool.false_ne_true] at h
  obtain ⟨-, h⟩ := ite_some_eq_none h
  obtain ⟨hwritten, h⟩ := ite_some_eq_none h
  obtain ⟨hread, -⟩ := ite_some_eq_none h
  simp only [Bool.or_eq_true, not_or] at hwritten hread
  obtain ⟨⟨hw, hw1⟩, hm2⟩ := hwritten
  obtain ⟨hr, hr1⟩ := hread
  exact ⟨hw, hw1, hm2, hr, hr1⟩

theorem mem_leValues {s s' : State} {a : Word}
    (h : a = s.le ∨ (∃ e, (s.prev1 = some e ∨ s.prev2 = some e) ∧ a = e.leBefore) ∨ a = s'.le) : a ∈ leValues s s' := by
  rcases h with rfl | ⟨e, he | he, rfl⟩ | rfl <;> simp [leValues, *]

/-- Near a loop end a change of L, and with L = 0 a loop register written or LC read, is a restriction. -/
theorem hazardAfter_stops {i : Instr} {s s' : State} (hle : s.pc ∈ leValues s s')
    (h : ChangedLBefore s ∨ (writesRegister (explicitWrites i) .mr0 = true ∧ s'.fL ≠ s.fL) ∨
      (s'.fL = false ∧ (RestrictedBefore s ∨ writesLoopReg (explicitWrites i) = true ∨ readsLc i = true))) :
    ∃ f, hazardAfter i s s' = some f := by
  cases ha : hazardAfter i s s' with
  | some f => exact ⟨f, rfl⟩
  | none =>
    exfalso
    have hpass := hazardAfter_none_inv hle ha
    rcases h with (⟨e, he, hc⟩ | ⟨e, he, hc⟩) | hc | ⟨hL, (⟨e, he, hw⟩ | ⟨e, he, hm⟩ | ⟨e, he, hr⟩) | hw | hr⟩
    · exact hpass.changedL1 (histHas_of he hc)
    · exact hpass.changedL2 (histHas_of he hc)
    · exact hpass.changesL hc
    · exact (hpass.loop hL).written1 (histHas_of he hw)
    · exact (hpass.loop hL).moved2 (histHas_of he hm)
    · exact (hpass.loop hL).read1 (histHas_of he hr)
    · exact (hpass.loop hL).writes hw
    · exact (hpass.loop hL).reads hr

theorem step_fault_of_hazardAfter {s s' : State} (hs : Executes s) (hh : haltRefused s.fetch s = none)
    (he : exec s.fetch s.begin = .next s') (h : ∃ f, hazardAfter s.fetch s s' = some f) : ∃ f, step s = .fault f := by
  obtain ⟨f, hf⟩ := h
  cases hb : hazardBefore s.fetch s with
  | some f => exact ⟨f, step_of_hazardBefore hs hb⟩
  | none =>
    rw [step_of_executes hs, runInstr_of_unrestricted hb hh, he, completeInstr, hf]
    split
    · exact ⟨_, rfl⟩
    · exact ⟨f, rfl⟩

theorem step_fault_of_cancelled {s : State} (hs : RunsSlot s) (hc : s.cancel = true)
    (h : ∃ f, hazardAfter .nopTotal s s.begin = some f) : ∃ f, step s = .fault f := by
  obtain ⟨f, hf⟩ := h
  exact ⟨f, by rw [step_of_runsSlot hs, runSlot, if_pos hc, cancelledSlot, hf]⟩

/-- Settles O29: the check is the same for an executed instruction and for a cancelled one, which counts as a NOP. -/
theorem loopEndRestrictionsFault : Obligations.LoopEndRestrictionsFault := by
  intro s held changedL restricted
  refine ⟨fun s' hs hh he hle h => ?_, fun hs hc hle h => ?_⟩
  · exact step_fault_of_hazardAfter hs hh he (hazardAfter_stops (mem_leValues (or_assoc.mp hle)) h)
  · refine step_fault_of_cancelled hs hc (hazardAfter_stops (mem_leValues (or_assoc.mp (.inl hle))) ?_)
    exact h.imp_right fun ⟨hL, hr⟩ => .inr ⟨hL, .inl hr⟩

end Sys2Proof.Machine
